-- ==== Sys2Proof/Word.lean ====
section
/-!
DEFINITION. Words, bit fields of plain numbers, and sparse maps with a default value.
A map lists its keys in rising order and lists no key at the default value, so that equal
maps are equal lists.
-/

namespace Sys2Proof

/-- A byte (R1). -/
abbrev Byte := BitVec 8

/-- A 64-bit register value. -/
abbrev Word := BitVec 64

/-- A sparse map from numbers, in canonical form with respect to a default value. -/
abbrev SMap (α : Type) := List (Nat × α)

/-- Bits `hi` down to `lo` of a number (R2). -/
def bits (w hi lo : Nat) : Nat := (w / 2 ^ lo) % 2 ^ (hi + 1 - lo)

/-- Bit `n` of a number, as a truth value. -/
def bit (w n : Nat) : Bool := (w / 2 ^ n) % 2 == 1

/-- The number 1 for true and 0 for false. -/
def b2n (b : Bool) : Nat := if b then 1 else 0

namespace SMap

/-- The value at key `k`: the first listed entry, or the default. -/
def get {α : Type} (d : α) : SMap α → Nat → α
  | [], _ => d
  | (j, v) :: m, k => if j = k then v else get d m k

/-- The map without key `k`. -/
def erase {α : Type} (m : SMap α) (k : Nat) : SMap α := m.filter fun e => e.1 != k

/-- The map with a new entry at `k`, placed before the first greater key. -/
def ins {α : Type} (k : Nat) (v : α) : SMap α → SMap α
  | [] => [(k, v)]
  | (j, w) :: m => if k < j then (k, v) :: (j, w) :: m else (j, w) :: ins k v m

/-- The map with key `k` at `v`, in canonical form where `m` is: the default is not listed. -/
def set {α : Type} [DecidableEq α] (d : α) (m : SMap α) (k : Nat) (v : α) : SMap α :=
  if v = d then m.erase k else (m.erase k).ins k v

/-- Every key of `m` exceeds `b` and the keys rise, and no entry holds the default. -/
def wfFrom {α : Type} [DecidableEq α] (d : α) : Option Nat → SMap α → Bool
  | _, [] => true
  | b, (j, v) :: m =>
    (match b with | none => true | some b => decide (b < j)) && decide (v ≠ d)
      && wfFrom d (some j) m

/-- The canonical form of a map with default `d`. -/
def wf {α : Type} [DecidableEq α] (d : α) (m : SMap α) : Bool := wfFrom d none m

/-- The map without the keys from `lo` up to, not including, `hi`. -/
def clear {α : Type} (m : SMap α) (lo hi : Nat) : SMap α :=
  m.filter fun e => !(decide (lo ≤ e.1) && decide (e.1 < hi))

end SMap

end Sys2Proof
end

