-- ==== Sys2Proof/Machine/Numeric.lean ====
section
/-!
DEFINITION. Element formats, exact values, rounding, conversion and the fixed reduction tree
(03, R39 to R57; 12, R325 to R331). A finite value is an exact dyadic number, so that every
rounding happens in one named place.
-/

namespace Sys2Proof.Machine

/-! ## Integers of a width -/

/-- The two's complement reading of the low `w` bits (R8). -/
def sext (w n : Nat) : Int :=
  if n % 2 ^ w < 2 ^ (w - 1) then ((n % 2 ^ w : Nat) : Int) else ((n % 2 ^ w : Nat) : Int) - 2 ^ w

/-- The low `w` bits of an integer's two's complement form. -/
def trunc (w : Nat) (x : Int) : Nat := (x % 2 ^ w).toNat

/-- sat of Table 0.4. -/
def sat (x lo hi : Int) : Int := if x < lo then lo else if hi < x then hi else x

/-- wrap24 of R105. -/
def wrap24 (x : Int) : Int := sext 24 (trunc 24 x)

/-- The rounding modes (R46). -/
inductive Rm where
  | rne | rz | ru | rd
deriving DecidableEq, Repr

/-- The mode a 2-bit field names (Tables 9.3, 11.3, 12.4). -/
def Rm.of (n : Nat) : Rm :=
  match n % 4 with
  | 0 => .rne
  | 1 => .rz
  | 2 => .ru
  | _ => .rd

/-- Whether a magnitude with quotient `q` and remainder `r` of `d` rounds up (R46). -/
def roundsUp (rm : Rm) (neg : Bool) (q r d : Nat) : Bool :=
  match rm with
  | .rne => decide (d < 2 * r) || (decide (2 * r = d) && decide (q % 2 = 1))
  | .rz => false
  | .ru => !neg && decide (r ≠ 0)
  | .rd => neg && decide (r ≠ 0)

/-- The magnitude `n / d` rounded to an integer. -/
def roundQuot (rm : Rm) (neg : Bool) (n d : Nat) : Nat :=
  n / d + b2n (roundsUp rm neg (n / d) (n % d) d)

/-! ## Values -/

/-- A value of some format: a NaN (signalling or not, R47), an infinity, or the exact number
(-1)^neg · m · 2^e. -/
inductive Val where
  | nan (sig : Bool)
  | inf (neg : Bool)
  | fin (neg : Bool) (m : Nat) (e : Int)
deriving DecidableEq, Repr

/-- The value of an integer. -/
def Val.ofInt (x : Int) : Val := .fin (decide (x < 0)) x.natAbs 0

/-- Scaling by a power of two. -/
def Val.scale (k : Int) : Val → Val
  | .fin s m e => .fin s m (e + k)
  | v => v

/-- A magnitude `m · 2^e` as a count of `2^q`, with the denominator that remains. -/
def gridNum (m : Nat) (e q : Int) : Nat × Nat :=
  if q ≤ e then (m * 2 ^ (e - q).toNat, 1) else (m, 2 ^ (q - e).toNat)

/-- `m · 2^e` rounded to a count of `2^q` (rne of R50 with q = E; rnd of R46). -/
def roundGrid (rm : Rm) (neg : Bool) (m : Nat) (e q : Int) : Nat :=
  roundQuot rm neg (gridNum m e q).1 (gridNum m e q).2

/-- Whether that rounding is exact. -/
def gridExact (m : Nat) (e q : Int) : Bool :=
  decide ((gridNum m e q).1 % (gridNum m e q).2 = 0)

/-- A signed count. -/
def signed (neg : Bool) (n : Nat) : Int := if neg then -(n : Int) else n

/-- The exponent of the leading bit of a nonzero magnitude. -/
def leadExp (m : Nat) (e : Int) : Int := (m.log2 : Int) + e

/-! ## Formats (Tables 3.1 to 3.4) -/

/-- Format codes. -/
def fmtInt4 : Nat := 0x00
def fmtInt8 : Nat := 0x01
def fmtUint8 : Nat := 0x02
def fmtInt16 : Nat := 0x03
def fmtInt32 : Nat := 0x04
def fmtInt64 : Nat := 0x05
def fmtE4M3 : Nat := 0x10
def fmtE5M2 : Nat := 0x11
def fmtBF16 : Nat := 0x12
def fmtFP32 : Nat := 0x13
def fmtE8M0 : Nat := 0x14
def fmtQX4 : Nat := 0x20
def fmtACC : Nat := 0x30

/-- Element size in bits; 0 for a reserved code (Table 3.1). -/
def esize (f : Nat) : Nat :=
  match f with
  | 0x00 => 4 | 0x01 => 8 | 0x02 => 8 | 0x03 => 16 | 0x04 => 32 | 0x05 => 64
  | 0x10 => 8 | 0x11 => 8 | 0x12 => 16 | 0x13 => 32 | 0x14 => 8 | 0x20 => 4 | 0x30 => 64
  | _ => 0

/-- The code is not reserved (R39). -/
def fmtOk (f : Nat) : Bool := decide (esize f ≠ 0)

/-- An integer format (R40). -/
def fmtIsInt (f : Nat) : Bool := decide (f ≤ 5)

/-- A floating-point format with sign, exponent and fraction (Table 3.3). -/
def fmtIsFp (f : Nat) : Bool := decide (0x10 ≤ f) && decide (f ≤ 0x13)

/-- The lowest integer of a format (Table 3.2). -/
def fmtLo (f : Nat) : Int := if f = 0x02 then 0 else -(2 ^ (esize f - 1))

/-- The highest integer of a format. -/
def fmtHi (f : Nat) : Int := if f = 0x02 then 255 else 2 ^ (esize f - 1) - 1

/-- Fraction bits of a floating-point format. -/
def fracBits (f : Nat) : Nat :=
  match f with | 0x10 => 3 | 0x11 => 2 | 0x12 => 7 | _ => 23

/-- Exponent bias. -/
def fpBias (f : Nat) : Int :=
  match f with | 0x10 => 7 | 0x11 => 15 | _ => 127

/-- emax of Table 3.4. -/
def fpEmax (f : Nat) : Nat :=
  match f with | 0x10 => 15 | 0x11 => 31 | _ => 255

/-- The pattern of max(f) without its sign. -/
def fpMaxCode (f : Nat) : Nat := if f = 0x10 then 0x7E else fpEmax f * 2 ^ fracBits f - 1

/-- The pattern of +∞ (formats that have one). -/
def fpInfCode (f : Nat) : Nat := fpEmax f * 2 ^ fracBits f

/-- canon(f) (Table 3.5). -/
def fpCanon (f : Nat) : Nat :=
  match f with | 0x10 => 0x7F | 0x11 => 0x7E | 0x12 => 0x7FC0 | _ => 0x7FC00000

/-- The sign bit of a pattern. -/
def fpSign (f c : Nat) : Bool := bit c (esize f - 1)

/-- The value of a floating-point pattern (Table 3.4, R47). -/
def fpDecode (f c : Nat) : Val :=
  let F := fracBits f
  let s := fpSign f c
  let e := c / 2 ^ F % (fpEmax f + 1)
  let m := c % 2 ^ F
  if e = fpEmax f ∧ f ≠ 0x10 then
    if m = 0 then .inf s else .nan (decide (0x12 ≤ f) && decide (m < 2 ^ (F - 1)))
  else if f = 0x10 ∧ e = 15 ∧ m = 7 then .nan false
  else if e = 0 then .fin s m (1 - fpBias f - F)
  else .fin s (2 ^ F + m) ((e : Int) - fpBias f - F)

/-- The value of an element of an integer or floating-point format; E8M0 as its scale (R42). -/
def elemVal (f c : Nat) : Val :=
  if f = 0x02 then .fin false (c % 256) 0
  else if fmtIsInt f then .ofInt (sext (esize f) c)
  else if f = 0x14 then (if c % 256 = 0xFF then .nan false else .fin false 1 ((c % 256 : Nat) - 127))
  else fpDecode f c

/-- A value under the E8M0 scale `sc` of its block (R42, R120). -/
def Val.under (sc : Nat) (v : Val) : Val := if sc = 0xFF then .nan false else v.scale ((sc : Int) - 127)

/-- Put a sign on a pattern of format `f`. -/
def withSign (f : Nat) (neg : Bool) (c : Nat) : Nat := b2n neg * 2 ^ (esize f - 1) + c

/-! ## Conversion (R46) -/

/-- The flags a conversion or an arithmetic result raises (Table 12.2), and the clamp that sets
a sticky saturation flag (R53, R54, R225). -/
structure Flags where
  nv   : Bool
  dz   : Bool
  of   : Bool
  uf   : Bool
  nx   : Bool
  is   : Bool
  clamp : Bool
deriving DecidableEq, Repr

/-- No flag. -/
def Flags.zero : Flags :=
  { nv := false, dz := false, of := false, uf := false, nx := false, is := false, clamp := false }

/-- The union of two sets of flags. -/
def Flags.or (a b : Flags) : Flags :=
  { nv := a.nv || b.nv, dz := a.dz || b.dz, of := a.of || b.of, uf := a.uf || b.uf
    nx := a.nx || b.nx, is := a.is || b.is, clamp := a.clamp || b.clamp }

/-- The flags as bits [5:0] of VXST: NV, DZ, OF, UF, NX, IS (Table 12.2). -/
def Flags.vxst (f : Flags) : Nat :=
  b2n f.nv + 2 * b2n f.dz + 4 * b2n f.of + 8 * b2n f.uf + 16 * b2n f.nx + 32 * b2n f.is

/-- The pattern of a finite magnitude rounded onto `f` with an unbounded exponent: the count
and the grid exponent combine into exponent and fraction fields. -/
def fpRoundCode (f : Nat) (rm : Rm) (neg : Bool) (m : Nat) (e : Int) : Nat :=
  let qmin : Int := 1 - fpBias f - fracBits f
  let q : Int := max qmin (leadExp m e - fracBits f)
  (q - qmin).toNat * 2 ^ fracBits f + roundGrid rm neg m e q

/-- The rounding onto `f` is exact. -/
def fpRoundExact (f : Nat) (m : Nat) (e : Int) : Bool :=
  gridExact m e (max (1 - fpBias f - fracBits f) (leadExp m e - fracBits f))

/-- Tiny after rounding: rounded to the format's precision with an unbounded exponent, the
magnitude is below the smallest normal (R325). -/
def fpTiny (f : Nat) (rm : Rm) (neg : Bool) (m : Nat) (e : Int) : Bool :=
  let q : Int := leadExp m e - fracBits f
  let n := roundGrid rm neg m e q
  decide (leadExp n q < 1 - fpBias f)

/-- ovf(x, rm) of R46 for the sign `neg`, as a pattern. -/
def fpOvf (f : Nat) (rm : Rm) (neg : Bool) : Nat :=
  let toInf := match rm with | .rne => true | .rz => false | .ru => !neg | .rd => neg
  withSign f neg (if toInf then fpInfCode f else fpMaxCode f)

/-- cvt of a finite nonzero value to a floating-point format, with its flags. -/
def cvtFin (f : Nat) (rm : Rm) (sm : Bool) (neg : Bool) (m : Nat) (e : Int) : Nat × Flags :=
  let c := fpRoundCode f rm neg m e
  if fpMaxCode f < c then
    (if sm then withSign f neg (fpMaxCode f)
     else if f = 0x10 then fpCanon f
     else fpOvf f rm neg,
     { Flags.zero with of := true, nx := true, clamp := sm })
  else
    let nx := !fpRoundExact f m e
    (withSign f neg c, { Flags.zero with nx := nx, uf := nx && fpTiny f rm neg m e })

/-- cvt(x, f, rm, sm) as a bit pattern of `f`, with the flags of R329. -/
def cvt (x : Val) (f : Nat) (rm : Rm) (sm : Bool) : Nat × Flags :=
  if fmtIsInt f then
    match x with
    | .nan _ => (0, { Flags.zero with nv := true })
    | .inf neg => (trunc (esize f) (if neg then fmtLo f else fmtHi f),
        { Flags.zero with nv := true, clamp := true })
    | .fin neg m e =>
      let r := signed neg (roundGrid rm neg m e 0)
      let t := sat r (fmtLo f) (fmtHi f)
      (trunc (esize f) t, { Flags.zero with is := decide (t ≠ r), clamp := decide (t ≠ r) })
  else
    match x with
    | .nan sg => (fpCanon f, { Flags.zero with nv := sg })
    | .inf neg =>
      if sm then (withSign f neg (fpMaxCode f), { Flags.zero with of := true, nx := true, clamp := true })
      else if f = 0x10 then (fpCanon f, { Flags.zero with nv := true })
      else (withSign f neg (fpInfCode f), Flags.zero)
    | .fin neg 0 _ => (withSign f neg 0, Flags.zero)
    | .fin neg m e => cvtFin f rm sm neg m e

/-! ## QX4 (R44, R45) -/

/-- The four nibbles of a quad held in two bytes `b0` (slots 0 and 1) and `b1`. -/
def quadSlot (b0 b1 k : Nat) : Nat :=
  match k with
  | 0 => b0 % 16
  | 1 => b0 / 16 % 16
  | 2 => b1 % 16
  | _ => b1 / 16 % 16

/-- How many nibbles of a byte are the outlier marker. -/
def markers (b : Nat) : Nat := b2n (decide (b % 16 = 8)) + b2n (decide (b / 16 % 16 = 8))

/-- The quad is malformed. -/
def quadBad (b0 b1 : Nat) : Bool :=
  (decide (1 ≤ markers b0) && decide (1 ≤ markers b1)) || decide (markers b0 = 2)
    || decide (markers b1 = 2)

/-- Slot `k` of a quad under scale byte `sc`, before any target format (R44). -/
def quadDecode (b0 b1 sc k : Nat) : Val :=
  if sc = 0xFF then .nan false
  else
    let s : Int := (sc : Int) - 127
    if quadBad b0 b1 then .fin false 0 0
    else if markers b0 + markers b1 = 0 then (Val.ofInt (sext 4 (quadSlot b0 b1 k))).scale s
    else
      let inB0 := decide (markers b0 = 1)
      let p := if inB0 then b1 else b0
      if decide (k < 2) == inB0 then
        if quadSlot b0 b1 k = 8 then (fpDecode 0x10 p).scale s
        else (Val.ofInt (sext 4 (quadSlot b0 b1 k))).scale s
      else .fin false 0 0

/-- Order of magnitude for the encoder: NaN above ∞ above finite, finite by magnitude. -/
def magLt (a b : Val) : Bool :=
  match a, b with
  | .nan _, _ => false
  | _, .nan _ => true
  | .inf _, _ => false
  | _, .inf _ => true
  | .fin _ m e, .fin _ n d =>
    let q : Int := min e d
    decide ((gridNum m e q).1 < (gridNum n d q).1)

/-- rne(x / 2^s) of a finite value. -/
def rneAt (s : Int) : Val → Int
  | .fin neg m e => signed neg (roundGrid .rne neg m e s)
  | _ => 0

/-- A candidate for the outlier (R45). -/
def qxCand (s : Int) (x : Val) : Bool :=
  match x with
  | .fin _ _ _ => decide (7 < (rneAt s x).natAbs)
  | _ => true

/-- The slot of the largest candidate, lowest slot first, if any. -/
def qxBest (s : Int) (x : Nat → Val) : List Nat → Option Nat
  | [] => none
  | k :: ks =>
    match qxBest s x ks with
    | none => if qxCand s (x k) then some k else none
    | some j => if qxCand s (x k) && !magLt (x k) (x j) then some k else some j

/-- The code of the slot that shares the outlier's byte. -/
def qxOther (s : Int) (x : Val) : Nat :=
  match x with
  | .nan _ => 0
  | .inf neg => trunc 4 (if neg then -7 else 7)
  | v => trunc 4 (sat (rneAt s v) (-7) 7)

/-- One quad of the encoder: its two bytes (R45). -/
def quadEncode (s : Int) (x : Nat → Val) : Nat × Nat :=
  let q := fun k => trunc 4 (rneAt s (x k))
  match qxBest s x [0, 1, 2, 3] with
  | none => (q 0 + 16 * q 1, q 2 + 16 * q 3)
  | some j =>
    let p := (cvt ((x j).scale (-s)) 0x10 .rne true).1
    let low := decide (j % 2 = 0)
    let o := qxOther s (x (if low then j + 1 else j - 1))
    let b := if low then 8 + 16 * o else o + 16 * 8
    if j < 2 then (b, p) else (p, b)

/-! ## Accumulator elements (R48 to R51) -/

/-- The class of an accumulator element. -/
inductive Cls where
  | finite | posInf | negInf | nan
deriving DecidableEq, Repr

/-- The code of a class (Table 3.6). -/
def Cls.code : Cls → Nat
  | .finite => 0
  | .posInf => 1
  | .negInf => 2
  | .nan => 3

/-- The class of a code. -/
def Cls.of (n : Nat) : Cls :=
  match n % 4 with | 0 => .finite | 1 => .posInf | 2 => .negInf | _ => .nan

/-- comb of Table 3.8. -/
def Cls.comb : Cls → Cls → Cls
  | .finite, c => c
  | c, .finite => c
  | .posInf, .posInf => .posInf
  | .negInf, .negInf => .negInf
  | _, _ => .nan

/-- An accumulator element: sticky saturate, class, and the 56-bit integer. -/
structure Elem where
  sat : Bool
  cls : Cls
  v   : Int
deriving DecidableEq, Repr

/-- The element of a cleared tile (R264). -/
def Elem.zero : Elem := { sat := false, cls := .finite, v := 0 }

/-- The greatest magnitude an element keeps (R50). -/
def accMax : Int := 2 ^ 55 - 1

/-- The 8 bytes of an element as a number (Table 3.6). -/
def Elem.raw (x : Elem) : Nat := b2n x.sat * 2 ^ 58 + x.cls.code * 2 ^ 56 + trunc 56 x.v

/-- The element stored from 8 supplied bytes (R49): the reserved field is dropped, and X:M of a
non-finite class. -/
def Elem.ofRaw (n : Nat) : Elem :=
  { sat := bit n 58, cls := Cls.of (n / 2 ^ 56)
    v := if Cls.of (n / 2 ^ 56) = .finite then sext 56 n else 0 }

/-- The product of two values (Table 3.7). -/
def Val.mul (a b : Val) : Val :=
  match a, b with
  | .nan s, .nan t => .nan (s || t)
  | .nan s, _ => .nan s
  | _, .nan t => .nan t
  | .inf s, .inf t => .inf (s != t)
  | .inf s, .fin t m _ => if m = 0 then .nan false else .inf (s != t)
  | .fin s m _, .inf t => if m = 0 then .nan false else .inf (s != t)
  | .fin s m e, .fin t n d => .fin (s != t) (m * n) (e + d)

/-- The class of a product. -/
def Val.cls : Val → Cls
  | .nan _ => .nan
  | .inf true => .negInf
  | .inf false => .posInf
  | .fin _ _ _ => .finite

/-- One step of R50: a product added to the class and the exact sum on the grid `E`. -/
def accStep (E : Int) (st : Cls × Int) (p : Val) : Cls × Int :=
  match p with
  | .fin neg m e => (st.1, st.2 + signed neg (roundGrid .rne neg m e E))
  | q => (st.1.comb q.cls, st.2)

/-- R50: the element after an accumulation with products `ps`, and whether it saturated. -/
def accumulate (E : Int) (x : Elem) (ps : List Val) : Elem × Bool :=
  let r := ps.foldl (accStep E) (x.cls, 0)
  if r.1 = .finite then
    let t := x.v + r.2
    let isOver := decide (accMax < t) || decide (t < -accMax)
    ({ sat := x.sat || isOver, cls := .finite, v := sat t (-accMax) accMax }, isOver)
  else ({ x with cls := r.1, v := 0 }, false)

/-- R52: one element shifted by `k`. -/
def Elem.norm (k : Nat) (x : Elem) : Elem :=
  if x.cls = .finite then
    { x with v := signed (decide (x.v < 0)) (roundGrid .rne (decide (x.v < 0)) x.v.natAbs 0 k) }
  else x

/-- R282: one element of AADD with exponent difference `d`; whether it saturated. -/
def Elem.add (d : Int) (x s : Elem) : Elem × Bool :=
  if x.cls = .finite ∧ s.cls = .finite then
    let neg := decide (s.v < 0)
    let t := x.v + signed neg (roundGrid .rne neg s.v.natAbs d 0)
    let isOver := decide (accMax < t) || decide (t < -accMax)
    ({ sat := x.sat || isOver || s.sat, cls := .finite, v := Machine.sat t (-accMax) accMax }, isOver)
  else ({ sat := x.sat || s.sat, cls := x.cls.comb s.cls, v := 0 }, false)

/-- The value of an element on grid `E` (R49). -/
def Elem.val (E : Int) (x : Elem) : Val :=
  match x.cls with
  | .finite => .fin (decide (x.v < 0)) x.v.natAbs E
  | .posInf => .inf false
  | .negInf => .inf true
  | .nan => .nan false

/-- R53: retirement of an element to a floating-point format; whether RSAT is set. A NaN class
sets nothing. -/
def retireFp (f : Nat) (rm : Rm) (E : Int) (x : Elem) : Nat × Bool :=
  let r := cvt (if x.v = 0 ∧ x.cls = .finite then .fin false 0 0 else x.val E) f rm true
  (r.1, r.2.clamp)

/-- rq of R54 before its saturation. -/
def rqRaw (acc m : Int) (sh : Nat) (zp : Int) : Int :=
  (if sh = 0 then acc * m else (acc * m + 2 ^ (sh - 1)) / 2 ^ sh) + zp

/-- rq(acc, m, sh, zp, f) of R54, and whether it was clamped. -/
def rq (acc m : Int) (sh : Nat) (zp : Int) (f : Nat) : Int × Bool :=
  let t := rqRaw acc m sh zp
  (sat t (fmtLo f) (fmtHi f), decide (sat t (fmtLo f) (fmtHi f) ≠ t))

/-- R54: retirement of an element to an integer format; whether RSAT is set. -/
def retireInt (f : Nat) (m : Int) (sh : Nat) (zp : Int) (x : Elem) : Int × Bool :=
  match x.cls with
  | .finite => rq x.v m sh zp f
  | .posInf => (fmtHi f, true)
  | .negInf => (fmtLo f, true)
  | .nan => (sat zp (fmtLo f) (fmtHi f), true)

/-- R224, CVT = 1: an element stored on grid `E`; whether it saturated. -/
def cpaElem (E : Int) (x : Val) : Elem × Bool :=
  match x with
  | .nan _ => ({ sat := false, cls := .nan, v := 0 }, false)
  | .inf neg => ({ sat := false, cls := if neg then .negInf else .posInf, v := 0 }, false)
  | .fin neg m e =>
    let t := signed neg (roundGrid .rne neg m e E)
    let isOver := decide (accMax < t) || decide (t < -accMax)
    ({ sat := isOver, cls := .finite, v := sat t (-accMax) accMax }, isOver)

/-! ## Binary32 arithmetic (R325 to R331) -/

/-- The value of an FP32 pattern. -/
def f32 (c : Nat) : Val := fpDecode 0x13 c

/-- The canonical NaN of FP32. -/
def nan32 : Nat := 0x7FC00000

/-- A signalling NaN. -/
def Val.sig : Val → Bool
  | .nan s => s
  | _ => false

/-- Any NaN. -/
def Val.isNan : Val → Bool
  | .nan _ => true
  | _ => false

/-- The sign of a value that is not a NaN. -/
def Val.neg : Val → Bool
  | .nan _ => false
  | .inf s => s
  | .fin s _ _ => s

/-- The sum of two finite values, exact; a zero sum has the sign IEEE 754 gives: that of equal
signs, else minus only under RD. -/
def addFin (rm : Rm) (s : Bool) (m : Nat) (e : Int) (t : Bool) (n : Nat) (d : Int) : Val :=
  let q : Int := min e d
  let x := signed s (gridNum m e q).1 + signed t (gridNum n d q).1
  if x = 0 then .fin (if s == t then s else decide (rm = .rd)) 0 0
  else .fin (decide (x < 0)) x.natAbs q

/-- a + b before rounding, with the invalid case ∞ - ∞ (R325). -/
def addVal (rm : Rm) (a b : Val) : Val × Bool :=
  match a, b with
  | .nan s, y => (.nan false, s || y.sig)
  | x, .nan s => (.nan false, s || x.sig)
  | .inf s, .inf t => if s == t then (.inf s, false) else (.nan false, true)
  | .inf s, .fin _ _ _ => (.inf s, false)
  | .fin _ _ _, .inf t => (.inf t, false)
  | .fin s m e, .fin t n d => (addFin rm s m e t n d, false)

/-- a × b before rounding, with the invalid case 0 × ∞. -/
def mulVal (a b : Val) : Val × Bool :=
  match a, b with
  | .nan s, y => (.nan false, s || y.sig)
  | x, .nan s => (.nan false, s || x.sig)
  | .inf s, .fin t m _ => if m = 0 then (.nan false, true) else (.inf (s != t), false)
  | .fin s m _, .inf t => if m = 0 then (.nan false, true) else (.inf (s != t), false)
  | x, y => (x.mul y, false)

/-- An exact or infinite result rounded to FP32: an infinity that is exact stays (log
entry 79), `nv` is the invalid flag found before rounding. -/
def out32 (rm : Rm) (sm : Bool) (r : Val × Bool) : Nat × Flags :=
  match r.1 with
  | .nan _ => (nan32, { Flags.zero with nv := r.2 })
  | .inf neg => (withSign 0x13 neg (fpInfCode 0x13), { Flags.zero with nv := r.2 })
  | v => let o := cvt v 0x13 rm sm; (o.1, { o.2 with nv := r.2 })

/-- Negation of a value. -/
def Val.negate : Val → Val
  | .nan s => .nan s
  | .inf s => .inf (!s)
  | .fin s m e => .fin (!s) m e

/-- VFADD (R326). -/
def fadd (rm : Rm) (sm sub : Bool) (a b : Nat) : Nat × Flags :=
  out32 rm sm (addVal rm (f32 a) (if sub then (f32 b).negate else f32 b))

/-- VFMUL (R326). -/
def fmul (rm : Rm) (sm : Bool) (a b : Nat) : Nat × Flags :=
  out32 rm sm (mulVal (f32 a) (f32 b))

/-- VFMA: acc ± a × b, rounded once; 0 × ∞ raises NV even with a NaN addend (R325). -/
def ffma (rm : Rm) (sm neg : Bool) (acc a b : Nat) : Nat × Flags :=
  let p := mulVal (f32 a) (f32 b)
  let q := addVal rm (f32 acc) (if neg then p.1.negate else p.1)
  out32 rm sm (q.1, p.2 || q.2)

/-- The order of two non-NaN values: less than, with −0 below +0 when `z`. -/
def ltVal (z : Bool) (a b : Val) : Bool :=
  match a, b with
  | .nan _, _ => false
  | _, .nan _ => false
  | .inf s, .inf t => s && !t
  | .inf s, .fin _ _ _ => s
  | .fin _ _ _, .inf t => !t
  | .fin s m e, .fin t n d =>
    let q : Int := min e d
    let x := signed s (gridNum m e q).1
    let y := signed t (gridNum n d q).1
    decide (x < y) || (z && decide (x = y) && decide (m = 0) && s && !t)

/-- minimumNumber and maximumNumber (R326). -/
def fminmax (max : Bool) (a b : Nat) : Nat × Flags :=
  let x := f32 a
  let y := f32 b
  let nv : Flags := { Flags.zero with nv := x.sig || y.sig }
  (if x.isNan then (if y.isNan then nan32 else b)
   else if y.isNan then a
   else if max then (if ltVal true x y then b else a)
   else (if ltVal true y x then b else a), nv)

/-- The conditions of VFCMP (R327): whether it holds, and NV. -/
def fcmp (c a b : Nat) : Bool × Bool :=
  let x := f32 a
  let y := f32 b
  let un := x.isNan || y.isNan
  let sg := x.sig || y.sig
  let lt := ltVal false x y
  let gt := ltVal false y x
  let eq := !un && !lt && !gt
  match c with
  | 0 => (eq, sg)
  | 1 => (!eq, sg)
  | 2 => (lt, un)
  | 3 => (!un && !gt, un)
  | 4 => (gt, un)
  | 5 => (!un && !lt, un)
  | 6 => (un, sg)
  | _ => (!un, sg)

/-- A rational n / d · 2^e as a value precise enough for one rounding to FP32: 64 extra
quotient bits and a sticky bit. -/
def quotVal (neg : Bool) (n d : Nat) (e : Int) : Val :=
  let k := 64 + d.log2 + 1
  let q := n * 2 ^ k / d
  let st := b2n (decide (n * 2 ^ k % d ≠ 0))
  .fin neg (2 * q + st) (e - k - 1)

/-- 1 / x for finite nonzero x. -/
def rcpVal (neg : Bool) (m : Nat) (e : Int) : Val := quotVal neg 1 m (-e)

/-- The integer square root by its bits, highest first, with fuel. -/
def isqrtBits : Nat → Nat → Nat → Nat
  | 0, _, r => r
  | k + 1, n, r => isqrtBits k n (if (r + 2 ^ k) * (r + 2 ^ k) ≤ n then r + 2 ^ k else r)

/-- The integer square root. -/
def isqrt (n : Nat) : Nat := isqrtBits (n.log2 / 2 + 1) n 0

/-- 1 / sqrt(m · 2^e) for a positive finite value: with an even exponent, the root of
2^(2k) / m, with a sticky bit. -/
def rsqVal (m : Nat) (e : Int) : Val :=
  let m' := if e % 2 = 0 then m else 2 * m
  let e' := if e % 2 = 0 then e else e - 1
  let k := 96 + m'.log2
  let n := 2 ^ (2 * k) / m'
  let r := isqrt n
  let st := b2n (decide (r * r ≠ n) || decide (2 ^ (2 * k) % m' ≠ 0))
  .fin false (2 * r + st) (-k - e' / 2 - 1)

/-- The scale of the fixed-point series below. -/
def fx : Nat := 2 ^ 512

/-- The series of ln 2: the sum of 1 / (k · 2^k), k from `k` on, `fuel` terms. -/
def ln2Sum : Nat → Nat → Nat
  | 0, _ => 0
  | f + 1, k => fx / (k * 2 ^ k) + ln2Sum f (k + 1)

/-- ln 2 in fixed point. -/
def ln2Fx : Nat := ln2Sum 520 1

/-- The exponential series: terms from `term` on, with index `k`. -/
def expSum : Nat → Nat → Nat → Nat → Nat
  | 0, _, _, _ => 0
  | f + 1, t, term, k => term + expSum f t (term * t / (fx * k)) (k + 1)

/-- 2^x for a finite x = (-1)^neg · m · 2^e that is not an integer (R328): the integer part is
an exponent, the fraction goes through the series; the sticky bit says that the value is never
exact. -/
def exp2Val (neg : Bool) (m : Nat) (e : Int) : Val :=
  let n : Nat := m * 2 ^ (e + 512).toNat            -- |x| · 2^512, exact for FP32
  let i : Int := if neg then -(n / fx : Nat) - 1 else (n / fx : Nat)
  let f : Nat := if neg then fx - n % fx else n % fx
  let r := expSum 130 (f * ln2Fx / fx) fx 1
  .fin false (2 * r + 1) (i - 513)

/-- The binary digits of log2 of a mantissa y in [1, 2) at scale 2^512. -/
def log2Digits : Nat → Nat → Nat → Nat
  | 0, _, acc => acc
  | f + 1, y, acc =>
    let z := y * y / fx
    if 2 * fx ≤ z then log2Digits f (z / 2) (2 * acc + 1) else log2Digits f z (2 * acc)

/-- log2 of a positive finite value that is no power of two (R328). -/
def log2Val (m : Nat) (e : Int) : Val :=
  let i : Int := leadExp m e
  let y := m * fx / 2 ^ m.log2
  let d : Int := i * 2 ^ 160 + (log2Digits 160 y 0 : Nat)
  -- never exact: one sticky bit below the digits
  let t : Int := 2 * d + 1
  .fin (decide (t < 0)) t.natAbs (-161)

/-- A power of two. -/
def isPow2 (m : Nat) : Bool := decide (m = 2 ^ m.log2)

/-- m · 2^e is an integer. -/
def isInt (m : Nat) (e : Int) : Bool := decide (0 ≤ e) || decide (m % 2 ^ (-e).toNat = 0)

/-- 2^k for an integer exponent. -/
def pow2Val (k : Int) : Val := .fin false 1 k

/-- VFUN on a value (R328, Table 12.10): the exact or sticky value, NV and DZ. -/
def vfunVal (fn : Nat) (x : Val) : Val × Bool × Bool :=
  match fn, x with
  | _, .nan s => (.nan false, s, false)
  | 0, .inf s => (.fin s 0 0, false, false)
  | 0, .fin s 0 _ => (.inf s, false, true)
  | 0, .fin s m e => (rcpVal s m e, false, false)
  | 1, .inf s => if s then (.nan false, true, false) else (.fin false 0 0, false, false)
  | 1, .fin s 0 _ => (.inf s, false, true)
  | 1, .fin s m e => if s then (.nan false, true, false) else (rsqVal m e, false, false)
  | 2, .inf s => (if s then .fin false 0 0 else .inf false, false, false)
  | 2, .fin _ 0 _ => (.fin false 1 0, false, false)
  | 2, .fin s m e =>
    -- beyond 1024 the result is far outside FP32 either way, so the exponent stops there
    if 1024 * (gridNum m e 0).2 < (gridNum m e 0).1 then
      (pow2Val (if s then -1024 else 1024), false, false)
    else if isInt m e then (pow2Val (signed s ((gridNum m e 0).1 / (gridNum m e 0).2)), false, false)
    else (exp2Val s m e, false, false)
  | _, .inf s => if s then (.nan false, true, false) else (.inf false, false, false)
  | _, .fin _ 0 _ => (.inf true, false, true)
  | _, .fin s m e =>
    if s then (.nan false, true, false)
    else if isPow2 m then (Val.ofInt (leadExp m e), false, false)
    else (log2Val m e, false, false)

/-- VFUN (R328). -/
def vfun (fn : Nat) (rm : Rm) (sm : Bool) (a : Nat) : Nat × Flags :=
  let r := vfunVal fn (f32 a)
  let o := out32 rm sm (r.1, r.2.1)
  (o.1, { o.2 with dz := r.2.2 })

/-! ## The reduction tree (R55) -/

/-- The largest power of two less than `n` (for n ≥ 2). -/
def halfPow (n : Nat) : Nat := 2 ^ (n - 1).log2

/-- The tree of R55 with fuel for its depth; an empty list gives `d`. -/
def treeFuel {α : Type} (op : α → α → α) (d : α) : Nat → List α → α
  | 0, xs => xs.headD d
  | f + 1, xs =>
    if xs.length ≤ 1 then xs.headD d
    else op (treeFuel op d f (xs.take (halfPow xs.length)))
            (treeFuel op d f (xs.drop (halfPow xs.length)))

/-- The tree over at most 2^16 operands. -/
def tree {α : Type} (op : α → α → α) (d : α) (xs : List α) : α := treeFuel op d 17 xs

end Sys2Proof.Machine
end

