-- ==== Sys2Proof/Syntax.lean ====
section
/-!
DEFINITION. The syntax of the steps of the part: one constructor of `Instr` per row of the
opcode table. An engine instruction carries its word count, its interlock counts, its stall
count and its operand fields as plain numbers; a step of another kind carries what reaches
the device from outside in that step (a packet, a register value, a message, a measurement).
-/

namespace Sys2Proof

/-- The five engines in ring order (02, R22). -/
inductive Engine where
  | scu | lce | mxe | vxe | sce
deriving DecidableEq, Repr

/-- What every engine instruction carries beside its operands: its number of words
(R90, LEN + 1), how many of its words wait on and give to each neighbour (R23), and its
stall count (R94; 0 where the instruction carries none). -/
structure Hdr where
  n   : Nat
  wp  : Nat
  wn  : Nat
  gp  : Nat
  gn  : Nat
  stl : Nat
deriving DecidableEq, Repr

/-- Where LOOP and VLOOP take their count (R102, R337). -/
inductive LoopCount where
  | imm (n : Nat)
  | coord (creg comp : Nat)
  | operand (code : Nat)
deriving DecidableEq, Repr

/-- Word 1 of LD, ST and ATM (Tables 8.9, 8.10): `kind` is SIZE for LD and ST, AOP for ATM. -/
structure MemWord where
  sel   : Nat
  kind  : Nat
  ord   : Nat
  scope : Nat
  tid   : Nat
  off   : Nat
deriving DecidableEq, Repr

/-- An extent override: EXT0 and EXT1 of a word 2 (Tables 9.2, 10.2, 11.3, 12.5). -/
structure Ext where
  e0 : Nat
  e1 : Nat
deriving DecidableEq, Repr

/-- A row range of an accumulator tile (R267). -/
structure Rows where
  all : Bool
  cr  : Nat
deriving DecidableEq, Repr

/-- The register fields and the element size of VXE word 0 (Table 12.3). -/
structure VRegs where
  vd : Nat
  va : Nat
  vb : Nat
  es : Nat
deriving DecidableEq, Repr

/-- Word 1 of the arithmetic layout (Table 12.4). -/
structure VArith where
  sub : Nat
  sat : Bool
  rm  : Nat
  msk : Nat
  z   : Bool
  i   : Bool
  imm : Nat
deriving DecidableEq, Repr

/-- Word 1 of the memory layout (Table 12.5). -/
structure VMem where
  tid  : Nat
  cr   : Nat
  soff : Nat
  msk  : Nat
  z    : Bool
  pk   : Bool
deriving DecidableEq, Repr

/-- A fabric packet: the header flit of Table 7.2 and its payload flits of 64 bytes. `phys` marks
a packet whose VA field holds the physical address of its line at the home (R134, R245); the table
gives the mark no bit of its own (log entry 17). `rsv` marks one with a reserved header field that is not
zero (R146). -/
structure Packet where
  type    : Nat
  urg     : Bool
  sid     : Bool
  det     : Bool
  npay    : Nat
  hops    : Nat
  src     : Nat
  dst     : Nat
  via     : Nat
  score   : Nat
  asid    : Nat
  va      : Nat
  task    : Nat
  tag     : Nat
  colmask : Nat
  group   : Nat
  aop     : Nat
  rel     : Bool
  lenm1   : Nat
  opa     : Nat
  opb     : Nat
  status  : Nat
  aux     : Nat
  payload : List Nat
  phys    : Bool := false
  rsv     : Bool := false
deriving DecidableEq, Repr

/-- A link frame as it reaches a port: the header of Table 7.1a, whether its tag and its code
check, and the packets of its flits. -/
structure Frame where
  fctr    : Nat
  rcv     : Nat
  freed   : Nat
  srcv    : Nat
  sfreed  : Nat
  tgtc    : Nat
  tph     : Nat
  tv      : Bool
  fv      : Bool
  tagOk   : Bool
  codeOk  : Bool
  packets : List Packet
deriving DecidableEq, Repr

/-- A declared region of a LAUNCH (Table 15.7, R408). -/
structure Region where
  start : Nat
  len   : Nat
  w     : Bool
  cel   : Bool
deriving DecidableEq, Repr

/-- PODBAR of a LAUNCH: group, member count and pod base (Table 15.7). -/
structure PodBar where
  group   : Nat
  members : Nat
  base    : Nat
deriving DecidableEq, Repr

/-- An address of the front end: host bus (SP = 0) or module physical (SP = 1) (R386). -/
structure FedAddr where
  sp   : Bool
  addr : Nat
deriving DecidableEq, Repr

/-- AUDRING of a LAUNCH (Table 15.7). -/
structure AudRing where
  base : FedAddr
  log  : Nat
deriving DecidableEq, Repr

/-- The header of a queue packet as the front end decoded it (Table 15.3): the queue, whether
it was spawned, and all its 8-byte units. -/
structure PktHdr where
  q           : Nat
  spawned     : Bool
  len         : Nat
  nospec      : Bool
  irq         : Bool
  stopOnError : Bool
  ordered     : Bool
  raw         : List Nat
deriving DecidableEq, Repr

/-- The fields of a LAUNCH, or of a NODE of a GRAPH (Table 15.7, R400). Bytes of ARG and of a
descriptor are listed lowest address first. -/
structure LaunchFields where
  kva     : Nat
  kid     : Nat
  taskId  : Nat
  cores   : Nat
  shape   : Nat
  arg     : List Nat
  regions : List Region
  descs   : List (Nat × List Nat)
  podbar  : Option PodBar
  audring : Option AudRing
deriving DecidableEq, Repr

/-- An SPDM responder of Table 17.2. -/
inductive SpdmEnd where
  | dse (die : Nat)
  | host
  | link (port : Nat)
deriving DecidableEq, Repr

/-- Who asks, at which responder, inside which session (17, R447). -/
structure SpdmReq where
  ep      : SpdmEnd
  session : Option Nat
deriving DecidableEq, Repr

/-- A resource that counts errors (Table 18.2). -/
inductive Resource where
  | sramBank (phys bank : Nat)
  | cellarBank (die bank : Nat)
  | hbmChannel (stack channel : Nat)
  | ucieLane (die side lane : Nat)
  | azpinLane (port lane : Nat)
deriving DecidableEq, Repr

/-- One edge's measurement in a die-to-die window (R11): its draw in milliwatts at its load,
and whether it has queued traffic for the next window. -/
structure EdgeLoad where
  edge   : Nat
  draw   : Nat
  queued : Bool
deriving DecidableEq, Repr

/-- What bring-up meets (R466, R452, R453, R454): the strap, the dies that pass their challenge,
the stacks that train, the edges (die and side) whose KMAC checks, and the ports that train, each with the
peer id that its neighbour reports. -/
structure BringUp where
  strap  : Nat
  dies   : List Nat
  hbms   : List Nat
  edges  : List (Nat × Nat)
  ports  : List (Nat × Nat)
deriving DecidableEq, Repr

/-- Why a speculation is discarded (R421). -/
inductive DiscardReason where
  | mismatch | watch | capacity | cores | queue
deriving DecidableEq, Repr

/-- A host access to device memory through a BAR (R462): the frame's physical address, whether
it came in an IDE stream with T = 1 and from which TDI, and the bytes of a write. -/
structure HostAccess where
  addr  : Nat
  len   : Nat
  tee   : Bool
  tdi   : Nat
  write : Option (List Nat)
deriving DecidableEq, Repr

/-- One step of the part: a row of the opcode table. -/
inductive Instr where
  -- The Mirlys module, platform and power (01, 18)
  | d2dThrottleWindow (loads : List EdgeLoad)
  | powerWindow (drawMw : Nat) (junctions : List (Nat × Nat))
  | moduleReset (b : BringUp)
  | dieChallengeTimeout (die : Nat)
  | ucieEdgeTraining (die side : Nat) (macOk : Bool)
  -- The Azpin router (07)
  | linkTraining (port reported delay : Nat) (keyed : Bool)
  | frameReceive (port : Nat) (f : Frame)
  | frameReplay (port fctr : Nat)
  | wrPacket (p : Packet)
  | rdPacket (p : Packet)
  | rdrPacket (p : Packet)
  | atmPacket (p : Packet)
  | atrPacket (p : Packet)
  | sigPacket (p : Packet)
  | mcwPacket (p : Packet)
  | ackPacket (p : Packet)
  | mcaPacket (p : Packet)
  | barPacket (p : Packet)
  | timePacket (port tgtc tph phase : Nat)
  | staffPacket (epoch : Nat)
  | responseTimeout (phys tag : Nat)
  -- Translation and registers (06, 17, 00)
  | translationWalk (phys asid va : Nat)
  | acntWriteback (phys asid va : Nat)
  | xinvPage64k (asid va : Nat)
  | xinvPage2m (asid va : Nat)
  | xinvAsid (asid : Nat)
  | dlkick (asid : Nat)
  | fttclr (first count : Nat)
  | encirWrite (stack value : Nat)
  | registerWrite (off width value : Nat)
  -- Cores and the ring (02, 05, 09, 10, 11)
  | taskPlacement (task : Nat)
  | lceCommandCompletion (phys sidx : Nat)
  | sceCommandCompletion (phys sidx : Nat)
  | packetSettlement (phys tag status : Nat)
  | fabricCacheEviction (die line : Nat)
  | cellarRefresh (die : Nat)
  | engineFault (phys : Nat) (e : Engine) (cause ecode foff : Nat)
  | yieldRequest (task : Nat)
  | taskRetirement (task : Nat)
  -- The front end (15)
  | notifyWrite (q tail : Nat)
  | launch (h : PktHdr) (f : LaunchFields)
  | graph (h : PktHdr) (nodes : List LaunchFields) (edges : List (Nat × Nat))
  | dep (h : PktHdr) (queue seq : Nat)
  | signal (h : PktHdr) (a : FedAddr) (value : Nat)
  | mapGroup (h : PktHdr) (group : Nat) (valid : Bool) (asid members : Nat)
  | cellarLoad (h : PktHdr) (src : FedAddr) (off mask len : Nat)
  | cellarCopy (task : Nat)
  | seal (h : PktHdr)
  | taskReady (task : Nat)
  | reservationStart (task : Nat)
  | speculationDiscard (q : Nat) (why : DiscardReason)
  -- Stop, save and migration (16)
  | stop (h : PktHdr) (task t mode : Nat)
  | stopCut (task : Nat)
  | save (h : PktHdr) (task : Nat) (area : FedAddr) (avail mode : Nat)
  | resume (h : PktHdr) (task : Nat) (area : FedAddr) (avail start : Nat)
  | taskEnd (task : Nat)
  -- The Taster and bisection (14)
  | bisect (h : PktHdr) (args : List Nat)
  | audnPacket (p : Packet)
  | bisectAnswerTimeout (session : Nat)
  | capture (h : PktHdr) (args : List Nat)
  | taste (h : PktHdr) (args : List Nat)
  -- Errors and retirement (18)
  | errorCorrected (r : Resource)
  | errorUncorrectable (r : Resource) (unit : Nat)
  | resourceRetire (r : Resource)
  | retireCore (die pos : Nat)
  | retireDie (die : Nat)
  | retireStack (stack : Nat)
  | retireEdge (die side : Nat)
  | fwload (die addr : Nat) (imageOk : Bool)
  | hostMemoryAccess (a : HostAccess)
  -- SPDM, keys and TDISP (17)
  | getVersion (r : SpdmReq)
  | getCapabilities (r : SpdmReq)
  | negotiateAlgorithms (r : SpdmReq) (offersOurs : Bool)
  | getDigests (r : SpdmReq)
  | getCertificate (r : SpdmReq) (slot off len : Nat)
  | challenge (r : SpdmReq) (slot nonce : Nat)
  | getMeasurements (r : SpdmReq) (index : Nat)
  | chunkSend (r : SpdmReq) (handle seq : Nat) (last : Bool) (data : List Nat)
  | chunkGet (r : SpdmReq) (handle seq : Nat)
  | keyExchange (r : SpdmReq) (slot : Nat)
  | finish (r : SpdmReq) (verified : Bool)
  | keyUpdate (r : SpdmReq) (switchAt : Nat)
  | heartbeat (r : SpdmReq)
  | endSession (r : SpdmReq)
  | setCertificate (r : SpdmReq) (slot : Nat) (chain : List Nat) (endsInIdentity : Bool)
  | keySet (r : SpdmReq) (slot asid : Nat)
  | keyClear (r : SpdmReq) (slot : Nat)
  | spdmUnsupportedRequest (r : SpdmReq) (code : Nat)
  | lockInterface (tdi session : Nat)
  | startInterface (tdi session : Nat)
  | stopInterface (tdi session : Nat)
  | getInterfaceReport (tdi session : Nat)
  | functionLevelReset (vf : Nat)
  -- The common stream group (05)
  | nop (h : Hdr)
  | atStamp (h : Hdr) (stamp : Nat)
  | atLax (h : Hdr) (stamp : Nat)
  | endStream (h : Hdr)
  | loop (h : Hdr) (body : Nat) (count : LoopCount)
  | endl (h : Hdr)
  | csetImm (h : Hdr) (cd mask imm : Nat)
  | csetReg (h : Hdr) (cd mask ca : Nat)
  | caddImm (h : Hdr) (cd mask imm : Nat)
  | caddReg (h : Hdr) (cd mask ca : Nat)
  | cmodImm (h : Hdr) (cd mask imm : Nat)
  | cmodReg (h : Hdr) (cd mask ca : Nat)
  | cldp (h : Hdr) (cd mask off : Nat)
  | mark (h : Hdr)
  | fence (h : Hdr) (scope : Nat)
  -- The scalar control unit (08)
  | trap (h : Hdr) (code : Nat)
  | bar (h : Hdr) (scope : Nat)
  | barred (h : Hdr) (d a rop scope : Nat)
  | waitt (h : Hdr) (a : Nat) (rel : Bool)
  | gtc (h : Hdr) (d : Nat)
  | getc (h : Hdr) (d creg : Nat)
  | setc (h : Hdr) (creg b : Nat)
  | spawn (h : Hdr) (d a tid : Nat)
  | notify (h : Hdr) (b code : Nat)
  | add (h : Hdr) (d a b : Nat)
  | sub (h : Hdr) (d a b : Nat)
  | andReg (h : Hdr) (d a b : Nat)
  | orReg (h : Hdr) (d a b : Nat)
  | xorReg (h : Hdr) (d a b : Nat)
  | andn (h : Hdr) (d a b : Nat)
  | shl (h : Hdr) (d a b : Nat)
  | shr (h : Hdr) (d a b : Nat)
  | sra (h : Hdr) (d a b : Nat)
  | mul (h : Hdr) (d a b : Nat)
  | mulh (h : Hdr) (d a b : Nat) (u : Bool)
  | div (h : Hdr) (d a b : Nat) (u : Bool)
  | rem (h : Hdr) (d a b : Nat) (u : Bool)
  | minReg (h : Hdr) (d a b : Nat) (u : Bool)
  | maxReg (h : Hdr) (d a b : Nat) (u : Bool)
  | cmp (h : Hdr) (d a b cond : Nat)
  | sel (h : Hdr) (d a b c : Nat)
  | clz (h : Hdr) (d a : Nat) (trailing : Bool)
  | popc (h : Hdr) (d a : Nat)
  | addi (h : Hdr) (d a imm : Nat)
  | andi (h : Hdr) (d a imm : Nat)
  | ori (h : Hdr) (d a imm : Nat)
  | xori (h : Hdr) (d a imm : Nat)
  | shi (h : Hdr) (d a kind cnt : Nat)
  | li (h : Hdr) (d value : Nat)
  | cmpi (h : Hdr) (d a cond imm : Nat)
  | br (h : Hdr) (cond a b off : Nat)
  | jump (h : Hdr) (off : Nat)
  | jumpReg (h : Hdr) (a : Nat)
  | call (h : Hdr) (d off : Nat)
  | callReg (h : Hdr) (d a : Nat)
  | ret (h : Hdr) (a : Nat)
  | ld (h : Hdr) (d a : Nat) (f : Bool) (m : MemWord)
  | st (h : Hdr) (a b : Nat) (m : MemWord)
  | atm (h : Hdr) (d a b : Nat) (u : Bool) (m : MemWord) (z : Nat)
  | dgleaf (h : Hdr) (a b tag tid : Nat)
  | dgseal (h : Hdr) (d : Nat)
  | retf (h : Hdr) (f : Bool)
  | yield (h : Hdr)
  -- The load copy engine (09)
  | cpi (h : Hdr) (td cd cs ts : Nat) (ext : Option Ext)
  | cpic (h : Hdr) (td cd cs ts : Nat) (ext : Option Ext)
  | cpig (h : Hdr) (td cd cs ts ti ci : Nat) (ext : Option Ext)
  | cpib (h : Hdr) (td cd cs ts : Nat) (ext : Option Ext)
  | cpw (h : Hdr) (td cd cs ts : Nat) (ext : Option Ext)
  | cpa (h : Hdr) (td cd cs ts : Nat) (cvt : Bool) (exp : Nat) (ext : Option Ext)
  | pref (h : Hdr) (cs ts : Nat) (ext : Option Ext)
  | cpq (h : Hdr) (td cd cs ts rm : Nat) (sm : Bool) (ext : Option Ext)
  | lstat (h : Hdr) (td cd : Nat) (clr : Bool)
  | rwait (h : Hdr) (ctr : Nat) (sub : Bool) (target : Nat)
  -- The store copy engine (10)
  | cpo (h : Hdr) (td cd cs ts : Nat) (ackw : Bool) (ext : Option Ext)
  | cpoc (h : Hdr) (td cd cs ts : Nat) (ackw : Bool) (ext : Option Ext)
  | cpos (h : Hdr) (td cd cs ts ti ci : Nat) (ackw : Bool) (ext : Option Ext)
  | cpf (h : Hdr) (td cd cs ts : Nat) (ackw : Bool) (ext : Option Ext)
  | cpm (h : Hdr) (td cd cs ts group : Nat) (ext : Option Ext)
  | fat (h : Hdr) (td cd cs ts : Nat) (res : Bool) (tr cr aop : Nat)
  | fsig (h : Hdr) (cs ts : Nat) (rel ackw : Bool) (inc : Nat)
  | flush (h : Hdr) (td cd : Nat) (inv : Bool) (ext : Option Ext)
  | flushAll (h : Hdr) (inv : Bool)
  | sstat (h : Hdr) (td cd : Nat) (setl agg clr : Bool)
  -- The matrix engine (11)
  | mrd (h : Hdr) (q ts cs : Nat) (ext : Option Ext)
  | wld (h : Hdr) (w ts cs : Nat) (ext : Option Ext)
  | mma (h : Hdr) (an q w : Nat) (pop : Bool)
  | mmag (h : Hdr) (an q : Nat) (pop : Bool) (cg ngm1 : Nat)
  | aset (h : Hdr) (an : Nat) (r : Rows) (exp : Nat)
  | anorm (h : Hdr) (an : Nat) (r : Rows) (k : Nat)
  | aclr (h : Hdr) (an : Nat) (r : Rows)
  | aadd (h : Hdr) (an : Nat) (r : Rows) (as : Nat)
  | aret (h : Hdr) (an : Nat) (r : Rows) (free : Bool) (sh td cd tq cq rm : Nat)
  | ard (h : Hdr) (an : Nat) (r : Rows) (xe : Bool) (td cd : Nat)
  | awr (h : Hdr) (an : Nat) (r : Rows) (xe : Bool) (ts cs : Nat)
  | amax (h : Hdr) (an : Nat) (r : Rows) (td cd : Nat)
  | mxmode (h : Hdr) (ovt : Bool)
  | mstat (h : Hdr) (clr : Bool) (td cd : Nat)
  -- The vector engine (12)
  | vld (h : Hdr) (r : VRegs) (m : VMem) (ext : Option Ext)
  | vst (h : Hdr) (r : VRegs) (m : VMem) (ext : Option Ext)
  | vldx (h : Hdr) (r : VRegs) (m : VMem)
  | vstx (h : Hdr) (r : VRegs) (m : VMem)
  | vlda (h : Hdr) (r : VRegs) (an cr : Nat) (half xe val : Bool)
  | vbcE (h : Hdr) (r : VRegs) (o : VArith)
  | vbcI (h : Hdr) (r : VRegs) (o : VArith)
  | vbcC (h : Hdr) (r : VRegs) (o : VArith)
  | vbcSt (h : Hdr) (r : VRegs) (o : VArith)
  | vbcWc (h : Hdr) (r : VRegs) (o : VArith)
  | vbcClr (h : Hdr) (r : VRegs) (o : VArith)
  | vspill (h : Hdr) (r : VRegs)
  | vfill (h : Hdr) (r : VRegs)
  | vloop (h : Hdr) (rb rlm1 rs body : Nat) (count : LoopCount)
  | viota (h : Hdr) (r : VRegs) (o : VArith)
  | vhash (h : Hdr) (r : VRegs) (m : VMem)
  | vperm (h : Hdr) (r : VRegs) (o : VArith)
  | vslide (h : Hdr) (r : VRegs) (o : VArith)
  | vcomp (h : Hdr) (r : VRegs) (o : VArith)
  | vmsk (h : Hdr) (r : VRegs) (o : VArith)
  | vmpop (h : Hdr) (r : VRegs) (o : VArith)
  | viadd (h : Hdr) (r : VRegs) (o : VArith)
  | vimul (h : Hdr) (r : VRegs) (o : VArith)
  | vmac (h : Hdr) (r : VRegs) (o : VArith)
  | vdot4 (h : Hdr) (r : VRegs) (o : VArith)
  | vminmax (h : Hdr) (r : VRegs) (o : VArith)
  | vlogic (h : Hdr) (r : VRegs) (o : VArith)
  | vshift (h : Hdr) (r : VRegs) (o : VArith)
  | vrsh (h : Hdr) (r : VRegs) (o : VArith)
  | vrq (h : Hdr) (r : VRegs) (o : VArith) (sh vz : Nat) (z0 : Bool)
  | vcmp (h : Hdr) (r : VRegs) (o : VArith)
  | vsel (h : Hdr) (r : VRegs) (o : VArith)
  | vunary (h : Hdr) (r : VRegs) (o : VArith)
  | vclamp (h : Hdr) (r : VRegs) (o : VArith)
  | vfadd (h : Hdr) (r : VRegs) (o : VArith)
  | vfmul (h : Hdr) (r : VRegs) (o : VArith)
  | vfma (h : Hdr) (r : VRegs) (o : VArith)
  | vfminmax (h : Hdr) (r : VRegs) (o : VArith)
  | vfun (h : Hdr) (r : VRegs) (o : VArith)
  | vfcmp (h : Hdr) (r : VRegs) (o : VArith)
  | vcvt (h : Hdr) (r : VRegs) (o : VArith)
  | vqx4Enc (h : Hdr) (r : VRegs) (o : VArith)
  | vqx4Dec (h : Hdr) (r : VRegs) (o : VArith)
  | vscale (h : Hdr) (r : VRegs) (o : VArith)
  | vscaleBlk (h : Hdr) (r : VRegs) (o : VArith)
  | vred (h : Hdr) (r : VRegs) (o : VArith)
  | vfred (h : Hdr) (r : VRegs) (o : VArith)
  | vredi (h : Hdr) (r : VRegs) (o : VArith)
  -- Rows that stand last in the table
  | sliceExpiry (task : Nat)
  | unsupportedTypePacket (h : PktHdr) (type : Nat)
  | ideKmKeyProgramming (r : SpdmReq) (stream : Nat)
  -- Steps that carry no input, standing last because Lean's runtime numbers only 244
  -- constructors with fields. Those of one core act on the core of the step (`State.cur`)
  | tokenPassThrough
  | resultLand
  | giveOverflowRelease
  | mxeCompletion
  | barrierDepart
  | firmwareEventStart
  | firmwareContextFault
  | yieldHalt
  | forcedCut
  -- Those of one port of the router act on the port of the step
  | flowReportTimer
  | bulkAgePromote
  | detectorFire
  | keyUpdateStart
  | keySwitch
  | linkFail
  | pstatRetrain
  -- Those of one queue of the front end act on the queue of the step
  | slotGrant
  | slotEvict
  | queueEnable
  | queueDisable
  | queueRestart
  | stackReread
  | nackReread
  | interruptCoalesceTimer
  | depSatisfied
  | signalWrite
  | speculationStart
  -- Those of the module
  | thermalShutdown
  | packetRoute
  | timeSend
  | timeLostTimeout
  | sidingDrain
  | staffHoldTimeout
  | staffRegenerate
  | xinvAll
  | xinvComplete
  | arbitrationPromote
  | batchSign
  | fedWakeup
  | taskStart
  | captureTargetReached
  | errorWindow
  | powerLoss
deriving DecidableEq, Repr

end Sys2Proof
end

