-- ==== Sys2Proof/Machine/CoreState.lean ====
section
/-!
DEFINITION. The state of one tile core: its streams and the two SCU contexts, the copy
engines, the matrix and the vector engine, the interlock ring and the port unit. Plain data.
-/

namespace Sys2Proof.Machine

/-- A 256-bit digest. -/
abbrev Digest := BitVec 256

/-- A coordinate register: four 24-bit signed components (R105). -/
structure Coord where
  x : BitVec 24
  y : BitVec 24
  z : BitVec 24
  w : BitVec 24
deriving DecidableEq, Repr

/-- The origin (0, 0, 0, 0). -/
def Coord.zero : Coord := { x := 0, y := 0, z := 0, w := 0 }

/-- What one position of a program covers (R69): for each engine of the core, in ring order, how
many instructions of its stream; and of other cores, what it has read or acquired from them (items 3
and 4): for 1024 · task + core, how many instructions of the SCE stream there. -/
structure Clock where
  idx  : List Nat
  far  : SMap Nat := []
deriving DecidableEq, Repr

/-- Covers nothing. -/
def Clock.zero : Clock := { idx := [0, 0, 0, 0, 0] }

/-- An active loop level: body start and end as word offsets, and the remaining count (R102). -/
structure LoopLevel where
  start : Nat
  stop  : Nat
  count : Nat
deriving DecidableEq, Repr

/-- The VLOOP state (Table 12.1, R337). -/
structure VLoop where
  count : Nat
  iter  : Nat
  start : Nat
  stop  : Nat
  rb    : Nat
  rlm1  : Nat
  rs    : Nat
deriving DecidableEq, Repr

/-- An AT prefix waiting for the instruction it governs (R98): where the AT stands, its stamp,
whether it acts as AT.LAX, and the interlock counts of its words. -/
structure AtPrefix where
  pc    : Nat
  stamp : Nat
  lax   : Bool
  wp    : Nat
  wn    : Nat
  gp    : Nat
  gn    : Nat
deriving DecidableEq, Repr

/-- The arrival of an SCU at a barrier: the scope, the reduction it asks for (none for BAR), its
contribution, the destination of BARRED, and the words of the instruction for its leaf. -/
structure BarHold where
  scope   : Nat
  rop     : Option Nat
  contrib : Word
  dst     : Nat
  hdr     : Hdr
  words   : List Nat
  gen     : Nat
deriving DecidableEq, Repr

/-- Why a stream holds at the instruction named by its program counter (Table 16.2, HOLD). -/
inductive Hold where
  | none
  | waitt (target : Nat)
  | bar (b : BarHold)
  | rwait (target : Nat)
deriving DecidableEq, Repr

/-- When an instruction's gives fall due (R24): at a tick, or when its command completes. -/
inductive GiveDue where
  | tick (t : Nat)
  | command (sidx : Nat)
deriving DecidableEq, Repr

/-- Gives of an issued instruction not yet performed, with what their tokens cover. -/
structure Give where
  sidx : Nat
  gp   : Nat
  gn   : Nat
  due  : GiveDue
  clk  : Clock
deriving DecidableEq, Repr

/-- A token on its way: the queue it will stand in, the tick on which it can be seen there, and
what it covers (R25, R27, R71). -/
structure Passing where
  queue  : Nat
  arrive : Nat
  clk    : Clock
deriving DecidableEq, Repr

/-- The bytes of an image a leaf will digest: its role, its format code, its scale block code, its
extents and its bytes so far (Tables 14.6, 16.8b). `heads` holds the digests of complete chunks
before `bytes`, where a save area brought them (R438). Roles from 5 up are the model's own: 5 the
absent block of an empty group of MMAG (R382), 16 the scale bytes a copy command has read, 17 the
indices of CPIG and CPOS. -/
structure Image where
  role  : Nat
  fmt   : Nat
  blk   : Nat
  ext   : List Nat
  bytes : List Byte
  heads : List Digest := []
deriving DecidableEq, Repr

/-- A leaf in formation: the stream index of its instruction and, once that has completed, the
192 bytes of its record and the images it digests; `none` until then. `drop` marks an instruction
that turned out to emit none (R346). -/
structure Forming where
  sidx   : Nat
  record : Option (List Byte)
  images : List Image
  drop   : Bool
deriving DecidableEq, Repr

/-- A stream's Merkle mountain range (R353): the leaf count and the peaks, oldest first, each
with its height. -/
structure Range where
  count : Nat
  peaks : List (Nat × Digest)
deriving DecidableEq, Repr

/-- The empty range. -/
def Range.empty : Range := { count := 0, peaks := [] }

/-- One instruction stream (02; 05; Table 16.2). -/
structure Stream where
  pc      : Nat
  off     : Nat            -- byte offset of the stream in the kernel image (SOFF)
  len     : Nat            -- SLEN in words
  loops   : List LoopLevel -- innermost first
  ended   : Bool
  at?     : Option AtPrefix
  atd     : Bool           -- AT-done (R99): the AT at the pc is taken as satisfied
  hold    : Hold
  gives   : List Give      -- oldest first
  sidx    : Nat            -- stream index (R349)
  ready   : Nat            -- first tick on which condition 2 of R94 holds
  fresh   : Bool           -- no instruction has been held at this pc by the program yet
  withheld : Bool          -- a device delay has withheld the instruction at the pc (R98)
  frozen  : Option Nat     -- the last tick on which a device delay withheld issue (R98)
  clk     : Clock
  form    : List Forming   -- leaves in formation, oldest first
  range   : Range
  base    : Range          -- the range at the start or at the restore
  past    : List (Nat × Digest)  -- leaves since then: stream index and digest, oldest first
deriving DecidableEq, Repr

/-- An empty stream, which has ended (R35). -/
def Stream.empty : Stream :=
  { pc := 0, off := 0, len := 0, loops := [], ended := true, at? := none, atd := false
    hold := .none, gives := [], sidx := 0, ready := 0, fresh := true, withheld := false, frozen := none
    clk := Clock.zero, form := [], range := Range.empty, base := Range.empty, past := [] }

/-- A result of the SCU that has not landed (R171, R173): its tick, the belt slot it was pushed
into, the named register, and its place in issue order. -/
structure Landing where
  due   : Nat
  slot  : Nat
  named : Option Nat
  seq   : Nat
  value : Word
deriving DecidableEq, Repr

/-- One SCU context: the belt as a ring of slots and a head, the named registers, the results
that have not landed, and for each named register the issue order of the result it holds. -/
structure ScuCtx where
  head  : Nat
  slots : SMap Word
  named : SMap Word
  seqs  : SMap Nat
  seq   : Nat
  pend  : List Landing
deriving DecidableEq, Repr

/-- A store of the SCU that waits in the write queue for what its release covers (R80, R193): the
stream index of its instruction, its bytes by address, its scope and what it covers. -/
structure HeldStore where
  sidx  : Nat
  cells : List (Nat × Byte)
  scope : Nat
  clk   : Clock
deriving DecidableEq, Repr

/-- A context with all registers zero. -/
def ScuCtx.zero : ScuCtx :=
  { head := 0, slots := [], named := [], seqs := [], seq := 0, pend := [] }

/-- The record of the first error of a copy engine (R216, R244). -/
structure FirstError where
  fseq  : Nat
  fcode : Nat
  foff  : Nat
  part  : Bool
  late  : Bool
deriving DecidableEq, Repr

/-- No error. -/
def FirstError.none : FirstError := { fseq := 0, fcode := 0, foff := 0, part := false, late := false }

/-- Where a copy command stands. -/
inductive CmdPhase where
  /-- It can go on from its resume offset. -/
  | running
  /-- It waits for the event it posted (R132, R139). -/
  | paused (event : Nat)
  /-- An FSIG.REL waits for its covered set; or packets wait for settlement. -/
  | waiting
  /-- It has completed; its gives are not performed yet. -/
  | done
deriving DecidableEq, Repr

/-- The aggregate of a multicast (Tables 7.6, 10.8). -/
structure Mcast where
  val    : Bool
  code   : Nat
  part   : Bool
  group  : Nat
  seq    : Nat
  okn    : Nat
  nakn   : Nat
  nake   : List (Nat × Nat)   -- member and reason, in the order reported
  nakmap : BitVec 512
deriving DecidableEq, Repr

/-- No multicast yet. -/
def Mcast.empty : Mcast :=
  { val := false, code := 0, part := false, group := 0, seq := 0, okn := 0, nakn := 0, nake := []
    nakmap := 0 }

/-- A read the load copy engine has sent and not had answered (R246): its tag, its command, the
address its tensor gave the bytes, their number, whether they fill the fabric cache, and when. -/
structure ReadWait where
  tag  : Nat
  sidx : Nat
  va   : Nat
  len  : Nat
  fill : Option Nat        -- line of the fabric cache
  tick : Nat
deriving DecidableEq, Repr

/-- A fabric store of a command that has not been injected yet: the packet, the byte offset in the
source access of its first byte and that of its segment, the members it covers when it is a copy of
a multicast, and whether the sender's commitments count it (R258). -/
structure Sending where
  pkt   : Packet
  off   : Nat
  seg   : Nat
  mask  : BitVec 512
  count : Bool
deriving DecidableEq, Repr

/-- Where one 64 KiB page of an access lies: its access mode, its home peer, the physical address
of the page there, and the key it is held under (R134, R135). -/
structure Target where
  mode : Nat
  peer : Nat
  base : Nat
  key  : Nat
deriving DecidableEq, Repr

/-- A copy command that holds a slot (R215, R242): the instruction and its words, the registers
read at issue, the circular slots of its tensors, how far it has come, its
status so far and its images. `next` counts the elements moved, `got` holds bytes that answered
reads brought, by name, and `pre` the translated pages of a segment that has begun (R132, R141). -/
structure Cmd where
  sidx   : Nat
  instr  : Instr
  words  : List Nat
  cd     : Coord
  cs     : Coord
  ci     : Coord
  slot   : Nat             -- SLOT of its record (R438): of CPIC's destination, the source, CPOS's indices, FLUSH's range
  slotD  : Nat             -- of FAT's target
  slotT  : Nat             -- of FAT's result
  next   : Nat
  got    : List (Nat × Byte)
  pre    : Option (List (Nat × Target))
  off    : Nat             -- resume offset in bytes of the source access (R132)
  phase  : CmdPhase
  status : Nat
  foff   : Nat
  mark   : Nat             -- commands before this stream index must complete first (R68)
  far    : SMap Nat        -- what its issue covers of other cores (R69, R255)
  images : List Image
  pkts   : Nat             -- packets sent so far: the next packet's ordinal (R357)
  old    : Word            -- the old value a FAT returned
  gvalid : Bool            -- the group entry read at issue (R242)
  gasid  : Nat
  gmap   : BitVec 512
  agg    : Mcast
  peer   : Nat             -- the home of a FAT's word
  pend   : List Sending    -- stores of the segment at hand that have not been injected
deriving DecidableEq, Repr

/-- An entry of the acknowledgement table (R245): the packet's TAG, its command, its line key and
the tick of its injection. -/
structure AckEntry where
  tag   : Nat
  sidx  : Nat
  dst   : Nat
  line  : Nat
  local? : Bool            -- keyed by the physical line at the home
  atm   : Bool
  sig   : Bool
  off   : Nat              -- byte offset in the source access (R244)
  seg    : Nat              -- that of its segment (R250)
  tick  : Nat
  mask  : BitVec 512       -- members not yet answered, for a multicast copy
deriving DecidableEq, Repr

/-- A count and a sum of packet digests for one peer (R358). -/
structure Commit where
  count : Nat
  sum   : BitVec 256
deriving DecidableEq, Repr

/-- No packet. -/
def Commit.zero : Commit := { count := 0, sum := 0 }

/-- The load copy engine (Table 9.1). -/
structure LceState where
  slots : List Cmd
  reads : List ReadWait
  incs  : List (Nat × Nat × Word)   -- increments by the tick on which they were performed (R228)
  rc    : SMap Word
  done  : Word
  errs  : Word
  first : FirstError
  qxm   : Bool
  satf  : Bool
  mark  : Nat
deriving DecidableEq, Repr

/-- The LCE at placement. -/
def LceState.zero : LceState :=
  { slots := [], reads := [], incs := [], rc := [], done := 0, errs := 0, first := FirstError.none, qxm := false
    satf := false, mark := 0 }

/-- What a command has added to the sender's commitments, kept apart until every earlier command has
injected its last packet or ended (R258, R259): whether it has done so itself, and the leaf of an
FSIG that waits for its sum, by the peer it names. -/
structure SendRec where
  sidx : Nat
  isOver : Bool
  sums : SMap Commit
  leaf : Option (Nat × Nat × List Nat)   -- peer, extra, words
deriving DecidableEq, Repr

/-- A store of a command that entered a line of the fabric cache and has not been written back, and
whether a write-back that carries it is under way (R72, R82). -/
structure Dirt where
  line : Nat
  sidx : Nat
  away : Bool
deriving DecidableEq, Repr

/-- The store copy engine (Table 10.1). -/
structure SceState where
  slots  : List Cmd
  ack    : List AckEntry
  commit : SMap Commit
  sends  : List SendRec
  dirt   : List Dirt
  done   : Word
  errs   : Word
  first  : FirstError
  last   : Mcast
  late   : List Nat        -- commands that have already counted a late error
  mark   : Nat
deriving DecidableEq, Repr

/-- The SCE at placement. -/
def SceState.zero : SceState :=
  { slots := [], ack := [], commit := [], sends := [], dirt := [], done := 0, errs := 0, first := FirstError.none
    last := Mcast.empty, late := [], mark := 0 }

/-- A block in a queue or a weight slot (Table 11.1): format, scale block code, rows or columns,
K, element codes with k fastest, scale bytes, and the digest of the block read. -/
structure Block where
  fmt    : Nat
  blk    : Nat
  rows   : Nat
  k      : Nat
  elems  : List Nat
  scales : List Nat
  start  : Nat             -- where the first element stands in its scale block
  digest : Digest
deriving DecidableEq, Repr

/-- A loaded weight slot with its source reference (R273). -/
structure WSlot where
  block  : Block
  ts     : Nat
  origin : Coord
  e0     : Nat
  e1     : Nat
  cel    : Bool
deriving DecidableEq, Repr

/-- What an MXE instruction writes when it completes. Bytes are given by address, value and the
nibbles written (1 low, 2 high). -/
inductive MxeWrite where
  | elem (key : Nat) (x : Elem)
  | rowExp (key : Nat) (e : Int)
  | clearTile (an : Nat)
  | slot (w : Nat) (b : Option WSlot)
  | entry (buf : Nat) (b : Block)
  | bytes (bs : List (Nat × Nat × Nat))
  | clearMxst
deriving DecidableEq, Repr

/-- An MXE instruction in progress (R268, R270): its unit, when the unit is free and when it
completes, the resources it reads and writes, what its completion does, and its leaf record. `sums`
marks MMA, MMAG, AADD and AWR (R293). -/
structure MxeOp where
  unit   : Nat
  sidx   : Nat
  free   : Nat
  due    : Nat
  reads  : List Nat
  writes : List Nat
  effect : List MxeWrite
  mxst   : Nat
  trap   : Bool
  uncorr : Bool
  foff   : Nat
  yield  : Bool
  sums   : Bool
  record : Option (List Byte)
  images : List Image
deriving DecidableEq, Repr

/-- The matrix engine (Table 11.1). Each queue has two storage buffers, used in turn: the block read
by the n-th MRD of queue q stands in buffer 2 · q + n mod 2; `wr` and `rd` count the entries of each
queue made and removed, in stream order (R272). Element j of row r of tile n has key
16384 · n + 128 · r + j; its row exponent has key 128 · n + r. -/
structure MxeState where
  bufs   : SMap (Option Block)
  wr     : SMap Nat
  rd     : SMap Nat
  slots  : SMap (Option WSlot)
  acc    : SMap Elem
  rexp   : SMap Int
  live   : BitVec 8
  ovt    : Bool
  mxst   : BitVec 64
  flight : List MxeOp      -- in issue order
  writer : SMap Nat        -- for each tile, 1 + the stream index of its last issued writer
  yield  : Bool            -- a yield point has issued: nothing issues after it (R293)
  broken : Bool            -- an instruction that met uncorrectable data is in progress: its fault comes at its completion (R276, R349)
  doneAt : Nat             -- the tick of the last completion
  done   : List Nat        -- what the instructions completed on that tick wrote (R268)
deriving DecidableEq, Repr

/-- The MXE at placement. -/
def MxeState.zero : MxeState :=
  { bufs := [], wr := [], rd := [], slots := [], acc := [], rexp := [], live := 0, ovt := false
    mxst := 0, flight := [], writer := [], yield := false, broken := false, doneAt := 0, done := [] }

/-- A VXE result that has not landed: a vector register, or a mask (R305). -/
structure VLanding where
  due   : Nat
  mask  : Bool
  reg   : Nat
  value : BitVec 4096
deriving DecidableEq, Repr

/-- The open VSEG segment (R339): issues, blocks read, their digests, the words issued, and the
digest of the snapshot at its opening. After a restore, `rheads` and `wheads` hold the digests of the
complete chunks that the block digests and the words before these make (R475). The snapshot's bytes
and the blocks' images are those that a capture writes out (R382); a save area does not hold them. -/
structure Segment where
  issues : Nat
  blocks : Nat
  reads  : List Digest
  words  : List Nat
  snap   : Digest
  rheads : List Digest
  wheads : List Digest
  snapIm : List Byte
  ims    : List Image
deriving DecidableEq, Repr

/-- A segment in which nothing has issued. -/
def Segment.empty : Segment :=
  { issues := 0, blocks := 0, reads := [], words := [], snap := 0, rheads := [], wheads := [], snapIm := [], ims := [] }

/-- A VXE floating-point trap to be raised at its instruction's completion (R342). -/
structure VTrap where
  due  : Nat
  foff : Nat
deriving DecidableEq, Repr

/-- The vector engine (Table 12.1). -/
structure VxeState where
  v       : SMap (BitVec 4096)
  m       : SMap (BitVec 512)
  spill   : SMap (BitVec 4096)
  vloop   : Option VLoop
  vxst    : Word
  vxctl   : Word
  vbstall : Word
  pend    : List VLanding
  banks   : List (Nat × Nat × Nat)   -- core, bank and the last tick it is held (R306)
  seg     : Segment
  traps   : List VTrap
deriving DecidableEq, Repr

/-- The VXE with every register zero. -/
def VxeState.zero : VxeState :=
  { v := [], m := [], spill := [], vloop := none, vxst := 0, vxctl := 0, vbstall := 0, pend := []
    banks := [], traps := []
    seg := Segment.empty }

/-- An entry of a translation cache (R133, R140): the page it serves and the accesses gathered. -/
structure TlbEntry where
  asid  : Nat
  va    : Nat              -- page base
  size  : Nat
  lo    : Nat              -- the PTE's low word as walked
  hi    : Nat
  pte   : Nat              -- where the PTE lies
  count : Nat
deriving DecidableEq, Repr

/-- A key of the digest cache (R126). -/
structure DigestKey where
  tid    : Nat
  origin : Coord
  slot   : Nat
  cells  : List Nat        -- the 64-byte lines covered
deriving DecidableEq, Repr

/-- A firmware event (Table 8.2). -/
structure FwEvent where
  kind : Nat
  s1   : Word
  s2   : Word
  s3   : Word
deriving DecidableEq, Repr

/-- An engine fault whose frame has not been written yet (R426): the engine, its cause, its codes, the word it
names, and its tick. -/
structure Faulting where
  eng   : Nat
  cause : Nat
  ecode : Nat
  tcode : Nat
  foff  : Nat
  tick  : Nat
deriving DecidableEq, Repr

/-- One physical core. Items of a virtual core are those of the task that occupies it. -/
structure Core where
  task   : Option Nat      -- the task id that occupies the core (R21)
  vcore  : Nat
  halted : Bool            -- the user context is stopped by an engine fault (R426)
  fault  : Option Faulting -- the fault whose frame waits for the instructions that have issued
  cut    : Option Nat      -- issue has halted for a cut on this tick (R432)
  cutAt  : Option Nat      -- issue halts on this tick (R293)
  cutBy  : Nat             -- kind of the cut taken, or coming (Table 16.6)
  user   : ScuCtx
  fw     : ScuCtx
  scu    : Stream
  lce    : Stream
  mxe    : Stream
  vxe    : Stream
  sce    : Stream
  fws    : Stream          -- the firmware context's program counter and loops
  fwBusy : Bool            -- it handles an event (R175)
  fwDead : Bool            -- it has been halted by a fault (R176)
  fwvec  : Nat
  fwq    : List FwEvent    -- at most 16, oldest first
  fwWait : List FwEvent    -- events whose sources wait for room
  fwSlot : Bool            -- the firmware context took the SCU's issue slot on this tick (R37)
  usrSlot : Bool           -- the user context took it
  fwIss  : Nat             -- bit i: the firmware context took the slot 1 + i ticks ago
  fwHad  : Nat             -- bit i: the user context did not take it then
  fwWas  : Nat             -- bit i: the firmware context was handling an event then
  stores : List HeldStore  -- releasing stores that wait, oldest first (R193)
  stalls : SMap Nat        -- by engine: how long arbitration or a retried error delays its next read (R180, R305)
  dz     : Bool
  yreq   : Bool
  dgstall : Word
  sealWait : Bool          -- a DGSEAL was tried on this tick and held (R365)
  iq     : SMap (List Clock)
  spent  : SMap Nat        -- tokens of each queue consumed on this tick: they still count (R25)
  pass   : List Passing
  coords : SMap Coord      -- key 16 · engine + register
  cursors : SMap Nat       -- key 256 · engine + tensor (R31)
  descs  : SMap (BitVec 512)
  lceS   : LceState
  sceS   : SceState
  mxeS   : MxeState
  vxeS   : VxeState
  tlb    : List TlbEntry   -- most recently used first
deriving DecidableEq, Repr

/-- A core that no task occupies. -/
def Core.idle : Core :=
  { task := none, vcore := 0, halted := false, fault := none, cut := none, cutAt := none, cutBy := 0
    user := ScuCtx.zero, fw := ScuCtx.zero
    scu := Stream.empty, lce := Stream.empty, mxe := Stream.empty, vxe := Stream.empty
    sce := Stream.empty, fws := { Stream.empty with len := 16384 }
    fwBusy := false, fwDead := false, fwvec := 0, fwq := [], fwWait := [], fwSlot := false
    usrSlot := false, fwIss := 0, fwHad := 0, fwWas := 0, stores := [], stalls := []
    dz := false, yreq := false, dgstall := 0, sealWait := false, iq := [], spent := [], pass := [], coords := [], cursors := []
    descs := [], lceS := LceState.zero, sceS := SceState.zero, mxeS := MxeState.zero
    vxeS := VxeState.zero, tlb := [] }

end Sys2Proof.Machine
end

