-- ==== Sys2Proof/Machine/Digest.lean ====
section
/-!
DEFINITION. SHAKE256 of FIPS 202 cut to 32 bytes, byte strings of numbers, and the digests and
roots of the retirement tree (13).
-/

namespace Sys2Proof.Machine

/-! ## Byte strings -/

/-- The `n` bytes of a number, lowest first (R1). -/
def leBytes : Nat → Nat → List Byte
  | 0, _ => []
  | n + 1, v => BitVec.ofNat 8 v :: leBytes n (v / 256)

/-- The number that bytes hold, lowest first (R1). -/
def leNat : List Byte → Nat
  | [] => 0
  | b :: bs => b.toNat + 256 * leNat bs

/-- `n` zero bytes. -/
def zeros (n : Nat) : List Byte := List.replicate n 0

/-- The bytes padded with zeros to a multiple of `k`. -/
def padTo (k : Nat) (bs : List Byte) : List Byte := bs ++ zeros ((k - bs.length % k) % k)

/-- Pieces of `k` elements, the last one possibly shorter; `fuel` bounds their number. -/
def pieces {α : Type} (k : Nat) : Nat → List α → List (List α)
  | 0, _ => []
  | _, [] => []
  | fuel + 1, xs => xs.take k :: pieces k fuel (xs.drop k)

/-! ## Keccak-f[1600] -/

/-- Round constants. -/
def roundConstants : List Word :=
  [0x1, 0x8082, 0x800000000000808A, 0x8000000080008000, 0x808B, 0x80000001, 0x8000000080008081,
   0x8000000000008009, 0x8A, 0x88, 0x80008009, 0x8000000A, 0x8000808B, 0x800000000000008B,
   0x8000000000008089, 0x8000000000008003, 0x8000000000008002, 0x8000000000000080, 0x800A,
   0x800000008000000A, 0x8000000080008081, 0x8000000000008080, 0x80000001, 0x8000000080008008]

/-- Rotation of lane x + 5y. -/
def rotations : List Nat :=
  [0, 1, 62, 28, 27, 36, 44, 6, 55, 20, 3, 10, 43, 25, 39, 41, 45, 15, 21, 8, 18, 2, 61, 56, 14]

/-- Lane `i` of a state. -/
def lane (a : List Word) (i : Nat) : Word := a.getD i 0

/-- One round. -/
def keccakRound (a : List Word) (rc : Word) : List Word :=
  let c := (List.range 5).map fun x =>
    lane a x ^^^ lane a (x + 5) ^^^ lane a (x + 10) ^^^ lane a (x + 15) ^^^ lane a (x + 20)
  let d := (List.range 5).map fun x => lane c ((x + 4) % 5) ^^^ (lane c ((x + 1) % 5)).rotateLeft 1
  let t := (List.range 25).map fun i => lane a i ^^^ lane d (i % 5)
  let b := (List.range 25).map fun j =>
    let x := j % 5
    let y := j / 5
    let i := (x + 3 * y) % 5 + 5 * x
    (lane t i).rotateLeft (rotations.getD i 0)
  (List.range 25).map fun j =>
    let x := j % 5
    let y := 5 * (j / 5)
    let v := lane b j ^^^ (~~~(lane b (y + (x + 1) % 5)) &&& lane b (y + (x + 2) % 5))
    if j = 0 then v ^^^ rc else v

/-- The permutation. -/
def keccakF (a : List Word) : List Word := roundConstants.foldl keccakRound a

/-- A block of 136 bytes, absorbed. -/
def absorb (a : List Word) (block : List Byte) : List Word :=
  let ls := (pieces 8 17 block).map fun p => BitVec.ofNat 64 (leNat p)
  keccakF ((List.range 25).map fun i => lane a i ^^^ lane ls i)

/-- The padded message of SHAKE256: the suffix 1111, then 10*1. -/
def shakePad (m : List Byte) : List Byte :=
  let k := 136 - m.length % 136
  if k = 1 then m ++ [0x9F] else m ++ [0x1F] ++ zeros (k - 2) ++ [0x80]

/-- SHAKE256 cut to its first 32 bytes (13), as a number read lowest byte first. -/
def shake (m : List Byte) : Digest :=
  let p := shakePad m
  let a := (pieces 136 (p.length / 136) p).foldl absorb (List.replicate 25 0)
  (lane a 3) ++ (lane a 2) ++ (lane a 1) ++ (lane a 0)

/-- The 32 bytes of a digest. -/
def digBytes (d : Digest) : List Byte := leBytes 32 d.toNat

/-! ## Digests of the tree (R348, R352 to R356) -/

/-- digest(t) of an image with format code `f` (R352). -/
def imageDigest (f : Nat) (image : List Byte) : Digest :=
  let cs := pieces 1024 image.length image
  let cds := cs.mapIdx fun i c => digBytes (shake (0x01 :: BitVec.ofNat 8 f :: leBytes 4 i ++ c))
  shake (0x02 :: leBytes 4 cs.length ++ cds.flatten)

/-- The digests of the chunks of an image from chunk `k` up (R352). -/
def chunkDigests (f k : Nat) (bs : List Byte) : List Digest :=
  (pieces 1024 bs.length bs).mapIdx fun i c =>
    shake (0x01 :: BitVec.ofNat 8 f :: leBytes 4 (k + i) ++ c)

/-- The digest of an image. -/
def Image.digest (im : Image) : Digest :=
  let cds := im.heads ++ chunkDigests im.fmt im.heads.length im.bytes
  shake (0x02 :: leBytes 4 cds.length ++ cds.flatMap digBytes)

/-- The fields of a leaf record (Table 13.2) that the engine chapters give. -/
structure LeafBody where
  kind  : Nat
  nmode : Nat
  opd0  : Option Digest
  opd1  : Option Digest
  opd2  : Option Digest
  res   : Option Digest
  extra : Nat
deriving DecidableEq, Repr

/-- The bytes of a digest that may be absent. -/
def optDig (d : Option Digest) : List Byte :=
  match d with
  | none => zeros 32
  | some d => digBytes d

/-- The 192-byte leaf record (Table 13.2): `e` is the ring index, `v` the virtual core. -/
def leafRecord (e v sidx : Nat) (words : List Nat) (b : LeafBody) : List Byte :=
  [0x4C, BitVec.ofNat 8 b.kind, BitVec.ofNat 8 e, BitVec.ofNat 8 words.length] ++ leBytes 2 v
    ++ zeros 2 ++ leBytes 8 (sidx % 2 ^ 40)
    ++ ((words ++ List.replicate (4 - words.length) 0).take 4).flatMap (leBytes 4)
    ++ leBytes 4 b.nmode ++ zeros 4 ++ optDig b.opd0 ++ optDig b.opd1 ++ optDig b.opd2
    ++ optDig b.res ++ leBytes 8 b.extra ++ zeros 16

/-- leaf(rec) (R9). -/
def leafDigest (rec : List Byte) : Digest := shake rec

/-- A node over two children. -/
def nodeDigest (l r : Digest) : Digest := shake (0x4E :: digBytes l ++ digBytes r)

/-- Peaks after the merges of R353, newest first, and the nodes formed, oldest first: `pos` is
the first leaf past the newest peak. -/
def mergePeaks : Nat → List (Nat × Digest) → Nat → List (Nat × Digest)
    × List (Nat × Nat × Digest)
  | fuel + 1, (h, r) :: (h', l) :: ps, pos =>
    if h = h' then
      let d := nodeDigest l r
      let (qs, ns) := mergePeaks fuel ((h + 1, d) :: ps) pos
      (qs, (h + 1, pos - 2 ^ (h + 1), d) :: ns)
    else ((h, r) :: (h', l) :: ps, [])
  | _, ps, _ => (ps, [])

/-- The range after a leaf, and the nodes it completes: height, first leaf, digest (R353). -/
def Range.append (r : Range) (x : Digest) : Range × List (Nat × Nat × Digest) :=
  let (ps, ns) := mergePeaks (r.peaks.length + 1) ((0, x) :: r.peaks.reverse) (r.count + 1)
  ({ count := r.count + 1, peaks := ps.reverse }, ns)

/-- The stream root (R353). -/
def Range.root (r : Range) : Digest :=
  shake (0x52 :: leBytes 8 r.count ++ r.peaks.flatMap fun p => digBytes p.2)

/-- The core root (R354). -/
def coreRoot (streams : List Digest) : Digest := shake (0x43 :: streams.flatMap digBytes)

/-- A commitment table (R359). -/
def commitTable (m : SMap Commit) : List Byte :=
  (m.filter fun e => e.2.count != 0).flatMap fun e =>
    leBytes 2 e.1 ++ zeros 6 ++ leBytes 8 (e.2.count % 2 ^ 64) ++ leBytes 32 e.2.sum.toNat

/-- The task root from the core roots and the fabric commitment (R354). -/
def rootOver (task n : Nat) (cores : List Digest) (fc : List Byte) : Digest :=
  shake (0x54 :: leBytes 4 task ++ leBytes 2 n ++ cores.flatMap digBytes ++ fc)

/-- The task root (R354, R359). -/
def taskRoot (task n : Nat) (cores : List Digest) (send recv : SMap Commit) : Digest :=
  rootOver task n cores
    (digBytes (imageDigest 0x01 (commitTable send)) ++ digBytes (imageDigest 0x01 (commitTable recv)))

/-- The interim root of DGSEAL (R362). -/
def sealRoot (task v : Nat) (streams : List Digest) : Digest :=
  shake (0x53 :: leBytes 4 task ++ leBytes 2 v ++ streams.flatMap digBytes)

/-- The 64 bytes of a packet's header flit (Table 7.2). -/
def headerFlit (p : Packet) : List Byte :=
  leBytes 8 (p.type * 2 ^ 56 + b2n p.urg * 2 ^ 55 + b2n p.sid * 2 ^ 54 + b2n p.det * 2 ^ 53
      + p.npay * 2 ^ 50 + p.hops * 2 ^ 48 + p.src * 2 ^ 39 + p.dst * 2 ^ 30 + p.via * 2 ^ 21
      + p.score * 2 ^ 11)
    ++ leBytes 8 (p.asid * 2 ^ 52 + p.va)
    ++ leBytes 8 (p.task * 2 ^ 32 + p.tag * 2 ^ 16)
    ++ leBytes 8 (p.colmask * 2 ^ 48 + p.group * 2 ^ 40 + p.aop * 2 ^ 36 + b2n p.rel * 2 ^ 35
      + p.lenm1 * 2 ^ 26)
    ++ leBytes 8 p.opa ++ leBytes 8 p.opb ++ leBytes 8 (p.status * 2 ^ 56) ++ leBytes 8 p.aux

/-- The digest of a packet (R356). -/
def packetDigest (p : Packet) : Digest :=
  shake (0x50 :: headerFlit { p with det := false, hops := 0, via := 0, sid := false }
    ++ p.payload.flatMap (leBytes 64))

/-- A commitment after one more packet (R358). -/
def Commit.add (c : Commit) (p : Packet) : Commit :=
  { count := c.count + 1, sum := c.sum + packetDigest p }

end Sys2Proof.Machine
end

