-- ==== Sys2Proof/Machine/Packets.lean ====
section
/-!
DEFINITION. The packets of a queue's ring: their header, their fields, the checks of Table 15.4
and the step of the opcode table that each packet is (15, R392 to R407; 14, R372; 16, R431 to
R440).
-/

namespace Sys2Proof.Machine

/-! ## Fields (R392) -/

/-- A field of a packet: the unit of its header, its tag, and the bytes of its value. -/
structure PktField where
  unit  : Nat
  tag   : Nat
  bytes : List Byte
deriving DecidableEq, Repr

/-- The value of a field as a number. -/
def PktField.num (f : PktField) : Nat := leNat f.bytes

/-- The fields from unit `u` on, or the unit of the field that runs past the packet's end. Reserved
bits of a field header are ignored (R3). -/
def parseFields (u : Nat) : Nat → List Nat → Except Nat (List PktField)
  | _, [] => .ok []
  | 0, _ => .error u
  | fuel + 1, w :: ws =>
    let len := bits w 31 16
    let n := (len + 7) / 8
    if ws.length < n then .error u
    else
      match parseFields (u + 1 + n) fuel (ws.drop n) with
      | .error k => .error k
      | .ok fs => .ok ({ unit := u, tag := bits w 15 0, bytes := ((ws.take n).flatMap (leBytes 8)).take len } :: fs)

/-- The fields of a packet given whole, none where they do not parse. -/
def fieldsOf (raw : List Nat) : List PktField :=
  match parseFields 1 raw.length (raw.drop 1) with
  | .ok fs => fs
  | .error _ => []

/-- The fields of a tag, in order. -/
def withTag (tag : Nat) (fs : List PktField) : List PktField := fs.filter fun f => f.tag == tag

/-- The value of the first field of a tag; 0 where it is absent. -/
def fieldNum (tag : Nat) (fs : List PktField) : Nat := (((withTag tag fs).head?.map PktField.num).getD 0 : Nat)

/-- The unit of field `k` of a tag in a packet (DETAIL of MALFORMED, Table 15.6); 0 where there is
none. -/
def unitOf (raw : List Nat) (tag k : Nat) : Nat := (((withTag tag (fieldsOf raw)).drop k).head?.map (·.unit)).getD 0

/-- What a type says of a field: its tag, its length (any where none), how often it may stand, and
whether it must. -/
structure FieldRule where
  tag  : Nat
  len  : Option Nat
  max  : Nat
  need : Bool
deriving DecidableEq, Repr

/-- The fields of a LAUNCH and of a NODE (Table 15.7). -/
def launchRules : List FieldRule :=
  [ { tag := 0x8001, len := some 16, max := 1, need := true }
  , { tag := 0x8003, len := some 4, max := 1, need := true }
  , { tag := 0x8004, len := some 8, max := 1, need := true }
  , { tag := 0x8006, len := none, max := 1, need := false }
  , { tag := 0x8007, len := some 16, max := 32, need := false }
  , { tag := 0x8008, len := some 72, max := 256, need := false }
  , { tag := 0x8009, len := some 16, max := 1, need := false }
  , { tag := 0x800A, len := some 16, max := 1, need := false } ]

/-- A field that must stand once, with a length. -/
def oneField (tag len : Nat) : FieldRule := { tag := tag, len := some len, max := 1, need := true }

/-- A field that may stand once, with a length. -/
def optField (tag len : Nat) : FieldRule := { tag := tag, len := some len, max := 1, need := false }

/-- The fields of a type (Tables 15.5, 15.7, 16.4; R372, R400 to R404); none for a reserved type. -/
def typeRules (type : Nat) : Option (List FieldRule) :=
  match type with
  | 0x0001 => some launchRules
  | 0x0002 => some [{ tag := 0x8010, len := none, max := 64, need := false }
                  , { tag := 0x8011, len := some 4, max := 256, need := false }]
  | 0x0003 => some [oneField 0x8012 16]
  | 0x0004 => some [oneField 0x8013 8, oneField 0x8014 8]
  | 0x0010 => some [oneField 0x8003 4, oneField 0x8040 8, optField 0x8041 4]
  | 0x0011 => some [oneField 0x8003 4, oneField 0x8042 16, optField 0x8043 4]
  | 0x0012 => some [oneField 0x8003 4, oneField 0x8042 16, optField 0x8044 8]
  | 0x0020 => some []
  | 0x0021 | 0x0022 | 0x0023 => some [{ tag := 0x8030, len := none, max := 1, need := true }]
  | 0x0030 => some [oneField 0x8020 72]
  | 0x0031 => some [oneField 0x8021 8, oneField 0x8022 8, oneField 0x8023 4]
  | _ => none

/-- Whether a type is privileged (Table 15.5). -/
def privType (type : Nat) : Bool := [0x10, 0x11, 0x12, 0x21, 0x22, 0x23, 0x30, 0x31].contains type

/-- A settlement: status, tag and DETAIL (Table 15.6). -/
structure Verdict where
  status : Nat
  tag    : Nat
  detail : Nat
deriving DecidableEq, Repr

/-- Checks 6 and 7 of Table 15.4: an unknown mandatory field, then a malformed known one; a required
field that is absent has no unit, and its DETAIL is 0. -/
def checkFields (rules : List FieldRule) (fs : List PktField) : Option Verdict :=
  let known (f : PktField) : Option FieldRule := rules.find? fun r => r.tag == f.tag
  match fs.find? fun f => decide (2 ^ 15 ≤ f.tag) && (known f).isNone with
  | some f => some { status := 3, tag := f.tag, detail := f.unit }
  | none =>
    let bad (k : Nat) (f : PktField) : Bool :=
      match known f with
      | none => false
      | some r => (r.len.any fun n => n != f.bytes.length)
          || decide (r.max ≤ ((fs.take k).filter fun g => g.tag == f.tag).length)
    match (fs.mapIdx fun k f => (bad k f, f)).find? (·.1) with
    | some (_, f) => some { status := 1, tag := f.tag, detail := f.unit }
    | none =>
      match rules.find? fun r => r.need && !fs.any fun f => f.tag == r.tag with
      | some r => some { status := 1, tag := r.tag, detail := 0 }
      | none => none

/-! ## Values of fields -/

/-- An address of the front end whose low `low` bits are not part of it (Table 15.1). -/
def fedAddrOf (v low : Nat) : FedAddr := { sp := bit v 63, addr := bits v 62 low * 2 ^ low }

/-- A REGION (Table 15.7). -/
def regionOf (v : Nat) : Region :=
  { start := bits v 51 0, len := bits v 95 64, w := bit v 96, cel := bit v 97 }

/-- The fields of a LAUNCH or a NODE (Table 15.7). -/
def launchOf (fs : List PktField) : LaunchFields :=
  let k := fieldNum 0x8001 fs
  let c := fieldNum 0x8004 fs
  { kva := bits k 63 0, kid := bits k 95 64, taskId := fieldNum 0x8003 fs, cores := bits c 9 0
    shape := bits c 17 16
    arg := (((withTag 0x8006 fs).head?.map (·.bytes)).getD []).map BitVec.toNat
    regions := (withTag 0x8007 fs).map fun f => regionOf f.num
    descs := (withTag 0x8008 fs).map fun f => (bits f.num 7 0, (f.bytes.drop 8).map BitVec.toNat)
    podbar := (withTag 0x8009 fs).head?.map fun f =>
      { group := bits f.num 31 0, members := bits f.num 50 32, base := bits f.num 81 64 }
    audring := (withTag 0x800A fs).head?.map fun f =>
      { base := fedAddrOf (f.num % 2 ^ 64) 6, log := bits f.num 68 64 } }

/-- The units that hold some bytes. -/
def unitsOf (bs : List Byte) : List Nat := (pieces 8 bs.length bs).map leNat

/-- The fields of a NODE, its value being a field list at unit `f.unit + 1` of the packet (R400). -/
def nodeFields (f : PktField) : Except Nat (List PktField) :=
  let us := unitsOf f.bytes
  parseFields (f.unit + 1) us.length us

/-- The first check that a NODE's field list fails (R393, R400). -/
def nodeVerdict (f : PktField) : Option Verdict :=
  if f.bytes.length % 8 ≠ 0 then some { status := 1, tag := 0x8010, detail := f.unit }
  else match nodeFields f with
    | .error u => some { status := 1, tag := 0, detail := u }
    | .ok fs => checkFields launchRules fs

/-- The fields of a NODE that parses. -/
def nodeOf (f : PktField) : LaunchFields :=
  match nodeFields f with
  | .ok fs => launchOf fs
  | .error _ => launchOf []

/-- The first verdict of a list. -/
def firstVerdict : List (Option Verdict) → Option Verdict
  | [] => none
  | some v :: _ => some v
  | none :: vs => firstVerdict vs

/-! ## Values outside their ranges (R393, R398) -/

/-- The first field of a LAUNCH whose value lies outside its range, as tag and number among the
fields of that tag (Table 15.7). -/
def badField (f : LaunchFields) : Option (Nat × Nat) :=
  let region := (f.regions.mapIdx fun i r => (i, r)).find? fun e => e.2.len == 0
  let desc := (f.descs.mapIdx fun i d => (i, d)).find? fun e =>
    (f.descs.take e.1).any fun d => d.1 == e.2.1
  if f.kva % 64 ≠ 0 ∨ 2 ^ 52 ≤ f.kva then some (0x8001, 0)
  else if f.cores = 0 ∨ 512 < f.cores ∨ f.shape = 3 then some (0x8004, 0)
  else match region, desc with
    | some e, _ => some (0x8007, e.1)
    | none, some e => some (0x8008, e.1)
    | none, none =>
      if f.podbar.any fun p => p.members == 0 || decide (262144 < p.members) then some (0x8009, 0)
      else if f.audring.any fun r => decide (r.log < 10) || decide (28 < r.log) then some (0x800A, 0)
      else none

/-! ## A whole packet -/

/-- The header of a packet given whole (Table 15.3). -/
def pktHdr (q : Nat) (spawned : Bool) (raw : List Nat) : PktHdr :=
  let w := raw.headD 0
  { q := q, spawned := spawned, len := bits w 36 24, nospec := bit w 19, irq := bit w 18
    stopOnError := bit w 17, ordered := bit w 16, raw := raw }

/-- TYPE of a packet. -/
def pktType (h : PktHdr) : Nat := bits (h.raw.headD 0) 15 0

/-- Whether a reserved field of a packet header is not zero. -/
def headerBad (w : Nat) : Bool := bits w 39 37 != 0 || bits w 23 20 != 0

/-- The step of the opcode table that a packet is, with the bytes of its fields as they stand. -/
def instrOf (h : PktHdr) (fs : List PktField) : Instr :=
  let num (tag : Nat) : Nat := fieldNum tag fs
  let args : List Nat := (((withTag 0x8030 fs).head?.map (·.bytes)).getD []).map BitVec.toNat
  match pktType h with
  | 0x0001 => .launch h (launchOf fs)
  | 0x0002 => .graph h ((withTag 0x8010 fs).map nodeOf)
      ((withTag 0x8011 fs).map fun f => (bits f.num 15 0, bits f.num 31 16))
  | 0x0003 => .dep h (bits (num 0x8012) 9 0) (bits (num 0x8012) 127 64)
  | 0x0004 => .signal h (fedAddrOf (num 0x8013) 3) (num 0x8014)
  | 0x0010 => .stop h (num 0x8003) (num 0x8040) (num 0x8041)
  | 0x0011 => .save h (num 0x8003) { sp := bit (num 0x8042) 63, addr := bits (num 0x8042) 62 0 }
      (bits (num 0x8042) 127 64) (num 0x8043)
  | 0x0012 => .resume h (num 0x8003) { sp := bit (num 0x8042) 63, addr := bits (num 0x8042) 62 0 }
      (bits (num 0x8042) 127 64) (num 0x8044)
  | 0x0020 => .seal h
  | 0x0021 => .bisect h args
  | 0x0022 => .capture h args
  | 0x0023 => .taste h args
  | 0x0030 => .mapGroup h (bits (num 0x8020) 7 0) (bit (num 0x8020) 8) (bits (num 0x8020) 23 12)
      (num 0x8020 / 2 ^ 64)
  | 0x0031 => .cellarLoad h (fedAddrOf (num 0x8021) 6) (num 0x8022 % 2 ^ 32) (num 0x8022 / 2 ^ 32) (num 0x8023)
  | t => .unsupportedTypePacket h t

/-- Checks 3 to 7 of Table 15.4 for a packet whose framing holds: what settles it, or its fields. A
GRAPH's nodes are checked as field lists of their own. A reserved type is a step of its own. -/
def checkPacket (h : PktHdr) (priv : Bool) : Except Verdict (List PktField) :=
  match parseFields 1 h.raw.length (h.raw.drop 1) with
  | .error u => .error { status := 1, tag := 0, detail := u }
  | .ok fs =>
    match typeRules (pktType h) with
    | none => .ok fs
    | some rules =>
      if privType (pktType h) && !priv then .error { status := 4, tag := 0, detail := pktType h }
      else match checkFields rules fs with
        | some v => .error v
        | none =>
          match firstVerdict ((if pktType h = 2 then withTag 0x8010 fs else []).map nodeVerdict) with
          | some v => .error v
          | none => .ok fs

end Sys2Proof.Machine
end

