-- ==== Sys2Proof/WellFormed.lean ====
section
/-!
DEFINITION. Which steps are well formed: every field within its width, and no reserved value
of a defined field in use (R93, checks 2 and 3). What an operand holds when the instruction
issues is no part of this.
-/

namespace Sys2Proof

/-- Interlock counts fit the word count (R112), the word count lies between `lo` and `hi`, and
the stall count is at most `stl` (R94). -/
def Hdr.wf (h : Hdr) (lo hi stl : Nat) : Bool :=
  decide (1 ≤ lo) && decide (lo ≤ h.n) && decide (h.n ≤ hi) && decide (hi ≤ 4)
    && decide (h.wp ≤ h.n) && decide (h.wn ≤ h.n)
    && decide (h.gp ≤ h.n) && decide (h.gn ≤ h.n) && decide (h.stl ≤ stl)

/-- A word-2 extent is present exactly when the instruction has `n` words (R214, R241). -/
def extWf (h : Hdr) (n : Nat) : Option Ext → Bool
  | none => decide (h.n ≠ n)
  | some e => decide (h.n = n) && decide (e.e0 < 2 ^ 14) && decide (e.e1 < 2 ^ 14)

/-- A destination code of R172: 0, or 16 to 31. -/
def dstWf (d : Nat) : Bool := decide (d = 0) || (decide (16 ≤ d) && decide (d < 32))

/-- A row range: with ALL = 1 the register field is reserved (R266). -/
def Rows.wf (r : Rows) : Bool := decide (r.cr < 16) && (!r.all || decide (r.cr = 0))

/-- The SCU group of two operands and one result. -/
def scu3Wf (h : Hdr) (d a b : Nat) : Bool :=
  h.wf 1 1 15 && dstWf d && decide (a < 32) && decide (b < 32)

/-- Ordering and scope of an access (Table 8.8): `lo` and `hi` bound the codes the operation
accepts beside relaxed; a relaxed access names no scope. -/
def MemWord.orderWf (m : MemWord) (acq rel : Bool) : Bool :=
  (decide (m.ord = 0) && decide (m.scope = 0))
    || (acq && decide (m.ord = 1) && decide (m.scope ≤ 4))
    || (rel && decide (m.ord = 2) && decide (m.scope ≤ 4))
    || (acq && rel && decide (m.ord = 3) && decide (m.scope ≤ 4))

/-- R189: outside a tensor the id, the order and the scope are zero. -/
def MemWord.selWf (m : MemWord) : Bool :=
  decide (m.sel < 3) && decide (m.tid < 256)
    && (decide (m.sel = 0) || (decide (m.tid = 0) && decide (m.ord = 0) && decide (m.scope = 0)))

/-- The copy-engine fields of word 0 and word 1 (Tables 9.2, 10.2). -/
def cpWf (h : Hdr) (td cd cs ts : Nat) (ext : Option Ext) : Bool :=
  h.wf 2 3 0 && decide (td < 256) && decide (cd < 16) && decide (cs < 16) && decide (ts < 256)
    && extWf h 3 ext

/-- The register fields of VXE word 0 (Table 12.3): which of VD, VA and VB are used (a field not
used is 0), and the element sizes of Table 12.6 as a set of codes. -/
def VRegs.wf (r : VRegs) (useD useA useB : Bool) (es : List Nat) : Bool :=
  decide (r.vd < 32) && decide (r.va < 32) && decide (r.vb < 32)
    && (useD || decide (r.vd = 0)) && (useA || decide (r.va = 0)) && (useB || decide (r.vb = 0))
    && es.contains r.es && decide (r.es < 4)

/-- The fields a one-word instruction of an A family stands for (R302). -/
def VArith.dflt (sub : Nat) : VArith :=
  { sub := sub, sat := false, rm := 0, msk := 0, z := false, i := false, imm := 0 }

/-- The arithmetic layout: widths, the default when there is no word 1, saturation and rounding
only where the family has them, and VB = 0 with an immediate (R302, R303). -/
def VArith.wf (o : VArith) (h : Hdr) (r : VRegs) (dflt : Nat) (sat rm : Bool) : Bool :=
  decide (o.sub < 16) && decide (o.rm < 4) && decide (o.msk < 8) && decide (o.imm < 2 ^ 16)
    && (decide (h.n ≠ 1) || decide (o = VArith.dflt dflt))
    && (sat || !o.sat) && (rm || decide (o.rm = 0)) && (!o.i || decide (r.vb = 0))

/-- IMM is unused, and so zero, unless it stands for VB (R303). -/
def VArith.immOnlyI (o : VArith) : Bool := o.i || decide (o.imm = 0)

/-- IMM and I are unused, and so zero (R303). -/
def VArith.noImm (o : VArith) : Bool := !o.i && decide (o.imm = 0)

/-- MSK and Z are unused, and so zero (R303). -/
def VArith.noMask (o : VArith) : Bool := decide (o.msk = 0) && !o.z

/-- The memory layout of Table 12.5; PK only where the operation has it and ES = 0 (R308). -/
def VMem.wf (m : VMem) (r : VRegs) (pk : Bool) : Bool :=
  decide (m.tid < 256) && decide (m.cr < 16) && decide (m.soff < 16) && decide (m.msk < 8)
    && (!m.pk || (pk && decide (r.es = 0)))

/-- Any element size. -/
def esAny : List Nat := [0, 1, 2, 3]

/-- The format codes VCVT names (R329): INT8, UINT8, INT16, INT32, INT64, E4M3, E5M2, BF16
and FP32 (Table 3.1). -/
def vcvtFmt (c : Nat) : Bool :=
  [0x01, 0x02, 0x03, 0x04, 0x05, 0x10, 0x11, 0x12, 0x13].contains c

/-- The SUB value without its unsigned bit. -/
def VArith.fn (o : VArith) : Nat := o.sub % 8

/-- The unsigned bit of SUB (R320). -/
def VArith.u (o : VArith) : Bool := decide (8 ≤ o.sub)

/-- Where LOOP takes its count from: widths (R102). -/
def LoopCount.wf (n : Nat) : LoopCount → Bool
  | .imm c => decide (c < n)
  | .coord r k => decide (r < 16) && decide (k < 4)
  | .operand c => decide (c < 32)

/-- The element size in bits of ES (R299). -/
def VRegs.size (r : VRegs) : Nat := 8 * 2 ^ r.es

/-- A port number (R143). -/
def portWf (q : Nat) : Bool := decide (q < 46)

/-- A physical core: 32 · die + position, with 17 positions on a die (R15). -/
def physWf (p : Nat) : Bool := decide (p < 1024) && decide (p % 32 < 17)

/-- A source of packets: a core, or a die's Taster (30) or fabric cache (31), which this model numbers among
the positions of the die. -/
def sourceWf (p : Nat) : Bool := physWf p || (decide (p < 1024) && decide (30 ≤ p % 32))

/-- A resource that the part has (Table 18.2): 48 scratchpad banks and others of a core, 64 Cellar banks, 32
stacks, edges of 32 dies, 46 ports of 4 lanes. -/
def Resource.wf : Resource → Bool
  | .sramBank p b => physWf p && decide (b < 2 ^ 12)
  | .cellarBank d b => decide (d < 32) && decide (b < 64)
  | .hbmChannel s c => decide (s < 32) && decide (c < 2 ^ 12)
  | .ucieLane d e l => decide (d < 32) && decide (e < 4) && decide (l < 2 ^ 12)
  | .azpinLane q l => portWf q && decide (l < 4)

/-- A host access to device memory: a physical address, and as many bytes as it writes. -/
def HostAccess.wf (a : HostAccess) : Bool :=
  decide (a.addr + a.len ≤ 2 ^ 44) && decide (a.tdi < 33)
    && a.write.all fun bs => bs.length == a.len && bs.all fun b => decide (b < 256)

/-- The fields of a packet fit Table 7.2. -/
def Packet.wf (p : Packet) : Bool :=
  decide (p.type < 256) && decide (p.npay ≤ 4) && decide (p.hops < 4) && decide (p.src < 512)
    && decide (p.dst < 512) && decide (p.via < 512) && decide (p.score < 1024)
    && decide (p.asid < 2 ^ 12) && decide (p.va < 2 ^ 52) && decide (p.task < 2 ^ 32)
    && decide (p.tag < 2 ^ 16) && decide (p.colmask < 2 ^ 16) && decide (p.group < 256)
    && decide (p.aop < 16) && decide (p.lenm1 < 256) && decide (p.opa < 2 ^ 64)
    && decide (p.opb < 2 ^ 64) && decide (p.status < 256) && decide (p.aux < 2 ^ 64)
    && decide (p.payload.length = p.npay) && p.payload.all fun f => decide (f < 2 ^ 512)

/-- A frame carries up to 16 flits, and its header fields fit Table 7.1a (R144). -/
def Frame.wf (f : Frame) : Bool :=
  decide (f.fctr < 2 ^ 64) && decide (f.rcv < 2 ^ 32) && decide (f.freed < 2 ^ 32) && decide (f.srcv < 2 ^ 32)
    && decide (f.sfreed < 2 ^ 32) && decide (f.tgtc < 2 ^ 64) && decide (f.tph < 2 ^ 8)
    && decide ((f.packets.map fun p => 1 + p.npay).sum ≤ 16) && f.packets.all Packet.wf

/-- The loads that the power manager measures: each of the 52 edges between dies at most once (R11). -/
def loadsWf (xs : List EdgeLoad) : Bool :=
  xs.all (fun x => decide (x.edge < 52)) && decide ((xs.map (·.edge)).eraseDups.length = xs.length)

/-- A queue packet's header names a queue. -/
def PktHdr.wf (h : PktHdr) : Bool := decide (h.q < 1024)

/-- Well-formed steps. A step from outside the part is well formed when the numbers it carries
name something the part has. -/
def Instr.wf : Instr → Bool
  | .d2dThrottleWindow xs => loadsWf xs
  | .powerWindow _ js => js.all fun j => decide (j.1 < 32)
  | .thermalShutdown => true
  | .moduleReset b => decide (b.strap < 512) && b.dies.all (fun d => decide (d < 32))
      && b.ports.all (fun q => portWf q.1 && decide (q.2 < 512)) && b.hbms.all (fun d => decide (d < 32))
      && b.edges.all (fun e => decide (e.1 < 32) && decide (e.2 < 4))
  | .dieChallengeTimeout d => decide (d < 32)
  | .ucieEdgeTraining d e _ => decide (d < 32) && decide (e < 4)
  | .linkTraining q _ _ _ => portWf q
  | .frameReceive q f => portWf q && f.wf
  | .frameReplay q _ => portWf q
  | .flowReportTimer => true
  | .packetRoute => true
  | .bulkAgePromote => true
  | .wrPacket p => p.wf
  | .rdPacket p => p.wf
  | .rdrPacket p => p.wf
  | .atmPacket p => p.wf
  | .atrPacket p => p.wf
  | .sigPacket p => p.wf
  | .mcwPacket p => p.wf
  | .ackPacket p => p.wf
  | .mcaPacket p => p.wf
  | .barPacket p => p.wf
  | .timePacket q _ _ _ => portWf q
  | .timeSend => true
  | .timeLostTimeout => true
  | .staffPacket _ => true
  | .detectorFire => true
  | .sidingDrain => true
  | .staffHoldTimeout => true
  | .staffRegenerate => true
  | .responseTimeout p t => sourceWf p && decide (t < 2 ^ 16)
  | .keyUpdateStart => true
  | .keySwitch => true
  | .linkFail => true
  | .pstatRetrain => true
  | .translationWalk p a _ => physWf p && decide (a < 4096)
  | .acntWriteback p a _ => physWf p && decide (a < 4096)
  | .xinvPage64k a _ => decide (a < 4096)
  | .xinvPage2m a _ => decide (a < 4096)
  | .xinvAsid a => decide (a < 4096)
  | .xinvAll => true
  | .xinvComplete => true
  | .dlkick a => decide (a < 4096)
  | .fttclr _ _ => true
  | .encirWrite s v => decide (s < 32) && decide (v < 2 ^ 64)
  | .registerWrite _ w v => decide (w = 4 ∨ w = 8) && decide (v < 2 ^ 64)
      || decide (w = 8) && decide (v < 2 ^ 64)
  | .taskPlacement _ => true
  | .tokenPassThrough => true
  | .resultLand => true
  | .giveOverflowRelease => true
  | .mxeCompletion => true
  | .lceCommandCompletion p _ => physWf p
  | .sceCommandCompletion p _ => physWf p
  | .packetSettlement p t w => sourceWf p && decide (t < 2 ^ 16) && decide (w < 256)
  | .fabricCacheEviction d _ => decide (d < 32)
  | .cellarRefresh d => decide (d < 32)
  | .arbitrationPromote => true
  | .barrierDepart => true
  | .engineFault p _ _ _ _ => physWf p
  | .firmwareEventStart => true
  | .firmwareContextFault => true
  | .yieldRequest _ => true
  | .yieldHalt => true
  | .forcedCut => true
  | .taskRetirement _ => true
  | .batchSign => true
  | .notifyWrite q t => decide (q < 1024) && decide (t < 2 ^ 32)
  | .fedWakeup => true
  | .slotGrant => true
  | .slotEvict => true
  | .queueEnable => true
  | .queueDisable => true
  | .queueRestart => true
  | .stackReread => true
  | .nackReread => true
  | .interruptCoalesceTimer => true
  | .launch h _ => h.wf
  | .graph h _ _ => h.wf
  | .dep h q _ => h.wf && decide (q < 1024)
  | .depSatisfied => true
  | .signal h _ _ => h.wf
  | .signalWrite => true
  | .mapGroup h g _ a m => h.wf && decide (g < 256) && decide (a < 4096) && decide (m < 2 ^ 512)
  | .cellarLoad h _ _ _ _ => h.wf
  | .cellarCopy _ => true
  | .seal h => h.wf
  | .taskReady _ => true
  | .taskStart => true
  | .reservationStart _ => true
  | .speculationStart => true
  | .speculationDiscard q _ => decide (q < 1024)
  | .stop h _ _ _ => h.wf
  | .stopCut _ => true
  | .save h _ _ _ _ => h.wf
  | .resume h _ _ _ _ => h.wf
  | .taskEnd _ => true
  | .bisect h _ => h.wf
  | .audnPacket p => p.wf
  | .bisectAnswerTimeout _ => true
  | .capture h _ => h.wf
  | .captureTargetReached => true
  | .taste h _ => h.wf
  | .errorCorrected r => r.wf
  | .errorUncorrectable r _ => r.wf
  | .errorWindow => true
  | .resourceRetire r => r.wf
  | .retireCore d p => decide (d < 32) && decide (p < 17)
  | .retireDie d => decide (d < 32)
  | .retireStack s => decide (s < 32)
  | .retireEdge d e => decide (d < 32) && decide (e < 4)
  | .fwload d _ _ => decide (d < 32)
  | .hostMemoryAccess a => a.wf
  | .getVersion _ => true
  | .getCapabilities _ => true
  | .negotiateAlgorithms _ _ => true
  | .getDigests _ => true
  | .getCertificate _ s _ _ => decide (s < 16)
  | .challenge _ s _ => decide (s < 16)
  | .getMeasurements _ _ => true
  | .chunkSend _ _ _ _ _ => true
  | .chunkGet _ _ _ => true
  | .keyExchange _ s => decide (s < 16)
  | .finish _ _ => true
  | .keyUpdate _ _ => true
  | .heartbeat _ => true
  | .endSession _ => true
  | .setCertificate _ s _ _ => decide (s < 16)
  | .keySet _ s a => decide (s < 256) && decide (a < 4096)
  | .keyClear _ s => decide (s < 256)
  | .spdmUnsupportedRequest _ _ => true
  | .lockInterface t _ => decide (t < 64)
  | .startInterface t _ => decide (t < 64)
  | .stopInterface t _ => decide (t < 64)
  | .getInterfaceReport t _ => decide (t < 64)
  | .functionLevelReset v => decide (v < 64)
  -- Table 5.4
  | .nop h => h.wf 1 4 0
  | .atStamp h t => h.wf 2 2 0 && decide (t < 2 ^ 40)
  | .atLax h t => h.wf 2 2 0 && decide (t < 2 ^ 40)
  | .endStream h => h.wf 1 1 0
  | .loop h body c => h.wf 2 2 0 && decide (1 ≤ body) && decide (body < 2 ^ 14) && c.wf (2 ^ 28)
  | .endl h => h.wf 1 1 0
  | .csetImm h cd mask imm | .caddImm h cd mask imm => h.wf 2 2 0 && decide (cd < 16)
      && decide (1 ≤ mask) && decide (mask < 16) && decide (imm < 2 ^ 24)
  | .cmodImm h cd mask imm => h.wf 2 2 0 && decide (cd < 16)
      && decide (1 ≤ mask) && decide (mask < 16) && decide (1 ≤ imm) && decide (imm < 2 ^ 23)
  | .csetReg h cd mask ca | .caddReg h cd mask ca | .cmodReg h cd mask ca => h.wf 1 1 0
      && decide (cd < 16) && decide (1 ≤ mask) && decide (mask < 16) && decide (ca < 16)
  | .cldp h cd mask off => h.wf 1 1 0 && decide (cd < 16) && decide (mask < 16)
      && decide (off < 4096)
  | .mark h => h.wf 1 1 0
  | .fence h scope => h.wf 1 1 0 && decide (scope ≤ 4)
  -- Table 8.4
  | .trap h code => h.wf 1 1 15 && decide (code < 2 ^ 16)
  | .bar h scope => h.wf 1 1 15 && decide (scope ≤ 4)
  | .barred h d a rop scope => h.wf 1 1 15 && dstWf d && decide (a < 32) && decide (rop < 8)
      && decide (scope ≤ 4)
  | .waitt h a _ => h.wf 1 1 15 && decide (a < 32)
  | .gtc h d => h.wf 1 1 15 && dstWf d
  | .getc h d c => h.wf 1 1 15 && dstWf d
      && (decide (c ≤ 5) || decide (c = 16) || decide (c = 18) || decide (c = 19))
  | .setc h c b => h.wf 1 1 15 && decide (b < 32)
      && (decide (c = 0) || (decide (16 ≤ c) && decide (c ≤ 18)))
  | .spawn h d a tid => h.wf 2 2 15 && dstWf d && decide (a < 32) && decide (tid < 256)
  | .notify h b code => h.wf 2 2 15 && decide (b < 32) && decide (code < 2 ^ 16)
  | .add h d a b | .sub h d a b | .andReg h d a b | .orReg h d a b | .xorReg h d a b
  | .andn h d a b | .shl h d a b | .shr h d a b | .sra h d a b | .mul h d a b => scu3Wf h d a b
  | .mulh h d a b _ | .div h d a b _ | .rem h d a b _ | .minReg h d a b _
  | .maxReg h d a b _ => scu3Wf h d a b
  | .cmp h d a b c => h.wf 2 2 15 && dstWf d && decide (a < 32) && decide (b < 32)
      && decide (c < 10)
  | .sel h d a b c => h.wf 2 2 15 && dstWf d && decide (a < 32) && decide (b < 32)
      && decide (c < 32)
  | .clz h d a _ => h.wf 1 1 15 && dstWf d && decide (a < 32)
  | .popc h d a => h.wf 1 1 15 && dstWf d && decide (a < 32)
  | .addi h d a imm | .andi h d a imm | .ori h d a imm | .xori h d a imm => h.wf 2 2 15
      && dstWf d && decide (a < 32) && decide (imm < 2 ^ 28)
  | .shi h d a k c => h.wf 2 2 15 && dstWf d && decide (a < 32) && decide (k < 3) && decide (c < 64)
  | .li h d v => h.wf 2 3 15 && dstWf d
      && decide (v < 2 ^ 56) && (decide (h.n = 3) || decide (v < 2 ^ 28))
  | .cmpi h d a c imm => h.wf 2 2 15 && dstWf d && decide (a < 32) && decide (c < 10)
      && decide (imm < 2 ^ 28)
  | .br h c a b off => h.wf 2 2 15 && decide (c < 10) && decide (a < 32) && decide (b < 32)
      && decide (off < 2 ^ 28)
  | .jump h off => h.wf 2 2 15 && decide (off < 2 ^ 28)
  | .jumpReg h a => h.wf 1 1 15 && decide (a < 32)
  | .call h d off => h.wf 2 2 15 && dstWf d && decide (off < 2 ^ 28)
  | .callReg h d a => h.wf 1 1 15 && dstWf d && decide (a < 32)
  | .ret h a => h.wf 1 1 15 && decide (a < 32)
  | .ld h d a f m => h.wf 2 2 15 && dstWf d && decide (a < 32) && m.selWf && m.orderWf true false
      && decide (m.kind < 3) && decide (m.off < 2 ^ 11) && (!f || decide (m.kind = 0))
      && (decide (m.kind ≠ 2) || decide (d % 2 = 0))
  | .st h a b m => h.wf 2 2 15 && decide (a < 32) && decide (b < 32) && m.selWf
      && m.orderWf false true && decide (m.kind < 3) && decide (m.off < 2 ^ 11)
      && (decide (m.kind ≠ 2) || (decide (b ≠ 15) && decide (b ≠ 31)))
  | .atm h d a b u m z => h.wf 2 3 15 && dstWf d && decide (a < 32) && decide (b < 32) && m.selWf
      && decide (m.sel ≠ 1) && m.orderWf true true && decide (m.kind ≤ 4) && decide (m.off < 2 ^ 10)
      && (!u || decide (m.kind = 1) || decide (m.kind = 2)) && decide (z < 32)
      && (decide (h.n = 3) == decide (m.kind = 4)) && (decide (h.n = 3) || decide (z = 0))
  | .dgleaf h a b tag tid => h.wf 2 2 15 && decide (a < 32) && decide (b < 32)
      && decide (tag < 2 ^ 12) && decide (tid < 256)
  | .dgseal h d => h.wf 1 1 15 && dstWf d
  | .retf h _ => h.wf 1 1 15
  | .yield h => h.wf 1 1 15
  -- Table 9.3
  | .cpi h td cd cs ts e | .cpic h td cd cs ts e | .cpib h td cd cs ts e
  | .cpw h td cd cs ts e => cpWf h td cd cs ts e
  | .cpig h td cd cs ts ti ci e => cpWf h td cd cs ts e && decide (ti < 256) && decide (ci < 16)
  | .cpa h td cd cs ts _ x e => cpWf h td cd cs ts e && decide (x < 2 ^ 16)
  | .pref h cs ts e => cpWf h 0 0 cs ts e
  | .cpq h td cd cs ts rm _ e => cpWf h td cd cs ts e && decide (rm < 4)
  | .lstat h td cd _ => h.wf 1 1 0 && decide (td < 256) && decide (cd < 16)
  | .rwait h c _ t => h.wf 2 2 0 && decide (c < 16) && decide (t < 2 ^ 28)
  -- Table 10.3
  | .cpo h td cd cs ts _ e | .cpoc h td cd cs ts _ e | .cpf h td cd cs ts _ e =>
      cpWf h td cd cs ts e
  | .cpos h td cd cs ts ti ci _ e => cpWf h td cd cs ts e && decide (ti < 256) && decide (ci < 16)
  | .cpm h td cd cs ts g e => cpWf h td cd cs ts e && decide (g < 256)
  | .fat h td cd cs ts _ tr cr aop => h.wf 2 2 0 && decide (td < 256) && decide (cd < 16)
      && decide (cs < 16) && decide (ts < 256) && decide (tr < 256) && decide (cr < 16)
      && decide (aop ≤ 6)
  | .fsig h cs ts _ _ inc => h.wf 2 2 0 && decide (cs < 16) && decide (ts < 256)
      && decide (inc < 2 ^ 20)
  | .flush h td cd _ e => h.wf 1 3 0 && decide (h.n ≠ 2) && decide (td < 256) && decide (cd < 16)
      && extWf h 3 e
  | .flushAll h _ => h.wf 1 1 0
  | .sstat h td cd _ _ _ => h.wf 1 1 0 && decide (td < 256) && decide (cd < 16)
  -- Table 11.3
  | .mrd h q ts cs e | .wld h q ts cs e => h.wf 2 3 15 && decide (q < 4) && decide (ts < 256)
      && decide (cs < 16) && extWf h 3 e
  | .mma h an q w _ => h.wf 1 1 15 && decide (an < 8) && decide (q < 4) && decide (w < 4)
  | .mmag h an q _ cg ng => h.wf 1 1 15 && decide (an < 8) && decide (q < 4) && decide (cg < 16)
      && decide (ng < 4)
  | .aset h an r x => h.wf 2 2 15 && decide (an < 8) && r.wf && decide (x < 2 ^ 16)
  | .anorm h an r k => h.wf 1 1 15 && decide (an < 8) && r.wf && decide (k < 64)
  | .aclr h an r => h.wf 1 1 15 && decide (an < 8) && r.wf
  | .aadd h an r as => h.wf 1 1 15 && decide (an < 8) && r.wf && decide (as < 8)
  | .aret h an r _ sh td cd tq cq rm => h.wf 2 2 15 && decide (an < 8) && r.wf && decide (sh < 64)
      && decide (td < 256) && decide (cd < 16) && decide (tq < 256) && decide (cq < 16)
      && decide (rm < 4)
  | .ard h an r _ td cd | .awr h an r _ td cd => h.wf 2 2 15 && decide (an < 8) && r.wf
      && decide (td < 256) && decide (cd < 16)
  | .amax h an r td cd => h.wf 2 2 15 && decide (an < 8) && r.wf && decide (td < 256)
      && decide (cd < 16)
  | .mxmode h _ => h.wf 1 1 15
  | .mstat h _ td cd => h.wf 2 2 15 && decide (td < 256) && decide (cd < 16)
  -- Table 12.6
  | .vld h r m e => h.wf 2 3 7 && r.wf true false false esAny && m.wf r true && extWf h 3 e
  | .vst h r m e => h.wf 2 3 7 && r.wf false true false esAny && m.wf r true && extWf h 3 e && !m.z
  | .vldx h r m => h.wf 2 2 7 && r.wf true false true esAny && m.wf r false
  | .vstx h r m => h.wf 2 2 7 && r.wf false true true esAny && m.wf r false && !m.z
  | .vlda h r an cr half xe val => h.wf 2 2 7
      && r.wf true false false (if xe then [1] else [3]) && decide (an < 8) && decide (cr < 16)
      && (!xe || (!half && !val && decide (cr = 0)))
  | .vbcE h r o => h.wf 1 2 7 && r.wf true true false esAny && o.wf h r 1 false false
      && decide (o.sub = 1) && !o.i && decide (o.imm < 512)
  | .vbcI h r o => h.wf 2 2 7 && r.wf true false false esAny && o.wf h r 1 false false
      && decide (o.sub = 0) && !o.i
  | .vbcC h r o => h.wf 2 2 7 && r.wf true false false esAny && o.wf h r 1 false false
      && decide (o.sub = 2) && !o.i && decide (o.imm < 64)
  | .vbcSt h r o => h.wf 2 2 7 && r.wf true false false [3] && o.wf h r 1 false false
      && decide (o.sub = 3) && !o.i && decide (o.imm < 3) && o.noMask
  | .vbcWc h r o => h.wf 2 2 7 && r.wf false true false [3] && o.wf h r 1 false false
      && decide (o.sub = 4) && o.noImm && o.noMask
  | .vbcClr h r o => h.wf 2 2 7 && r.wf false false false esAny && o.wf h r 1 false false
      && decide (o.sub = 5) && !o.i && o.noMask
  | .vspill h r => h.wf 1 1 7 && r.wf false true true [0]
  | .vfill h r => h.wf 1 1 7 && r.wf true false true [0]
  | .vloop h rb rl rs body c => h.wf 2 2 0 && decide (rb < 32) && decide (rl < 32)
      && decide (rs < 32) && decide (1 ≤ body) && decide (body < 2 ^ 14) && c.wf (2 ^ 13)
      && (match c with | .operand _ => false | _ => true)
  | .viota h r o => h.wf 1 2 7 && r.wf true false false esAny && o.wf h r 0 false false
      && decide (o.sub = 0) && !o.i
  | .vhash h r m => h.wf 2 2 7 && r.wf true true false [2] && m.wf r false
      && decide (m.cr = 0) && decide (m.soff = 0)
  | .vperm h r o => h.wf 1 2 7 && r.wf true true true esAny && o.wf h r 0 false false
      && decide (o.sub = 0) && o.immOnlyI
  | .vslide h r o => h.wf 2 2 7 && r.wf true true (decide (4 ≤ o.sub)) esAny
      && o.wf h r 0 false false && decide (o.sub < 8) && !o.i
      && (if o.sub % 4 < 2 then decide (o.imm < 512) else decide (o.imm < 64))
  | .vcomp h r o => h.wf 2 2 7 && r.wf true true (decide (o.sub = 1)) esAny
      && o.wf h r 0 false false && decide (o.sub < 2) && o.noImm && !o.z
  | .vmsk h r o => h.wf 1 2 7 && r.wf true (decide (o.sub ≠ 5)) (decide (o.sub < 4)) [0]
      && o.wf h r 0 false false && decide (o.sub < 8) && o.noMask && !o.i
      && decide (1 ≤ r.vd) && decide (r.vd < 8) && decide (r.va < 8) && decide (r.vb < 8)
      && (if o.sub = 5 then decide (o.imm ≤ 512) else if o.sub = 6 then decide (o.imm < 512)
          else decide (o.imm = 0))
  | .vmpop h r o => h.wf 2 2 7 && r.wf false true false esAny && o.wf h r 0 false false
      && decide (o.sub < 2) && o.noMask && !o.i && decide (o.imm < 64)
      && decide (r.va < 8)
  | .viadd h r o => h.wf 1 2 7 && r.wf true true true esAny && o.wf h r 0 (o.fn != 2) false
      && decide (o.fn < 4) && o.immOnlyI
  | .vimul h r o => h.wf 1 2 7 && r.wf true true true esAny && o.wf h r 0 (o.fn != 1) false
      && decide (o.fn < 2) && o.immOnlyI
  | .vmac h r o => h.wf 1 2 7 && r.wf true true true esAny && o.wf h r 0 true false
      && decide (o.fn = 0) && o.immOnlyI
  | .vdot4 h r o => h.wf 1 2 7 && r.wf true true true [2] && o.wf h r 0 true false
      && decide (o.sub < 4) && o.immOnlyI
  | .vminmax h r o => h.wf 1 2 7 && r.wf true true true esAny && o.wf h r 0 false false
      && decide (o.fn < 2) && o.immOnlyI
  | .vlogic h r o => h.wf 1 2 7 && r.wf true true (decide (o.sub ≠ 4)) esAny
      && o.wf h r 0 false false && decide (o.sub < 5) && (decide (o.sub ≠ 4) || !o.i) && o.immOnlyI
  | .vshift h r o => h.wf 1 2 7 && r.wf true true true esAny && o.wf h r 0 false false
      && decide (o.sub < 3) && o.immOnlyI
  | .vrsh h r o => h.wf 1 2 7 && r.wf true true true esAny && o.wf h r 0 false false
      && decide (o.fn = 0) && o.immOnlyI
  | .vrq h r o sh vz z0 => h.wf 3 3 7 && r.wf true true true [2, 3] && o.wf h r 0 false false
      && decide (o.sub < 5) && (decide (o.sub ≠ 3) || decide (r.es = 2)) && decide (sh < 64)
      && decide (vz < 32) && (!z0 || decide (vz = 0)) && o.immOnlyI
  | .vcmp h r o => h.wf 1 2 7 && r.wf true true true esAny && o.wf h r 0 false false
      && decide (o.sub < 10) && decide (1 ≤ r.vd) && decide (r.vd < 8) && o.immOnlyI
  | .vsel h r o => h.wf 2 2 7 && r.wf true true true esAny && o.wf h r 0 false false
      && decide (o.sub = 0) && !o.z && o.immOnlyI
  | .vunary h r o => h.wf 1 2 7 && r.wf true true false esAny && o.wf h r 0 (decide (o.sub < 2)) false
      && decide (o.sub < 5) && o.noImm
  | .vclamp h r o => h.wf 2 2 7 && r.wf true true false esAny && o.wf h r 0 false false
      && decide (o.sub < 2) && !o.i && decide (1 ≤ o.imm) && decide (o.imm ≤ r.size)
  | .vfadd h r o => h.wf 1 2 7 && r.wf true true true [2] && o.wf h r 0 true true
      && decide (o.sub < 2) && o.immOnlyI
  | .vfmul h r o => h.wf 1 2 7 && r.wf true true true [2] && o.wf h r 0 true true
      && decide (o.sub = 0) && o.immOnlyI
  | .vfma h r o => h.wf 1 2 7 && r.wf true true true [2] && o.wf h r 0 true true
      && decide (o.sub < 2) && o.immOnlyI
  | .vfminmax h r o => h.wf 1 2 7 && r.wf true true true [2] && o.wf h r 0 false false
      && decide (o.sub < 2) && o.immOnlyI
  | .vfun h r o => h.wf 1 2 7 && r.wf true true false [2] && o.wf h r 0 true true
      && decide (o.sub < 4) && o.noImm
  | .vfcmp h r o => h.wf 1 2 7 && r.wf true true true [2] && o.wf h r 0 false false
      && decide (o.sub < 8) && decide (1 ≤ r.vd) && decide (r.vd < 8) && o.immOnlyI
  | .vcvt h r o => h.wf 2 2 7 && r.wf true true false [0] && o.wf h r 0 true true
      && decide (o.sub = 0) && !o.i && vcvtFmt (o.imm / 256) && vcvtFmt (o.imm % 256)
  | .vqx4Enc h r o => h.wf 2 2 7 && r.wf true true true [2] && o.wf h r 0 false false
      && decide (o.sub = 0) && decide (o.msk = 0) && !o.z && o.noImm
  | .vqx4Dec h r o => h.wf 2 2 7 && r.wf true true true [2] && o.wf h r 0 true true
      && decide (o.sub = 1) && decide (o.msk = 0) && !o.z && o.noImm
  | .vscale h r o => h.wf 1 2 7 && r.wf true true true [2] && o.wf h r 0 true true
      && decide (o.sub = 0) && o.immOnlyI
  | .vscaleBlk h r o => h.wf 2 2 7 && r.wf true true false [2] && o.wf h r 0 false false
      && decide (o.sub = 1) && !o.i && !o.z
  | .vred h r o => h.wf 1 2 7 && r.wf true true false esAny && o.wf h r 0 (decide (o.sub = 0)) false
      && decide (o.sub < 8) && !o.z && o.noImm
  | .vfred h r o => h.wf 1 2 7 && r.wf true true false [2] && o.wf h r 0 false (decide (o.sub = 0))
      && decide (o.sub < 3) && !o.z && o.noImm
  | .vredi h r o => h.wf 1 2 7 && r.wf true true false [2, 3] && o.wf h r 0 false false
      && decide (o.sub < 4) && !o.z && o.noImm
  | .sliceExpiry _ => true
  | .unsupportedTypePacket h _ => h.wf
  | .ideKmKeyProgramming _ _ => true
  | .powerLoss => true

end Sys2Proof
end

