-- ==== Sys2Proof/Decode.lean ====
section
/-!
DEFINITION. The decoder of each engine's instruction words (R90, R91, R96, R109 and the
encoding tables of the engine chapters), total on any words and rejecting by name, and after
it the encoder. The checks are 1 to 3 of Table 5.3; allocation, privilege and operand values
are checked where the instruction issues.
-/

namespace Sys2Proof

/-- Why words are no instruction of an engine. All three are illegal encodings (R93). -/
inductive DecodeErr where
  /-- Check 1: OP is reserved in this engine. -/
  | reservedOp
  /-- Check 2: LEN is not one that the operation permits, or words are missing. -/
  | badLen
  /-- Check 3: a reserved field is nonzero, or a defined field holds a reserved value. -/
  | reservedValue
deriving DecidableEq, Repr

/-- How many of the words have bit `b` set (R91). -/
def countBit (b : Nat) : List Nat → Nat
  | [] => 0
  | w :: ws => b2n (bit w b) + countBit b ws

/-- The parts of an instruction that its operation lays out: the 20 bits of word 0 and the
28 bits of words 1 to 3 (0 where the instruction has no such word). -/
structure Parts where
  op : Nat
  p  : Nat
  c1 : Nat
  c2 : Nat
  c3 : Nat
deriving DecidableEq, Repr

/-- The payload of word `k` of an instruction. -/
def contOf (ws : List Nat) (k : Nat) : Nat := bits (ws.getD k 0) 27 0

/-- The operation and payloads of an instruction's words (Tables 5.1, 5.2). -/
def partsOf (ws : List Nat) : Parts :=
  { op := bits (ws.getD 0 0) 25 20, p := bits (ws.getD 0 0) 19 0
    c1 := contOf ws 1, c2 := contOf ws 2, c3 := contOf ws 3 }

/-- The header: word count, interlock sums, and the stall count `stl` of the operation. -/
def hdrOf (ws : List Nat) (stl : Nat) : Hdr :=
  { n := ws.length, wp := countBit 31 ws, wn := countBit 30 ws, gp := countBit 29 ws
    gn := countBit 28 ws, stl := stl }

/-- The number of words word 0 announces (R90). -/
def lenOf (w0 : Nat) : Nat := bits w0 27 26 + 1

/-- Checks 2 and 3 of Table 5.3 on a candidate instruction. -/
def form (len rsv : Bool) (i : Instr) : Except DecodeErr Instr :=
  if !len then .error .badLen
  else if rsv && i.wf then .ok i
  else .error .reservedValue

/-- A reserved field is zero. -/
def zero (w hi lo : Nat) : Bool := decide (bits w hi lo = 0)

/-- The optional word 2 of a copy or block instruction. -/
def extOf (ws : List Nat) (q : Parts) : Option Ext :=
  if ws.length = 3 then some { e0 := bits q.c2 13 0, e1 := bits q.c2 27 14 } else none

/-- The operations that every engine has (Table 5.4): NOP, AT, END, LOOP, ENDL, MARK, FENCE. -/
def decodeCommon (scu : Bool) (ws : List Nat) (q : Parts) : Except DecodeErr Instr :=
  let h := hdrOf ws 0
  let n := ws.length
  match q.op with
  | 0x00 => form true (decide (q.p = 0) && decide (q.c1 = 0) && decide (q.c2 = 0) && decide (q.c3 = 0))
      (.nop h)
  | 0x01 => form (n == 2) (zero q.p 19 13)
      (if bit q.p 12 then .atLax h (bits q.p 11 0 * 2 ^ 28 + q.c1)
       else .atStamp h (bits q.p 11 0 * 2 ^ 28 + q.c1))
  | 0x02 => form (n == 1) (decide (q.p = 0)) (.endStream h)
  | 0x03 =>
    if bit q.p 19 then
      if scu then form (n == 2) (zero q.p 18 14 && zero q.c1 27 5)
        (.loop h (bits q.p 13 0) (.operand (bits q.c1 4 0)))
      else form (n == 2) (zero q.p 18 14 && zero q.c1 27 6)
        (.loop h (bits q.p 13 0) (.coord (bits q.c1 5 2) (bits q.c1 1 0)))
    else form (n == 2) (zero q.p 18 14) (.loop h (bits q.p 13 0) (.imm q.c1))
  | 0x04 => form (n == 1) (decide (q.p = 0)) (.endl h)
  | 0x09 => form (n == 1) (decide (q.p = 0)) (.mark h)
  | 0x0A => form (n == 1) (zero q.p 19 3) (.fence h (bits q.p 2 0))
  | _ => .error .reservedOp

/-- CSET, CADD, CMOD and CLDP, which the SCU lacks (R105, R106). -/
def decodeCoord (ws : List Nat) (q : Parts) : Except DecodeErr Instr :=
  let h := hdrOf ws 0
  let n := ws.length
  let cd := bits q.p 19 16
  let mask := bits q.p 15 12
  let ca := bits q.p 11 8
  let imm := bits q.c1 23 0
  let src := bit q.p 7
  let len := n == (if src then 1 else 2)
  let rsv := zero q.p 6 0 && zero q.c1 27 24
  match q.op with
  | 0x05 => form len rsv (if src then .csetReg h cd mask ca else .csetImm h cd mask imm)
  | 0x06 => form len rsv (if src then .caddReg h cd mask ca else .caddImm h cd mask imm)
  | 0x07 => form len rsv (if src then .cmodReg h cd mask ca else .cmodImm h cd mask imm)
  | 0x08 => form (n == 1) true (.cldp h cd mask (bits q.p 11 0))
  | _ => decodeCommon false ws q

/-- Word 1 of LD and ST (Table 8.9). -/
def memWordLd (c : Nat) : MemWord :=
  { sel := bits c 27 26, kind := bits c 25 24, ord := bits c 23 22, scope := bits c 21 19
    tid := bits c 18 11, off := bits c 10 0 }

/-- Word 1 of ATM (Table 8.10). -/
def memWordAtm (c : Nat) : MemWord :=
  { sel := bits c 27 26, kind := bits c 25 23, ord := bits c 22 21, scope := bits c 20 18
    tid := bits c 17 10, off := bits c 9 0 }

/-- The SCU (Tables 8.3 and 8.4). -/
def decodeScu (ws : List Nat) (q : Parts) : Except DecodeErr Instr :=
  let h := hdrOf ws (bits q.p 19 16)
  let n := ws.length
  let d := bits q.p 15 11
  let a := bits q.p 10 6
  let b := bits q.p 5 1
  let f := bit q.p 0
  let f0 := zero q.p 0 0
  let d0 := decide (d = 0)
  let a0 := decide (a = 0)
  let b0 := decide (b = 0)
  match q.op with
  | 0x05 => form (n == 1) true (.trap h (bits q.p 15 0))
  | 0x06 => form (n == 1) (zero q.p 15 3) (.bar h (bits q.p 2 0))
  | 0x07 => form (n == 1) true (.barred h d a (bits q.p 5 3) (bits q.p 2 0))
  | 0x08 => form (n == 1) (d0 && b0) (.waitt h a f)
  | 0x0B => form (n == 1) (a0 && b0 && f0) (.gtc h d)
  | 0x0C => form (n == 1) (b0 && f0) (.getc h d a)
  | 0x0D => form (n == 1) (d0 && f0) (.setc h a b)
  | 0x0E => form (n == 2) (b0 && f0 && zero q.c1 27 8) (.spawn h d a (bits q.c1 7 0))
  | 0x0F => form (n == 2) (d0 && a0 && f0 && zero q.c1 27 16) (.notify h b (bits q.c1 15 0))
  | 0x10 => form (n == 1) f0 (.add h d a b)
  | 0x11 => form (n == 1) f0 (.sub h d a b)
  | 0x12 => form (n == 1) f0 (.andReg h d a b)
  | 0x13 => form (n == 1) f0 (.orReg h d a b)
  | 0x14 => form (n == 1) f0 (.xorReg h d a b)
  | 0x15 => form (n == 1) f0 (.andn h d a b)
  | 0x16 => form (n == 1) f0 (.shl h d a b)
  | 0x17 => form (n == 1) f0 (.shr h d a b)
  | 0x18 => form (n == 1) f0 (.sra h d a b)
  | 0x19 => form (n == 1) f0 (.mul h d a b)
  | 0x1A => form (n == 1) true (.mulh h d a b f)
  | 0x1B => form (n == 1) true (.div h d a b f)
  | 0x1C => form (n == 1) true (.rem h d a b f)
  | 0x1D => form (n == 1) true (.minReg h d a b f)
  | 0x1E => form (n == 1) true (.maxReg h d a b f)
  | 0x1F => form (n == 2) (f0 && zero q.c1 27 5) (.cmp h d a b (bits q.c1 4 0))
  | 0x20 => form (n == 2) (f0 && zero q.c1 27 5) (.sel h d a b (bits q.c1 4 0))
  | 0x21 => form (n == 1) b0 (.clz h d a f)
  | 0x22 => form (n == 1) (b0 && f0) (.popc h d a)
  | 0x23 => form (n == 2) (b0 && f0) (.addi h d a q.c1)
  | 0x24 => form (n == 2) (b0 && f0) (.andi h d a q.c1)
  | 0x25 => form (n == 2) (b0 && f0) (.ori h d a q.c1)
  | 0x26 => form (n == 2) (b0 && f0) (.xori h d a q.c1)
  | 0x27 => form (n == 2) (b0 && f0 && zero q.c1 27 8)
      (.shi h d a (bits q.c1 7 6) (bits q.c1 5 0))
  | 0x28 => form (n == 2 || n == 3) (a0 && b0 && f0) (.li h d (q.c2 * 2 ^ 28 + q.c1))
  | 0x29 => form (n == 2) f0 (.cmpi h d a b q.c1)
  | 0x30 => form (n == 2) f0 (.br h d a b q.c1)
  | 0x31 =>
    if f then form (n == 1) (d0 && b0) (.jumpReg h a)
    else form (n == 2) (d0 && a0 && b0) (.jump h q.c1)
  | 0x32 =>
    if f then form (n == 1) b0 (.callReg h d a)
    else form (n == 2) (a0 && b0) (.call h d q.c1)
  | 0x33 => form (n == 1) (d0 && b0 && f0) (.ret h a)
  | 0x34 => form (n == 2) b0 (.ld h d a f (memWordLd q.c1))
  | 0x35 => form (n == 2) (d0 && f0) (.st h a b (memWordLd q.c1))
  | 0x36 => form (n == 2 || n == 3) (zero q.c2 27 5)
      (.atm h d a b f (memWordAtm q.c1) (bits q.c2 4 0))
  | 0x37 => form (n == 2) (d0 && f0 && zero q.c1 15 8)
      (.dgleaf h a b (bits q.c1 27 16) (bits q.c1 7 0))
  | 0x38 => form (n == 1) (a0 && b0 && f0) (.dgseal h d)
  | 0x39 => form (n == 1) (d0 && a0 && b0) (.retf h f)
  | 0x3A => form (n == 1) (d0 && a0 && b0 && f0) (.yield h)
  | _ => decodeCommon true ws q

/-- The LCE (Tables 9.2 and 9.3). -/
def decodeLce (ws : List Nat) (q : Parts) : Except DecodeErr Instr :=
  let h := hdrOf ws 0
  let n := ws.length
  let td := bits q.p 19 12
  let cd := bits q.p 11 8
  let cs := bits q.p 7 4
  let ts := bits q.c1 27 20
  let ext := extOf ws q
  let len := n == 2 || n == 3
  let flg0 := zero q.p 3 0
  let w10 := zero q.c1 19 0
  match q.op with
  | 0x10 => form len (flg0 && w10) (.cpi h td cd cs ts ext)
  | 0x11 => form len (flg0 && w10) (.cpic h td cd cs ts ext)
  | 0x12 => form len (zero q.c1 11 0)
      (.cpig h td cd cs ts (bits q.c1 19 12) (bits q.p 3 0) ext)
  | 0x13 => form len (flg0 && w10) (.cpib h td cd cs ts ext)
  | 0x14 => form len (flg0 && w10) (.cpw h td cd cs ts ext)
  | 0x15 => form len (zero q.p 3 1 && zero q.c1 19 16)
      (.cpa h td cd cs ts (bit q.p 0) (bits q.c1 15 0) ext)
  | 0x16 => form len (flg0 && w10 && zero q.p 19 8) (.pref h cs ts ext)
  | 0x17 => form len (w10 && zero q.p 0 0)
      (.cpq h td cd cs ts (bits q.p 3 2) (bit q.p 1) ext)
  | 0x18 => form (n == 1) (zero q.p 7 1) (.lstat h td cd (bit q.p 0))
  | 0x19 => form (n == 2) (zero q.p 19 8 && zero q.p 3 1) (.rwait h cs (bit q.p 0) q.c1)
  | _ => decodeCoord ws q

/-- The SCE (Tables 10.2 and 10.3). -/
def decodeSce (ws : List Nat) (q : Parts) : Except DecodeErr Instr :=
  let h := hdrOf ws 0
  let n := ws.length
  let td := bits q.p 19 12
  let cd := bits q.p 11 8
  let cs := bits q.p 7 4
  let ts := bits q.c1 27 20
  let ext := extOf ws q
  let len := n == 2 || n == 3
  let w10 := zero q.c1 19 0
  match q.op with
  | 0x10 => form len (zero q.p 3 1 && w10) (.cpo h td cd cs ts (bit q.p 0) ext)
  | 0x11 => form len (zero q.p 3 1 && w10) (.cpoc h td cd cs ts (bit q.p 0) ext)
  | 0x12 => form len (zero q.p 3 1 && zero q.c1 7 0)
      (.cpos h td cd cs ts (bits q.c1 19 12) (bits q.c1 11 8) (bit q.p 0) ext)
  | 0x13 => form len (zero q.p 3 1 && w10) (.cpf h td cd cs ts (bit q.p 0) ext)
  | 0x14 => form len (zero q.p 3 0 && zero q.c1 11 0)
      (.cpm h td cd cs ts (bits q.c1 19 12) ext)
  | 0x15 => form (n == 2) (zero q.p 3 1 && zero q.c1 3 0)
      (.fat h td cd cs ts (bit q.p 0) (bits q.c1 19 12) (bits q.c1 11 8) (bits q.c1 7 4))
  | 0x16 => form (n == 2) (zero q.p 19 8 && zero q.p 3 2)
      (.fsig h cs ts (bit q.p 0) (bit q.p 1) (bits q.c1 19 0))
  | 0x17 =>
    if bit q.p 1 then form (n == 1) (zero q.p 19 2) (.flushAll h (bit q.p 0))
    else form (n == 1 || n == 3) (zero q.p 7 2 && decide (q.c1 = 0)) (.flush h td cd (bit q.p 0) ext)
  | 0x18 => form (n == 1) (zero q.p 7 3) (.sstat h td cd (bit q.p 2) (bit q.p 1) (bit q.p 0))
  | _ => decodeCoord ws q

/-- The MXE (Table 11.3). -/
def decodeMxe (ws : List Nat) (q : Parts) : Except DecodeErr Instr :=
  let h := hdrOf ws (bits q.p 19 16)
  let n := ws.length
  let an := bits q.p 15 13
  let r : Rows := { all := bit q.p 12, cr := bits q.p 11 8 }
  let t := bits q.c1 27 20
  let c := bits q.c1 19 16
  match q.op with
  | 0x10 => form (n == 2 || n == 3) (zero q.p 13 0 && zero q.c1 15 0)
      (.mrd h (bits q.p 15 14) t c (extOf ws q))
  | 0x11 => form (n == 2 || n == 3) (zero q.p 13 0 && zero q.c1 15 0)
      (.wld h (bits q.p 15 14) t c (extOf ws q))
  | 0x12 => form (n == 1) (zero q.p 7 0)
      (.mma h an (bits q.p 12 11) (bits q.p 10 9) (bit q.p 8))
  | 0x13 => form (n == 1) (zero q.p 3 0)
      (.mmag h an (bits q.p 12 11) (bit q.p 10) (bits q.p 9 6) (bits q.p 5 4))
  | 0x14 => form (n == 2) (zero q.p 7 0 && zero q.c1 27 16) (.aset h an r (bits q.c1 15 0))
  | 0x15 => form (n == 1) (zero q.p 7 6) (.anorm h an r (bits q.p 5 0))
  | 0x16 => form (n == 1) (zero q.p 7 0) (.aclr h an r)
  | 0x17 => form (n == 1) (zero q.p 4 0) (.aadd h an r (bits q.p 7 5))
  | 0x18 => form (n == 2) (zero q.p 6 6 && zero q.c1 1 0)
      (.aret h an r (bit q.p 7) (bits q.p 5 0) t c (bits q.c1 15 8) (bits q.c1 7 4)
        (bits q.c1 3 2))
  | 0x19 => form (n == 2) (zero q.p 6 0 && zero q.c1 15 0) (.ard h an r (bit q.p 7) t c)
  | 0x1A => form (n == 2) (zero q.p 6 0 && zero q.c1 15 0) (.awr h an r (bit q.p 7) t c)
  | 0x1B => form (n == 2) (zero q.p 7 0 && zero q.c1 15 0) (.amax h an r t c)
  | 0x1C => form (n == 1) (zero q.p 15 1) (.mxmode h (bit q.p 0))
  | 0x1D => form (n == 2) (zero q.p 15 1 && zero q.c1 15 0) (.mstat h (bit q.p 0) t c)
  | _ => decodeCoord ws q

/-- The register fields of VXE word 0. -/
def vregsOf (q : Parts) : VRegs :=
  { vd := bits q.p 19 15, va := bits q.p 14 10, vb := bits q.p 9 5, es := bits q.p 4 3 }

/-- Word 1 of the arithmetic layout (Table 12.4). -/
def varithOf (c : Nat) : VArith :=
  { sub := bits c 27 24, sat := bit c 23, rm := bits c 22 21, msk := bits c 20 18
    z := bit c 17, i := bit c 16, imm := bits c 15 0 }

/-- Word 1 of the memory layout (Table 12.5). -/
def vmemOf (c : Nat) : VMem :=
  { tid := bits c 27 20, cr := bits c 19 16, soff := bits c 15 12, msk := bits c 11 9
    z := bit c 8, pk := bit c 0 }

/-- The VBC forms by their sub-function (R313). -/
def vbcForm (h : Hdr) (r : VRegs) (o : VArith) : Option Instr :=
  match o.sub with
  | 0 => some (.vbcI h r o)
  | 1 => some (.vbcE h r o)
  | 2 => some (.vbcC h r o)
  | 3 => some (.vbcSt h r o)
  | 4 => some (.vbcWc h r o)
  | 5 => some (.vbcClr h r o)
  | _ => none

/-- The VXE (Tables 12.3 to 12.6, 12.9, 12.11). -/
def decodeVxe (ws : List Nat) (q : Parts) : Except DecodeErr Instr :=
  let h := hdrOf ws (bits q.p 2 0)
  let n := ws.length
  let r := vregsOf q
  let m := vmemOf q.c1
  let o : VArith := if n = 1 then VArith.dflt 0 else varithOf q.c1
  let l2 := n == 2
  let l12 := n == 1 || n == 2
  let mrsv := zero q.c1 7 1
  match q.op with
  | 0x10 => form (n == 2 || n == 3) mrsv (.vld h r m (extOf ws q))
  | 0x11 => form (n == 2 || n == 3) mrsv (.vst h r m (extOf ws q))
  | 0x12 => form l2 mrsv (.vldx h r m)
  | 0x13 => form l2 mrsv (.vstx h r m)
  | 0x14 => form l2 (zero q.c1 17 0)
      (.vlda h r (bits q.c1 27 25) (bits q.c1 24 21) (bit q.c1 20) (bit q.c1 19) (bit q.c1 18))
  | 0x15 =>
    if n = 1 then form true true (.vbcE h r (VArith.dflt 1))
    else match vbcForm h r (varithOf q.c1) with
      | some i => form l2 true i
      | none => form l2 false (.nop h)
  | 0x16 => form (n == 1) true (.vspill h r)
  | 0x17 => form (n == 1) true (.vfill h r)
  | 0x18 =>
    if bit q.c1 27 then form l2 (zero q.p 4 0 && zero q.c1 12 6)
      (.vloop { h with stl := 0 } r.vd r.va r.vb (bits q.c1 26 13)
        (.coord (bits q.c1 5 2) (bits q.c1 1 0)))
    else form l2 (zero q.p 4 0)
      (.vloop { h with stl := 0 } r.vd r.va r.vb (bits q.c1 26 13) (.imm (bits q.c1 12 0)))
  | 0x19 => form l12 true (.viota h r o)
  | 0x1A => form l2 mrsv (.vhash h r m)
  | 0x1B => form l12 true (.vperm h r o)
  | 0x1C => form l2 true (.vslide h r o)
  | 0x1D => form l2 true (.vcomp h r o)
  | 0x1E => form l12 true (.vmsk h r o)
  | 0x1F => form l2 true (.vmpop h r o)
  | 0x20 => form l12 true (.viadd h r o)
  | 0x21 => form l12 true (.vimul h r o)
  | 0x22 => form l12 true (.vmac h r o)
  | 0x23 => form l12 true (.vdot4 h r o)
  | 0x24 => form l12 true (.vminmax h r o)
  | 0x25 => form l12 true (.vlogic h r o)
  | 0x26 => form l12 true (.vshift h r o)
  | 0x27 => form l12 true (.vrsh h r o)
  | 0x28 => form (n == 3) (zero q.c2 15 0)
      (.vrq h r o (bits q.c2 27 22) (bits q.c2 21 17) (bit q.c2 16))
  | 0x29 => form l12 true (.vcmp h r o)
  | 0x2A => form l2 true (.vsel h r o)
  | 0x2B => form l12 true (.vunary h r o)
  | 0x2C => form l2 true (.vclamp h r o)
  | 0x30 => form l12 true (.vfadd h r o)
  | 0x31 => form l12 true (.vfmul h r o)
  | 0x32 => form l12 true (.vfma h r o)
  | 0x33 => form l12 true (.vfminmax h r o)
  | 0x34 => form l12 true (.vfun h r o)
  | 0x35 => form l12 true (.vfcmp h r o)
  | 0x36 => form l2 true (.vcvt h r o)
  | 0x37 => form l2 true (if o.sub = 0 then .vqx4Enc h r o else .vqx4Dec h r o)
  | 0x38 => form l12 true (if o.sub = 0 then .vscale h r o else .vscaleBlk h r o)
  | 0x39 => form l12 true (.vred h r o)
  | 0x3A => form l12 true (.vfred h r o)
  | 0x3B => form l12 true (.vredi h r o)
  | _ => decodeCoord ws q

/-- The instruction an engine reads from words, which are exactly the words that word 0
announces. -/
def decode (e : Engine) (ws : List Nat) : Except DecodeErr Instr :=
  if ws.length ≠ lenOf (ws.getD 0 0) then .error .badLen
  else
    let q := partsOf ws
    match e with
    | .scu => decodeScu ws q
    | .lce => decodeLce ws q
    | .mxe => decodeMxe ws q
    | .vxe => decodeVxe ws q
    | .sce => decodeSce ws q

/-- The engines in the order in which `decodeTableWord` asks them (log entry 14). -/
def tableEngines : List Engine := [.scu, .lce, .mxe, .vxe, .sce]

/-- The first of some engines that reads an instruction from the words. -/
def firstDecode (ws : List Nat) : List Engine → Option (Engine × Instr)
  | [] => none
  | e :: es => match decode e ws with
    | .ok i => some (e, i)
    | .error _ => firstDecode ws es

/-- The 32-bit words of a table word; all bits above `nbits` are zero. -/
def tableWords (nbits w : Nat) : List Nat :=
  let v := w % 2 ^ nbits
  (List.range (lenOf (v % 2 ^ 32))).map fun k => v / 2 ^ (32 * k) % 2 ^ 32

/-- The instruction read from a row's bits (the opcode table names no engine: log entry 14). -/
def decodeTableWord (nbits w : Nat) : Option Instr :=
  (firstDecode (tableWords nbits w) tableEngines).map Prod.snd

/-! ## The encoder -/

/-- The interlock bits of word `k` (R112: a kind with count c sets its bit in words 0 to c - 1). -/
def ilBits (h : Hdr) (k : Nat) : Nat :=
  b2n (decide (k < h.wp)) * 2 ^ 31 + b2n (decide (k < h.wn)) * 2 ^ 30
    + b2n (decide (k < h.gp)) * 2 ^ 29 + b2n (decide (k < h.gn)) * 2 ^ 28

/-- The words of an instruction from its operation, its word-0 payload and the payloads of the
continuation words; `h.n` of them are emitted. -/
def assemble (h : Hdr) (op p c1 c2 : Nat) : List Nat :=
  (List.range h.n).map fun k => ilBits h k +
    (match k with
     | 0 => (h.n - 1) * 2 ^ 26 + op * 2 ^ 20 + p
     | 1 => c1
     | 2 => c2
     | _ => 0)

/-- Word 0 of an SCU instruction below its operation (Table 8.3). -/
def scuP (h : Hdr) (d a b f : Nat) : Nat := h.stl * 2 ^ 16 + d * 2 ^ 11 + a * 2 ^ 6 + b * 2 + f

/-- Word 0 of a copy instruction below its operation (Tables 9.2, 10.2). -/
def copyP (td cd cs flg : Nat) : Nat := td * 2 ^ 12 + cd * 2 ^ 8 + cs * 2 ^ 4 + flg

/-- Word 1 of a copy instruction. -/
def copyC (ts w1 : Nat) : Nat := ts * 2 ^ 20 + w1

/-- Word 2 of a copy or block instruction. -/
def extC : Option Ext → Nat
  | none => 0
  | some e => e.e1 * 2 ^ 14 + e.e0

/-- The row fields of word 0 of an MXE instruction with the tile and the stall count. -/
def mxeP (h : Hdr) (an : Nat) (r : Rows) (low : Nat) : Nat :=
  h.stl * 2 ^ 16 + an * 2 ^ 13 + b2n r.all * 2 ^ 12 + r.cr * 2 ^ 8 + low

/-- Word 0 of a VXE instruction below its operation (Table 12.3). -/
def vxeP (h : Hdr) (r : VRegs) : Nat :=
  r.vd * 2 ^ 15 + r.va * 2 ^ 10 + r.vb * 2 ^ 5 + r.es * 2 ^ 3 + h.stl

/-- Word 1 of the arithmetic layout (Table 12.4). -/
def varithC (o : VArith) : Nat :=
  o.sub * 2 ^ 24 + b2n o.sat * 2 ^ 23 + o.rm * 2 ^ 21 + o.msk * 2 ^ 18 + b2n o.z * 2 ^ 17
    + b2n o.i * 2 ^ 16 + o.imm

/-- Word 1 of the memory layout (Table 12.5). -/
def vmemC (m : VMem) : Nat :=
  m.tid * 2 ^ 20 + m.cr * 2 ^ 16 + m.soff * 2 ^ 12 + m.msk * 2 ^ 9 + b2n m.z * 2 ^ 8 + b2n m.pk

/-- Word 1 of LD and ST (Table 8.9). -/
def memC (m : MemWord) : Nat :=
  m.sel * 2 ^ 26 + m.kind * 2 ^ 24 + m.ord * 2 ^ 22 + m.scope * 2 ^ 19 + m.tid * 2 ^ 11 + m.off

/-- Word 1 of ATM (Table 8.10). -/
def memAtmC (m : MemWord) : Nat :=
  m.sel * 2 ^ 26 + m.kind * 2 ^ 23 + m.ord * 2 ^ 21 + m.scope * 2 ^ 18 + m.tid * 2 ^ 10 + m.off

/-- An instruction of the arithmetic layout. -/
def encA (h : Hdr) (op : Nat) (r : VRegs) (o : VArith) : List Nat :=
  assemble h op (vxeP h r) (varithC o) 0

/-- The words of an engine instruction; other steps have none. -/
def encode : Instr → List Nat
  | .nop h => assemble h 0x00 0 0 0
  | .atStamp h t => assemble h 0x01 (t / 2 ^ 28) (t % 2 ^ 28) 0
  | .atLax h t => assemble h 0x01 (2 ^ 12 + t / 2 ^ 28) (t % 2 ^ 28) 0
  | .endStream h => assemble h 0x02 0 0 0
  | .loop h body (.imm c) => assemble h 0x03 body c 0
  | .loop h body (.coord r k) => assemble h 0x03 (2 ^ 19 + body) (r * 4 + k) 0
  | .loop h body (.operand c) => assemble h 0x03 (2 ^ 19 + body) c 0
  | .endl h => assemble h 0x04 0 0 0
  | .csetImm h cd mask imm => assemble h 0x05 (cd * 2 ^ 16 + mask * 2 ^ 12) imm 0
  | .csetReg h cd mask ca => assemble h 0x05 (cd * 2 ^ 16 + mask * 2 ^ 12 + ca * 2 ^ 8 + 2 ^ 7) 0 0
  | .caddImm h cd mask imm => assemble h 0x06 (cd * 2 ^ 16 + mask * 2 ^ 12) imm 0
  | .caddReg h cd mask ca => assemble h 0x06 (cd * 2 ^ 16 + mask * 2 ^ 12 + ca * 2 ^ 8 + 2 ^ 7) 0 0
  | .cmodImm h cd mask imm => assemble h 0x07 (cd * 2 ^ 16 + mask * 2 ^ 12) imm 0
  | .cmodReg h cd mask ca => assemble h 0x07 (cd * 2 ^ 16 + mask * 2 ^ 12 + ca * 2 ^ 8 + 2 ^ 7) 0 0
  | .cldp h cd mask off => assemble h 0x08 (cd * 2 ^ 16 + mask * 2 ^ 12 + off) 0 0
  | .mark h => assemble h 0x09 0 0 0
  | .fence h scope => assemble h 0x0A scope 0 0
  | .trap h code => assemble h 0x05 (h.stl * 2 ^ 16 + code) 0 0
  | .bar h scope => assemble h 0x06 (h.stl * 2 ^ 16 + scope) 0 0
  | .barred h d a rop scope =>
      assemble h 0x07 (h.stl * 2 ^ 16 + d * 2 ^ 11 + a * 2 ^ 6 + rop * 2 ^ 3 + scope) 0 0
  | .waitt h a rel => assemble h 0x08 (scuP h 0 a 0 (b2n rel)) 0 0
  | .gtc h d => assemble h 0x0B (scuP h d 0 0 0) 0 0
  | .getc h d c => assemble h 0x0C (scuP h d c 0 0) 0 0
  | .setc h c b => assemble h 0x0D (scuP h 0 c b 0) 0 0
  | .spawn h d a tid => assemble h 0x0E (scuP h d a 0 0) tid 0
  | .notify h b code => assemble h 0x0F (scuP h 0 0 b 0) code 0
  | .add h d a b => assemble h 0x10 (scuP h d a b 0) 0 0
  | .sub h d a b => assemble h 0x11 (scuP h d a b 0) 0 0
  | .andReg h d a b => assemble h 0x12 (scuP h d a b 0) 0 0
  | .orReg h d a b => assemble h 0x13 (scuP h d a b 0) 0 0
  | .xorReg h d a b => assemble h 0x14 (scuP h d a b 0) 0 0
  | .andn h d a b => assemble h 0x15 (scuP h d a b 0) 0 0
  | .shl h d a b => assemble h 0x16 (scuP h d a b 0) 0 0
  | .shr h d a b => assemble h 0x17 (scuP h d a b 0) 0 0
  | .sra h d a b => assemble h 0x18 (scuP h d a b 0) 0 0
  | .mul h d a b => assemble h 0x19 (scuP h d a b 0) 0 0
  | .mulh h d a b u => assemble h 0x1A (scuP h d a b (b2n u)) 0 0
  | .div h d a b u => assemble h 0x1B (scuP h d a b (b2n u)) 0 0
  | .rem h d a b u => assemble h 0x1C (scuP h d a b (b2n u)) 0 0
  | .minReg h d a b u => assemble h 0x1D (scuP h d a b (b2n u)) 0 0
  | .maxReg h d a b u => assemble h 0x1E (scuP h d a b (b2n u)) 0 0
  | .cmp h d a b c => assemble h 0x1F (scuP h d a b 0) c 0
  | .sel h d a b c => assemble h 0x20 (scuP h d a b 0) c 0
  | .clz h d a t => assemble h 0x21 (scuP h d a 0 (b2n t)) 0 0
  | .popc h d a => assemble h 0x22 (scuP h d a 0 0) 0 0
  | .addi h d a imm => assemble h 0x23 (scuP h d a 0 0) imm 0
  | .andi h d a imm => assemble h 0x24 (scuP h d a 0 0) imm 0
  | .ori h d a imm => assemble h 0x25 (scuP h d a 0 0) imm 0
  | .xori h d a imm => assemble h 0x26 (scuP h d a 0 0) imm 0
  | .shi h d a k c => assemble h 0x27 (scuP h d a 0 0) (k * 2 ^ 6 + c) 0
  | .li h d v => assemble h 0x28 (scuP h d 0 0 0) (v % 2 ^ 28) (v / 2 ^ 28)
  | .cmpi h d a c imm => assemble h 0x29 (scuP h d a c 0) imm 0
  | .br h c a b off => assemble h 0x30 (scuP h c a b 0) off 0
  | .jump h off => assemble h 0x31 (scuP h 0 0 0 0) off 0
  | .jumpReg h a => assemble h 0x31 (scuP h 0 a 0 1) 0 0
  | .call h d off => assemble h 0x32 (scuP h d 0 0 0) off 0
  | .callReg h d a => assemble h 0x32 (scuP h d a 0 1) 0 0
  | .ret h a => assemble h 0x33 (scuP h 0 a 0 0) 0 0
  | .ld h d a f m => assemble h 0x34 (scuP h d a 0 (b2n f)) (memC m) 0
  | .st h a b m => assemble h 0x35 (scuP h 0 a b 0) (memC m) 0
  | .atm h d a b u m z => assemble h 0x36 (scuP h d a b (b2n u)) (memAtmC m) z
  | .dgleaf h a b tag tid => assemble h 0x37 (scuP h 0 a b 0) (tag * 2 ^ 16 + tid) 0
  | .dgseal h d => assemble h 0x38 (scuP h d 0 0 0) 0 0
  | .retf h f => assemble h 0x39 (scuP h 0 0 0 (b2n f)) 0 0
  | .yield h => assemble h 0x3A (scuP h 0 0 0 0) 0 0
  | .cpi h td cd cs ts e => assemble h 0x10 (copyP td cd cs 0) (copyC ts 0) (extC e)
  | .cpic h td cd cs ts e => assemble h 0x11 (copyP td cd cs 0) (copyC ts 0) (extC e)
  | .cpig h td cd cs ts ti ci e =>
      assemble h 0x12 (copyP td cd cs ci) (copyC ts (ti * 2 ^ 12)) (extC e)
  | .cpib h td cd cs ts e => assemble h 0x13 (copyP td cd cs 0) (copyC ts 0) (extC e)
  | .cpw h td cd cs ts e => assemble h 0x14 (copyP td cd cs 0) (copyC ts 0) (extC e)
  | .cpa h td cd cs ts cvt x e => assemble h 0x15 (copyP td cd cs (b2n cvt)) (copyC ts x) (extC e)
  | .pref h cs ts e => assemble h 0x16 (copyP 0 0 cs 0) (copyC ts 0) (extC e)
  | .cpq h td cd cs ts rm sm e =>
      assemble h 0x17 (copyP td cd cs (rm * 4 + b2n sm * 2)) (copyC ts 0) (extC e)
  | .lstat h td cd clr => assemble h 0x18 (copyP td cd 0 (b2n clr)) 0 0
  | .rwait h c s t => assemble h 0x19 (copyP 0 0 c (b2n s)) t 0
  | .cpo h td cd cs ts k e => assemble h 0x10 (copyP td cd cs (b2n k)) (copyC ts 0) (extC e)
  | .cpoc h td cd cs ts k e => assemble h 0x11 (copyP td cd cs (b2n k)) (copyC ts 0) (extC e)
  | .cpos h td cd cs ts ti ci k e =>
      assemble h 0x12 (copyP td cd cs (b2n k)) (copyC ts (ti * 2 ^ 12 + ci * 2 ^ 8)) (extC e)
  | .cpf h td cd cs ts k e => assemble h 0x13 (copyP td cd cs (b2n k)) (copyC ts 0) (extC e)
  | .cpm h td cd cs ts g e => assemble h 0x14 (copyP td cd cs 0) (copyC ts (g * 2 ^ 12)) (extC e)
  | .fat h td cd cs ts res tr cr aop => assemble h 0x15 (copyP td cd cs (b2n res))
      (copyC ts (tr * 2 ^ 12 + cr * 2 ^ 8 + aop * 2 ^ 4)) 0
  | .fsig h cs ts rel k inc =>
      assemble h 0x16 (copyP 0 0 cs (b2n k * 2 + b2n rel)) (copyC ts inc) 0
  | .flush h td cd inv e => assemble h 0x17 (copyP td cd 0 (b2n inv)) 0 (extC e)
  | .flushAll h inv => assemble h 0x17 (2 + b2n inv) 0 0
  | .sstat h td cd setl agg clr =>
      assemble h 0x18 (copyP td cd 0 (b2n setl * 4 + b2n agg * 2 + b2n clr)) 0 0
  | .mrd h q ts cs e => assemble h 0x10 (h.stl * 2 ^ 16 + q * 2 ^ 14) (copyC ts (cs * 2 ^ 16))
      (extC e)
  | .wld h q ts cs e => assemble h 0x11 (h.stl * 2 ^ 16 + q * 2 ^ 14) (copyC ts (cs * 2 ^ 16))
      (extC e)
  | .mma h an q w pop => assemble h 0x12
      (h.stl * 2 ^ 16 + an * 2 ^ 13 + q * 2 ^ 11 + w * 2 ^ 9 + b2n pop * 2 ^ 8) 0 0
  | .mmag h an q pop cg ng => assemble h 0x13
      (h.stl * 2 ^ 16 + an * 2 ^ 13 + q * 2 ^ 11 + b2n pop * 2 ^ 10 + cg * 2 ^ 6 + ng * 2 ^ 4) 0 0
  | .aset h an r x => assemble h 0x14 (mxeP h an r 0) x 0
  | .anorm h an r k => assemble h 0x15 (mxeP h an r k) 0 0
  | .aclr h an r => assemble h 0x16 (mxeP h an r 0) 0 0
  | .aadd h an r as => assemble h 0x17 (mxeP h an r (as * 2 ^ 5)) 0 0
  | .aret h an r free sh td cd tq cq rm => assemble h 0x18 (mxeP h an r (b2n free * 2 ^ 7 + sh))
      (copyC td (cd * 2 ^ 16 + tq * 2 ^ 8 + cq * 2 ^ 4 + rm * 4)) 0
  | .ard h an r xe td cd =>
      assemble h 0x19 (mxeP h an r (b2n xe * 2 ^ 7)) (copyC td (cd * 2 ^ 16)) 0
  | .awr h an r xe ts cs =>
      assemble h 0x1A (mxeP h an r (b2n xe * 2 ^ 7)) (copyC ts (cs * 2 ^ 16)) 0
  | .amax h an r td cd => assemble h 0x1B (mxeP h an r 0) (copyC td (cd * 2 ^ 16)) 0
  | .mxmode h ovt => assemble h 0x1C (h.stl * 2 ^ 16 + b2n ovt) 0 0
  | .mstat h clr td cd =>
      assemble h 0x1D (h.stl * 2 ^ 16 + b2n clr) (copyC td (cd * 2 ^ 16)) 0
  | .vld h r m e => assemble h 0x10 (vxeP h r) (vmemC m) (extC e)
  | .vst h r m e => assemble h 0x11 (vxeP h r) (vmemC m) (extC e)
  | .vldx h r m => assemble h 0x12 (vxeP h r) (vmemC m) 0
  | .vstx h r m => assemble h 0x13 (vxeP h r) (vmemC m) 0
  | .vlda h r an cr half xe val => assemble h 0x14 (vxeP h r)
      (an * 2 ^ 25 + cr * 2 ^ 21 + b2n half * 2 ^ 20 + b2n xe * 2 ^ 19 + b2n val * 2 ^ 18) 0
  | .vbcE h r o | .vbcI h r o | .vbcC h r o | .vbcSt h r o | .vbcWc h r o
  | .vbcClr h r o => encA h 0x15 r o
  | .vspill h r => assemble h 0x16 (vxeP h r) 0 0
  | .vfill h r => assemble h 0x17 (vxeP h r) 0 0
  | .vloop h rb rl rs body (.imm c) => assemble h 0x18 (rb * 2 ^ 15 + rl * 2 ^ 10 + rs * 2 ^ 5)
      (body * 2 ^ 13 + c) 0
  | .vloop h rb rl rs body (.coord r k) =>
      assemble h 0x18 (rb * 2 ^ 15 + rl * 2 ^ 10 + rs * 2 ^ 5)
        (2 ^ 27 + body * 2 ^ 13 + r * 4 + k) 0
  | .vloop _ _ _ _ _ (.operand _) => []
  | .viota h r o => encA h 0x19 r o
  | .vhash h r m => assemble h 0x1A (vxeP h r) (vmemC m) 0
  | .vperm h r o => encA h 0x1B r o
  | .vslide h r o => encA h 0x1C r o
  | .vcomp h r o => encA h 0x1D r o
  | .vmsk h r o => encA h 0x1E r o
  | .vmpop h r o => encA h 0x1F r o
  | .viadd h r o => encA h 0x20 r o
  | .vimul h r o => encA h 0x21 r o
  | .vmac h r o => encA h 0x22 r o
  | .vdot4 h r o => encA h 0x23 r o
  | .vminmax h r o => encA h 0x24 r o
  | .vlogic h r o => encA h 0x25 r o
  | .vshift h r o => encA h 0x26 r o
  | .vrsh h r o => encA h 0x27 r o
  | .vrq h r o sh vz z0 => assemble h 0x28 (vxeP h r) (varithC o)
      (sh * 2 ^ 22 + vz * 2 ^ 17 + b2n z0 * 2 ^ 16)
  | .vcmp h r o => encA h 0x29 r o
  | .vsel h r o => encA h 0x2A r o
  | .vunary h r o => encA h 0x2B r o
  | .vclamp h r o => encA h 0x2C r o
  | .vfadd h r o => encA h 0x30 r o
  | .vfmul h r o => encA h 0x31 r o
  | .vfma h r o => encA h 0x32 r o
  | .vfminmax h r o => encA h 0x33 r o
  | .vfun h r o => encA h 0x34 r o
  | .vfcmp h r o => encA h 0x35 r o
  | .vcvt h r o => encA h 0x36 r o
  | .vqx4Enc h r o | .vqx4Dec h r o => encA h 0x37 r o
  | .vscale h r o | .vscaleBlk h r o => encA h 0x38 r o
  | .vred h r o => encA h 0x39 r o
  | .vfred h r o => encA h 0x3A r o
  | .vredi h r o => encA h 0x3B r o
  -- every other step is no engine instruction
  | .d2dThrottleWindow _ | .powerWindow _ _ | .thermalShutdown | .moduleReset _
  | .dieChallengeTimeout _ | .ucieEdgeTraining _ _ _ | .linkTraining _ _ _ _ | .frameReceive _ _
  | .frameReplay _ _ | .flowReportTimer | .packetRoute | .bulkAgePromote | .wrPacket _
  | .rdPacket _ | .rdrPacket _ | .atmPacket _ | .atrPacket _ | .sigPacket _ | .mcwPacket _
  | .ackPacket _ | .mcaPacket _ | .barPacket _ | .timePacket _ _ _ _ | .timeSend
  | .timeLostTimeout | .staffPacket _ | .detectorFire | .sidingDrain | .staffHoldTimeout
  | .staffRegenerate | .responseTimeout _ _ | .keyUpdateStart | .keySwitch | .linkFail
  | .pstatRetrain | .translationWalk _ _ _ | .acntWriteback _ _ _ | .xinvPage64k _ _
  | .xinvPage2m _ _ | .xinvAsid _ | .xinvAll | .xinvComplete | .dlkick _ | .fttclr _ _
  | .encirWrite _ _ | .registerWrite _ _ _ | .taskPlacement _ | .tokenPassThrough
  | .resultLand | .giveOverflowRelease | .mxeCompletion | .lceCommandCompletion _ _
  | .sceCommandCompletion _ _ | .packetSettlement _ _ _ | .fabricCacheEviction _ _
  | .cellarRefresh _ | .arbitrationPromote | .barrierDepart | .engineFault _ _ _ _ _
  | .firmwareEventStart | .firmwareContextFault | .yieldRequest _ | .yieldHalt
  | .forcedCut | .taskRetirement _ | .batchSign | .notifyWrite _ _ | .fedWakeup | .slotGrant
  | .slotEvict | .queueEnable | .queueDisable | .queueRestart | .stackReread
  | .nackReread | .interruptCoalesceTimer | .launch _ _ | .graph _ _ _ | .dep _ _ _
  | .depSatisfied | .signal _ _ _ | .signalWrite | .mapGroup _ _ _ _ _
  | .cellarLoad _ _ _ _ _ | .cellarCopy _ | .seal _ | .taskReady _ | .taskStart
  | .reservationStart _ | .speculationStart | .speculationDiscard _ _ | .stop _ _ _ _
  | .stopCut _ | .save _ _ _ _ _ | .resume _ _ _ _ _ | .taskEnd _ | .bisect _ _ | .audnPacket _
  | .bisectAnswerTimeout _ | .capture _ _ | .captureTargetReached | .taste _ _
  | .errorCorrected _ | .errorUncorrectable _ _ | .errorWindow | .resourceRetire _
  | .retireCore _ _ | .retireDie _ | .retireStack _ | .retireEdge _ _ | .fwload _ _ _
  | .hostMemoryAccess _ | .getVersion _ | .getCapabilities _ | .negotiateAlgorithms _ _
  | .getDigests _ | .getCertificate _ _ _ _ | .challenge _ _ _ | .getMeasurements _ _
  | .chunkSend _ _ _ _ _ | .chunkGet _ _ _ | .keyExchange _ _ | .finish _ _ | .keyUpdate _ _
  | .heartbeat _ | .endSession _ | .setCertificate _ _ _ _ | .keySet _ _ _ | .keyClear _ _
  | .spdmUnsupportedRequest _ _ | .lockInterface _ _ | .startInterface _ _ | .stopInterface _ _
  | .getInterfaceReport _ _ | .functionLevelReset _ | .sliceExpiry _
  | .unsupportedTypePacket _ _ | .ideKmKeyProgramming _ _ | .powerLoss => []

/-- Which engines have an instruction (Tables 5.4 to 5.10). -/
def Instr.engines : Instr → List Engine
  | .nop _ | .atStamp _ _ | .atLax _ _ | .endStream _ | .endl _ | .mark _ | .fence _ _
  | .loop _ _ (.imm _) => [.scu, .lce, .mxe, .vxe, .sce]
  | .loop _ _ (.operand _) => [.scu]
  | .loop _ _ (.coord _ _) | .csetImm _ _ _ _ | .csetReg _ _ _ _ | .caddImm _ _ _ _
  | .caddReg _ _ _ _ | .cmodImm _ _ _ _ | .cmodReg _ _ _ _ | .cldp _ _ _ _ =>
      [.lce, .mxe, .vxe, .sce]
  | .trap _ _ | .bar _ _ | .barred _ _ _ _ _ | .waitt _ _ _ | .gtc _ _ | .getc _ _ _
  | .setc _ _ _ | .spawn _ _ _ _ | .notify _ _ _ | .add _ _ _ _ | .sub _ _ _ _
  | .andReg _ _ _ _ | .orReg _ _ _ _ | .xorReg _ _ _ _ | .andn _ _ _ _ | .shl _ _ _ _
  | .shr _ _ _ _ | .sra _ _ _ _ | .mul _ _ _ _ | .mulh _ _ _ _ _ | .div _ _ _ _ _
  | .rem _ _ _ _ _ | .minReg _ _ _ _ _ | .maxReg _ _ _ _ _ | .cmp _ _ _ _ _ | .sel _ _ _ _ _
  | .clz _ _ _ _ | .popc _ _ _ | .addi _ _ _ _ | .andi _ _ _ _ | .ori _ _ _ _ | .xori _ _ _ _
  | .shi _ _ _ _ _ | .li _ _ _ | .cmpi _ _ _ _ _ | .br _ _ _ _ _ | .jump _ _ | .jumpReg _ _
  | .call _ _ _ | .callReg _ _ _ | .ret _ _ | .ld _ _ _ _ _ | .st _ _ _ _ | .atm _ _ _ _ _ _ _
  | .dgleaf _ _ _ _ _ | .dgseal _ _ | .retf _ _ | .yield _ => [.scu]
  | .cpi _ _ _ _ _ _ | .cpic _ _ _ _ _ _ | .cpig _ _ _ _ _ _ _ _ | .cpib _ _ _ _ _ _
  | .cpw _ _ _ _ _ _ | .cpa _ _ _ _ _ _ _ _ | .pref _ _ _ _ | .cpq _ _ _ _ _ _ _ _
  | .lstat _ _ _ _ | .rwait _ _ _ _ => [.lce]
  | .cpo _ _ _ _ _ _ _ | .cpoc _ _ _ _ _ _ _ | .cpos _ _ _ _ _ _ _ _ _ | .cpf _ _ _ _ _ _ _
  | .cpm _ _ _ _ _ _ _ | .fat _ _ _ _ _ _ _ _ _ | .fsig _ _ _ _ _ _ | .flush _ _ _ _ _
  | .flushAll _ _ | .sstat _ _ _ _ _ _ => [.sce]
  | .mrd _ _ _ _ _ | .wld _ _ _ _ _ | .mma _ _ _ _ _ | .mmag _ _ _ _ _ _ | .aset _ _ _ _
  | .anorm _ _ _ _ | .aclr _ _ _ | .aadd _ _ _ _ | .aret _ _ _ _ _ _ _ _ _ _
  | .ard _ _ _ _ _ _ | .awr _ _ _ _ _ _ | .amax _ _ _ _ _ | .mxmode _ _ | .mstat _ _ _ _ =>
      [.mxe]
  | .vld _ _ _ _ | .vst _ _ _ _ | .vldx _ _ _ | .vstx _ _ _ | .vlda _ _ _ _ _ _ _
  | .vbcE _ _ _ | .vbcI _ _ _ | .vbcC _ _ _ | .vbcSt _ _ _ | .vbcWc _ _ _ | .vbcClr _ _ _
  | .vspill _ _ | .vfill _ _ | .vloop _ _ _ _ _ _ | .viota _ _ _ | .vhash _ _ _ | .vperm _ _ _
  | .vslide _ _ _ | .vcomp _ _ _ | .vmsk _ _ _ | .vmpop _ _ _ | .viadd _ _ _ | .vimul _ _ _
  | .vmac _ _ _ | .vdot4 _ _ _ | .vminmax _ _ _ | .vlogic _ _ _ | .vshift _ _ _ | .vrsh _ _ _
  | .vrq _ _ _ _ _ _ | .vcmp _ _ _ | .vsel _ _ _ | .vunary _ _ _ | .vclamp _ _ _ | .vfadd _ _ _
  | .vfmul _ _ _ | .vfma _ _ _ | .vfminmax _ _ _ | .vfun _ _ _ | .vfcmp _ _ _ | .vcvt _ _ _
  | .vqx4Enc _ _ _ | .vqx4Dec _ _ _ | .vscale _ _ _ | .vscaleBlk _ _ _ | .vred _ _ _
  | .vfred _ _ _ | .vredi _ _ _ => [.vxe]
  | _ => []

end Sys2Proof
end

