-- ==== Sys2Proof/Config.lean ====
section
/-!
DEFINITION. What an implementation fixes, and the values the manual leaves open. The open
values are opaque: nothing can be proved about which value they have.
-/

namespace Sys2Proof.Config

/-- A value that the manual leaves open, fresh for each place that draws one (log entry 4). -/
opaque freeValue : Nat → Nat

/-- What bytes of a line read as under a key other than the one they were written under: they
depend on the line, the byte and the two keys (17, R460; log entry 9). -/
opaque scrambled : Nat → Nat → Nat → Byte

/-- The one-time signature of a batch digest under the module identity key, byte by byte: it
depends on the secret key (13, R366; log entry 10). -/
opaque signature : Nat → Nat → Nat → Byte

/-- The vendor chain in certificate slot 0 of a responder, as manufacture wrote it (17, R449; log entry
10): the trust chiplet is responder 32, the security engine of die d is responder d. -/
opaque vendorChain : Nat → List Nat

/-- The 48 bytes of a measurement block of a part (17, R451; log entry 10). -/
opaque measurement : Nat → Nat → List Nat

/-- Bytes that an SPDM answer may have before it is given in chunks (17, R447; log entry 10). -/
opaque transferSize : Nat

end Sys2Proof.Config
end

