-- ==== Sys2Proof/Machine/FrontState.lean ====
section
/-!
DEFINITION. The state of the front end: queues and their packets, tasks, the Timetable and the
shadow contexts, the group table, the logs (15; 13, R363; 16, R431 to R442). Plain data.
-/

namespace Sys2Proof.Machine

/-- A kernel header as read at launch (Table 2.7). -/
structure KHeader where
  spillbank   : Bool
  speculable  : Bool
  cellarWrite : Bool
  check       : Bool
  audit       : Bool
  arglen : Nat
  ndesc  : Nat
  soff   : List Nat
  slen   : List Nat
  vregs  : Nat
  acct   : Nat
  spd    : Nat
  maxred : Nat
  ilinit : List Nat
  descoff : Nat
  imglen : Nat
  raw    : List Byte
deriving DecidableEq, Repr

/-- The header of no kernel. -/
def KHeader.empty : KHeader :=
  { spillbank := false, speculable := false, cellarWrite := false, check := false, audit := false
    arglen := 0, ndesc := 0, soff := [0, 0, 0, 0, 0], slen := [0, 0, 0, 0, 0], vregs := 0, acct := 0
    spd := 0, maxred := 0, ilinit := [0, 0, 0, 0, 0, 0, 0, 0, 0, 0], descoff := 0, imglen := 0
    raw := [] }

/-- What a task of the graph tracker does: run a kernel, or copy bytes into the Cellar (R404). -/
inductive TaskKind where
  | kernel
  | cellar (src : FedAddr) (off mask len : Nat)
deriving DecidableEq, Repr

/-- Where a task stands. -/
inductive TaskPhase where
  /-- Accepted; waits for earlier tasks (R409). -/
  | waiting
  /-- Ready since a tick; the die whose pool holds it, if one has room (R411). -/
  | ready (since : Nat) (pool : Option Nat)
  /-- Its cores run. -/
  | running
  /-- Its cores are halted after a complete cut (R433). -/
  | held
  /-- Never placed and held by a STOP (R431). -/
  | heldUnplaced
  /-- Off its cores; the context is kept in a save area (R435). -/
  | kept (area : FedAddr) (len : Nat)
deriving DecidableEq, Repr

/-- A SAVE that waits for the cut of its task (R435): its queue and sequence number, the area and the
bytes there, whether the id is released, the unit offsets of its fields TASKID and SAVEAREA, and
whether it has met uncorrectable data. -/
structure SaveReq where
  q      : Nat
  seq    : Nat
  area   : FedAddr
  avail  : Nat
  detach : Bool
  utid   : Nat
  uarea  : Nat
  spoilt : Bool
deriving DecidableEq, Repr

/-- A STOP, SAVE or end that a task has been asked for (R431, R435, R442). -/
structure CutReq where
  at?   : Option Nat        -- cut tick, where it is a common one
  kind  : Nat               -- 1 once a STOP's tick has come or an end is asked for; 5 for a SAVE; else 4
  ends  : Bool              -- the task is ended once the cut is complete
  detail : Nat              -- Table 16.9, or the virtual core of a firmware fault
  fwFault : Bool
  stops : List (Nat × Nat × Nat)  -- STOP packets that complete with the cut: queue, sequence
                                  -- and the unit offset of TASKID
  saves : List SaveReq
  yield : Bool              -- the front end asked for the cores (R414)
  ty    : Nat               -- the yield request's tick
deriving DecidableEq, Repr

/-- A task (02; 15, R398 to R414; 16). -/
structure Task where
  kind   : TaskKind
  queue  : Nat
  pseq   : Nat
  node   : Option Nat       -- its place in a GRAPH
  preds  : List Nat         -- tasks it waits for by EDGE or ORDERED
  asid   : Nat
  kva    : Nat
  pages  : List (Nat × Nat × Nat)  -- kernel image: page, where it lies, key (R399)
  kid    : Nat
  hdr    : KHeader
  n      : Nat
  shape  : Nat
  args   : List Byte
  regions : List Region
  descs  : SMap (BitVec 512)
  podbar : Option PodBar
  audring : Option AudRing
  audN    : Nat              -- audit records written (R364)
  audWait : List (List Byte) -- records still to be written: of a claimed speculation, roots (R364, R368)
  rooted : Bool              -- the records of its roots have been made
  launch : List Nat          -- the LAUNCH packet with its header, in units
  phase  : TaskPhase
  cores  : List Nat          -- physical core of virtual core v
  order  : Nat               -- acceptance order
  ordered : Bool             -- it waits for every earlier packet of its queue (Table 15.3)
  readyAt : Nat              -- tick on which it first became ready
  started : Nat              -- tick of its start
  slice   : Nat              -- its time slice in ticks; 0 for none (R412)
  expired : Bool             -- the slice has run out (R413)
  clock  : Word              -- clock offset (R441)
  recv   : SMap Commit
  pendInc : List (Nat × Nat × Word)   -- held increments: virtual core, counter, sum (R228)
  podGen : Nat
  cutReq : Option CutReq
  startAt : Nat              -- first issue tick after a RESUME
  restore : Option (List Byte) -- the save area it is restored from at placement
  spec   : Option Nat        -- the shadow context it runs in
  reserving : Bool           -- it reserves cores (R411)
  after   : Option Nat       -- the task it yielded its cores to, which starts first (R413)
  pins    : List Nat         -- where a pinned capture run must be placed (R380)
deriving DecidableEq, Repr

/-- A packet that has been accepted and has not completed (R394). -/
structure OpenPkt where
  seq   : Nat
  irq   : Bool
  stop  : Bool
  left  : Nat                -- tasks that have not completed (GRAPH: its nodes)
  worst : List (Nat × Nat × Nat × Nat)  -- node, status, tag, detail of completed nodes
deriving DecidableEq, Repr

/-- The fields of a queue-table entry as read at ENABLE (Table 15.1). -/
structure QueueEntry where
  rlog  : Nat
  asid  : Nat
  cls   : Nat
  spec  : Bool
  priv  : Bool
  slice : Nat
  vec   : Nat
  ring  : FedAddr
  cwa   : FedAddr
  stb   : FedAddr
  nrb   : FedAddr
  nlog  : Nat
  slog  : Nat
deriving DecidableEq, Repr

/-- Nothing read. -/
def QueueEntry.empty : QueueEntry :=
  { rlog := 0, asid := 0, cls := 0, spec := false, priv := false, slice := 0, vec := 0
    ring := ⟨false, 0⟩, cwa := ⟨false, 0⟩, stb := ⟨false, 0⟩, nrb := ⟨false, 0⟩, nlog := 0
    slog := 0 }

/-- An entry of the Timetable (Table 15.8): the body words of the last launch, the layout as its
tags and lengths, and the predicted successor. -/
structure TtEntry where
  kid    : Nat
  last   : List Nat
  layout : List (Nat × Nat)
  delta  : List Nat
  next   : Option Nat
  conf   : Nat
deriving DecidableEq, Repr

/-- A prediction: the launch body it foretells and the kernel it followed (R416). -/
structure Prediction where
  after : Nat
  body  : List Nat
deriving DecidableEq, Repr

/-- A queue. -/
structure Queue where
  v        : Bool
  entry    : QueueEntry
  disabling : Bool
  err      : Bool
  head     : Nat
  tail     : Nat
  pending  : Bool
  ringSeq  : Nat
  pseq     : Nat
  opens    : List OpenPkt    -- oldest first
  statN    : Nat
  notN     : Nat
  stack    : Nat             -- STACK and NACK as last read (R395, R406)
  nack     : Nat
  spawn    : List (List Nat)
  slotted  : Bool
  needs    : Option Nat      -- since when it needs a slot
  idle     : Option Nat      -- since when a slotted queue has been idle
  dep      : Option (Nat × Nat × Nat)   -- the queue named, the sequence number, that of the DEP
  hold     : Option Nat      -- event id its decoding waits for (R399)
  signals  : List (Nat × FedAddr × Word)
  seals    : List (Nat × Nat)
  lastIrq  : Option Nat
  irqDue   : Bool
  clamps   : Nat
  tsave    : Nat             -- save time and restore time last measured (R412)
  trest    : Nat
  floor    : Nat
  entries  : List TtEntry    -- most recently used first
  prev     : Option Nat      -- kernel of the last learned LAUNCH
  pred     : Option Prediction
  specKept : Bool            -- the prediction has started no speculation yet (R417)
  specDue  : Bool            -- its conditions are to be tested
deriving DecidableEq, Repr

/-- A queue that has not been enabled. -/
def Queue.empty : Queue :=
  { v := false, entry := QueueEntry.empty, disabling := false, err := false, head := 0, tail := 0
    pending := false, ringSeq := 0, pseq := 0, opens := [], statN := 0, notN := 0, stack := 0
    nack := 0, spawn := [], slotted := false, needs := none, idle := none, dep := none
    hold := none, signals := [], seals := [], lastIrq := none, irqDue := false, clamps := 0, tsave := 0, trest := 0
    floor := 70000, entries := [], prev := none, pred := none, specKept := false, specDue := false }

/-- A shadow context (R417 to R423). -/
structure Shadow where
  queue  : Nat
  task   : Nat
  body   : List Nat
  frames : List (Nat × Nat × Nat)   -- page address, original frame, shadow frame (bases)
  watch  : List (Nat × Nat)         -- watched ranges of the flat memory: base and length
  parked : Bool
  done   : Bool
  hit    : Bool                     -- a watched range has been written
  isOver : Bool                     -- a capacity limit has been met
  audit  : List (List Byte)
deriving DecidableEq, Repr

/-- An entry of the group table (R163). -/
structure GroupEntry where
  v       : Bool
  asid    : Nat
  members : BitVec 512
deriving DecidableEq, Repr

/-- No entry. -/
def GroupEntry.empty : GroupEntry := { v := false, asid := 0, members := 0 }

/-- A paused walk or a held read (R132, R139, R399): its event, who waits and for what. -/
structure Walk where
  event : Nat
  core  : Nat               -- 1023 for the front end
  eng   : Nat
  asid  : Nat
  va    : Nat
  full  : Bool              -- it waits for room in the dirty log
deriving DecidableEq, Repr

end Sys2Proof.Machine
end

