-- ==== Sys2Proof/Machine/FabricState.lean ====
section
/-!
DEFINITION. The state of the Azpin router: its ports, the packets it holds, the Staff and the
time distribution (07). Plain data.
-/

namespace Sys2Proof.Machine

/-- A packet that the router holds: when it came, and the port whose pool holds it (`none` for a
packet injected on this module). -/
structure Held where
  pkt  : Packet
  at'  : Nat
  pool : Option Nat
deriving DecidableEq, Repr

/-- The running totals of a flow report (R147). -/
structure Totals where
  rcv    : Nat
  freed  : Nat
  srcv   : Nat
  sfreed : Nat
deriving DecidableEq, Repr

/-- A frame as sent: its counter and the packets it carries. -/
structure SentFrame where
  fctr    : Nat
  report  : Option Totals
  time    : Option (Nat × Nat)
  packets : List Packet
deriving DecidableEq, Repr

/-- A port of the router (Table 7.7, R144, R147, R148, R153, R168). -/
structure Port where
  st       : Nat               -- STATE: 0 absent, 1 training, 2 live, 3 failed and removed
  keyed    : Bool
  lerr     : Nat
  detf     : Nat
  drains   : Nat
  delay    : Nat               -- one-way delay in 1/256 tick (R166)
  sent     : Nat
  ssent    : Nat
  own      : Totals            -- of this port's receiver
  applied  : Totals            -- the last report applied
  recent   : List (Nat × Nat)  -- tick and flits sent, within 512 ticks
  loss     : Nat               -- consecutive reports that show lost flits
  pool     : List Held         -- receive pool, oldest first
  siding   : List Held         -- Siding receive pool
  queue    : List Held         -- packets waiting for this output port, oldest first
  bulkSince : Nat              -- since when the oldest bulk packet of `queue` has been that
  promoted : Bool              -- bulk has one slot in four (R152)
  slots    : Nat               -- packets sent since bulk last had its slot
  fired    : Bool              -- the detector (R153)
  txFctr   : Nat               -- next frame counter
  rxFctr   : Nat               -- next frame counter expected
  replay   : List SentFrame    -- frames not acknowledged, oldest first
  reportAt : Nat               -- when a report was last placed
  report   : Option Totals     -- a report due in the next header
  time     : Bool              -- a TIME due in the next header
  keyFrames : Nat              -- frames sent under the current key
  keyGen   : Nat               -- keys used before this one
  switchAt : Option Nat        -- switch counter of a pending KEY_UPDATE
  tagFails : Nat
  failWin  : Nat               -- the 2^30-tick window of tagFails
deriving DecidableEq, Repr

/-- No totals. -/
def Totals.zero : Totals := { rcv := 0, freed := 0, srcv := 0, sfreed := 0 }

/-- A port that has not trained. -/
def Port.absent : Port :=
  { st := 0, keyed := false, lerr := 0, detf := 0, drains := 0, delay := 0, sent := 0, ssent := 0
    own := Totals.zero, applied := Totals.zero, recent := [], loss := 0, pool := [], siding := []
    queue := [], bulkSince := 0, promoted := false, slots := 0, fired := false, txFctr := 0, rxFctr := 0
    replay := [], reportAt := 0, report := none, time := false, keyFrames := 0, keyGen := 0, switchAt := none
    tagFails := 0, failWin := 0 }

/-- A link-management message that left on a port. -/
inductive LinkMsg where
  /-- A go-back-N request from a frame counter (R144). -/
  | replayFrom (fctr : Nat)
  /-- Every frame below a counter has been received (R144). -/
  | ack (fctr : Nat)
  /-- A KEY_UPDATE naming a switch counter (R454). -/
  | keyUpdate (switchAt : Nat)
  /-- The peer id of this module (R142). -/
  | peerId (p : Nat)
deriving DecidableEq, Repr

/-- What left on a link. -/
inductive Wire where
  | frame (port : Nat) (f : SentFrame)
  | msg (port : Nat) (m : LinkMsg)
deriving DecidableEq, Repr

/-- A multicast copy that this module, as the row intermediate, has replicated and not answered
(R164, R165): where the answer goes, the rows waited for, and the aggregate so far. -/
structure Relay where
  src    : Nat
  tag    : Nat
  score  : Nat
  task   : Nat
  group  : Nat
  asid   : Nat
  va     : Nat
  wait   : List (Nat × Nat)    -- transaction tag of each copy sent down, with its peer
  okn    : Nat
  nak    : List (Nat × Nat)    -- peer and reason
  tick   : Nat
deriving DecidableEq, Repr

/-- The router. -/
structure Fabric where
  ports     : SMap Port
  present   : List Nat         -- the other modules present in the pod (R142, log entry 16)
  route     : List Held        -- injected packets that no port has been chosen for
  epoch     : Nat              -- the highest Staff epoch seen (R156)
  staffSeen : Nat              -- when the Staff was last seen
  holding   : Option Nat       -- since when this module holds the Staff
  record    : List (Nat × Packet)  -- packets recorded for draining, with their ports
  timeSent  : Nat              -- when this module, as the time master, last sent TIME
  timeSeen  : Nat
  timeBad   : Nat              -- consecutive TIME packets with a large offset
  tlost     : Bool
  trim      : Int              -- the clock trim in ppm (R167)
  timed     : Bool             -- GTC has been stepped or a task accepted
  relays    : List Relay
  nextTag   : Nat              -- next transaction tag drawn for a relay
  wire      : List Wire        -- oldest first
deriving DecidableEq, Repr

/-- The router after reset. -/
def Fabric.zero : Fabric :=
  { ports := [], present := [], route := [], epoch := 0, staffSeen := 0, holding := none, record := []
    timeSent := 0, timeSeen := 0, timeBad := 0, tlost := false, trim := 0, timed := false, relays := []
    nextTag := 0, wire := [] }

/-- One arrival at a POD barrier (Table 8.13): the module, the members it covers, and its partial
reduction with the operation it names, if any. -/
structure PodArrival where
  peer  : Nat
  nmem  : Nat
  rop   : Option Nat
  value : Word
deriving DecidableEq, Repr

/-- What a POD barrier that has departed gives its members (R199, R200): the reduction, if one was
asked for, unless it is one that nobody can tell, and the group's member count. -/
structure PodResult where
  clash : Bool
  rop   : Option Nat
  value : Word
  count : Nat
deriving DecidableEq, Repr

/-- A POD barrier of a generation (R200, R201): its group, the arrivals known here as its master, the
members here that this module's own arrivals cover, by task and virtual core, and what it gives them
once it has departed. Members that a cut holds then stay listed until they depart. -/
structure PodRec where
  group   : Nat
  gen     : Nat
  arrived : List PodArrival
  sent    : List (Nat × Nat)
  result  : Option PodResult
deriving DecidableEq, Repr

/-! ## The Taster, BISECT and CAPTURE (14) -/

/-- One audit record of an index (R375): its key and its content. -/
structure AudNode where
  type  : Nat
  vcore : Nat
  eng   : Nat
  ht    : Nat
  pos   : Nat
  dig   : Digest
deriving DecidableEq, Repr

/-- Where the walk of a BISECT stands: the reply it waits for (R377). -/
inductive Walking where
  | troot
  | fc
  | core (v : Nat)
  | stream (v e : Nat)
  | node (v e h pos m : Nat)
  | kids (v e h pos toph toppos path depth : Nat) (pd : Digest)
  | fin
deriving DecidableEq, Repr

/-- A BISECT in progress (R374, R377). -/
structure Bisect where
  q       : Nat
  pseq    : Nat
  die     : Nat
  lead    : Bool
  session : Nat
  taskId  : Nat
  peer    : Nat
  ncore   : Nat
  resb    : Nat
  troot   : Digest
  fc      : List Byte
  pfc     : List Byte          -- the peer's
  index   : List AudNode
  walk    : Walking
  tag     : Nat                -- of the request awaited
  since   : Nat                -- the last request, sent or served
  reqs    : Nat
  nloc    : Nat
  npeer   : Nat
  result  : List Byte          -- the result record kept until END is answered
deriving DecidableEq, Repr

/-- A capture run (R379 to R381). -/
structure Capture where
  q       : Nat
  pseq    : Nat
  task    : Nat                -- its task id in this module
  eng     : Nat
  vcore   : Nat
  leafPos : Nat
  expect  : Digest
  imgb    : Nat
  imgMax  : Nat
  pinned  : Bool
  record  : List Byte          -- the target's leaf record, once formed
  images  : List Image
  psidx   : Option Nat
  status  : Nat
  fcause  : Nat
  ovcore  : Nat
  osidx   : Nat
  decided : Option Nat        -- when its outcome was decided
deriving DecidableEq, Repr

/-- The Tasters and their commands. -/
structure TasterState where
  bisects  : List Bisect
  captures : List Capture
  waiting  : List (PktHdr × Nat × List Nat)   -- BISECT and TASTE packets with their sequence
                                              -- numbers and ARGS, while every Taster is busy
  early    : List Packet       -- AUDN requests held until the index is built
  nextTag  : Nat
deriving DecidableEq, Repr

/-- No command. -/
def TasterState.zero : TasterState :=
  { bisects := [], captures := [], waiting := [], early := [], nextTag := 0 }

end Sys2Proof.Machine
end

