-- ==== Sys2Proof/Machine/TrustState.lean ====
section
/-!
DEFINITION. The state of the trust chiplet, the memory keys, and the power and error counters
(17, 18). Plain data.
-/

namespace Sys2Proof.Machine

/-- Keys in a key slot (R458): the ASID, and how many times a slot had been set before, which
names the keys. -/
structure KeySlot where
  asid : Nat
  gen  : Nat
deriving DecidableEq, Repr

/-- How the bytes of a 128-byte line are sealed (R460): under which keys, and, for an ENCI line,
its counter. -/
structure Seal where
  gen   : Nat
  enci  : Bool
  ctr   : Nat
deriving DecidableEq, Repr

/-- The state of a TDI (Table 17.5). -/
inductive TdiPhase where
  | unlocked | locked | run | error
deriving DecidableEq, Repr

/-- A TDISP request (R456). -/
inductive TdispReq where
  | lock | start | stop | report
deriving DecidableEq, Repr

/-- A TDI: its state, the session that locked it, the session whose stop waits for the scrub with the
address spaces it clears, and the requests that wait behind it, oldest first (R456, R457). -/
structure Tdi where
  phase  : TdiPhase
  bound  : Option Nat
  scrub  : Option (Nat × List Nat)
  waits  : List (TdispReq × Nat)
deriving DecidableEq, Repr

/-- A chain being read in chunks from a slot (R450). -/
structure SlotUse where
  ep    : SpdmEnd
  slot  : Nat
  chain : List Nat
deriving DecidableEq, Repr

/-- A session at a responder (R447). -/
structure Session where
  id   : Nat
  ep   : SpdmEnd
  open' : Bool               -- FINISH has been accepted
  keys : Nat                 -- key updates so far
deriving DecidableEq, Repr

/-- A large message that arrives in chunks. -/
structure ChunkIn where
  ep     : SpdmEnd
  handle : Nat
  seq    : Nat
  data   : List Nat
deriving DecidableEq, Repr

/-- ERROR codes that an SPDM responder answers with (R446 to R450, R458). -/
inductive SpdmError where
  | invalidRequest | busy | unspecified | unsupportedRequest | sessionRequired
  /-- The answer is to be read with CHUNK_GET under a handle. -/
  | largeResponse (handle : Nat)
deriving DecidableEq, Repr

/-- Answers of an SPDM responder (Table 17.3). A signature stands as the one-time index it was made with
(log entry 10). -/
inductive SpdmAnswer where
  | version
  | capabilities
  | algorithms
  | digests (slots : List (Nat × List Nat))
  | certificate (slot : Nat) (portion : List Nat) (left : Nat)
  | challengeAuth (slot : Nat) (chain : List Nat) (nonce index : Nat)
  | measurements (index : Nat) (blocks : List Nat)
  | chunkSendAck (handle seq : Nat)
  | chunkResponse (handle seq : Nat) (last : Bool)
  | keyExchangeRsp (session slot index : Nat)
  | finishRsp (session : Nat)
  | keyUpdateAck (session : Nat)
  | heartbeatAck (session : Nat)
  | endSessionAck (session : Nat)
  | setCertificateRsp (slot : Nat)
  | keySetRsp (slot : Nat)
  | keyClearRsp (slot : Nat)
  | ideKmAck (stream : Nat)
  | error (e : SpdmError)
deriving DecidableEq, Repr

/-- Answers to TDISP requests (R456). -/
inductive TdispAnswer where
  | done
  /-- The interface report; its content is not in the manual. -/
  | report
  | invalidRequest
  | invalidInterfaceState (s : TdiPhase)
deriving DecidableEq, Repr

/-- A large answer that leaves in chunks. -/
structure ChunkOut where
  ep     : SpdmEnd
  handle : Nat
  answer : SpdmAnswer
  next   : Nat
  parts  : Nat
deriving DecidableEq, Repr

/-- What has left for the host or another requester: an interrupt, an answer, the bytes of a read. -/
inductive Outgoing where
  | msix (vec : Nat)
  | spdm (ep : SpdmEnd) (a : SpdmAnswer)
  | tdisp (tdi session : Nat) (q : TdispReq) (a : TdispAnswer)
  | read (addr : Nat) (bytes : List Byte)
deriving DecidableEq, Repr

/-- The trust chiplet and the memory keys. -/
structure Trust where
  sessions   : List Session
  nextSession : Nat
  chains     : SMap (List Nat)     -- slots 1 to 7 of the trust chiplet
  uses       : List SlotUse
  sends      : List ChunkIn
  gets       : List ChunkOut
  nextHandle : Nat
  measured   : SMap (List Nat)     -- blocks 1 to 4 of a die as last measured
  keySlots   : SMap (Option KeySlot)
  keyGen     : Nat
  tdis       : SMap Tdi
  ide        : List Nat            -- IDE streams with keys programmed
  encir      : SMap Nat
  seals      : SMap (Option Seal)  -- by line: PA / 128
  counters   : SMap Nat            -- ENCI line counters
  idxNext    : Nat                 -- next identity-key index (R367)
  idxEnd     : Nat                 -- end of the block reserved in the non-volatile store
  dieIdx     : SMap (Nat × Nat)    -- next index of a DSE and the end of its block (R446)
  dieStore   : SMap Nat            -- next unused block of a die key in the non-volatile store
  lastBatch  : Nat                 -- 1 + tick of the last batch; 0 before the first (R366)
  records    : List (List Byte)    -- root-log records in no batch yet, oldest first
  prevBatch  : Digest              -- digest of the last batch since reset
  batchDue   : Option (List Byte)  -- the BATCH record of a batch formed while the root log is full (R363)
  bootEpoch  : Nat                 -- resets counted in the non-volatile store (R367)
deriving DecidableEq, Repr

/-- A TDI after reset. -/
def Tdi.unlocked : Tdi := { phase := .unlocked, bound := none, scrub := none, waits := [] }

/-- The trust chiplet after reset (log entry 2). -/
def Trust.zero : Trust :=
  { sessions := [], nextSession := 0, chains := [], uses := [], sends := []
    gets := [], nextHandle := 0, measured := [], keySlots := [], keyGen := 0, tdis := [], ide := [], encir := []
    seals := [], counters := [], idxNext := 0, idxEnd := 0, dieIdx := [], dieStore := []
    lastBatch := 0, records := [], prevBatch := 0, batchDue := none, bootEpoch := 0 }

/-- Power and error counters (R11, R464, R467). -/
structure Platform where
  errWin   : Nat
  counts   : SMap Nat        -- corrected errors of a resource in this window
  events   : SMap Nat        -- uncorrectable events of a resource in this window
  lasting  : List Resource   -- resources found lasting-faulty and not retired yet
  withhold : Bool            -- MXE issue is withheld on one tick in four
  edgeCap  : SMap Nat        -- allocation of an edge in milliwatts, while the cap holds (R11)
  arbAge   : SMap Bool       -- promoted head requests (R471)
  cellarUntil : SMap Nat     -- end of the refresh window of a die's Cellar (R232)
  dark     : Bool            -- held in reset at 115 °C (R464)
deriving DecidableEq, Repr

/-- The platform after reset. -/
def Platform.zero : Platform :=
  { errWin := 0, counts := [], events := [], lasting := [], withhold := false, edgeCap := []
    arbAge := [], cellarUntil := [], dark := false }

end Sys2Proof.Machine
end

