-- ==== Sys2Proof/Machine/State.lean ====
section
/-!
DEFINITION. The state of the module as plain data, why a step can stop, and the state after
reset.
-/

namespace Sys2Proof.Machine

/-- Why the machine stops with a fault. Faults of the part (engine faults, command statuses,
packet statuses) are no such stop: they are next states. -/
inductive Fault where
  /-- The schedule names a core, queue or port that the part does not have, or a step that is
  not well formed. Raised by `step` only. Safe: no such step exists. -/
  | badMove
deriving DecidableEq, Repr

/-- Why a step has no meaning. -/
inductive Refusal where
  /-- The instruction has no meaning yet. Raised by `exec` only. Safe. -/
  | notModelled (mnemonic : String)
deriving DecidableEq, Repr

/-- What the parties of the module do next (log entry 1). -/
inductive Move where
  /-- An engine of a core may issue its next instruction; `fw` names the firmware context. -/
  | issue (core : Nat) (e : Engine) (fw : Bool)
  /-- The front end takes the next packet of a queue. -/
  | fed (queue : Nat)
  /-- The front end gates its clock, or its power (R389). -/
  | gate (power : Bool)
  /-- The host writes a register of BAR0, or a notify page of BAR2. -/
  | bar0 (off width value : Nat)
  | bar2 (off width value : Nat)
  /-- A step of the whole module, of one core, of one port, of one queue. -/
  | event (i : Instr)
  | coreEvent (core : Nat) (i : Instr)
  | portEvent (port : Nat) (i : Instr)
  | queueEvent (queue : Nat) (i : Instr)
  /-- The host reads or writes device or host memory (R84). -/
  | hostWrite (addr : Nat) (bytes : List Byte)
  /-- Arbitration or the retry of a corrected error delays the next read of an engine of a core by some
  ticks (R180, R305). -/
  | readDelay (core : Nat) (e : Engine) (ticks : Nat)
  /-- The other modules that hold tasks of a pod barrier group (R200, log entry 15). -/
  | podGroup (group : Nat) (peers : List Nat)
  /-- The other modules that are present in the pod (R142, log entry 16). -/
  | present (peers : List Nat)
  /-- The far end of a link acknowledges the frames below a counter (R144). -/
  | frameAck (port fctr : Nat)
  /-- The station clock ticks. -/
  | tick
deriving DecidableEq, Repr

/-- A release that stands in memory (R75, R76): the core that made it, its scope, and what it covers. -/
structure Release where
  core  : Nat
  scope : Nat
  far   : SMap Nat
deriving DecidableEq, Repr

/-- For whom the step at hand acts. -/
structure Cur where
  core  : Nat
  eng   : Engine
  fw    : Bool
  words : List Nat
  port  : Nat
  queue : Nat
deriving DecidableEq, Repr

/-- What the board decides: the part number (R14), the strap (R142), the installed DDR5 in GiB,
the dies shipped with their spare in use (R15), and the firmware image (R174). -/
structure Board where
  single   : Bool
  strap    : Nat
  ddrGiB   : Nat
  spares   : List (Nat × Nat)
  fwImage  : List Byte
deriving DecidableEq, Repr

/-- A write-back of the fabric cache that has not settled (R256): its line, the packets that carry
the line's dirty bytes, the first of which has left if `sent`, the core and the command of the FLUSH
that waits for it, whether the line is invalidated then, and when the packet left. -/
structure WriteBack where
  line : Nat
  pkts : List Packet
  sent : Bool
  for' : Option (Nat × Nat)
  inv  : Bool
  tick : Nat
deriving DecidableEq, Repr

/-- A compute die (R16, Table 1.6). A line of its fabric cache is named by 2^36 times the home peer
plus PA / 256, and its state is a number whose bits tell which of its bytes are held, from bit 256
up which of them are dirty, and from bit 512 up the address space that brought it. -/
structure Die where
  present : Bool
  edgeOk  : Nat            -- bits north, east, south, west from bit 3 down
  hbmOk   : Bool
  sparePos : Nat
  spareUsed : Bool
  coreOk  : Nat            -- bit p for quad position p
  retired : List Nat       -- physical positions retired (R15, R468)
  leaving : Bool           -- it is retired and waits for its tasks to yield (R468)
  challenge : Option Nat   -- tick of the unanswered challenge (R453)
  cache   : SMap Nat       -- fabric cache: line to its state (R82)
  wb      : List WriteBack
deriving DecidableEq, Repr

/-- A die held in reset. -/
def Die.held : Die :=
  { present := false, edgeOk := 0, hbmOk := false, sparePos := 0, spareUsed := false, coreOk := 0
    retired := [], leaving := false, challenge := none, cache := [], wb := [] }

/-- Registers of BAR0 that hold a plain value (Tables 6.9, 13.5, 15.2, 18.3). -/
structure Regs where
  xinvVa   : Nat
  xinvPend : List (Nat × Nat × Nat)    -- kind, asid, va: oldest first, at most 16
  xinvHeld : List (Nat × Nat × Nat)    -- writes held until one completes
  xinvDone : Nat
  astb     : Nat
  hwbase   : Nat
  rlb      : Nat
  rln      : Nat
  rlhead   : Nat
  rltail   : Nat
  sgb      : Nat
  sgn      : Nat
  sghead   : Nat
  sgtail   : Nat
  rxorph   : Nat
  qtb      : Nat
  qctlDone : Nat
  spoolb   : Nat
  spooln   : Nat
  ttcnt    : List Nat
  ndrop    : Nat
  fwldone  : Nat
deriving DecidableEq, Repr

/-- The registers after reset (HWBASE reads 0, R127; the rest by log entry 2). -/
def Regs.zero : Regs :=
  { xinvVa := 0, xinvPend := [], xinvHeld := [], xinvDone := 0, astb := 0, hwbase := 0, rlb := 0
    rln := 0, rlhead := 0, rltail := 0, sgb := 0, sgn := 0, sghead := 0, sgtail := 0, rxorph := 0
    qtb := 0, qctlDone := 0, spoolb := 0, spooln := 0
    ttcnt := [0, 0, 0, 0, 0, 0, 0, 0], ndrop := 0, fwldone := 0 }

/-- The module. -/
structure State where
  gtc     : Nat
  agenda  : List Move
  sweep   : Nat             -- streams tried since the schedule has asked for the next tick (log entry 1)
  cur     : Cur
  freeCtr : Nat
  up      : Bool
  board   : Board
  peerId  : Nat
  dies    : SMap Die
  mem     : SMap Byte
  bad     : SMap Bool       -- correction units that hold uncorrectable data, by 32-byte sector
  released : SMap (List Release)       -- by byte, the releases whose sequence its value stands in (R76)
  tags    : SMap Nat        -- frame tags: 0 clear, else 1 + CONF + 4 · ASID (R135)
  regs    : Regs
  mth     : Word
  cores   : SMap Core
  dcache  : SMap (List DigestKey)      -- digest cache of each core (R126)
  dlTail  : SMap Nat        -- DLTAIL of an address space as last read (R139)
  walks   : List Walk
  nextEvent : Nat
  groups  : SMap GroupEntry
  queues  : SMap Queue
  fedTurn : SMap Nat        -- for each class, 1 + the queue decoded last (R391)
  tasks   : SMap (Option Task)
  order   : Nat             -- tasks accepted so far
  shadows : SMap (Option Shadow)
  pool    : List Nat        -- frames that have come back to the shadow pool
  poolNext : Nat            -- frames of the pool that have been taken from SPOOLB on
  retired : List (Nat × List Nat)      -- the last 64 retired tasks and their placements (R380)
  rlPrev  : Nat             -- records appended before the last batch (R366)
  fabric  : Fabric
  pods    : List PodRec
  podPeers : SMap (List Nat)  -- the other modules of a pod barrier group (log entry 15)
  taster  : TasterState
  trust   : Trust
  plat    : Platform
  fedGate : Nat             -- the front end is awake, 1 clock-gated or 2 power-gated (R389)
  fedWake : Option Nat      -- when its wake-up ends at the latest
  out     : List Outgoing   -- oldest first
deriving DecidableEq, Repr

/-- A step's answer. -/
abbrev Out := Host.Outcome State Fault Refusal

/-- The state right after reset: every die is held in reset, nothing is listed in memory, no
register is set but by log entries 2 and 7, and the schedule is empty. -/
def State.reset : State :=
  { gtc := 0, agenda := [], sweep := 0
    cur := { core := 0, eng := .scu, fw := false, words := [], port := 0, queue := 0 }
    freeCtr := 0, up := false
    board := { single := false, strap := 0, ddrGiB := 4096, spares := [], fwImage := [] }
    peerId := 0, dies := [], mem := [], bad := [], released := [], tags := [], regs := Regs.zero, mth := 0
    cores := [], dcache := [], dlTail := [], walks := [], nextEvent := 0, groups := [], queues := [], fedTurn := [], tasks := []
    order := 0, shadows := [], pool := [], poolNext := 0, retired := [], rlPrev := 0
    fabric := Fabric.zero, pods := [], podPeers := [], taster := TasterState.zero, trust := Trust.zero
    plat := Platform.zero, fedGate := 0, fedWake := none, out := [] }

/-! ## Reading and writing the parts of the state -/

/-- Core `p`. -/
def State.core (s : State) (p : Nat) : Core := s.cores.get Core.idle p

/-- The state with core `p` at `c`. -/
def State.setCore (s : State) (p : Nat) (c : Core) : State :=
  { s with cores := s.cores.set Core.idle p c }

/-- The state with core `p` changed. -/
def State.onCore (s : State) (p : Nat) (f : Core → Core) : State := s.setCore p (f (s.core p))

/-- Die `d`. -/
def State.die (s : State) (d : Nat) : Die := s.dies.get Die.held d

/-- The state with die `d` at `x`. -/
def State.setDie (s : State) (d : Nat) (x : Die) : State :=
  { s with dies := s.dies.set Die.held d x }

/-- Task `t`, if it is held. -/
def State.task? (s : State) (t : Nat) : Option Task := s.tasks.get none t

/-- The state with task `t` at `x`. -/
def State.setTask (s : State) (t : Nat) (x : Option Task) : State :=
  { s with tasks := s.tasks.set none t x }

/-- Queue `q`. -/
def State.queue (s : State) (q : Nat) : Queue := s.queues.get Queue.empty q

/-- The state with queue `q` at `x`. -/
def State.setQueue (s : State) (q : Nat) (x : Queue) : State :=
  { s with queues := s.queues.set Queue.empty q x }

/-- The stream of an engine in a core's user context, and that of its firmware context. -/
def Core.stream (c : Core) (e : Engine) (fw : Bool) : Stream :=
  if fw then c.fws
  else match e with
    | .scu => c.scu
    | .lce => c.lce
    | .mxe => c.mxe
    | .vxe => c.vxe
    | .sce => c.sce

/-- The core with that stream replaced. -/
def Core.setStream (c : Core) (e : Engine) (fw : Bool) (t : Stream) : Core :=
  if fw then { c with fws := t }
  else match e with
    | .scu => { c with scu := t }
    | .lce => { c with lce := t }
    | .mxe => { c with mxe := t }
    | .vxe => { c with vxe := t }
    | .sce => { c with sce := t }

/-- The SCU context at hand. -/
def Core.ctx (c : Core) (fw : Bool) : ScuCtx := if fw then c.fw else c.user

/-- The core with that context replaced. -/
def Core.setCtx (c : Core) (fw : Bool) (x : ScuCtx) : Core :=
  if fw then { c with fw := x } else { c with user := x }

/-- The core for which the step at hand acts. -/
def State.me (s : State) : Core := s.core s.cur.core

/-- The state with that core changed. -/
def State.onMe (s : State) (f : Core → Core) : State := s.onCore s.cur.core f

/-- The stream for which the step at hand acts. -/
def State.myStream (s : State) : Stream := s.me.stream s.cur.eng s.cur.fw

/-- The state with that stream changed. -/
def State.onStream (s : State) (f : Stream → Stream) : State :=
  s.onMe fun c => c.setStream s.cur.eng s.cur.fw (f (c.stream s.cur.eng s.cur.fw))

/-- A fresh free value, and the state that has drawn it (log entry 4). -/
def State.free (s : State) : Nat × State :=
  (Config.freeValue s.freeCtr, { s with freeCtr := s.freeCtr + 1 })

/-- An engine's place in ring order (R22). -/
def engIdx : Engine → Nat
  | .scu => 0
  | .lce => 1
  | .mxe => 2
  | .vxe => 3
  | .sce => 4

/-- The engine at a place in ring order. -/
def engOf (k : Nat) : Engine :=
  match k % 5 with
  | 0 => .scu
  | 1 => .lce
  | 2 => .mxe
  | 3 => .vxe
  | _ => .sce

/-- The task that occupies core `p`. -/
def State.taskOf (s : State) (p : Nat) : Option Task :=
  match (s.core p).task with
  | none => none
  | some t => s.task? t

/-- The kernel header under which core `p` runs. -/
def State.hdrOf (s : State) (p : Nat) : KHeader :=
  match s.taskOf p with
  | none => KHeader.empty
  | some t => t.hdr

/-- The tick on which the 64-bit station clock holds `t`, counted as `gtc` counts (R4). -/
def State.tickOf (s : State) (t : Nat) : Nat := s.gtc / 2 ^ 64 * 2 ^ 64 + t

/-- Vector registers allocated (R34). -/
def KHeader.valloc (h : KHeader) : Nat := (h.vregs + 7) / 8 * 8

/-- The context's station-clock view on this tick (R98, R195). -/
def State.view (s : State) (p : Nat) : Nat :=
  match s.taskOf p with
  | none => s.gtc % 2 ^ 64
  | some t => (s.gtc + t.clock.toNat) % 2 ^ 64

end Sys2Proof.Machine
end

