-- ==== Sys2Proof/Machine/Ops.lean ====
section
/-!
DEFINITION. The named operations: memory, firmware events, tokens and gives, leaves, the entry
into and the return from an engine fault, and the issue of an instruction.
-/

namespace Sys2Proof.Machine

/-! ## Memory: one list of bytes for all spaces -/

/-- Where host memory begins in the flat memory. -/
def hostBase : Nat := 2 ^ 64

/-- Where the Cellar of a die begins. -/
def celBase (die : Nat) : Nat := 2 ^ 65 + die * 2 ^ 27

/-- Where the scratchpad of a physical core begins. -/
def spdBase (p : Nat) : Nat := 2 ^ 66 + p * 2 ^ 21

/-- Where the firmware RAM of a physical core begins. -/
def fwBase (p : Nat) : Nat := 2 ^ 67 + p * 2 ^ 16

/-- Where a module physical address lies in the flat memory: the host window reaches host memory
at HWB (R127). -/
def State.paFlat (s : State) (pa : Nat) : Nat :=
  if pa < 2 ^ 43 then pa else hostBase + (s.regs.hwbase + (pa - 2 ^ 43)) % 2 ^ 64

/-- Where a front-end address lies (R386): a host bus address or a module physical address. -/
def State.fedAt (s : State) (a : FedAddr) : Nat := if a.sp then s.paFlat a.addr else hostBase + a.addr

/-- The canonical form of a memory: addresses strictly rising, and no byte listed that an unlisted
address reads as. -/
def Memory.wf (m : SMap Byte) : Bool := SMap.wf 0 m

/-- One byte. What no write has listed reads 0 (log entry 3). -/
def State.byte (s : State) (a : Nat) : Byte := s.mem.get 0 a

/-- `n` bytes from `a` up. -/
def State.bytes (s : State) (a n : Nat) : List Byte := (List.range n).map fun i => s.byte (a + i)

/-- The little-endian number of `n` bytes at `a`. -/
def State.num (s : State) (a n : Nat) : Nat := leNat (s.bytes a n)

/-- Consecutive cells from `a` up. -/
def cellsAt (a : Nat) (bs : List Byte) : List (Nat × Byte) := bs.mapIdx fun i b => (a + i, b)

/-- Memory after some bytes have been written, in order. -/
def pokes (m : SMap Byte) (cs : List (Nat × Byte)) : SMap Byte :=
  cs.foldl (fun m c => m.set 0 c.1 c.2) m

/-- Whether the cells cover every byte of 32-byte sector `k`. -/
def covers (cs : List (Nat × Byte)) (k : Nat) : Bool :=
  (List.range 32).all fun i => cs.any fun c => c.1 == 32 * k + i

/-- Whether some cell lies in the 64-byte line `l` of the flat memory. -/
def touchesLine (cs : List (Nat × Byte)) (l : Nat) : Bool := cs.any fun c => c.1 / 64 == l

/-- A shadow context after a write: a watched range it touches discards it (R419). -/
def Shadow.watch1 (cs : List (Nat × Byte)) (x : Shadow) : Shadow :=
  { x with hit := x.hit || cs.any fun c =>
      x.watch.any fun w => decide (w.1 ≤ c.1) && decide (c.1 < w.1 + w.2) }

/-- A write of bytes, performed: the bytes, the sectors it restores (R473), the release sequences it
ends (R76), the digest-cache entries it removes (R126), and the shadow contexts that watch it (R419). -/
def State.write (s : State) (cs : List (Nat × Byte)) : State :=
  { s with
    mem := pokes s.mem cs
    bad := s.bad.filter fun e => !covers cs e.1
    released := s.released.filter fun e => !cs.any fun c => c.1 == e.1
    dcache := s.dcache.map fun e => (e.1, e.2.filter fun k => !k.cells.any (touchesLine cs))
    shadows := s.shadows.map fun e => (e.1, e.2.map (Shadow.watch1 cs)) }

/-- A write of consecutive bytes. -/
def State.writeAt (s : State) (a : Nat) (bs : List Byte) : State := s.write (cellsAt a bs)

/-- Whether some byte of `n` bytes at `a` lies in a sector with uncorrectable data (R473). -/
def State.isBad (s : State) (a n : Nat) : Bool :=
  s.bad.any fun e => decide (32 * e.1 < a + n) && decide (a < 32 * e.1 + 32)

/-- Whether some byte at the given addresses lies in a sector with uncorrectable data. -/
def State.anyBad (s : State) (as : List Nat) : Bool := as.any fun a => s.bad.get false (a / 32)

/-! ## Firmware events (R175) -/

/-- An event for the firmware context of core `p`; its source keeps it while the queue is full. -/
def State.post (s : State) (p kind : Nat) (s1 s2 s3 : Word) : State :=
  let ev := { kind := kind, s1 := s1, s2 := s2, s3 := s3 }
  s.onCore p fun c =>
    if c.fwq.length < 16 then { c with fwq := c.fwq ++ [ev] }
    else { c with fwWait := c.fwWait ++ [ev] }

/-- The physical position that serves quad position `q` of a die: the spare, 16, where it takes
that place (R12, R15). -/
def Die.physPos (d : Die) (q : Nat) : Nat := if d.spareUsed && d.sparePos == q then 16 else q

/-- The quad position that physical position `p` serves; a spare that has been retired keeps the place at which a
task may still run on it (R15). -/
def Die.quadPos (d : Die) (p : Nat) : Nat := if p = 16 then d.sparePos else p

/-- The physical positions of a die's cores in service, lowest first (R15). -/
def Die.positions (d : Die) : List Nat :=
  (List.range 17).filter fun p =>
    if p = 16 then d.spareUsed else bit d.coreOk p && !(d.spareUsed && d.sparePos == p)

/-- The core that stands at a quad position of the die of core `p` for the task there: the one that the
task still runs on, though the spare may have taken its place or may itself have been retired, else the
one in service (R15). -/
def State.quadCore (s : State) (p q : Nat) : Nat :=
  let d := 32 * (p / 32)
  let x := s.die (p / 32)
  if (s.taskOf p).any fun t => t.cores.contains (d + q) then d + q
  else if x.sparePos = q ∧ (s.taskOf p).any fun t => t.cores.contains (d + 16) then d + 16
  else d + x.physPos q

/-- The core that receives the die's events: the lowest physical position in service (R175). -/
def State.dieCore (s : State) (d : Nat) : Nat := 32 * d + ((s.die d).positions.headD 0)

/-! ## The interlock ring (R22 to R29) -/

/-- The queue an engine waits on with WP (Table 2.4). -/
def fwdIn (e : Nat) : Nat := 2 * ((e + 4) % 5)

/-- The queue an engine waits on with WN (Table 2.4). -/
def backIn (e : Nat) : Nat := 2 * (e % 5) + 1

/-- The tokens in a queue. -/
def Core.count (c : Core) (q : Nat) : Nat := (c.iq.get [] q).length

/-- The stream of the user context by ring index. -/
def Core.userStream (c : Core) (e : Nat) : Stream := c.stream (engOf e) false

/-- Whether an engine's stream is empty, so that tokens pass through it (R27). -/
def Core.transparent (c : Core) (e : Nat) : Bool := (c.userStream e).len == 0

/-- How many empty engines stand between engine `e` and the next one with a program, in a
direction given by the step 1 or 4 around the ring; 4 when there is no other (R27, R29). -/
def Core.chain (c : Core) (e step : Nat) : Nat :=
  if !c.transparent (e + step) then 0
  else if !c.transparent (e + 2 * step) then 1
  else if !c.transparent (e + 3 * step) then 2
  else if !c.transparent (e + 4 * step) then 3
  else 4

/-- The queue that receives what engine `e` gives with GN, and the ticks it takes there. -/
def Core.fwdOut (c : Core) (e : Nat) : Nat × Nat :=
  let k := c.chain e 1
  (fwdIn (e + k + 1), k)

/-- The queue that receives what engine `e` gives with GP, and the ticks it takes there. -/
def Core.backOut (c : Core) (e : Nat) : Nat × Nat :=
  let k := c.chain e 4
  (backIn (e + 4 * (k + 1)), k)

/-- The engine that waits on a queue (Table 2.4). -/
def waiter (q : Nat) : Nat := if q % 2 = 0 then (q / 2 + 1) % 5 else q / 2

/-- The count of a queue as it stood at the start of the tick (R25): what has been consumed on this tick
still counts. -/
def Core.shown (c : Core) (q : Nat) : Nat := c.count q + c.spent.get 0 q

/-- Whether `g` more tokens may be given toward queue `q` (R23, R25, R26, R27). -/
def Core.room (c : Core) (q g : Nat) : Bool :=
  g == 0 || (c.userStream (waiter q)).ended
    || decide (c.shown q + (c.pass.filter fun x => x.queue == q).length + g ≤ 63)

/-- Componentwise maximum. -/
def maxes : List Nat → List Nat → List Nat
  | x :: xs, y :: ys => max x y :: maxes xs ys
  | xs, [] => xs
  | [], ys => ys

/-- What is known of other cores from two sides. -/
def joinFar (a b : SMap Nat) : SMap Nat := b.foldl (fun m e => m.set 0 e.1 (max (m.get 0 e.1) e.2)) a

/-- What two positions cover together (R69). -/
def Clock.join (a b : Clock) : Clock := { idx := maxes a.idx b.idx, far := joinFar a.far b.far }

/-- The first tokens of a queue taken away, and what they cover; that they are gone shows on the next
tick (R25). -/
def Core.take (c : Core) (q n : Nat) : Core × Clock :=
  let ts := c.iq.get [] q
  ({ c with iq := c.iq.set [] q (ts.drop n), spent := c.spent.set 0 q (c.spent.get 0 q + min n ts.length) },
    (ts.take n).foldl Clock.join Clock.zero)

/-- Tokens set on their way toward a queue, to be seen there from a later tick (R25, R27). -/
def Core.send (c : Core) (q g arrive : Nat) (clk : Clock) : Core :=
  { c with pass := c.pass ++ List.replicate g { queue := q, arrive := arrive, clk := clk } }

/-- One token that arrives in its queue; a count of 63 stands (R22, R26). -/
def Core.arrive (c : Core) (x : Passing) : Core :=
  if c.count x.queue < 63 then
    { c with iq := c.iq.set [] x.queue (c.iq.get [] x.queue ++ [x.clk]) }
  else c

/-- The tokens whose tick has come, moved into their queues (R25, R27). -/
def Core.passTokens (c : Core) (now : Nat) : Core :=
  let due := c.pass.filter fun x => decide (x.arrive ≤ now)
  due.foldl Core.arrive { c with pass := c.pass.filter fun x => !decide (x.arrive ≤ now) }

/-- The commands of a copy engine. -/
def Core.cmds (c : Core) (e : Nat) : List Cmd := if e = 1 then c.lceS.slots else c.sceS.slots

/-- Whether what a matrix instruction does at its completion writes memory. -/
def MxeWrite.stores (w : MxeWrite) : Bool :=
  match w with
  | .bytes _ => true
  | _ => false

/-- Whether every access of engine `e` up to stream index `k` has been performed short of the fabric
(R71): its copy commands have completed, its matrix instructions have written their bytes, and its
releasing stores have been performed. -/
def Core.accessed (c : Core) (e k : Nat) : Bool :=
  if e = 0 then !c.stores.any fun x => decide (x.sidx ≤ k)
  else if e = 2 then !c.mxeS.flight.any fun o => decide (o.sidx ≤ k) && o.effect.any MxeWrite.stores
  else !(c.cmds e).any fun x => decide (x.sidx ≤ k) && x.phase != .done

/-- Whether a give has fallen due: its tick has come, the accesses it covers have been performed, and its
leaf has been appended (R24, R71, R347). -/
def Core.giveDue (c : Core) (e : Nat) (t : Stream) (g : Give) (now : Nat) : Bool :=
  (match g.due with
    | .tick d => decide (d ≤ now)
    | .command _ => true)
  && (e == 3 || c.accessed e g.sidx) && !t.form.any fun f => f.sidx == g.sidx

/-- Whether both queues have room for a give (R23). -/
def Core.giveRoom (c : Core) (e : Nat) (g : Give) : Bool :=
  c.room (c.fwdOut e).1 g.gn && c.room (c.backOut e).1 g.gp

/-- The gives of a stream that have fallen due and have room, performed in stream order; the
records of completed commands whose gives are performed are dropped (R23, R24). -/
def Core.doGives (c : Core) (e now : Nat) : Nat → Core
  | 0 => c
  | fuel + 1 =>
    let t := c.userStream e
    match t.gives with
    | [] => c
    | g :: gs =>
      if c.giveDue e t g now && c.giveRoom e g then
        let (qf, kf) := c.fwdOut e
        let (qb, kb) := c.backOut e
        let c := c.setStream (engOf e) false { t with gives := gs }
        let clk := { g.clk with far := joinFar g.clk.far t.clk.far }
        let c := (c.send qf g.gn (now + 1 + kf) clk).send qb g.gp (now + 1 + kb) clk
        let drop (xs : List Cmd) := xs.filter fun x => !(x.sidx == g.sidx && x.phase == .done)
        let c := if e = 1 then { c with lceS := { c.lceS with slots := drop c.lceS.slots } }
          else if e = 4 then { c with sceS := { c.sceS with slots := drop c.sceS.slots } }
          else c
        c.doGives e now fuel
      else c

/-- The gives of engine `e` that can be performed now. -/
def Core.gives (c : Core) (e now : Nat) : Core :=
  c.doGives e now ((c.userStream e).gives.length)

/-- Whether a give of the stream is held by overflow stall, so that the engine does not issue
(R23). -/
def Core.overflow (c : Core) (e now : Nat) : Bool :=
  match (c.userStream e).gives with
  | [] => false
  | g :: _ => c.giveDue e (c.userStream e) g now && !c.giveRoom e g

/-! ## Speculations (R418, R420) -/

/-- The shadow context in which the task of core `p` runs, if it is a speculation. -/
def State.shadowOf (s : State) (p : Nat) : Option (Nat × Shadow) :=
  (s.taskOf p).bind fun t => t.spec.bind fun k => (s.shadows.get none k).map fun x => (k, x)

/-- The state with a shadow context changed. -/
def State.onShadow (s : State) (k : Nat) (f : Shadow → Shadow) : State :=
  { s with shadows := s.shadows.set none k ((s.shadows.get none k).map f) }

/-- The speculation of core `p` parks (R420). -/
def State.park (s : State) (p : Nat) : State :=
  match s.shadowOf p with
  | none => s
  | some (k, x) =>
    if x.parked then s
    else
      let s := s.onShadow k fun x => { x with parked := true }
      { s with regs := { s.regs with ttcnt := s.regs.ttcnt.modify 7 fun n => (n + 1) % 2 ^ 64 } }

/-! ## Capture runs (R380) -/

/-- Whether a task is a capture run. -/
def State.isCapture (s : State) (t : Nat) : Bool := s.taster.captures.any fun c => c.task == t

/-- Whether core `p` carries a capture run. -/
def State.capturing (s : State) (p : Nat) : Bool := (s.core p).task.any s.isCapture

/-- The capture run of core `p` meets an action of engine `e` that reaches outside the module: that
decides it, if nothing has before. -/
def State.outsideRun (s : State) (p e sidx : Nat) : State :=
  let c := s.core p
  let caps := s.taster.captures.map fun k =>
    if c.task = some k.task ∧ k.decided = none then
      { k with status := 10, ovcore := c.vcore + e * 2 ^ 16, osidx := sidx, decided := some s.gtc }
    else k
  { s with taster := { s.taster with captures := caps } }

/-- The instruction of the step meets such an action. -/
def State.outsideMe (s : State) : State := s.outsideRun s.cur.core (engIdx s.cur.eng) s.myStream.sidx

/-! ## Leaves (R345 to R353) -/

/-- The task's audit ring, if its kernel is audited (R364, R399). -/
def Task.audit? (t : Task) : Option AudRing := if t.hdr.audit then t.audring else none

/-- An audit record (Table 13.7). -/
def auditRecord (type e v ht pos : Nat) (d : Digest) : List Byte :=
  [BitVec.ofNat 8 type, BitVec.ofNat 8 e] ++ leBytes 2 v ++ [BitVec.ofNat 8 ht, 0, 0, 0]
    ++ leBytes 8 pos ++ zeros 16 ++ digBytes d

/-- Whether the audit ring of task `t` has room for `n` records: the host counts in bytes 0 to 7 of
the area what it has consumed. A speculation keeps its records in its shadow context (R364, R368,
Table 15.7). -/
def State.auditRoom (s : State) (t n : Nat) : Bool :=
  match s.task? t with
  | none => true
  | some k =>
    match k.audit? with
    | none => true
    | some r => k.spec.isSome || (k.audWait.isEmpty
        && decide (k.audN + n ≤ s.num (s.fedAt r.base) 8 + 2 ^ r.log))

/-- Records put into the audit ring of task `t` whose area `r` names: they follow from byte 64, and
bytes 8 to 15 count them (Table 15.7). -/
def State.auditPut (s : State) (t : Nat) (k : Task) (r : AudRing) (recs : List (List Byte)) : State :=
  let base := s.fedAt r.base
  let s := (recs.mapIdx fun i x => (k.audN + i, x)).foldl
    (fun s e => s.writeAt (base + 64 + 64 * (e.1 % 2 ^ r.log)) e.2) s
  let n := k.audN + recs.length
  (s.writeAt (base + 8) (leBytes 8 n)).setTask t (some { k with audN := n })

/-- Records that a claimed speculation brought, written while the ring has room (R364, R368, R422). -/
def State.auditDrain (s : State) (t : Nat) : Nat → State
  | 0 => s
  | fuel + 1 =>
    match s.task? t with
    | none => s
    | some k =>
      match k.audit?, k.audWait with
      | some r, x :: xs =>
        if k.audN + 1 ≤ s.num (s.fedAt r.base) 8 + 2 ^ r.log then
          (s.auditPut t { k with audWait := xs } r [x]).auditDrain t fuel
        else s
      | _, _ => s

/-- Records written to the audit ring of task `t`, or held in its shadow context (R364, R368). A
capture run writes none (R380). -/
def State.auditWrite (s : State) (t : Nat) (recs : List (List Byte)) : State :=
  match s.task? t with
  | none => s
  | some k =>
    match k.audit? with
    | none => s
    | some r =>
      if s.isCapture t then s
      else match k.spec with
        | some x =>
          match s.shadows.get none x with
          | none => s
          | some sh =>
            let sh := { sh with audit := sh.audit ++ recs }
            { s with shadows := s.shadows.set none x (some sh) }
        | none => s.auditPut t k r recs

/-- A capture run after a leaf has been appended at index `pos` (R380, R381). -/
def Capture.see (c : Capture) (now task e v pos sidx : Nat) (record : List Byte) (ims : List Image) :
    Capture :=
  if c.task = task ∧ c.eng = e ∧ c.vcore = v ∧ c.decided = none then
    if c.leafPos = pos then { c with record := record, images := ims, osidx := sidx, decided := some now }
    else { c with psidx := some sidx }
  else c

/-- The record of a copy command that has completed goes once its leaf is appended, unless its gives
wait (R24, R347). -/
def Core.dropDone (c : Core) (e sidx : Nat) : Core :=
  let keep (x : Cmd) : Bool :=
    !(x.sidx == sidx && x.phase == .done && !(c.userStream e).gives.any fun g => g.sidx == sidx)
  if e = 1 then { c with lceS := { c.lceS with slots := c.lceS.slots.filter keep } }
  else if e = 4 then { c with sceS := { c.sceS with slots := c.sceS.slots.filter keep } }
  else c

/-- One leaf appended to a stream's range, with its audit records (R353, R364). -/
def State.appendLeaf (s : State) (p e : Nat) (f : Forming) (record : List Byte) : State :=
  let c := s.core p
  let t := c.userStream e
  let task := c.task.getD 0
  let d := leafDigest record
  let (r, nodes) := t.range.append d
  let recs := auditRecord 1 e c.vcore 0 t.range.count d
    :: nodes.map fun n => auditRecord 2 e c.vcore n.1 n.2.1 n.2.2
  let s := s.onCore p fun c => (c.setStream (engOf e) false { c.userStream e with
    range := r, past := (c.userStream e).past ++ [(f.sidx, d)] }).dropDone e f.sidx
  let s := s.auditWrite task recs
  let caps := s.taster.captures.map fun k =>
    k.see s.gtc task e c.vcore t.range.count f.sidx record f.images
  { s with taster := { s.taster with captures := caps } }

/-- The complete leaves at the head of a stream's leaves in formation, appended in stream order
while the audit ring has room (R347, R364, R365). -/
def State.appendLeaves (s : State) (p e : Nat) : Nat → State
  | 0 => s
  | fuel + 1 =>
    let c := s.core p
    let t := c.userStream e
    match t.form with
    | [] => s
    | f :: fs =>
      let rest (s : State) := s.onCore p fun c =>
        c.setStream (engOf e) false { c.userStream e with form := fs }
      if f.drop then (rest s).appendLeaves p e fuel
      else match f.record with
        | none => s
        | some record =>
          if s.auditRoom (c.task.getD 0) (1 + (t.range.append (leafDigest record)).2.length) then
            ((rest s).appendLeaf p e f record).appendLeaves p e fuel
          else s

/-- A leaf-emitting instruction enters formation (R365). -/
def Stream.formLeaf (t : Stream) : Stream :=
  { t with form := t.form ++ [{ sidx := t.sidx, record := none, images := [], drop := false }] }

/-- The record of a leaf in formation completed. -/
def Stream.fillLeaf (t : Stream) (sidx : Nat) (record : List Byte) (ims : List Image) : Stream :=
  { t with form := t.form.map fun f =>
      if f.sidx = sidx then { f with record := some record, images := ims } else f }

/-- A leaf in formation given up (R346). -/
def Stream.dropLeaf (t : Stream) (sidx : Nat) : Stream :=
  { t with form := t.form.map fun f => if f.sidx = sidx then { f with drop := true } else f }

/-- The leaf of an instruction formed: its record is completed and every leaf that has become
appendable is appended (R347). -/
def State.leaf (s : State) (p e sidx : Nat) (words : List Nat) (b : LeafBody) (ims : List Image) :
    State :=
  let c := s.core p
  let record := leafRecord e c.vcore sidx words b
  let s := s.onCore p fun c => c.setStream (engOf e) false ((c.userStream e).fillLeaf sidx record ims)
  s.appendLeaves p e ((s.core p).userStream e).form.length

/-! ## Taking an engine fault (R426 to R428) and returning from it (R208, R429) -/

/-- HOLD and HOLDV of a stream entry (Table 16.2). -/
def Stream.holdCode (t : Stream) : Nat × Nat :=
  match (if t.atd then none else t.at?), t.hold with
  | some a, _ => (1, a.stamp)
  | none, .none => (0, 0)
  | none, .waitt g => (2, g)
  | none, .bar _ => (3, 0)
  | none, .rwait g => (4, g)

/-- Whether an FSIG.REL of the core has not been injected yet (R255, R432). -/
def Core.relWaiting (c : Core) : Bool :=
  c.sceS.slots.any fun x => x.phase != .done && x.next == 0 && (match x.instr with
    | .fsig _ _ _ rel _ _ => rel
    | _ => false)

/-- The word offset that names a stream's next instruction: that of its AT, if one waits. -/
def Stream.nextPc (t : Stream) : Nat :=
  match t.at? with
  | some a => a.pc
  | none => t.pc

/-- The gives of retired instructions of a stream that wait to be performed (HGP, HGN of
Table 16.2); those of copy commands travel in their records (R438). -/
def Core.heldGives (c : Core) (e now : Nat) : Nat × Nat :=
  let gs := (c.userStream e).gives.filter fun g =>
    match g.due with
    | .tick d => decide (d ≤ now)
    | .command _ => false
  (min 7 (gs.map (·.gp)).sum, min 7 (gs.map (·.gn)).sum)

/-- A stream entry (Table 16.2); `rel` maps a HOLDV of an AT or a WAITT to what is stored. -/
def Core.streamEntry (c : Core) (e now : Nat) (rel : Nat → Nat → Nat) : List Byte :=
  let t := c.userStream e
  let (hc, hv) := if e = 4 ∧ t.holdCode.1 = 0 ∧ c.relWaiting then (5, 0) else t.holdCode
  let (hgp, hgn) := c.heldGives e now
  let vl := if e = 3 then c.vxeS.vloop else none
  let level (l : LoopLevel) := leBytes 8 (l.stop * 2 ^ 32 + l.start) ++ leBytes 8 l.count
  leBytes 4 t.nextPc
    ++ leBytes 4 (hc * 2 ^ 12 + t.loops.length * 2 ^ 8 + b2n vl.isSome * 4 + b2n t.ended * 2
        + b2n t.atd)
    ++ leBytes 8 (rel hc hv)
    ++ t.loops.reverse.flatMap level ++ zeros (64 - 16 * t.loops.length)
    ++ (match vl with
        | none => zeros 16
        | some v => leBytes 8 (v.rs * 2 ^ 58 + v.rlm1 * 2 ^ 53 + v.rb * 2 ^ 48 + v.iter * 2 ^ 24
            + v.count) ++ leBytes 8 (v.stop * 2 ^ 32 + v.start))
    ++ leBytes 8 (hgp * 16 + hgn) ++ zeros 24

/-- The interlock counts as one number (ILC, Table 16.1). -/
def Core.ilc (c : Core) : Nat :=
  ((List.range 10).map fun k => c.count k * 2 ^ (6 * k)).sum

/-- The fault frame (Table 16.1). -/
def Core.faultFrame (c : Core) (r : Faulting) (now : Nat) : List Byte :=
  leBytes 4 (r.eng * 2 ^ 24 + r.cause * 2 ^ 16 + 0x0100) ++ zeros 4 ++ leBytes 4 (r.foff * 256 + r.ecode)
    ++ leBytes 4 r.tcode ++ leBytes 8 r.tick ++ leBytes 8 c.ilc ++ zeros 32
    ++ (List.range 5).flatMap fun k => c.streamEntry k now fun _ v => v

/-- Where the fault frame stands (Table 8.1). -/
def frameBase (p : Nat) : Nat := fwBase p + 0xF000

/-- A capture run whose core faults ends with status FAULT (R380). -/
def Capture.faulted (c : Capture) (now task e v cause sidx : Nat) : Capture :=
  if c.task = task ∧ c.decided = none then
    { c with status := 12, fcause := cause, ovcore := v + e * 2 ^ 16, osidx := sidx, decided := some now }
  else c

/-- An engine fault is taken (R426): the core's user context halts issue on the next tick, and its frame waits
for the instructions that have issued. A second fault replaces nothing, and a core without a task has none. -/
def State.engineFault (s : State) (p e cause ecode tcode foff : Nat) : State :=
  let c := s.core p
  if c.halted || c.task.isNone then s
  else
    let s := s.onCore p fun c => { c with
      halted := true
      fault := some { eng := e, cause := cause, ecode := ecode, tcode := tcode, foff := foff, tick := s.gtc } }
    let caps := s.taster.captures.map fun k =>
      k.faulted s.gtc (c.task.getD 0) e c.vcore cause (c.userStream e).sidx
    { s with taster := { s.taster with captures := caps } }

/-- Whether a fault's frame can be written on this tick: issue has halted, and every SCU, MXE and VXE instruction
that had issued has completed (R297, R426 step 2). -/
def Core.frameReady (c : Core) (now : Nat) : Bool :=
  c.fault.any (fun r => decide (r.tick < now)) && c.mxeS.flight.isEmpty && c.user.pend.isEmpty
    && c.vxeS.pend.isEmpty && c.vxeS.traps.isEmpty && c.stores.isEmpty

/-- The frame of a fault is written once it can be, and event KIND 1 is posted (R426 steps 4 and 5). -/
def State.writeFrame (s : State) (p : Nat) : State :=
  match (if (s.core p).frameReady s.gtc then (s.core p).fault else none) with
  | none => s
  | some r =>
    ((s.writeAt (frameBase p) ((s.core p).faultFrame r s.gtc)).onCore p fun c => { c with fault := none }).post p 1 0 0 0

/-- Complete leaves and due gives of every engine of core `p`, appended and performed; records that
wait for the audit ring go first, and the frame of a fault that has waited for them comes last. -/
def State.settleCore (s : State) (p : Nat) : State :=
  let t := ((s.core p).task.getD 0 : Nat)
  let s := s.auditDrain t (((s.task? t).map (·.audWait.length)).getD 0)
  ((List.range 5).foldl (fun s e =>
    let s := s.appendLeaves p e ((s.core p).userStream e).form.length
    s.onCore p fun c => c.gives e s.gtc) s).writeFrame p

/-- Ending a task asked for at this tick (R442): its cut stands 2048 ticks on, or 16,384 with
PODBAR. A request that already ends the task stands. -/
def State.requestEnd (s : State) (t detail : Nat) (fwFault : Bool) : State :=
  match s.task? t with
  | none => s
  | some k =>
    let cut := s.gtc + (if k.podbar.isSome then 16384 else 2048)
    let req : CutReq :=
      match k.cutReq with
      | none => { at? := some cut, kind := 1, ends := true, detail := detail, fwFault := fwFault
                  stops := [], saves := [], yield := false, ty := 0 }
      | some r =>
        if r.ends then r
        else { r with at? := some (match r.at? with | some a => min a cut | none => cut)
                      kind := 1, ends := true, detail := detail, fwFault := fwFault }
    s.setTask t (some { k with cutReq := some req })

/-- A fault of the firmware context (R176): it halts, and the front end ends the task on the
core with FIRMWARE-FAULT and the virtual core. -/
def State.firmwareFault (s : State) (p : Nat) : State :=
  let c := s.core p
  let s := s.onCore p fun c => { c with fwDead := true, fwBusy := false }
  match c.task with
  | none => s
  | some t => s.requestEnd t c.vcore true

/-- A fault of the instruction at hand, at its issue (R428): FOFF names it. -/
def State.raise (s : State) (cause ecode tcode : Nat) : State :=
  if s.cur.fw then s.firmwareFault s.cur.core
  else s.engineFault s.cur.core (engIdx s.cur.eng) cause ecode tcode s.myStream.pc

/-- A schedule-miss: the fault names the AT (R99). -/
def State.scheduleMiss (s : State) : State :=
  if s.cur.fw then s.firmwareFault s.cur.core
  else s.engineFault s.cur.core (engIdx s.cur.eng) 3 0 0 s.myStream.nextPc

/-- The loop levels of a stream entry in memory, innermost first (R429). -/
def State.readLevels (s : State) (a depth : Nat) : List LoopLevel :=
  ((List.range (min depth 4)).map fun l =>
    { start := s.num (a + 0x10 + 16 * l) 4, stop := s.num (a + 0x14 + 16 * l) 4
      count := s.num (a + 0x18 + 16 * l) 4 % 2 ^ 28 }).reverse

/-- A stream resumed from its entry at `a` (R429): the hold of an arrival goes on as it stood. -/
def State.resumeStream (s : State) (a : Nat) (t : Stream) : Stream :=
  let w := s.num (a + 4) 4
  let hold := bits w 15 12
  { t with
    pc := s.num a 4, loops := s.readLevels a (bits w 11 8), atd := bit w 0, at? := none
    hold := if hold = 2 then .waitt (s.num (a + 8) 8)
      else if hold = 3 then t.hold else .none
    ready := s.gtc + 1, fresh := true, withheld := false }

/-- The VLOOP state of an entry (Table 16.2). -/
def State.readVloop (s : State) (a : Nat) : Option VLoop :=
  let v := s.num (a + 0x50) 8
  if bit (s.num (a + 4) 4) 2 then
    some { count := bits v 23 0, iter := bits v 47 24, rb := bits v 52 48, rlm1 := bits v 57 53
           rs := bits v 62 58, start := s.num (a + 0x58) 4, stop := s.num (a + 0x5C) 4 }
  else none

/-- The return from an engine fault (R208, R429): with ACT 0 the streams resume from the frame,
with ACT 1 the front end ends the task. -/
def State.returnFault (s : State) (p : Nat) : State :=
  let f := frameBase p
  let c := s.core p
  if bit (s.num (f + 4) 4) 0 then
    match c.task with
    | none => s
    | some t => s.requestEnd t (s.num (f + 2) 1) false
  else
    let c := (List.range 5).foldl (fun c e =>
      let t := c.userStream e
      if t.ended then c else c.setStream (engOf e) false (s.resumeStream (f + 0x40 + 128 * e) t)) c
    let c := if c.vxe.ended then c
      else { c with vxeS := { c.vxeS with vloop := s.readVloop (f + 0x40 + 128 * 3) } }
    s.setCore p { c with halted := false }

/-! ## The open segment of the VXE (R339, R340) -/

/-- One landed result of the VXE (R305). -/
def VxeState.land1 (x : VxeState) (l : VLanding) : VxeState :=
  if l.mask then { x with m := x.m.set 0 l.reg (l.value.setWidth 512) }
  else { x with v := x.v.set 0 l.reg l.value }

/-- A pending result placed among others by the tick on which it lands; of one tick, in issue order. -/
def insertByDue (l : VLanding) : List VLanding → List VLanding
  | [] => [l]
  | k :: ks => if l.due < k.due then l :: k :: ks else k :: insertByDue l ks

/-- The VXE once every pending result has landed, each on its tick. -/
def VxeState.landed (x : VxeState) : VxeState :=
  { (x.pend.foldl (fun ls l => insertByDue l ls) []).foldl VxeState.land1 x with pend := [] }

/-- The four components of a coordinate register as 16 bytes (R437). -/
def Coord.bytes (c : Coord) : List Byte :=
  [c.x, c.y, c.z, c.w].flatMap fun k => leBytes 4 (k.signExtend 32).toNat

/-- The snapshot of the VXE (R340). -/
def State.snapshot (s : State) (p : Nat) : List Byte :=
  let c := s.core p
  let h := s.hdrOf p
  let x := c.vxeS.landed
  ((List.range h.valloc).flatMap fun r => leBytes 512 (x.v.get 0 r).toNat)
    ++ ((List.range 7).flatMap fun k => leBytes 64 (x.m.get 0 (k + 1)).toNat)
    ++ ((List.range 16).flatMap fun k => (c.coords.get Coord.zero (48 + k)).bytes)
    ++ leBytes 8 x.vxst.toNat ++ leBytes 8 x.vxctl.toNat
    ++ ((c.streamEntry 3 0 fun _ v => v).drop 16).take 80
    ++ (if h.spillbank then (List.range 32).flatMap fun k => leBytes 512 (x.spill.get 0 k).toNat
        else [])

/-- An issue of the VXE enters the open segment: the first takes the snapshot (R339). -/
def State.enter (s : State) : State :=
  if s.cur.eng == .vxe && !s.cur.fw then
    let g := s.me.vxeS.seg
    let g := if g.issues = 0 then
        let im := s.snapshot s.cur.core
        { g with snap := imageDigest 0x01 im, snapIm := im }
      else g
    let g := { g with issues := g.issues + 1, words := g.words ++ s.cur.words }
    s.onMe fun c => { c with vxeS := { c.vxeS with seg := g } }
  else s

/-- The state with the open segment as another state has it. -/
def State.sameSegment (s : State) (g : Segment) : State :=
  s.onMe fun c => { c with vxeS := { c.vxeS with seg := g } }

/-! ## Issue (R94, R98, R23) -/

/-- What an instruction does when its issue is tried. -/
inductive Eff where
  /-- It issues: the state after its effect, and the ticks until it retires. -/
  | done (s : State) (lat : Nat)
  /-- It issues, and a delayed read freezes its engine for some ticks (R180, R305). -/
  | late (s : State) (lat wait : Nat)
  /-- It issues and the stream goes on elsewhere, after at least `gap` ticks. -/
  | jump (s : State) (lat pc gap : Nat)
  /-- It issues and retires when its command completes, or its waiting store is performed. -/
  | cmd (s : State)
  /-- It issues and leaves its stream as the state says. -/
  | raw (s : State)
  /-- It has issued and holds issue: an outside event lets it go on (16, R432). -/
  | hold (s : State)
  /-- A program condition is unmet (R98). -/
  | program
  /-- A device delay withholds issue (R98). -/
  | device
  /-- It raises an engine fault: cause, code and TRAP code. -/
  | fault (cause ecode tcode : Nat)

/-! ## Ticks that do not count (R179, R180, R305) -/

/-- Everything of a context that waits for counted ticks, `k` ticks later. -/
def ScuCtx.delay (k : Nat) (x : ScuCtx) : ScuCtx :=
  { x with pend := x.pend.map fun l => { l with due := l.due + k } }

/-- A give that waits for a tick still to come, `k` ticks later. -/
def Give.delay (now k : Nat) (g : Give) : Give :=
  { g with due := match g.due with
                  | .tick d => .tick (if now < d then d + k else d)
                  | x => x }

/-- A stream of which `k` ticks from `now` up do not count: spacing and gives move on. -/
def Stream.delay (now k : Nat) (t : Stream) : Stream :=
  { t with ready := t.ready + k, gives := t.gives.map (Give.delay now k), frozen := some (now + k - 1) }

/-- Everything of the VXE that waits for counted ticks, `k` ticks later. -/
def VxeState.delay (k : Nat) (x : VxeState) : VxeState :=
  { x with pend := x.pend.map fun l => { l with due := l.due + k }
           traps := x.traps.map fun t => { t with due := t.due + k } }

/-- The engine of the step frozen for the `k` ticks after this one. -/
def State.freeze (s : State) (k : Nat) : State :=
  if k = 0 then s
  else (s.onStream (Stream.delay (s.gtc + 1) k)).onMe fun c =>
    if s.cur.eng = .vxe then { c with vxeS := c.vxeS.delay k }
    else c.setCtx s.cur.fw ((c.ctx s.cur.fw).delay k)

/-- The tokens a stream's next instruction waits for and gives, its AT's words included. -/
def Stream.tokens (t : Stream) (h : Hdr) : Nat × Nat × Nat × Nat :=
  match t.at? with
  | none => (h.wp, h.wn, h.gp, h.gn)
  | some a => (h.wp + a.wp, h.wn + a.wn, h.gp + a.gp, h.gn + a.gn)

/-- The state in which the stream of the step has consumed its tokens (R23); the firmware
context has none (R177). -/
def State.consume (s : State) (h : Hdr) : State :=
  if s.cur.fw then s
  else
    let e := engIdx s.cur.eng
    let (wp, wn, _, _) := s.myStream.tokens h
    s.onMe fun c =>
      let (c, a) := c.take (fwdIn e) wp
      let (c, b) := c.take (backIn e) wn
      let t := c.userStream e
      c.setStream (engOf e) false { t with clk := (t.clk.join a).join b }

/-! ## What other cores have written (R69 items 3 and 4, R75, R80) -/

/-- Under which name a clock knows the SCE stream of core `p`. -/
def State.farKey (s : State) (p : Nat) : Nat := 1024 * (s.core p).task.getD 0 + p

/-- What a position of a stream of core `p` covers, as another core learns it. -/
def State.learned (s : State) (p : Nat) (k : Clock) : SMap Nat :=
  let n := k.idx.getD 4 0
  if n = 0 then k.far else k.far.set 0 (s.farKey p) (max n (k.far.get 0 (s.farKey p)))

/-- Whether a fabric write of the commands below stream index `n` of core `p` is unacknowledged, those that
went into the fabric cache included (R72, R80, R82). -/
def Core.unacked (c : Core) (n : Nat) : Bool :=
  (c.sceS.ack.any fun a => decide (a.sidx < n)) || c.sceS.dirt.any fun d => decide (d.sidx < n)

/-- Whether every fabric write of other cores that a clock covers has been acknowledged. -/
def State.farAcked (s : State) (k : Clock) : Bool :=
  k.far.all fun e => decide ((s.core (e.1 % 1024)).task ≠ some (e.1 / 1024)) || !(s.core (e.1 % 1024)).unacked e.2

/-- Whether core `q` lies in the extent of core `p` at a scope (R75): the core, the quad, the die, the module. -/
def State.extent (s : State) (p scope q : Nat) : Bool :=
  match scope with
  | 0 => p == q
  | 1 => p / 32 == q / 32 && (s.die (p / 32)).quadPos (p % 32) / 4 == (s.die (q / 32)).quadPos (q % 32) / 4
  | 2 => p / 32 == q / 32
  | _ => true

/-- The step's stream knows what another core covers. -/
def State.learn (s : State) (far : SMap Nat) : State :=
  s.onStream fun t => { t with clk := { t.clk with far := joinFar t.clk.far far } }

/-- An acquire that reads the bytes at `as` at a scope: it synchronises with every release whose sequence
they stand in, where each side lies in the extent of the other (R74 to R76). -/
def State.acquire (s : State) (as : List Nat) (scope : Nat) : State :=
  let p := s.cur.core
  let rs := as.flatMap fun a => s.released.get [] a
  s.learn ((rs.filter fun r => s.extent r.core r.scope p && s.extent p scope r.core).foldl
    (fun m r => joinFar m r.far) [])

/-- Releases stand in the bytes of a write that has been performed. -/
def State.stand (s : State) (es : List (Nat × List Release)) : State :=
  { s with released := es.foldl (fun m e => m.set [] e.1 e.2) s.released }

/-- A write of bytes in which a release stands, if any (R75). -/
def State.writeRel (s : State) (cs : List (Nat × Byte)) (new : List Release) : State :=
  (s.write cs).stand (if new = [] then [] else cs.map fun c => (c.1, new))

/-- The write of a read-modify-write: it continues the release sequences of the bytes it replaces (R76). -/
def State.writeRmw (s : State) (cs : List (Nat × Byte)) (new : List Release) : State :=
  (s.write cs).stand (cs.map fun c => (c.1, s.released.get [] c.1 ++ new))

/-- The release that a write of the step's stream makes at a scope, which covers what `k` covers; one
that covers nothing of another core or of the fabric leaves no trace. -/
def State.releaseOf (s : State) (p scope : Nat) (k : Clock) : List Release :=
  if s.learned p k = [] then [] else [{ core := p, scope := scope, far := s.learned p k }]

/-- The cursors of the circular tensors bound to the tokens that an instruction gives, advanced
(R30, R31): `d` of `descs`, producer and consumer from the descriptor. -/
def Core.advance (c : Core) (e gp gn : Nat) : Core :=
  c.descs.foldl (fun c kd =>
    let w0 := (kd.2.toNat) % 2 ^ 32
    if bit w0 24 && bits w0 10 9 == 2 then
      let prod := bits w0 20 18
      let cons := bits w0 23 21
      let n := bits w0 14 11 + 1
      let fwd := (prod + c.chain prod 1 + 1) % 5 == cons
      let g := if e = prod then (if fwd then gn else gp)
        else if e = cons then (if fwd then gp else gn) else 0
      let k := 256 * e + kd.1
      if g = 0 then c else { c with cursors := c.cursors.set 0 k ((c.cursors.get 0 k + g) % n) }
    else c) c

/-- The VXE's word offset after `pc`, which may lie past the last word of an active VLOOP body:
the next iteration begins, or the loop ends (R337). -/
def Core.wrapVloop (c : Core) (pc : Nat) : Core × Nat :=
  match c.vxeS.vloop with
  | none => (c, pc)
  | some v =>
    if pc = v.stop + 1 then
      if v.iter + 1 < v.count then
        ({ c with vxeS := { c.vxeS with vloop := some { v with iter := v.iter + 1 } } }, v.start)
      else ({ c with vxeS := { c.vxeS with vloop := none } }, pc)
    else (c, pc)

/-- Bookkeeping of an issue (R23, R24, R94, R349): the stream moves to `pc`, may issue again after
`gap` ticks, and its gives wait to be performed. -/
def State.finish (s : State) (h : Hdr) (due : GiveDue) (pc gap : Nat) : State :=
  let e := engIdx s.cur.eng
  let t0 := s.myStream
  let (_, _, gp, gn) := t0.tokens h
  let s := s.consume h
  let (c, pc) := if e = 3 then s.me.wrapVloop pc else (s.me, pc)
  let s := s.setCore s.cur.core c
  let s := s.onStream fun t =>
    let clk := { t.clk with idx := t.clk.idx.set e (t.sidx + 1) }
    let gives := if gp + gn = 0 ∨ s.cur.fw then t.gives
      else t.gives ++ [{ sidx := t.sidx, gp := gp, gn := gn, due := due, clk := clk }]
    { t with pc := pc, at? := none, atd := false, hold := .none, fresh := true, withheld := false
             sidx := t.sidx + 1, ready := s.gtc + max gap (max 1 h.stl), clk := clk
             gives := gives }
  if s.cur.fw then s else s.onMe fun c => c.advance e gp gn

/-- The SCU has issued: the context of the step has taken the slot of the tick (R37). -/
def State.takeSlot (s : State) : State :=
  if s.cur.fw then s.onMe fun c => { c with fwSlot := true }
  else if s.cur.eng = .scu then s.onMe fun c => { c with usrSlot := true }
  else s

/-- Bits set among the lowest `n` of a number. -/
def onesOf (n w : Nat) : Nat := ((List.range n).filter fun i => bit w i).length

/-- Whether the firmware context is at work on an event. -/
def Core.fwWants (c : Core) : Bool := c.fwBusy && !c.fwDead

/-- Whether the firmware context may take the slot of this tick: the user context has not, and of every 32
consecutive slots it gets at most 8 (R37 item 4). -/
def Core.fwMay (c : Core) : Bool := !c.usrSlot && decide (onesOf 31 c.fwIss < 8)

/-- Whether the slot of this tick must be left to the firmware context, so that of every 32 consecutive
slots it gets 2 while it is at work (R37 item 4): by the end of this tick or of the next one a window
of 32 would close with fewer. -/
def Core.fwMust (c : Core) : Bool :=
  c.fwWants && ((onesOf 31 c.fwWas == 31 && decide (onesOf 31 c.fwHad < 2))
    || (onesOf 30 c.fwWas == 30 && onesOf 30 c.fwHad == 0))

/-- Whether no engine fault stops issue of engine `e`: the others halt on the tick after the fault's (R36, R426). -/
def Core.running (c : Core) (e now : Nat) : Bool :=
  !c.halted || c.fault.any fun r => r.tick == now && r.eng != e

/-- Conditions 2 and 5 of R94, and the holds that no instruction's own conditions give: the
stream has not ended, its core is not halted or cut, and no give of it is held by overflow. -/
def State.canIssue (s : State) : Bool :=
  let c := s.me
  let t := s.myStream
  if s.cur.fw then c.fwWants && c.fwMay && decide (t.ready ≤ s.gtc)
  else
    c.task.isSome && c.running (engIdx s.cur.eng) s.gtc && c.cut.isNone && !t.ended && decide (t.ready ≤ s.gtc)
      && !c.overflow (engIdx s.cur.eng) s.gtc && !(s.cur.eng == .mxe && (c.mxeS.yield || c.mxeS.broken))
      && (match s.taskOf s.cur.core with
          | none => false
          | some k => k.phase == .running && decide (k.startAt ≤ s.gtc))

/-- The station-clock view of the context of the step; the firmware context has never been
resumed, so its offset is zero (R195). -/
def State.myView (s : State) : Nat :=
  if s.cur.fw then s.gtc % 2 ^ 64 else s.view s.cur.core

/-- What the AT of a stream says on this tick (R98). -/
inductive AtSays where
  | early
  | miss
  | strict
  | free
deriving DecidableEq, Repr

/-- The AT of the step's stream. -/
def State.atSays (s : State) : AtSays :=
  let t := s.myStream
  match t.at? with
  | none => .free
  | some a =>
    if t.atd then .free
    else
      let d := (s.myView % 2 ^ 40 + 2 ^ 40 - a.stamp) % 2 ^ 40
      if 2 ^ 39 ≤ d then .early
      else if a.lax then .free
      else if d = 0 then .strict
      else if t.withheld || t.frozen.any fun f => decide (s.gtc ≤ f + d) then .free
      else .miss

/-- A device delay on this tick (R98): it is remembered with its tick, beyond the instruction that met it. -/
def State.withhold (s : State) : State :=
  s.onStream fun t => { t with withheld := true, frozen := some (max s.gtc (t.frozen.getD 0)) }

/-- Whether the waits of an instruction are satisfied (R23). -/
def State.waitsMet (s : State) (h : Hdr) : Bool :=
  s.cur.fw ||
    (let e := engIdx s.cur.eng
     let (wp, wn, _, _) := s.myStream.tokens h
     decide (wp ≤ s.me.count (fwdIn e)) && decide (wn ≤ s.me.count (backIn e)))

/-- Device delays that no instruction's own: the slot of the SCU is the firmware context's (R37), or the
power manager withholds MXE issue on this tick (R464). -/
def State.delayed (s : State) : Bool :=
  (s.cur.eng == .scu && !s.cur.fw && (s.me.fwSlot || s.me.fwMust))
    || (s.cur.eng == .mxe && s.plat.withhold && s.gtc % 4 == 3)

/-- The AT that governs the instruction of the step has been satisfied (R99). -/
def State.atDone (s : State) : State := s.onStream fun t => { t with atd := t.atd || t.at?.isSome }

/-- The end of a tried issue. -/
def State.settleEff (s : State) (h : Hdr) (strict : Bool) (x : Eff) : State :=
  match x with
  | .done s' lat => (s'.finish h (.tick (s.gtc + lat)) (s.myStream.pc + h.n) 1).takeSlot
  | .late s' lat k => ((s'.finish h (.tick (s.gtc + lat)) (s.myStream.pc + h.n) 1).takeSlot).freeze k
  | .jump s' lat pc gap => (s'.finish h (.tick (s.gtc + lat)) pc gap).takeSlot
  | .cmd s' => s'.finish h (.command s.myStream.sidx) (s.myStream.pc + h.n) 1
  | .raw s' => s'.takeSlot
  | .hold s' =>
    (s'.sameSegment s.me.vxeS.seg).onStream fun t => { t with atd := t.at?.isSome }
  | .program => if strict then s.scheduleMiss else s
  | .device => s.withhold
  | .fault cause ecode tcode => s.atDone.raise cause ecode tcode

/-- Whether a device delay withholds what is tried. -/
def Eff.delays (x : Eff) : Bool :=
  match x with
  | .device => true
  | _ => false

/-- The fault that decoding finds in what is tried: a register beyond the allocation, or a privileged
operation (R93, checks 4 and 5). -/
def Eff.named (x : Eff) : Option (Nat × Nat) :=
  match x with
  | .fault cause ecode _ => if cause = 5 ∨ cause = 6 then some (cause, ecode) else none
  | _ => none

/-- The issue of an instruction, tried on this tick: nothing happens while a condition of R94 is unmet, but
what decoding checks faults before any wait and any stamp (R93). At the stamp of a strict AT a device
delay is looked at before the conditions of the program (R98). -/
def State.issue (s : State) (h : Hdr) (eff : State → Eff) : State :=
  if !s.canIssue then s
  else match (eff s.enter).named with
  | some (cause, ecode) => s.raise cause ecode 0
  | none =>
    match s.atSays with
    | .early => s
    | .miss => s.scheduleMiss
    | .strict =>
      if s.delayed || (eff s.enter).delays then s.withhold
      else if s.waitsMet h then s.settleEff h true (eff s.enter) else s.scheduleMiss
    | .free =>
      if s.delayed then s.withhold
      else if s.waitsMet h then s.settleEff h false (eff s.enter) else s

end Sys2Proof.Machine
end

