-- ==== Sys2Proof/Machine/Fetch.lean ====
section
/-!
DEFINITION. How the words of an instruction reach its engine (R90 to R92), what the passage of a
tick does, which fixed-time steps have fallen due, and the placing of a word for a first step.
-/

namespace Sys2Proof.Machine

/-! ## Reading under a key (R460) -/

/-- The key name under which a line was written: 0 for plaintext (R460). -/
def Seal.key (x : Seal) : Nat := 2 * x.gen + 1 + b2n x.enci

/-- One byte read under a key name: 0 for a CLR frame, 1 + 2 · generation for ENC, 2 more than
twice the generation for ENCI. A line under another key reads as no one can tell (log entry 9);
an ENCI line whose counter is 0 reads zero (R461). -/
def State.under (s : State) (key a : Nat) : Byte :=
  if key ≠ 0 ∧ key % 2 = 0 ∧ s.trust.counters.get 0 (a / 128) = 0 then 0
  else match s.trust.seals.get none (a / 128) with
  | none => if key = 0 then s.byte a else Config.scrambled a 0 key
  | some x => if x.key = key then s.byte a else Config.scrambled a x.key key

/-! ## Fetching -/

/-- Where a byte of the task's kernel image lies, and its key. -/
def Task.imageAt (t : Task) (va : Nat) : Option (Nat × Nat) :=
  (t.pages.find? fun e => e.1 == va / 2 ^ 16).map fun e => (e.2.1 + va % 2 ^ 16, e.2.2)

/-- What a fetch gives. -/
inductive Fetched where
  | words (ws : List Nat)
  /-- The instruction does not lie whole in the stream (R92). -/
  | outside
  /-- A word holds uncorrectable data. -/
  | uncorrectable
  /-- No page of the image holds the word. -/
  | unmapped
deriving DecidableEq, Repr

/-- The word at a word offset of the step's code: the stream in the kernel image, or the firmware
RAM. -/
def State.fetchWord (s : State) (k : Nat) : Fetched :=
  let p := s.cur.core
  if s.cur.fw then
    let a := fwBase p + 4 * k
    if s.isBad a 4 then .uncorrectable else .words [s.num a 4]
  else
    match s.taskOf p with
    | none => .unmapped
    | some t =>
      match t.imageAt (t.kva + s.myStream.off + 4 * k) with
      | none => .unmapped
      | some (a, key) =>
        if s.isBad a 4 then .uncorrectable
        else .words [leNat ((List.range 4).map fun i => s.under key (a + i))]

/-- Words `k` up, `n` of them, in one result. -/
def State.fetchMore (s : State) (k : Nat) : Nat → Fetched
  | 0 => .words []
  | n + 1 =>
    match s.fetchWord k with
    | .words ws =>
      match s.fetchMore (k + 1) n with
      | .words vs => .words (ws ++ vs)
      | x => x
    | x => x

/-- The words of the instruction at the program counter (R90, R92): word 0 gives their number. -/
def State.fetch (s : State) : Fetched :=
  let t := s.myStream
  if t.len ≤ t.pc then .outside
  else match s.fetchWord t.pc with
    | .words ws =>
      let n := lenOf (ws.getD 0 0)
      if t.len < t.pc + n then .outside else s.fetchMore t.pc n
    | x => x

/-- What an issue runs: an instruction, or the fault its fetch or its decoding raises (R92, R93). -/
inductive Ready where
  | run (i : Instr)
  | fault (cause : Nat)
  | idle
deriving DecidableEq, Repr

/-- The code of an engine's status word for a fault of its fetch: uncorrectable data has one in the MXE and in
the VXE (Tables 11.6 and 12.12). -/
def fetchCode (e : Engine) (cause : Nat) : Nat :=
  if cause = 10 then (match e with
    | .mxe => 11
    | .vxe => 9
    | _ => 0) else 0

/-- The fault that a fetch or a decoding raises. -/
def State.raiseFetch (s : State) (cause : Nat) : State := s.raise cause (fetchCode s.cur.eng cause) 0

/-- The words fetched for the step, noted in it. -/
def State.noteWords (s : State) (ws : List Nat) : State := { s with cur := { s.cur with words := ws } }

/-- The instruction at the program counter of the step's stream, and the state that has noted its
words. -/
def State.next (s : State) : Ready × State :=
  if !s.canIssue then (.idle, s)
  else match s.fetch with
    | .words ws =>
      match decode s.cur.eng ws with
      | .ok i => (.run i, s.noteWords ws)
      | .error _ => (.fault 1, s)
    | .outside => (.fault 1, s)
    | .uncorrectable => (.fault 10, s)
    | .unmapped => (.idle, s)

/-! ## The passage of a tick -/

/-- Whether a retirement of the core waits on a leaf, an audit record or a log record: a complete
leaf that has not been appended, or a DGSEAL that was tried on this tick and held (R365). -/
def Core.digestWait (c : Core) : Bool :=
  c.sealWait || (List.range 5).any fun e =>
    match (c.userStream e).form with
    | [] => false
    | f :: _ => f.record.isSome

/-- A core after a tick: what is consumed no longer counts (R25), a slot that one context of the SCU took is not
counted by the other (R179), the shares of the last 31 slots are noted (R37), and DGSTALL counts (R365). -/
def Core.tick (now : Nat) (c : Core) : Core :=
  let c := if c.fwSlot then { c with user := c.user.delay 1, scu := c.scu.delay now 1 } else c
  let c := if c.usrSlot && c.fwWants then { c with fw := c.fw.delay 1, fws := c.fws.delay now 1 } else c
  let c := { c with
    spent := [], fwSlot := false, usrSlot := false
    fwIss := (2 * c.fwIss + b2n c.fwSlot) % 2 ^ 31
    fwHad := (2 * c.fwHad + b2n (c.fwWants && !c.usrSlot)) % 2 ^ 31
    fwWas := (2 * c.fwWas + b2n c.fwWants) % 2 ^ 31 }
  { c with dgstall := if c.digestWait then c.dgstall + 1 else c.dgstall, sealWait := false }

/-- The state on the next tick. -/
def State.tick (s : State) : State :=
  { s with gtc := s.gtc + 1, sweep := 0, cores := s.cores.map fun e => (e.1, e.2.tick s.gtc) }

/-! ## Streams that can still issue on this tick (R94) -/

/-- For which stream a place of the sweep stands: the cores that the state lists, six streams each. -/
def State.streamAt (s : State) (k : Nat) : Option Cur :=
  (s.cores[k / 6]?).map fun e =>
    { core := e.1, eng := engOf (if k % 6 = 5 then 0 else k % 6), fw := k % 6 == 5, words := [], port := 0, queue := 0 }

/-- Whether the stream of the step could issue on this tick but for its own instruction. -/
def State.couldIssue (s : State) (cur : Cur) : Bool := ({ s with cur := cur }).canIssue

/-- The first place of the sweep from `k` up whose stream could issue. -/
def State.unswept (s : State) (k : Nat) : Nat → Option (Nat × Cur)
  | 0 => none
  | fuel + 1 =>
    match s.streamAt k with
    | none => none
    | some cur => if s.couldIssue cur then some (k, cur) else s.unswept (k + 1) fuel

/-! ## Fixed-time steps that have fallen due -/

/-- The due step of a core, if any: arriving tokens, landing results, a fault's frame, a completing MXE
instruction, gives that can be performed. -/
def Core.dueStep (c : Core) (now : Nat) : Option Instr :=
  if c.pass.any fun x => decide (x.arrive ≤ now) then some .tokenPassThrough
  else if c.mxeS.flight.any fun o => decide (o.due ≤ now) then some .mxeCompletion
  else if c.user.pend.any (fun l => decide (l.due ≤ now)) || c.fw.pend.any (fun l => decide (l.due ≤ now))
      || c.vxeS.pend.any (fun l => decide (l.due ≤ now)) || c.vxeS.traps.any (fun l => decide (l.due ≤ now))
      || c.frameReady now then
    some .resultLand
  else if (List.range 5).any fun e =>
      match (c.userStream e).gives with
      | [] => false
      | g :: _ => c.giveDue e (c.userStream e) g now && c.giveRoom e g then some .giveOverflowRelease
  else none

/-- The first due step, by core. -/
def dueOf (now : Nat) : SMap Core → Option (Nat × Instr)
  | [] => none
  | (p, c) :: m =>
    match c.dueStep now with
    | some i => some (p, i)
    | none => dueOf now m

/-- The step that has fallen due on this tick. -/
def State.due (s : State) : Option (Nat × Instr) := dueOf s.gtc s.cores

/-! ## A word placed for the next step -/

/-- Where `withFetchWord` puts words: an HBM page. -/
def wordPage : Nat := 0x10000

/-- The header of a kernel that holds a few words for one engine: every register is allocated. -/
def wordHeader (e : Engine) : KHeader :=
  { KHeader.empty with
    soff := [128, 128, 128, 128, 128]
    slen := (List.range 5).map fun k => if k = engIdx e then 4 else 0
    vregs := 32, acct := 8, spd := 24, maxred := 4096, imglen := 144 }

/-- A task that runs those words on core 0. -/
def wordTask (e : Engine) : Task :=
  { kind := .kernel, queue := 0, pseq := 0, node := none, preds := [], asid := 0, kva := 0
    pages := [(0, wordPage, 0)], kid := 0, hdr := wordHeader e, n := 1, shape := 0, args := []
    regions := [], descs := [], podbar := none, audring := none, audN := 0, audWait := [], rooted := false, launch := []
    phase := .running, cores := [0], order := 0, ordered := false, readyAt := 0, started := 0, slice := 0, expired := false, clock := 0, recv := []
    pendInc := [], podGen := 0, cutReq := none, startAt := 0, restore := none, spec := none
    reserving := false, after := none, pins := [] }

/-- The state in which task 0 occupies core 0 and the words stand at the program counter of
engine `e`, whose issue is the next move (log entry 13). -/
def State.placeWords (s : State) (e : Engine) (ws : List Nat) : State :=
  let s := s.writeAt (wordPage + 128) ((ws ++ [0, 0, 0, 0]).take 4 |>.flatMap (leBytes 4))
  let s := s.setTask 0 (some { wordTask e with started := s.gtc, startAt := s.gtc })
  let t := { Stream.empty with off := 128, len := 4, ended := false }
  let c := { Core.idle with task := some 0 }
  let s := s.setCore 0 (c.setStream e false t)
  { s with agenda := [.issue 0 e false] }

/-- The words of a table row for the engine that reads them first (log entry 14). -/
def State.placeTableWord (s : State) (nbits w : Nat) : State :=
  let ws := tableWords nbits w
  match firstDecode ws tableEngines with
  | some (e, _) => s.placeWords e ws
  | none => s.placeWords .scu ws

end Sys2Proof.Machine
end

