-- ==== Sys2Proof/Machine/Operands.lean ====
section
/-!
DEFINITION. Operand forms: the SCU's belt and named registers (R171 to R173), and the coordinate
registers of the other engines (R105, R118).
-/

namespace Sys2Proof.Machine

/-! ## The SCU's registers -/

/-- The slot of belt entry `b` (R171). -/
def ScuCtx.slot (x : ScuCtx) (b : Nat) : Nat := (x.head + 16 - b) % 16

/-- The value an operand code names now: 0 to 15 the belt, 16 to 31 the named registers. -/
def ScuCtx.operand (x : ScuCtx) (code : Nat) : Word :=
  if code < 16 then x.slots.get 0 (x.slot code) else x.named.get 0 (code - 16)

/-- Whether the result of an operand code is pending, so that a read is early (R181). -/
def ScuCtx.pending (x : ScuCtx) (code : Nat) : Bool :=
  x.pend.any fun l => if code < 16 then l.slot == x.slot code else l.named == some (code - 16)

/-- The context with a result pushed that lands at tick `due` (R171, R172): `d` is the destination
code. -/
def ScuCtx.push (x : ScuCtx) (d due : Nat) (v : Word) : ScuCtx :=
  let head := (x.head + 1) % 16
  let l := { due := due, slot := head, named := if 16 ≤ d then some (d - 16) else none
             seq := x.seq, value := v }
  { x with head := head, seq := x.seq + 1, pend := x.pend ++ [l] }

/-- One result landed (R173): a later-issued result that a named register holds stands. -/
def ScuCtx.land1 (x : ScuCtx) (l : Landing) : ScuCtx :=
  let x := { x with slots := x.slots.set 0 l.slot l.value }
  match l.named with
  | none => x
  | some r =>
    if l.seq + 1 < x.seqs.get 0 r then x
    else { x with named := x.named.set 0 r l.value, seqs := x.seqs.set 0 r (l.seq + 1) }

/-- The results that are due, landed in issue order. -/
def ScuCtx.land (x : ScuCtx) (now : Nat) : ScuCtx :=
  let due := x.pend.filter fun l => decide (l.due ≤ now)
  due.foldl ScuCtx.land1 { x with pend := x.pend.filter fun l => !decide (l.due ≤ now) }

/-- The SCU context of the step. -/
def State.scu (s : State) : ScuCtx := s.me.ctx s.cur.fw

/-- The state with that context changed. -/
def State.onScu (s : State) (f : ScuCtx → ScuCtx) : State :=
  s.onMe fun c => c.setCtx s.cur.fw (f (c.ctx s.cur.fw))

/-- The value of an operand code. -/
def State.operand (s : State) (code : Nat) : Word := s.scu.operand code

/-- The state after a result has been pushed that lands `lat` ticks on. -/
def State.push (s : State) (d lat : Nat) (v : Word) : State :=
  s.onScu fun x => x.push d (s.gtc + lat) v

/-- What comes of an instruction that reads the operand codes `cs` (R95, R176, R181): an early
read faults under CHECK, the firmware context waits, else the old values are read. -/
def State.reading (s : State) (cs : List Nat) (k : Eff) : Eff :=
  if cs.any s.scu.pending then
    if s.cur.fw then .device
    else if (s.hdrOf s.cur.core).check then .fault 2 0 0
    else k
  else k

/-! ## Coordinate registers -/

/-- A coordinate register of engine `e` of core `c`. -/
def Core.coord (c : Core) (e r : Nat) : Coord := c.coords.get Coord.zero (16 * e + r)

/-- The core with that register at `v`. -/
def Core.setCoord (c : Core) (e r : Nat) (v : Coord) : Core :=
  { c with coords := c.coords.set Coord.zero (16 * e + r) v }

/-- Coordinate register `r` of the engine of the step. -/
def State.coord (s : State) (r : Nat) : Coord := s.me.coord (engIdx s.cur.eng) r

/-- The state with it at `v`. -/
def State.setCoord (s : State) (r : Nat) (v : Coord) : State :=
  s.onMe fun c => c.setCoord (engIdx s.cur.eng) r v

/-- Component `k` of a register. -/
def Coord.get (c : Coord) (k : Nat) : BitVec 24 :=
  match k with
  | 0 => c.x
  | 1 => c.y
  | 2 => c.z
  | _ => c.w

/-- A register whose component `k` is `f k` where bit `k` of the mask is set (R105). -/
def Coord.update (c : Coord) (mask : Nat) (f : Nat → BitVec 24) : Coord :=
  { x := if bit mask 0 then f 0 else c.x
    y := if bit mask 1 then f 1 else c.y
    z := if bit mask 2 then f 2 else c.z
    w := if bit mask 3 then f 3 else c.w }

/-- The component of a register as a signed integer. -/
def Coord.int (c : Coord) (k : Nat) : Int := (c.get k).toInt

end Sys2Proof.Machine
end

