-- ==== Sys2Proof/Machine/Flags.lean ====
section
/-!
DEFINITION. Conditions of the SCU (Table 8.7), its division and the sticky flag DZ (R183).
-/

namespace Sys2Proof.Machine

/-- Whether a condition of Table 8.7 holds between two values. -/
def condHolds (cond : Nat) (x y : Word) : Bool :=
  match cond with
  | 0 => x == y
  | 1 => x != y
  | 2 => x.slt y
  | 3 => y.sle x
  | 4 => x.ult y
  | 5 => y.ule x
  | 6 => y.slt x
  | 7 => x.sle y
  | 8 => y.ult x
  | _ => x.ule y

/-- The quotient of DIV (R183). -/
def quotient (unsigned : Bool) (x y : Word) : Word :=
  if unsigned then (if y = 0 then BitVec.allOnes 64 else x.udiv y)
  else if y = 0 then BitVec.allOnes 64 else BitVec.ofInt 64 (x.toInt.tdiv y.toInt)

/-- The remainder of REM (R183). -/
def remainder (unsigned : Bool) (x y : Word) : Word :=
  if y = 0 then x
  else if unsigned then x.umod y
  else BitVec.ofInt 64 (x.toInt - y.toInt * x.toInt.tdiv y.toInt)

/-- DZ is set at issue by a division by zero (R183). -/
def State.markDz (s : State) (y : Word) : State :=
  if y = 0 then s.onMe fun c => { c with dz := true } else s

/-- The low bit of the truth value of a comparison. -/
def truth (b : Bool) : Word := if b then 1 else 0

end Sys2Proof.Machine
end

