-- ==== Sys2Proof/Machine/Common.lean ====
section
/-!
DEFINITION. The common stream group (05, R96 to R108): NOP, AT, END, LOOP, ENDL, the coordinate
instructions, MARK and FENCE.
-/

namespace Sys2Proof.Machine

/-! ## NOP and AT -/

/-- NOP changes nothing; its gives are performed one tick later (R97). -/
def execNop (h : Hdr) (s : State) : Out := .next (s.issue h fun s => .done s 1)

/-- Whether an AT at the program counter may govern what follows it (R98): there is such an
instruction, it is no AT, and no loop body, of LOOP or of VLOOP, ends between the two. -/
def State.atLegal (s : State) (h : Hdr) : Bool :=
  let t := s.myStream
  let next := t.pc + h.n
  t.at?.isNone && decide (next < t.len)
    && (match t.loops with
        | [] => true
        | l :: _ => l.stop + 1 != next)
    && (match (if s.cur.eng = .vxe then s.me.vxeS.vloop else none) with
        | none => true
        | some v => v.stop + 1 != next)

/-- An AT is taken up as the prefix of the next instruction: it takes no issue tick (R98). -/
def State.prefixAt (s : State) (h : Hdr) (stamp : Nat) (lax : Bool) : State :=
  if !s.canIssue then s
  else if s.atLegal h then
    s.onStream fun t =>
      { t with at? := some { pc := t.pc, stamp := stamp, lax := lax, wp := h.wp, wn := h.wn
                             gp := h.gp, gn := h.gn }
               pc := t.pc + h.n }
  else s.raise 1 0 0

/-- AT (R98). -/
def execAtStamp (h : Hdr) (stamp : Nat) (s : State) : Out := .next (s.prefixAt h stamp false)

/-- AT.LAX (R98). -/
def execAtLax (h : Hdr) (stamp : Nat) (s : State) : Out := .next (s.prefixAt h stamp true)

/-! ## END -/

/-- The closing leaf of the VXE's open segment (R339): `res` is the result digest with its image,
`atEnd` tells END from a store. The segment that follows is empty. -/
def State.closeSegment (s : State) (res : Image) (atEnd : Bool) (fmt : Nat) : State :=
  let p := s.cur.core
  let g := s.me.vxeS.seg
  let sidx := s.myStream.sidx
  let reads := g.reads.flatMap digBytes
  let wbytes := g.words.flatMap (leBytes 4)
  let im0 : Image := { role := 0, fmt := 0x01, blk := 0, ext := [reads.length, 1, 1, 1]
                       bytes := reads, heads := g.rheads }
  let im1 : Image := { role := 1, fmt := 0x01, blk := 0, ext := [wbytes.length, 1, 1, 1]
                       bytes := wbytes, heads := g.wheads }
  let body : LeafBody :=
    { kind := 6, nmode := s.me.vxeS.vxctl.toNat % 32
      opd0 := if g.blocks = 0 then none else some im0.digest
      opd1 := some im1.digest, opd2 := some g.snap
      res := some (imageDigest fmt res.bytes)
      extra := g.issues % 2 ^ 32 + g.blocks % 2 ^ 16 * 2 ^ 32 + b2n atEnd * 2 ^ 48 }
  let s := s.sameSegment Segment.empty
  let s := s.onStream Stream.formLeaf
  let im2 : Image := { role := 2, fmt := 0x01, blk := 0, ext := [g.snapIm.length, 1, 1, 1], bytes := g.snapIm }
  s.leaf p 3 sidx s.cur.words body
    (im1 :: (if g.snapIm = [] then [] else [im2]) ++ g.ims ++ [{ res with fmt := fmt }])

/-- END stops the stream once the gives of every earlier instruction have been performed, and
discards the loop levels (R101). In the firmware context it is an illegal encoding. -/
def execEndStream (h : Hdr) (s : State) : Out :=
  .next (s.issue h fun s =>
    if s.cur.fw then .fault 1 0 0
    else if s.myStream.gives ≠ [] ∨ (s.cur.eng = .scu ∧ s.me.stores ≠ []) then .hold s
    else if s.cur.eng = .vxe ∧ 16 ≤ s.myStream.form.length then .device
    else
      let s := if s.cur.eng = .vxe then
          let snap := s.snapshot s.cur.core
          let s := s.closeSegment { role := 3, fmt := 0x01, blk := 0, ext := [snap.length, 1, 1, 1]
                                    bytes := snap } true 0x01
          s.onMe fun c => { c with vxeS := { c.vxeS with vloop := none } }
        else s
      .done (s.onStream fun t => { t with ended := true, loops := [] }) 0)

/-! ## LOOP and ENDL -/

/-- Whether whole instructions from word `k` up reach word `e` exactly. -/
def State.bodyReaches (s : State) (e : Nat) : Nat → Nat → Bool
  | 0, _ => false
  | fuel + 1, k =>
    if k = e then true
    else if e < k then false
    else match s.fetchWord k with
      | .words ws => s.bodyReaches e fuel (k + lenOf (ws.getD 0 0))
      | _ => false

/-- Whether the word at `e` is a one-word ENDL. -/
def State.isEndl (s : State) (e : Nat) : Bool :=
  match s.fetchWord e with
  | .words ws => bits (ws.getD 0 0) 25 20 == 0x04 && bits (ws.getD 0 0) 27 26 == 0
  | _ => false

/-- Whether a LOOP with body end `e` may open a level (R102, R337). -/
def State.loopLegal (s : State) (first e : Nat) : Bool :=
  let t := s.myStream
  decide (t.loops.length < 4) && decide (e < t.len) && s.isEndl e
    && s.bodyReaches e (e - first + 1) first
    && (match t.loops with
        | [] => true
        | l :: _ => decide (e < l.stop))
    && (if s.cur.eng = .vxe then
          match s.me.vxeS.vloop with
          | none => true
          | some v => decide (e ≤ v.stop)
        else true)

/-- The count of a LOOP or VLOOP, read at issue (R102, R337). -/
def State.loopCount (s : State) (c : LoopCount) : Int :=
  match c with
  | .imm n => n
  | .coord r k => (s.coord r).int k
  | .operand code => (s.operand code).toInt

/-- The operand codes a count reads. -/
def LoopCount.codes (c : LoopCount) : List Nat :=
  match c with
  | .imm _ => []
  | .coord _ _ => []
  | .operand code => [code]

/-- LOOP opens a level, or skips its body for a count of zero or less (R102). -/
def execLoop (h : Hdr) (body : Nat) (count : LoopCount) (s : State) : Out :=
  .next (s.issue h fun s =>
    let first := s.myStream.pc + h.n
    let e := first + body - 1
    if !s.loopLegal first e then .fault 1 0 0
    else
      let n := s.loopCount count
      s.reading (LoopCount.codes count) <|
        if 2 ^ 28 - 1 < n then .fault 4 0 0
        else if n ≤ 0 then .jump s 1 (e + 1) 1
        else
          .done (s.onStream fun t =>
            { t with loops := { start := first, stop := e, count := n.toNat } :: t.loops }) 1)

/-- ENDL goes back to the body's start, or closes the innermost level (R103). -/
def execEndl (h : Hdr) (s : State) : Out :=
  .next (s.issue h fun s =>
    match s.myStream.loops with
    | [] => .fault 1 0 0
    | l :: ls =>
      if l.stop ≠ s.myStream.pc then .fault 1 0 0
      else
        let n := l.count - 1
        if 0 < n then
          .jump (s.onStream fun t => { t with loops := { l with count := n } :: ls }) 1 l.start 1
        else .done (s.onStream fun t => { t with loops := ls }) 1)

/-! ## Coordinate registers (R105, R106) -/

/-- A coordinate instruction whose component `k` becomes `f k`. -/
def coordOp (h : Hdr) (cd mask : Nat) (f : Coord → Nat → BitVec 24) (s : State) : State :=
  s.issue h fun s =>
    let c := s.coord cd
    .done (s.setCoord cd (c.update mask (f c))) 1

/-- CSET with an immediate. -/
def execCsetImm (h : Hdr) (cd mask imm : Nat) (s : State) : Out :=
  .next (coordOp h cd mask (fun _ _ => BitVec.ofNat 24 imm) s)

/-- CSET from a register. -/
def execCsetReg (h : Hdr) (cd mask ca : Nat) (s : State) : Out :=
  .next (coordOp h cd mask (fun _ k => (s.coord ca).get k) s)

/-- CADD of an immediate, wrapping at 24 bits. -/
def execCaddImm (h : Hdr) (cd mask imm : Nat) (s : State) : Out :=
  .next (coordOp h cd mask (fun c k => c.get k + BitVec.ofNat 24 imm) s)

/-- CADD of a register, wrapping at 24 bits. -/
def execCaddReg (h : Hdr) (cd mask ca : Nat) (s : State) : Out :=
  .next (coordOp h cd mask (fun c k => c.get k + (s.coord ca).get k) s)

/-- A component reduced modulo a positive number (R8, R105). -/
def modulo (x m : BitVec 24) : BitVec 24 := BitVec.ofInt 24 (x.toInt % m.toInt)

/-- CMOD by an immediate. -/
def execCmodImm (h : Hdr) (cd mask imm : Nat) (s : State) : Out :=
  .next (coordOp h cd mask (fun c k => modulo (c.get k) (BitVec.ofNat 24 imm)) s)

/-- CMOD by a register: a selected component that is zero or less raises bounds (R105). -/
def execCmodReg (h : Hdr) (cd mask ca : Nat) (s : State) : Out :=
  .next (s.issue h fun s =>
    let a := s.coord ca
    if (List.range 4).any fun k => bit mask k && decide ((a.get k).toInt ≤ 0) then .fault 4 0 0
    else
      let c := s.coord cd
      .done (s.setCoord cd (c.update mask fun k => modulo (c.get k) (a.get k))) 1)

/-- A 32-bit word of the argument block as a signed integer. -/
def State.argWord (s : State) (off : Nat) : Int :=
  match s.taskOf s.cur.core with
  | none => 0
  | some t => (BitVec.ofNat 32 (leNat ((t.args.drop off).take 4))).toInt

/-- CLDP loads selected components from the argument block (R106). -/
def execCldp (h : Hdr) (cd mask off : Nat) (s : State) : Out :=
  .next (s.issue h fun s =>
    let len := (s.hdrOf s.cur.core).arglen
    let bad (k : Nat) : Bool :=
      bit mask k && (decide (len ≤ 4 * (off + k) + 3)
        || decide (s.argWord (4 * (off + k)) < -(2 ^ 23)) || decide (2 ^ 23 ≤ s.argWord (4 * (off + k))))
    if (List.range 4).any bad then .fault 4 0 0
    else
      let c := s.coord cd
      .done (s.setCoord cd (c.update mask fun k => BitVec.ofInt 24 (s.argWord (4 * (off + k))))) 1)

/-! ## MARK and FENCE (R67 to R70, R107, R108) -/

/-- The bytes that an effect of a matrix instruction writes. -/
def MxeWrite.stored (w : MxeWrite) : List (Nat × Nat × Nat) :=
  match w with
  | .bytes bs => bs
  | _ => []

/-- A byte whose nibbles `m` (1 low, 2 high) take those of `v`. -/
def withNibbles (old v m : Nat) : Nat :=
  (if bit m 0 then v % 16 else old % 16) + (if bit m 1 then v / 16 * 16 else old / 16 * 16)

/-- The memory writes of one instruction performed. -/
def State.writeNibbles (s : State) (bs : List (Nat × Nat × Nat)) : State :=
  if bs = [] then s
  else s.write (bs.map fun e => (e.1, BitVec.ofNat 8 (withNibbles (s.byte e.1).toNat e.2.1 e.2.2)))

/-- A matrix instruction in progress that has no bytes left to write where `sel` holds. -/
def MxeOp.without (sel : Nat → Bool) (o : MxeOp) : MxeOp :=
  { o with effect := o.effect.map fun w => match w with
      | .bytes bs => .bytes (bs.filter fun e => !sel e.1)
      | w => w }

/-- The writes of the matrix instructions in progress on core `p` below stream index `k`, of the bytes that `sel`
names, performed ahead of their completion (R62, R67). -/
def State.landBytes (s : State) (p k : Nat) (sel : Nat → Bool) : State :=
  let ops := (s.core p).mxeS.flight.filter fun o => decide (o.sidx < k) && o.effect.any MxeWrite.stores
  if ops = [] then s
  else (ops.foldl (fun s o => s.writeNibbles ((o.effect.flatMap MxeWrite.stored).filter fun e => sel e.1)) s).onCore p
    fun c => { c with mxeS := { c.mxeS with
      flight := c.mxeS.flight.map fun o => if o.sidx < k then o.without sel else o } }

/-- MARK: in a copy engine no later command begins before every earlier one has completed; in the matrix
engine what earlier instructions have yet to write is written first, so that no later access begins before
it; the SCU and the vector engine perform their accesses in order (R67, R68). -/
def execMark (h : Hdr) (s : State) : Out :=
  .next (s.issue h fun s =>
    let k := s.myStream.sidx
    .done (match s.cur.eng with
      | .lce => s.onMe fun c => { c with lceS := { c.lceS with mark := k } }
      | .sce => s.onMe fun c => { c with sceS := { c.sceS with mark := k } }
      | .mxe => s.landBytes s.cur.core k fun _ => true
      | _ => s) 1)

/-- Whether every fabric write that the step's stream covers has been acknowledged, those that went into the
fabric cache and those of other cores included (R69, R72, R80, R82); `h` is the instruction that asks,
whose own waits count. -/
def State.acked (s : State) (h : Hdr) : Bool :=
  let t := (s.consume h).myStream
  let covered := if s.cur.eng = .sce then t.sidx else t.clk.idx.getD 4 0
  !s.me.unacked covered && s.farAcked t.clk

/-- Whether every access of the step's engine has been performed short of the fabric: copy
commands and matrix instructions have completed. -/
def State.quiet (s : State) : Bool :=
  match s.cur.eng with
  | .lce => !s.me.lceS.slots.any fun x => x.phase != .done
  | .sce => !s.me.sceS.slots.any fun x => x.phase != .done
  | .mxe => s.me.mxeS.flight.isEmpty
  | .scu => s.cur.fw || s.me.stores.isEmpty
  | .vxe => true

/-- The scope at which a module orders: on EM-3216-S, POD acts as MOD (R14, R108, R197). -/
def State.scopeHere (s : State) (scope : Nat) : Nat := if s.board.single && scope == 4 then 3 else scope

/-- FENCE holds issue until its covered set is performed at the scope (R70, R108). -/
def execFence (h : Hdr) (scope : Nat) (s : State) : Out :=
  .next (s.issue h fun s =>
    if s.quiet && (decide (s.scopeHere scope < 4) || s.acked h) then .done s 1 else .hold s)

end Sys2Proof.Machine
end

