-- ==== Sys2Proof/Machine/Port.lean ====
section
/-!
DEFINITION. The port unit: descriptors, their validity, the checks of an access, and the address
of every element (06, R115 to R124).
-/

namespace Sys2Proof.Machine

/-! ## Descriptors (Tables 6.1, 6.2) -/

/-- A descriptor, field by field; `dim` and `tile` list four extents, `stride` the four strides. -/
structure Desc where
  v      : Bool
  cons   : Nat
  prod   : Nat
  space  : Nat
  nsm1   : Nat
  layout : Nat
  fmt    : Nat
  rank   : Nat
  ndc    : Bool
  qwin   : Bool
  qpos   : Nat
  peer   : Nat
  wr     : Nat
  rd     : Nat
  dim    : List Nat
  tile   : List Nat
  stride : List Nat
  xmask  : Nat
  rot    : Nat
  blk    : Nat
  stid   : Nat
  spitch : Nat
  base   : Nat
deriving DecidableEq, Repr

/-- The 32-bit word at byte offset `o` of a descriptor. -/
def descWord (b : BitVec 512) (o : Nat) : Nat := b.toNat / 2 ^ (8 * o) % 2 ^ 32

/-- The fields of a descriptor (Table 6.1). -/
def Desc.of (b : BitVec 512) : Desc :=
  let w0 := descWord b 0
  let w1 := descWord b 4
  let t0 := descWord b 0x18
  let t1 := descWord b 0x1C
  let p := descWord b 0x2C
  let k := descWord b 0x30
  { v := bit w0 24, cons := bits w0 23 21, prod := bits w0 20 18, space := bits w0 17 15
    nsm1 := bits w0 14 11, layout := bits w0 10 9, fmt := bits w0 7 0
    rank := bits w1 24 23 + 1, ndc := bit w1 22, qwin := bit w1 21, qpos := bits w1 20 19
    peer := bits w1 18 10, wr := bits w1 9 5, rd := bits w1 4 0
    dim := (List.range 4).map fun i => bits (descWord b (8 + 4 * i)) 23 0
    tile := [bits t0 15 0, bits t0 31 16, bits t1 15 0, bits t1 31 16]
    stride := [1, descWord b 0x20, descWord b 0x24, descWord b 0x28]
    xmask := bits p 11 8, rot := bits p 5 0, blk := bits k 9 8, stid := bits k 7 0
    spitch := descWord b 0x34, base := b.toNat / 2 ^ 448 }

/-- Whether every reserved field of a descriptor is zero. -/
def Desc.reservedZero (b : BitVec 512) : Bool :=
  bits (descWord b 0) 31 25 == 0 && !bit (descWord b 0) 8 && bits (descWord b 4) 31 25 == 0
    && ((List.range 4).all fun i => bits (descWord b (8 + 4 * i)) 31 24 == 0)
    && bits (descWord b 0x2C) 31 12 == 0 && bits (descWord b 0x2C) 7 6 == 0
    && bits (descWord b 0x30) 31 10 == 0

/-- Element `i` of a list of extents. -/
def nth (xs : List Nat) (i : Nat) : Nat := xs.getD i 0

/-- The product of a list. -/
def product (xs : List Nat) : Nat := xs.foldl (· * ·) 1

/-- Elements per scale block (R120). -/
def blkSize (code : Nat) : Nat :=
  match code with
  | 0 => 0
  | 1 => 16
  | 2 => 32
  | _ => 64

/-- The byte span of one block with this tensor's dimensions and strides (R116, R189). -/
def Desc.span (d : Desc) : Nat :=
  let n := 1 + ((List.range 4).map fun i => (nth d.dim i - 1) * nth d.stride i).sum
  (esize d.fmt * n + 7) / 8

/-- Whether a space is translated: HBM, DDR and HOST (Table 6.2). -/
def Desc.translated (d : Desc) : Bool := d.space == 3 || d.space == 4 || d.space == 6

/-- The conditions of Table 6.3 on a descriptor, given its words and that of its scale tensor. -/
def Desc.valid (b : BitVec 512) (scale : BitVec 512) : Bool :=
  let d := Desc.of b
  let sc := Desc.of scale
  fmtOk d.fmt && d.space != 7 && d.layout != 3 && Desc.reservedZero b
    && ((List.range 4).all fun i =>
      (if i < d.rank then decide (1 ≤ nth d.dim i) && decide (1 ≤ nth d.tile i)
        else nth d.dim i == 1 && nth d.tile i == 1))
    && decide (esize d.fmt * product d.tile ≤ 8 * 2 ^ 20)
    && (esize d.fmt != 4 || ([1, 2, 3].all fun i => nth d.stride i % 2 == 0))
    && (d.fmt != fmtQX4 || (nth d.dim 0 % 32 == 0 && nth d.tile 0 % 32 == 0
        && ([1, 2, 3].all fun i => nth d.stride i % 32 == 0) && d.blk == 2))
    && (if d.blk = 0 then d.stid == 0
        else sc.v && sc.fmt == fmtE8M0 && sc.blk == 0 && nth d.dim 0 % blkSize d.blk == 0
          && nth sc.dim 0 == nth d.dim 0 / blkSize d.blk
          && ([1, 2, 3].all fun i => nth sc.dim i == nth d.dim i))
    && (match d.layout with
        | 0 => d.spitch == 0 && d.nsm1 == 0 && d.prod == 0 && d.cons == 0
        | 1 => ([1, 2, 3].all fun i => nth d.stride i == 0) && d.spitch == 0 && d.base % 128 == 0
            && d.nsm1 == 0 && d.prod == 0 && d.cons == 0
        | _ => decide (1 ≤ d.nsm1) && d.prod != d.cons && decide (d.prod ≤ 4) && decide (d.cons ≤ 4)
            && d.base % 64 == 0 && d.spitch % 64 == 0 && decide (d.span ≤ d.spitch))
    && (d.space != 1 || (d.fmt == fmtACC && decide (d.rank ≤ 2) && d.layout == 0
        && decide (nth d.dim 0 ≤ 128) && nth d.stride 1 == 128 && d.base % 1024 == 0
        && decide (d.base / 1024 + nth d.dim 1 ≤ 1024)))
    && (d.fmt != fmtACC || d.space == 1)
    && ((d.xmask == 0 && d.rot == 0) || (d.space == 0 && d.base % 64 == 0))
    && decide (d.rot ≤ 47)
    && (d.peer == 0 || d.space == 5)
    && ((!d.qwin && d.qpos == 0) || d.space == 0) && (d.qwin || d.qpos == 0)
    && (!(d.translated || d.space == 5) || decide (d.base < 2 ^ 52))

/-- The descriptor of tensor `t` of a core. -/
def Core.desc (c : Core) (t : Nat) : Desc := Desc.of (c.descs.get 0 t)

/-! ## Which engine reaches which space (Table 4.1) -/

/-- Whether engine `e` reaches a tensor's space, for writing or for reading. -/
def Desc.reached (d : Desc) (e : Nat) (write : Bool) : Bool :=
  match d.space with
  | 0 => -- own scratchpad, or the quad window
    if e = 1 then write && !d.qwin
    else if e = 4 then !write
    else true
  | 1 => e == 2 || (e == 3 && !write) || (e == 1 && write)
  | 2 => if write then e == 1 else e != 4
  | 7 => false
  | _ => (e == 1 && !write) || (e == 4 && write)

/-! ## Accesses -/

/-- An access to a tensor: the circular slot, the origin and the extents (R118). -/
structure Access where
  d      : Desc
  slot   : Nat
  origin : List Int
  ext    : List Nat
deriving DecidableEq, Repr

/-- The origin that a coordinate register names. -/
def Coord.origin (c : Coord) : List Int := [c.int 0, c.int 1, c.int 2, c.int 3]

/-- An access with some extent zero (R118). -/
def Access.empty (a : Access) : Bool := a.ext.any (· == 0)

/-- The number of elements. -/
def Access.count (a : Access) : Nat := product a.ext

/-- The coordinates of element `i` in logical row-major order, dimension 0 fastest (R351). -/
def Access.coords (a : Access) (i : Nat) : List Nat :=
  let e := a.ext
  let x (k : Nat) (j : Nat) : Nat := ((a.origin.getD k 0).toNat + j)
  [x 0 (i % nth e 0), x 1 (i / nth e 0 % nth e 1), x 2 (i / (nth e 0 * nth e 1) % nth e 2)
   , x 3 (i / (nth e 0 * nth e 1 * nth e 2) % nth e 3)]

/-- The offset in bits of the element at given coordinates, from the space's origin or as a
device virtual address (R119). -/
def Desc.bitOff (d : Desc) (slot : Nat) (x : List Nat) : Nat :=
  let es := esize d.fmt
  let lin (u : List Nat) (s : List Nat) : Nat := ((List.range 4).map fun i => nth u i * nth s i).sum
  match d.layout with
  | 1 =>
    let t := (List.range 4).map fun i => nth x i / nth d.tile i
    let u := (List.range 4).map fun i => nth x i % nth d.tile i
    let n := (List.range 4).map fun i => (nth d.dim i + nth d.tile i - 1) / nth d.tile i
    let tb := 128 * ((es * product d.tile + 1023) / 1024)
    let tl := nth t 0 + nth n 0 * (nth t 1 + nth n 1 * (nth t 2 + nth n 2 * nth t 3))
    let eoff := nth u 0 + nth d.tile 0 * (nth u 1 + nth d.tile 1 * (nth u 2 + nth d.tile 2 * nth u 3))
    8 * (d.base + tb * tl) + es * eoff
  | 2 => 8 * (d.base + slot * d.spitch) + es * lin x d.stride
  | _ => 8 * d.base + es * lin x d.stride

/-- The physical byte offset in a scratchpad of the byte at `off` (R124). -/
def Desc.permute (d : Desc) (off : Nat) : Nat :=
  if d.xmask = 0 ∧ d.rot = 0 then off
  else
    let l := (off - d.base) / 64
    let g := l / 48
    let i := l % 48
    let lo := Nat.xor (i % 16) (Nat.land d.xmask (g % 16))
    let perm := (16 * (i / 16) + lo + d.rot * g) % 48
    64 * (d.base / 64 + 48 * g + perm) + (off - d.base) % 64

/-- The physical core that an SPD tensor of core `p` reaches (R123). -/
def State.spdTarget (s : State) (p : Nat) (d : Desc) : Nat :=
  if d.qwin then s.quadCore p ((s.die (p / 32)).quadPos (p % 32) / 4 * 4 + d.qpos) else p

/-- Where a byte of an on-die tensor of core `p` lies in the flat memory. -/
def State.locate (s : State) (p : Nat) (d : Desc) (off : Nat) : Nat :=
  if d.space = 2 then celBase (p / 32) + off else spdBase (s.spdTarget p d) + d.permute off

/-- Whether a byte offset of an on-die tensor lies in the task's extent (Table 6.4, check 6): the
scratchpad extent, the quad window's target, the Cellar. -/
def State.inExtent (s : State) (p : Nat) (d : Desc) (off : Nat) : Bool :=
  match d.space with
  | 0 =>
    decide (d.permute off < 65536 * (s.hdrOf p).spd)
      && (!d.qwin || (decide ((s.taskOf p).any fun t => t.shape != 0)
        && (s.core (s.spdTarget p d)).task == (s.core p).task))
  | 2 => decide (off < 96 * 2 ^ 20)
  | _ => true

/-- What the checks of Table 6.4 say: nothing, or the status of a copy engine with the engine
fault of a core stream. -/
inductive Check where
  | ok
  | bad (status cause : Nat)
deriving DecidableEq, Repr

/-- Whether the origin and the extents lie in the tensor (check 4). -/
def Access.inBounds (a : Access) : Bool :=
  ((List.range 4).all fun i =>
    decide (0 ≤ a.origin.getD i 0) && decide (a.origin.getD i 0 + nth a.ext i ≤ nth a.d.dim i))
    && (a.d.fmt != fmtQX4 || (a.origin.getD 0 0 % 32 == 0 && nth a.ext 0 % 32 == 0))

/-- Whether every row of an ACC access lies in an allocated tile (check 5). -/
def Access.rowsAllocated (a : Access) (acct : Nat) : Bool :=
  decide (a.d.base / 1024 + (a.origin.getD 1 0).toNat + nth a.ext 1 ≤ 128 * acct)

/-- The byte offsets of an element: all bytes it touches. -/
def Desc.elemBytes (d : Desc) (bitOff : Nat) : List Nat :=
  (List.range ((esize d.fmt + 7) / 8)).map fun k => bitOff / 8 + k

/-- The bit offsets of an access's elements, in logical order. -/
def Access.bitOffs (a : Access) : List Nat :=
  (List.range a.count).map fun i => a.d.bitOff a.slot (a.coords i)

/-- Checks 1 to 3 of Table 6.4 for tensor `t` by engine `e`. -/
def Core.checkRights (c : Core) (e t : Nat) (write : Bool) : Check :=
  let d := c.desc t
  if !d.v then .bad 1 4
  else if !d.reached e write then .bad 1 4
  else if !bit (if write then d.wr else d.rd) e then .bad 3 4
  else .ok

/-- Checks 4 to 6 of Table 6.4 for a non-empty access (R118, R121). -/
def State.checkBounds (s : State) (p : Nat) (a : Access) : Check :=
  if a.empty then .ok
  else if !a.inBounds then .bad 2 4
  else if a.d.space = 1 ∧ !a.rowsAllocated (s.hdrOf p).acct then .bad 2 5
  else if (a.d.space == 0 || a.d.space == 2) && !a.bitOffs.all fun b =>
      (a.d.elemBytes b).all (s.inExtent p a.d) then .bad 2 4
  else .ok

/-- The scale access that goes with an access to a tensor with BLK ≠ 0 (R120). -/
def Core.scaleAccess (c : Core) (a : Access) : Option Access :=
  if a.d.blk = 0 then none
  else
    let b := blkSize a.d.blk
    let sd := c.desc a.d.stid
    let o := (a.origin.getD 0 0).toNat
    let n := if nth a.ext 0 = 0 then 0 else (o + nth a.ext 0 - 1) / b - o / b + 1
    some { d := sd, slot := 0, origin := ((o / b : Nat) : Int) :: a.origin.drop 1
           ext := n :: a.ext.drop 1 }

/-- The first check that fails. -/
def Check.andThen (x y : Check) : Check :=
  match x with
  | .ok => y
  | b => b

/-- All checks of Table 6.4 short of translation, those of the scales included. -/
def State.checkAccess (s : State) (p e t : Nat) (write : Bool) (a : Access) : Check :=
  let c := s.core p
  ((c.checkRights e t write).andThen (s.checkBounds p a)).andThen
    (match c.scaleAccess a with
      | none => .ok
      | some sa =>
        if a.empty || write then .ok
        else (c.checkRights e a.d.stid false).andThen (s.checkBounds p sa))

/-! ## Elements in on-die memory -/

/-- The code of an element from the bytes it touches and the nibble it lies in. -/
def elemOfBytes (fmt bitOff : Nat) (bs : List Byte) : Nat :=
  if esize fmt = 4 then leNat bs / 2 ^ (bitOff % 8) % 16 else leNat bs

/-- Where the bytes of an element lie in the flat memory. -/
def State.elemAddrs (s : State) (p : Nat) (d : Desc) (bitOff : Nat) : List Nat :=
  (d.elemBytes bitOff).map (s.locate p d)

/-- The flat addresses an access touches. -/
def State.addrs (s : State) (p : Nat) (a : Access) : List Nat :=
  a.bitOffs.flatMap (s.elemAddrs p a.d)

/-- The element codes of an on-die access, in logical order. -/
def State.elems (s : State) (p : Nat) (a : Access) : List Nat :=
  a.bitOffs.map fun b => elemOfBytes a.d.fmt b ((s.elemAddrs p a.d b).map s.byte)

/-- The bytes of an element code. -/
def elemBytesOf (fmt v : Nat) : List Byte := leBytes (esize fmt / 8) v

/-- Whether the element at a bit offset is the last one of an INT4 tensor with an odd element count: it fills
the high nibble of its byte with zero (R40). -/
def Desc.oddEnd (d : Desc) (bitOff : Nat) : Bool :=
  d.fmt == fmtInt4 && product d.dim % 2 == 1 && bitOff % 8 == 0
    && (List.range (d.nsm1 + 1)).any fun k => d.bitOff k (d.dim.map (· - 1)) == bitOff

/-- The cells that storing element codes writes; a 4-bit element keeps the other nibble of its
byte as the cells before it and the memory give it, but for one that ends its tensor. -/
def storeElems (d : Desc) (at' : Nat → Nat) (old : Nat → Byte) :
    List (Nat × Nat) → SMap Byte → SMap Byte
  | [], m => m
  | (b, v) :: es, m =>
    if esize d.fmt = 4 then
      let k := at' (b / 8)
      let o := (SMap.get (old k) m k).toNat
      let n := if d.oddEnd b then v % 16 else if b % 8 = 0 then o / 16 * 16 + v % 16 else o % 16 + v % 16 * 16
      storeElems d at' old es ((m.erase k).ins k (BitVec.ofNat 8 n))
    else
      let m := ((elemBytesOf d.fmt v).mapIdx fun i x => (at' (b / 8 + i), x)).foldl
        (fun m c => (m.erase c.1).ins c.1 c.2) m
      storeElems d at' old es m

/-- The cells that writing element codes to an on-die access changes. -/
def State.elemCells (s : State) (p : Nat) (a : Access) (vs : List Nat) : SMap Byte :=
  storeElems a.d (s.locate p a.d) s.byte (a.bitOffs.zip vs) []

/-- The canonical image of elements (R351): each in its storage format, 4-bit elements packed two
to a byte. -/
def packElems (fmt : Nat) (vs : List Nat) : List Byte :=
  if esize fmt = 4 then
    (pieces 2 vs.length vs).map fun p => BitVec.ofNat 8 (p.getD 0 0 % 16 + p.getD 1 0 % 16 * 16)
  else vs.flatMap (elemBytesOf fmt)

/-- The bytes of an image as element codes again. -/
def unpackElems (fmt : Nat) (n : Nat) (bs : List Byte) : List Nat :=
  if esize fmt = 4 then (bs.flatMap fun b => [b.toNat % 16, b.toNat / 16]).take n
  else (pieces (esize fmt / 8) n bs).map leNat

/-- The scale bytes of an on-die access, one for each block in logical order (R120, R351). -/
def State.scaleBytes (s : State) (p : Nat) (a : Access) : List Nat :=
  match (s.core p).scaleAccess a with
  | none => []
  | some sa => s.elems p sa

/-- The image of an on-die access (R351). -/
def State.imageOf (s : State) (p role : Nat) (a : Access) : Image :=
  { role := role, fmt := a.d.fmt, blk := a.d.blk, ext := a.ext
    bytes := if a.empty then []
      else packElems a.d.fmt (s.elems p a) ++ (s.scaleBytes p a).map (BitVec.ofNat 8 ·) }

/-- Whether an on-die access reads uncorrectable data. -/
def State.accessBad (s : State) (p : Nat) (a : Access) : Bool :=
  !a.empty && (s.anyBad (s.addrs p a)
    || match (s.core p).scaleAccess a with
       | none => false
       | some sa => s.anyBad (s.addrs p sa))

/-- The digest cache of core `p` after a read of tensor `t` (R126): a whole aligned tile of an
on-die tensor with NDC = 0 is entered with its lines and those of its scales, the least recently used of
256 entries leaves. -/
def State.cacheTile (s : State) (p t : Nat) (o : Coord) (a : Access) : State :=
  let aligned := (List.range 4).all fun i => (a.origin.getD i 0) % (nth a.d.tile i) == 0
  if a.d.ndc || !decide (a.d.space ≤ 2) || !aligned || a.ext != a.d.tile then s
  else
    let scales := match (s.core p).scaleAccess a with
      | none => []
      | some sa => s.addrs p sa
    let k := { tid := t, origin := o, slot := a.slot
               cells := ((s.addrs p a ++ scales).map (· / 64)).eraseDups }
    let ks := (s.dcache.get [] p).filter fun x => !(x.tid == t && x.origin == o && x.slot == a.slot)
    { s with dcache := s.dcache.set [] p ((k :: ks).take 256) }

/-- The cursor of a circular tensor (R31). -/
def Core.cursor (c : Core) (e t : Nat) : Nat := c.cursors.get 0 (256 * e + t)

/-- The access an instruction of the step's engine makes with tensor `t`, coordinate register
`r`, and the extents of the tile or those of an override of the first two (R118). -/
def State.access (s : State) (t r : Nat) (ext : Option Ext) : Access :=
  let d := s.me.desc t
  let e := engIdx s.cur.eng
  { d := d, slot := if d.layout = 2 then s.me.cursor e t else 0, origin := (s.coord r).origin
    ext := match ext with
      | none => d.tile
      | some x => [x.e0, x.e1, nth d.tile 2, nth d.tile 3] }

end Sys2Proof.Machine
end

