-- ==== Sys2Proof/Machine/ScuAlu.lean ====
section
/-!
DEFINITION. The integer arithmetic of the SCU (08, R182 to R187).
-/

namespace Sys2Proof.Machine

/-- An operation that reads the operand codes `cs`, and pushes what `f` computes, `lat` ticks on
(R171, R179). -/
def scuOp (h : Hdr) (d : Nat) (cs : List Nat) (lat : Nat) (f : State → Word) (s : State) : State :=
  s.issue h fun s => s.reading cs (.done (s.push d lat (f s)) lat)

/-- The shift count y[5:0]. -/
def shiftCount (y : Word) : Nat := y.toNat % 64

/-- SHI by KIND: left, logical right, arithmetic right. -/
def shiftBy (kind : Nat) (x : Word) (n : Nat) : Word :=
  match kind with
  | 0 => x <<< n
  | 1 => x >>> n
  | _ => x.sshiftRight n

/-- A 28-bit immediate, sign-extended (R186). -/
def imm28 (imm : Nat) : Word := BitVec.ofInt 64 (sext 28 imm)

/-- The constant of LI (R187): 28 bits in two words, 56 bits in three. -/
def liValue (n v : Nat) : Word := BitVec.ofInt 64 (sext (if n = 3 then 56 else 28) v)

/-- The high half of a product. -/
def mulHigh (unsigned : Bool) (x y : Word) : Word :=
  if unsigned then BitVec.ofNat 64 (x.toNat * y.toNat / 2 ^ 64)
  else BitVec.ofInt 64 (x.toInt * y.toInt / 2 ^ 64)

/-- The lesser of two values. -/
def minWord (unsigned : Bool) (x y : Word) : Word :=
  if (if unsigned then x.ule y else x.sle y) then x else y

/-- The greater of two values. -/
def maxWord (unsigned : Bool) (x y : Word) : Word :=
  if (if unsigned then x.ule y else x.sle y) then y else x

/-- The number of set bits. -/
def popCount (x : Word) : Nat := ((List.range 64).filter fun i => x.getLsbD i).length

/-- The number of trailing zero bits, 64 of zero. -/
def trailingZeros (x : Word) : Nat := ((List.range 64).takeWhile fun i => !x.getLsbD i).length

/-- The number of leading zero bits, 64 of zero. -/
def leadingZeros (x : Word) : Nat := ((List.range 64).takeWhile fun i => !x.getLsbD (63 - i)).length

/-- ADD pushes x + y modulo 2^64 (R182). -/
def execAdd (h : Hdr) (d a b : Nat) (s : State) : Out :=
  .next (scuOp h d [a, b] 1 (fun s => s.operand a + s.operand b) s)

/-- SUB pushes x - y modulo 2^64 (R182). -/
def execSub (h : Hdr) (d a b : Nat) (s : State) : Out :=
  .next (scuOp h d [a, b] 1 (fun s => s.operand a - s.operand b) s)

/-- AND (R182). -/
def execAndReg (h : Hdr) (d a b : Nat) (s : State) : Out :=
  .next (scuOp h d [a, b] 1 (fun s => s.operand a &&& s.operand b) s)

/-- OR (R182). -/
def execOrReg (h : Hdr) (d a b : Nat) (s : State) : Out :=
  .next (scuOp h d [a, b] 1 (fun s => s.operand a ||| s.operand b) s)

/-- XOR (R182). -/
def execXorReg (h : Hdr) (d a b : Nat) (s : State) : Out :=
  .next (scuOp h d [a, b] 1 (fun s => s.operand a ^^^ s.operand b) s)

/-- ANDN pushes x AND NOT y (R182). -/
def execAndn (h : Hdr) (d a b : Nat) (s : State) : Out :=
  .next (scuOp h d [a, b] 1 (fun s => s.operand a &&& ~~~(s.operand b)) s)

/-- SHL by y[5:0] (R182). -/
def execShl (h : Hdr) (d a b : Nat) (s : State) : Out :=
  .next (scuOp h d [a, b] 1 (fun s => s.operand a <<< shiftCount (s.operand b)) s)

/-- SHR by y[5:0], logical (R182). -/
def execShr (h : Hdr) (d a b : Nat) (s : State) : Out :=
  .next (scuOp h d [a, b] 1 (fun s => s.operand a >>> shiftCount (s.operand b)) s)

/-- SRA by y[5:0], arithmetic (R182). -/
def execSra (h : Hdr) (d a b : Nat) (s : State) : Out :=
  .next (scuOp h d [a, b] 1 (fun s => (s.operand a).sshiftRight (shiftCount (s.operand b))) s)

/-- MUL pushes the low 64 bits of the product (R182). -/
def execMul (h : Hdr) (d a b : Nat) (s : State) : Out :=
  .next (scuOp h d [a, b] 3 (fun s => s.operand a * s.operand b) s)

/-- POPC pushes the number of set bits (R185). -/
def execPopc (h : Hdr) (d a : Nat) (s : State) : Out :=
  .next (scuOp h d [a] 1 (fun s => BitVec.ofNat 64 (popCount (s.operand a))) s)

/-- ADDI adds a sign-extended immediate (R186). -/
def execAddi (h : Hdr) (d a imm : Nat) (s : State) : Out :=
  .next (scuOp h d [a] 1 (fun s => s.operand a + imm28 imm) s)

/-- ANDI (R186). -/
def execAndi (h : Hdr) (d a imm : Nat) (s : State) : Out :=
  .next (scuOp h d [a] 1 (fun s => s.operand a &&& imm28 imm) s)

/-- ORI (R186). -/
def execOri (h : Hdr) (d a imm : Nat) (s : State) : Out :=
  .next (scuOp h d [a] 1 (fun s => s.operand a ||| imm28 imm) s)

/-- XORI (R186). -/
def execXori (h : Hdr) (d a imm : Nat) (s : State) : Out :=
  .next (scuOp h d [a] 1 (fun s => s.operand a ^^^ imm28 imm) s)

/-- SHI shifts by a constant (R186). -/
def execShi (h : Hdr) (d a kind cnt : Nat) (s : State) : Out :=
  .next (scuOp h d [a] 1 (fun s => shiftBy kind (s.operand a) cnt) s)

/-- CMP pushes 1 when its condition holds, else 0 (R184). -/
def execCmp (h : Hdr) (d a b cond : Nat) (s : State) : Out :=
  .next (scuOp h d [a, b] 1 (fun s => truth (condHolds cond (s.operand a) (s.operand b))) s)

/-- CMPI compares with an immediate (R186). -/
def execCmpi (h : Hdr) (d a cond imm : Nat) (s : State) : Out :=
  .next (scuOp h d [a] 1 (fun s => truth (condHolds cond (s.operand a) (imm28 imm))) s)

/-- SEL pushes x when the selector is nonzero, else y (R185). -/
def execSel (h : Hdr) (d a b c : Nat) (s : State) : Out :=
  .next (scuOp h d [a, b, c] 1 (fun s => if s.operand c = 0 then s.operand b else s.operand a) s)

/-- LI pushes a constant of 28 or 56 bits (R187). -/
def execLi (h : Hdr) (d value : Nat) (s : State) : Out :=
  .next (scuOp h d [] 1 (fun _ => liValue h.n value) s)

/-- MULH pushes the high 64 bits of the product (R182). -/
def execMulh (h : Hdr) (d a b : Nat) (u : Bool) (s : State) : Out :=
  .next (scuOp h d [a, b] 3 (fun s => mulHigh u (s.operand a) (s.operand b)) s)

/-- MIN (R182). -/
def execMinReg (h : Hdr) (d a b : Nat) (u : Bool) (s : State) : Out :=
  .next (scuOp h d [a, b] 1 (fun s => minWord u (s.operand a) (s.operand b)) s)

/-- MAX (R182). -/
def execMaxReg (h : Hdr) (d a b : Nat) (u : Bool) (s : State) : Out :=
  .next (scuOp h d [a, b] 1 (fun s => maxWord u (s.operand a) (s.operand b)) s)

/-- CLZ counts leading zero bits, or with F trailing ones (R185). -/
def execClz (h : Hdr) (d a : Nat) (trailing : Bool) (s : State) : Out :=
  .next (scuOp h d [a] 1 (fun s =>
    BitVec.ofNat 64 (if trailing then trailingZeros (s.operand a) else leadingZeros (s.operand a))) s)

/-- DIV pushes the quotient; DZ is set at issue by a zero divisor (R183). -/
def execDiv (h : Hdr) (d a b : Nat) (u : Bool) (s : State) : Out :=
  .next (s.issue h fun s => s.reading [a, b]
    (.done ((s.markDz (s.operand b)).push d 14 (quotient u (s.operand a) (s.operand b))) 14))

/-- REM pushes the remainder; DZ is set at issue by a zero divisor (R183). -/
def execRem (h : Hdr) (d a b : Nat) (u : Bool) (s : State) : Out :=
  .next (s.issue h fun s => s.reading [a, b]
    (.done ((s.markDz (s.operand b)).push d 14 (remainder u (s.operand a) (s.operand b))) 14))

end Sys2Proof.Machine
end

