-- ==== Sys2Proof/Machine/ScuControl.lean ====
section
/-!
DEFINITION. Branches and calls, the station clock, TRAP, YIELD and the return from a firmware
event (08, R188, R195, R196, R206 to R208).
-/

namespace Sys2Proof.Machine

/-- The loop levels left by a taken branch: levels are popped until the target lies inside the
innermost one (R104). -/
def popLevels (target : Nat) : List LoopLevel → List LoopLevel
  | [] => []
  | l :: ls => if l.start ≤ target ∧ target ≤ l.stop then l :: ls else popLevels target ls

/-- A word offset plus a signed one; below zero it names no word of any code (R188). -/
def relative (pc off : Nat) : Nat := (BitVec.ofInt 64 ((pc : Int) + sext 28 off)).toNat

/-- A taken branch, with the levels it leaves: its target issues after at least three ticks
(R104, R179). -/
def State.branch (s : State) (target : Nat) : Eff :=
  .jump (s.onStream fun t => { t with loops := popLevels target t.loops }) 1 target 3

/-- BR branches when its condition holds (R188). -/
def execBr (h : Hdr) (cond a b off : Nat) (s : State) : Out :=
  .next (s.issue h fun s => s.reading [a, b] <|
    if condHolds cond (s.operand a) (s.operand b) then s.branch (relative s.myStream.pc off)
    else .done s 1)

/-- J by a relative offset (R188). -/
def execJump (h : Hdr) (off : Nat) (s : State) : Out :=
  .next (s.issue h fun s => s.branch (relative s.myStream.pc off))

/-- J to the offset a register holds (R188). -/
def execJumpReg (h : Hdr) (a : Nat) (s : State) : Out :=
  .next (s.issue h fun s => s.reading [a] (s.branch (s.operand a).toNat))

/-- The state after the return offset has been pushed (R188). -/
def State.pushReturn (s : State) (h : Hdr) (d : Nat) : State :=
  s.push d 1 (BitVec.ofNat 64 (s.myStream.pc + h.n))

/-- CALL by a relative offset: it pushes the offset of the word after itself, and neither pushes
nor pops a level (R104, R188). -/
def execCall (h : Hdr) (d off : Nat) (s : State) : Out :=
  .next (s.issue h fun s => .jump (s.pushReturn h d) 1 (relative s.myStream.pc off) 3)

/-- CALL to the offset a register holds. -/
def execCallReg (h : Hdr) (d a : Nat) (s : State) : Out :=
  .next (s.issue h fun s => s.reading [a] (.jump (s.pushReturn h d) 1 (s.operand a).toNat 3))

/-- RET branches to the offset a register holds (R188). -/
def execRet (h : Hdr) (a : Nat) (s : State) : Out :=
  .next (s.issue h fun s => s.reading [a] (s.branch (s.operand a).toNat))

/-- GTC pushes the context's station-clock view (R195). -/
def execGtc (h : Hdr) (d : Nat) (s : State) : Out :=
  .next (scuOp h d [] 1 (fun s => BitVec.ofNat 64 s.myView) s)

/-- The target of a WAITT, fixed at its issue (R196). -/
def State.waittTarget (s : State) (a : Nat) (rel : Bool) : Nat :=
  match s.myStream.hold with
  | .waitt t => t
  | _ => if rel then (s.myView + (s.operand a).toNat) % 2 ^ 64 else (s.operand a).toNat

/-- WAITT holds issue until the view reaches its target (R196). -/
def execWaitt (h : Hdr) (a : Nat) (rel : Bool) (s : State) : Out :=
  .next (s.issue h fun s =>
    let held := s.myStream.hold ≠ .none
    let go : Eff :=
      let t := s.waittTarget a rel
      if t ≤ s.myView + 1 then .done s 1 else .hold (s.onStream fun x => { x with hold := .waitt t })
    if held then go else s.reading [a] go)

/-- TRAP raises its engine fault; it does not retire (R206). -/
def execTrap (h : Hdr) (code : Nat) (s : State) : Out := .next (s.issue h fun _ => .fault 9 0 code)

/-- The earlier of two ticks, the first of which may be absent. -/
def earliest (a : Option Nat) (b : Nat) : Nat :=
  match a with
  | none => b
  | some t => min t b

/-- YIELD offers a pre-emption point: with a request pending and no live tile the SCU issues
nothing more, and the core's cut stands 16 ticks on (R207, R293). -/
def execYield (h : Hdr) (s : State) : Out :=
  .next (s.issue h fun s =>
    if !s.cur.fw && s.me.yreq && s.me.mxeS.live == 0 then
      .jump (s.onMe fun c => { c with cutAt := some (earliest c.cutAt (s.gtc + 16)), cutBy := 3 }) 1
        (s.myStream.pc + h.n) 17
    else .done s 1)

/-- The firmware context starts on the oldest event (R175): s0 to s3 take the event, the belt is
cleared, and the program counter is FWVEC. Results of the firmware context still in flight land later; of
those, none replaces the event record, which stands as the latest result of s0 to s3. -/
def Core.startEvent (c : Core) (now : Nat) : Core :=
  match c.fwq with
  | [] => { c with fwBusy := false }
  | ev :: q =>
    let waiting := c.fwWait.take 1
    let named := (((c.fw.named.set 0 0 (BitVec.ofNat 64 ev.kind)).set 0 1 ev.s1).set 0 2 ev.s2).set 0 3 ev.s3
    { c with
      fwq := q ++ waiting, fwWait := c.fwWait.drop 1
      fw := { c.fw with slots := [], named := named, seq := c.fw.seq + 1
                        seqs := (List.range 4).foldl (fun m r => m.set 0 r (c.fw.seq + 1)) c.fw.seqs }
      fws := { c.fws with pc := c.fwvec, loops := [], at? := none, atd := false, hold := .none
                          ended := false, ready := now + 1 }
      fwBusy := true }

/-- RETF ends the handling of an event; with F it returns from an engine fault, and the next
event, if any, is started (R208). In the user context it is privileged (R176). -/
def execRetf (h : Hdr) (f : Bool) (s : State) : Out :=
  .next (s.issue h fun s =>
    if !s.cur.fw then .fault 6 0 0
    else
      let s := if f && s.me.halted && s.me.fault.isNone then s.returnFault s.cur.core else s
      .raw (s.onMe fun c => c.startEvent s.gtc))

end Sys2Proof.Machine
end

