-- ==== Sys2Proof/Machine/ScuMem.lean ====
section
/-!
DEFINITION. The SCU's loads, stores and atomics (08, R189 to R193), and DGLEAF (R204, R361).
-/

namespace Sys2Proof.Machine

/-- Where the SCU's bytes lie: flat addresses, or a position in the argument block. -/
inductive ScuPlace where
  | mem (as : List Nat) (lat : Nat)
  | arg (off : Nat)
  | bad
deriving DecidableEq, Repr

/-- The bytes at offset `o` of tensor `t` for an access of the SCU (R189, R121): `lats` are the
latencies for the own scratchpad, the quad window and the Cellar. -/
def State.scuTensor (s : State) (t o size : Nat) (rd wr : Bool) (lats : Nat × Nat × Nat) : ScuPlace :=
  let p := s.cur.core
  let d := s.me.desc t
  let offs := (List.range size).map fun i => d.base + o + i
  if d.v && d.layout == 0 && (!rd || (d.reached 0 false && bit d.rd 0))
      && (!wr || (d.reached 0 true && bit d.wr 0)) && decide (d.space = 0 ∨ d.space = 2)
      && decide (o + size ≤ d.span) && offs.all (s.inExtent p d) then
    .mem (offs.map (s.locate p d))
      (if d.space = 2 then lats.2.2 else if d.qwin then lats.2.1 else lats.1)
  else .bad

/-- The effective offset value(A) + OFF (R189). -/
def State.scuOff (s : State) (a off : Nat) : Nat := (s.operand a + BitVec.ofNat 64 off).toNat

/-- The place of an access to the firmware RAM. -/
def State.fwPlace (s : State) (o size lat : Nat) : ScuPlace :=
  if o + size ≤ 65536 then .mem ((List.range size).map fun i => fwBase s.cur.core + o + i) lat
  else .bad

/-- The place an LD reads. -/
def State.ldPlace (s : State) (m : MemWord) (o size : Nat) : ScuPlace :=
  match m.sel with
  | 0 => s.scuTensor m.tid o size true false (6, 10, 14)
  | 1 => if o + size ≤ (s.hdrOf s.cur.core).arglen then .arg o else .bad
  | _ => s.fwPlace o size 3

/-- Bytes accessed: 4, 8 or 16. -/
def accessSize (kind : Nat) : Nat := 4 * 2 ^ kind

/-- Whether an address lies in the Cellar while its bank refreshes, so that the read waits
(R180, R232). -/
def State.refreshing (s : State) (as : List Nat) : Bool :=
  as.any fun a => decide (celBase 0 ≤ a) && decide (a < celBase 32)
    && decide (s.gtc < s.plat.cellarUntil.get 0 ((a - celBase 0) / 2 ^ 27))
    && (a - celBase 0) % 2 ^ 27 / 2048 % 64 == s.gtc % 16384 / 256

/-- How long such a read waits. -/
def State.refreshWait (s : State) (as : List Nat) : Nat :=
  match as.find? fun a => s.refreshing [a] with
  | none => 0
  | some a => s.plat.cellarUntil.get 0 ((a - celBase 0) / 2 ^ 27) - s.gtc

/-- How long a read of the engine of the step is delayed (R180, R305): by the refresh of the Cellar, and by
arbitration or the retry of a corrected error. -/
def State.readWait (s : State) (as : List Nat) : Nat := s.refreshWait as + s.me.stalls.get 0 (engIdx s.cur.eng)

/-- The state once a read has met the delay. -/
def State.unstall (s : State) : State := s.onMe fun c => { c with stalls := c.stalls.set 0 (engIdx s.cur.eng) 0 }

/-- Whether a releasing store of the user context waits in the write queue: no access that follows it in the
stream begins (R67, R193). -/
def State.storeWaits (s : State) : Bool := !s.cur.fw && !s.me.stores.isEmpty

/-- LD.W, LD.D and LD.Q of some bytes: the values pushed, in order (R171, R190). -/
def State.pushLoaded (s : State) (d lat kind : Nat) (f : Bool) (bs : List Byte) : State :=
  match kind with
  | 0 => s.push d lat (if f then BitVec.ofInt 64 (sext 32 (leNat bs)) else BitVec.ofNat 64 (leNat bs))
  | 1 => s.push d lat (BitVec.ofNat 64 (leNat bs))
  | _ =>
    let hi := BitVec.ofNat 64 (leNat (bs.drop 8))
    let lo := BitVec.ofNat 64 (leNat (bs.take 8))
    (s.push (if d = 0 then 0 else d + 1) lat hi).push d lat lo

/-- LD (R190). -/
def execLd (h : Hdr) (d a : Nat) (f : Bool) (m : MemWord) (s : State) : Out :=
  .next (s.issue h fun s =>
    if m.sel = 2 ∧ !s.cur.fw then .fault 6 0 0
    else s.reading [a] <|
      let size := accessSize m.kind
      match s.ldPlace m (s.scuOff a m.off) size with
      | .bad => .fault 4 0 0
      | .arg o =>
        let args := match s.taskOf s.cur.core with | none => [] | some t => t.args
        .late ((s.pushLoaded d 4 m.kind f ((List.range size).map fun i => args.getD (o + i) 0)).unstall) 4 (s.readWait [])
      | .mem as lat =>
        if s.anyBad as then .fault 10 0 0
        else if s.storeWaits then .hold s
        else .late (((if m.ord = 1 then s.acquire as m.scope else s).pushLoaded d lat m.kind f (as.map s.byte)).unstall)
          lat (s.readWait as))

/-- The data of an ST (R191). -/
def State.stData (s : State) (b kind : Nat) : List Byte :=
  match kind with
  | 0 => leBytes 4 (s.operand b).toNat
  | 1 => leBytes 8 (s.operand b).toNat
  | _ => leBytes 8 (s.operand b).toNat ++ leBytes 8 (s.operand (b + 1)).toNat

/-- The place an ST writes: a tensor in scratchpad, or the firmware RAM. The argument block is no
place of a store. -/
def State.stPlace (s : State) (m : MemWord) (o size : Nat) : ScuPlace :=
  match m.sel with
  | 0 => s.scuTensor m.tid o size false true (1, 1, 1)
  | 1 => .bad
  | _ => s.fwPlace o size 1

/-- Whether a release at a scope must wait for acknowledgements (R14, R80, R193). -/
def State.releaseWaits (s : State) (h : Hdr) (ord scope : Nat) : Bool :=
  decide (2 ≤ ord) && decide (s.scopeHere scope = 4) && !s.acked h

/-- What the instruction at hand covers of the program, its own waits included (R69). -/
def State.covers (s : State) (h : Hdr) : Clock := (s.consume h).myStream.clk

/-- The releases that a write with an order and a scope makes (R73, R193). -/
def State.releases (s : State) (h : Hdr) (ord scope : Nat) : List Release :=
  if 2 ≤ ord then s.releaseOf s.cur.core scope (s.covers h) else []

/-- A store enters the write queue to wait for what its release covers (R193). -/
def State.queueStore (s : State) (h : Hdr) (scope : Nat) (cells : List (Nat × Byte)) : State :=
  s.onMe fun c => { c with stores := c.stores ++
    [{ sidx := s.myStream.sidx, cells := cells, scope := scope, clk := s.covers h }] }

/-- Whether the oldest waiting store of core `p` has everything that it covers performed at its scope (R80). -/
def State.storeReady (s : State) (p : Nat) : Bool :=
  match (s.core p).stores with
  | [] => false
  | x :: _ => !(s.core p).unacked (x.clk.idx.getD 4 0) && s.farAcked x.clk

/-- The waiting stores of core `p` that are ready, performed in order (R193). -/
def State.performStores (s : State) (p : Nat) : Nat → State
  | 0 => s
  | fuel + 1 =>
    match (s.core p).stores with
    | [] => s
    | x :: xs =>
      if s.storeReady p then
        ((s.onCore p fun c => { c with stores := xs }).writeRel x.cells (s.releaseOf p x.scope x.clk)).performStores p fuel
      else s

/-- ST (R191). -/
def execSt (h : Hdr) (a b : Nat) (m : MemWord) (s : State) : Out :=
  .next (s.issue h fun s =>
    if m.sel = 2 ∧ !s.cur.fw then .fault 6 0 0
    else s.reading (a :: if m.kind = 2 then [b, b + 1] else [b]) <|
      match s.stPlace m (s.scuOff a m.off) (accessSize m.kind) with
      | .mem as lat =>
        let cells := as.zip (s.stData b m.kind)
        if s.storeWaits then .hold s
        else if s.releaseWaits h m.ord m.scope then .cmd (s.queueStore h m.scope cells)
        else .done (s.writeRel cells (s.releases h m.ord m.scope)) lat
      | _ => .fault 4 0 0)

/-- The new value of an atomic (R192). -/
def atmNew (aop : Nat) (u : Bool) (old y z : Word) : Word :=
  match aop with
  | 0 => old + y
  | 1 => minWord u old y
  | 2 => maxWord u old y
  | 3 => y
  | _ => if old = z then y else old

/-- The place an ATM acts on (R192). -/
def State.atmPlace (s : State) (m : MemWord) (o : Nat) : ScuPlace :=
  match m.sel with
  | 0 =>
    if (s.me.desc m.tid).space = 0 ∧ ((s.me.desc m.tid).base + o) % 8 = 0 then
      s.scuTensor m.tid o 8 true true (8, 12, 12)
    else .bad
  | _ => if o % 8 = 0 then s.fwPlace o 8 4 else .bad

/-- ATM: a read-modify-write that pushes the old value (R192). -/
def execAtm (h : Hdr) (d a b : Nat) (u : Bool) (m : MemWord) (z : Nat) (s : State) : Out :=
  .next (s.issue h fun s =>
    if m.sel = 2 ∧ !s.cur.fw then .fault 6 0 0
    else s.reading (a :: b :: if m.kind = 4 then [z] else []) <|
      match s.atmPlace m (s.scuOff a m.off) with
      | .mem as lat =>
        if s.anyBad as then .fault 10 0 0
        else if s.storeWaits || s.releaseWaits h m.ord m.scope then .hold s
        else
          let old := BitVec.ofNat 64 (leNat (as.map s.byte))
          let new := atmNew m.kind u old (s.operand b) (s.operand z)
          let t := if m.ord % 2 = 1 then s.acquire as m.scope else s
          .late (((t.writeRmw (as.zip (leBytes 8 new.toNat)) (s.releases h m.ord m.scope)).push d lat old).unstall)
            lat (s.readWait [])
      | _ => .fault 4 0 0)

/-- The image of some bytes as one INT8 tile. -/
def byteImage (role : Nat) (bs : List Byte) : Image :=
  { role := role, fmt := 0x01, blk := 0, ext := [bs.length, 1, 1, 1], bytes := bs }

/-- Whether sixteen leaves of the stream are in formation (R365). -/
def Stream.formFull (t : Stream) : Bool := decide (16 ≤ t.form.length)

/-- DGLEAF emits an EXPLICIT leaf over bytes of a tensor (R204, R361). -/
def execDgleaf (h : Hdr) (a b tag tid : Nat) (s : State) : Out :=
  .next (s.issue h fun s =>
    if s.cur.fw then .fault 1 0 0
    else s.reading [a, b] <|
      let n := (s.operand b).toNat
      if n = 0 ∨ 2 ^ 20 < n then .fault 4 0 0
      else match s.scuTensor tid (s.operand a).toNat n true false (1, 1, 1) with
        | .mem as _ =>
          if s.anyBad as then .fault 10 0 0
          else if s.myStream.formFull || s.refreshing as then .device
          else if s.storeWaits then .hold s
          else
            let im := byteImage 0 (as.map s.byte)
            let body : LeafBody := { kind := 8, nmode := 0, opd0 := some im.digest, opd1 := none
                                     opd2 := none, res := none, extra := tag }
            let sidx := s.myStream.sidx
            .done ((s.onStream Stream.formLeaf).leaf s.cur.core 0 sidx s.cur.words body [im]) 1
        | _ => .fault 4 0 0)

end Sys2Proof.Machine
end

