-- ==== Sys2Proof/Machine/ScuSys.lean ====
section
/-!
DEFINITION. Control registers, barriers and firmware events (08, R175, R176, R194, R197 to R201).
-/

namespace Sys2Proof.Machine

/-! ## Control registers (Table 8.11) -/

/-- The value GETC pushes. -/
def State.control (s : State) (n : Nat) : Word :=
  let c := s.me
  let h := s.hdrOf s.cur.core
  match n with
  | 0 => BitVec.ofNat 64 (b2n c.yreq * 2 + b2n c.dz)
  | 1 => BitVec.ofNat 64 (s.peerId * 2 ^ 32
      + (match s.taskOf s.cur.core with | none => 0 | some t => t.n) * 2 ^ 16 + c.vcore)
  | 2 =>
    match s.taskOf s.cur.core with
    | none => 0
    | some t => BitVec.ofNat 64 (t.asid * 2 ^ 32 + c.task.getD 0 % 2 ^ 32)
  | 3 => c.dgstall
  | 4 => BitVec.ofNat 64 (c.shown 0 + c.shown 1 * 2 ^ 6 + c.shown 8 * 2 ^ 12 + c.shown 9 * 2 ^ 18)
  | 5 => BitVec.ofNat 64 (h.valloc * 2 ^ 16 + h.acct * 2 ^ 8 + h.spd)
  | 16 => BitVec.ofNat 64 c.fwvec
  | 18 => s.mth
  | _ => BitVec.ofNat 64 c.fwq.length

/-- GETC pushes a control register; numbers from 16 up are privileged (R176, R194). -/
def execGetc (h : Hdr) (d creg : Nat) (s : State) : Out :=
  .next (s.issue h fun s =>
    if 16 ≤ creg ∧ !s.cur.fw then .fault 6 0 0 else .done (s.push d 1 (s.control creg)) 1)

/-- A paused command is let go on by its event (R132, R234). -/
def Cmd.retry (ev : Nat) (x : Cmd) : Cmd :=
  if x.phase = .paused ev then { x with phase := .running } else x

/-- A write of WRETRY: the command, or the front end's read, that waits for the event goes on; its
walk is repeated (R132, R234, R399). -/
def State.retryEvent (s : State) (ev : Nat) : State :=
  { s with
    walks := s.walks.filter fun w => w.event != ev
    cores := s.cores.map fun e => (e.1, { e.2 with
      lceS := { e.2.lceS with slots := e.2.lceS.slots.map (Cmd.retry ev) }
      sceS := { e.2.sceS with slots := e.2.sceS.slots.map (Cmd.retry ev) } })
    queues := s.queues.map fun e =>
      (e.1, if e.2.hold = some ev then { e.2 with hold := none } else e.2) }

/-- The effect of a SETC. -/
def State.setControl (s : State) (n : Nat) (v : Word) : State :=
  match n with
  | 0 => s.onMe fun c => { c with dz := v.getLsbD 0 }
  | 16 => s.onMe fun c => { c with fwvec := v.toNat % 2 ^ 14 }
  | 17 => s.retryEvent (v.toNat % 2 ^ 32)
  | _ => { s with mth := v }

/-- SETC writes a control register (R194). -/
def execSetc (h : Hdr) (creg b : Nat) (s : State) : Out :=
  .next (s.issue h fun s =>
    if 16 ≤ creg ∧ !s.cur.fw then .fault 6 0 0
    else s.reading [b] (.done (s.setControl creg (s.operand b)) 1))

/-! ## Barriers -/

/-- The identity of a reduction (Table 8.12). -/
def ropIdentity (rop : Nat) : Word :=
  match rop with
  | 0 => 0
  | 1 => BitVec.ofNat 64 (2 ^ 63 - 1)
  | 2 => BitVec.ofNat 64 (2 ^ 63)
  | 3 => BitVec.allOnes 64
  | 4 => 0
  | 5 => BitVec.allOnes 64
  | _ => 0

/-- One step of a reduction (Table 8.12). -/
def ropApply (rop : Nat) (x y : Word) : Word :=
  match rop with
  | 0 => x + y
  | 1 => minWord false x y
  | 2 => maxWord false x y
  | 3 => minWord true x y
  | 4 => maxWord true x y
  | 5 => x &&& y
  | 6 => x ||| y
  | _ => x ^^^ y

/-- What a barrier reduces: nothing, a value, or operations that clash (R199). -/
inductive Reduced where
  | none
  | value (rop : Nat) (v : Word)
  | clash
deriving DecidableEq, Repr

/-- The reduction of contributions; a BAR names no operation and contributes the identity of the
one the others name (R198, R199). -/
def reduce (cs : List (Option Nat × Word)) : Reduced :=
  match cs.filterMap Prod.fst with
  | [] => .none
  | r :: rs =>
    if rs.all (· == r) then
      .value r (cs.foldl (fun x c => if c.1.isSome then ropApply r x c.2 else x) (ropIdentity r))
    else .clash

/-- The physical cores of task `t` that are members of a barrier at `scope` issued by core `p`
(R18). -/
def State.members (s : State) (p scope : Nat) (t : Task) : List Nat :=
  let quad (q : Nat) : Nat := (s.die (q / 32)).quadPos (q % 32) / 4
  match scope with
  | 0 => [p]
  | 1 => t.cores.filter fun q => q / 32 == p / 32 && quad q == quad p
  | 2 => t.cores.filter fun q => q / 32 == p / 32
  | _ => t.cores

/-- The arrival of core `q` at a barrier of `scope`, if it stands there and is free to depart, and whether its
firmware context made it (R176, R197). On EM-3216-S an arrival at POD meets those at MOD (R14). -/
def State.arrival (s : State) (q scope : Nat) : Option (Bool × BarHold) :=
  let c := s.core q
  let meets (b : BarHold) : Bool := s.scopeHere b.scope == s.scopeHere scope
  match c.scu.hold, c.fws.hold with
  | .bar b, x =>
    if meets b && !c.halted && c.cut.isNone then some (false, b)
    else match x with
      | .bar b' => if meets b' && !c.fwDead then some (true, b') else none
      | _ => none
  | _, .bar b' => if meets b' && !c.fwDead then some (true, b') else none
  | _, _ => none

/-- An arrival (R197): it is a release, so at POD scope it waits for acknowledgements (R80). At
CORE scope the barrier departs one tick later. -/
def State.arriveBar (s : State) (h : Hdr) (scope : Nat) (rop : Option Nat) (v : Word) (d : Nat) :
    State :=
  s.onStream fun t =>
    { t with hold := .bar { scope := scope, rop := rop, contrib := v, dst := d, hdr := h
                            words := s.cur.words
                            gen := match s.taskOf s.cur.core with | none => 0 | some k => k.podGen } }

/-- The leaf of a BARRED (R198). -/
def barredLeaf (scope rop count : Nat) (x r : Word) : LeafBody × List Image :=
  let i0 : Image := { role := 0, fmt := fmtInt64, blk := 0, ext := [1, 1, 1, 1]
                      bytes := leBytes 8 x.toNat }
  let i3 : Image := { i0 with role := 3, bytes := leBytes 8 r.toNat }
  ({ kind := 7, nmode := 0, opd0 := some i0.digest, opd1 := none, opd2 := none
     res := some i3.digest, extra := scope + rop * 8 + count * 2 ^ 32 }, [i0, i3])

/-- The value a BARRED member pushes: the reduction, or a value nobody can tell where the members
named different operations (R199). -/
def State.reducedFor (s : State) (r : Reduced) : Word × State :=
  match r with
  | .value _ v => (v, s)
  | .none => (0, s)
  | .clash => (BitVec.ofNat 64 s.free.1, s.free.2)

/-- The departure of the member of the step (R197, R198): BAR goes on; BARRED pushes the reduction
and emits its leaf. The leaf's SCOPE is that of the instruction, its count that of the members that met; the
firmware context has no stream of the tree, and its BARRED emits no leaf (log entry 32). -/
def State.departMe (s : State) (b : BarHold) (r : Reduced) (count : Nat) : State :=
  let pc := s.myStream.pc + b.hdr.n
  let s := { s with cur := { s.cur with words := b.words } }
  match b.rop with
  | none => s.finish b.hdr (.tick s.gtc) pc 1
  | some rop =>
    let sidx := s.myStream.sidx
    let (v, s) := s.reducedFor r
    let (body, ims) := barredLeaf b.scope rop count b.contrib v
    let s := if s.cur.fw then s else (s.onStream Stream.formLeaf).leaf s.cur.core 0 sidx b.words body ims
    (s.push b.dst 1 v).finish b.hdr (.tick (s.gtc + 1)) pc 1

/-- For whom the SCU of core `q` acts, in one of its contexts. -/
def Cur.scuOf (q : Nat) (fw : Bool) : Cur := { core := q, eng := .scu, fw := fw, words := [], port := 0, queue := 0 }

/-- The departure of core `q`: an acquire, by which it learns what the members covered (R69, R74, R77). -/
def State.departCore (s : State) (q scope : Nat) (r : Reduced) (count : Nat) (far : SMap Nat) : State :=
  match s.arrival q scope with
  | none => s
  | some (fw, b) =>
    { (({ s with cur := Cur.scuOf q fw }).departMe b r count).learn far with cur := s.cur }

/-- Whether a POD barrier of the step's task, a capture run, reaches another module (R380). -/
def State.barOutside (s : State) : Bool :=
  s.capturing s.cur.core
    && ((s.taskOf s.cur.core).bind (·.podbar)).any fun b => !(s.podPeers.get [] b.group).isEmpty

/-- Whether an arrival of the step meets no other core: a barrier at CORE scope, or of a core without a task
(R18). -/
def State.alone (s : State) (scope : Nat) : Bool := scope == 0 || (s.taskOf s.cur.core).isNone

/-- BAR arrives and holds issue until departure (R197); a speculation parks on a POD barrier (R420). -/
def execBar (h : Hdr) (scope : Nat) (s : State) : Out :=
  .next (s.issue h fun s =>
    if s.alone scope then .done s 1
    else match s.myStream.hold with
      | .bar _ => .hold s
      | _ =>
        let pod := s.scopeHere scope = 4
        if pod ∧ (s.shadowOf s.cur.core).isSome then .raw (s.park s.cur.core)
        else if pod ∧ s.barOutside then .raw s.outsideMe
        else if s.storeWaits || (decide pod && !s.acked h) then .hold s
        else .hold (s.arriveBar h scope none 0 0))

/-- BARRED arrives with a contribution (R198). A core without a task is its own member set. -/
def execBarred (h : Hdr) (d a rop scope : Nat) (s : State) : Out :=
  .next (s.issue h fun s =>
    match s.myStream.hold with
    | .bar _ => .hold s
    | _ => s.reading [a] <|
      let pod := s.scopeHere scope = 4
      if (s.taskOf s.cur.core).isNone then .done (s.push d 1 (s.operand a)) 1
      else if s.myStream.formFull then .device
      else if pod ∧ (s.shadowOf s.cur.core).isSome then .raw (s.park s.cur.core)
      else if pod ∧ s.barOutside then .raw s.outsideMe
      else if s.storeWaits || (decide pod && !s.acked h) then .hold s
      else .hold (s.arriveBar h scope (some rop) (s.operand a) d))

/-- The arrivals of members, if every one has arrived. -/
def State.arrivals (s : State) (ms : List Nat) (scope : Nat) : Option (List (Nat × Bool × BarHold)) :=
  let bs := ms.map fun q => (q, s.arrival q scope)
  if bs.all (fun b => b.2.isSome) then some (bs.filterMap fun b => b.2.map fun x => (b.1, x.1, x.2)) else none

/-- What arrivals contribute. -/
def contributions (bs : List (Nat × Bool × BarHold)) : List (Option Nat × Word) :=
  bs.map fun b => (b.2.2.rop, b.2.2.contrib)

/-- What arrivals cover, as the other members learn it at the departure. -/
def State.coveredBy (s : State) (bs : List (Nat × Bool × BarHold)) : SMap Nat :=
  bs.foldl (fun m b =>
    joinFar m (s.learned b.1 (({ s with cur := Cur.scuOf b.1 b.2.1 }).covers b.2.2.hdr))) []

/-- Members depart with a reduction. -/
def State.departAll (s : State) (bs : List (Nat × Bool × BarHold)) (scope : Nat) (r : Reduced) (count : Nat) : State :=
  let far := s.coveredBy bs
  bs.foldl (fun s b => s.departCore b.1 scope r count far) s

/-! ## POD barriers of a group (R18, R200, R201) -/

/-- The tasks of a pod barrier group that this module holds, placed or not. -/
def State.podTasks (s : State) (g : Nat) : List (Nat × Task) :=
  s.tasks.filterMap fun e => e.2.bind fun t => if t.podbar.any (·.group == g) then some (e.1, t) else none

/-- The members of a group on this module: task, virtual core, and the core that it is placed on, if it is. -/
def State.podMembers (s : State) (g : Nat) : List (Nat × Nat × Option Nat) :=
  (s.podTasks g).flatMap fun e => (List.range e.2.n).map fun v => (e.1, v, e.2.cores[v]?)

/-- The arrival of a member of a group for a generation. -/
def State.podArrival (s : State) (gen : Nat) (m : Nat × Nat × Option Nat) : Option (Nat × Bool × BarHold) :=
  m.2.2.bind fun q => (s.arrival q 4).bind fun b => if b.2.gen = gen then some (q, b.1, b.2) else none

/-- A BAR packet from this module (Table 8.13). -/
def barPacketOf (src dst group gen : Nat) (rel : Bool) (nmem : Nat) (rop : Option Nat) (v : Word) :
    Packet :=
  { type := 0x10, urg := true, sid := false, det := false, npay := 0, hops := 0, src := src
    dst := dst, via := dst, score := 0, asid := 0, va := 0, task := group, tag := gen % 2 ^ 16
    colmask := 0, group := 0, aop := 0, rel := false, lenm1 := 0, opa := v.toNat
    opb := b2n rop.isSome * 2 ^ 21 + rop.getD 0 * 2 ^ 18 + b2n rel * 2 ^ 17 + nmem
    status := 0, aux := 0, payload := [] }

/-- A packet injected into the router (07). -/
def State.inject (s : State) (p : Packet) : State :=
  { s with fabric := { s.fabric with
      route := s.fabric.route ++ [{ pkt := p, at' := s.gtc, pool := none }] } }

/-- The member count of a pod barrier group, as its tasks carry it (R18). -/
def State.podCount (s : State) (g : Nat) : Nat :=
  match s.podTasks g with
  | [] => 0
  | t :: _ => (t.2.podbar.map (·.members)).getD 0

/-- The record of a group's barrier. -/
def State.podRec (s : State) (g gen : Nat) : PodRec :=
  match s.pods.find? fun x => x.group == g && x.gen == gen with
  | some x => x
  | none => { group := g, gen := gen, arrived := [], sent := [], result := none }

/-- The state with the record of a group's barrier: none once it has departed and no member is left to depart. -/
def State.setPodRec (s : State) (x : PodRec) : State :=
  let rest := s.pods.filter fun y => !(y.group == x.group && y.gen == x.gen)
  { s with pods := if x.result.isSome ∧ x.sent = [] then rest else x :: rest }

/-- What the members of a departed barrier receive. -/
def PodResult.reduced (r : PodResult) : Reduced :=
  match r.clash, r.rop with
  | true, _ => .clash
  | false, Option.none => .none
  | false, some k => .value k r.value

/-- A reduction as it stands for members that depart later. -/
def Reduced.kept (r : Reduced) (count : Nat) : PodResult :=
  match r with
  | .none => { clash := false, rop := Option.none, value := 0, count := count }
  | .value k v => { clash := false, rop := some k, value := v, count := count }
  | .clash => { clash := true, rop := Option.none, value := 0, count := count }

/-- Members of a departed POD barrier that stand at it go on; those that a cut holds stay listed, and
depart once they have been restored (R201). -/
def State.podGoOn (s : State) (x : PodRec) (r : Reduced) (count : Nat) : State :=
  let ms := (s.podMembers x.group).filter fun m => x.sent.contains (m.1, m.2.1)
  let here := ms.filter fun m => (s.podArrival x.gen m).isSome
  let gone (k : Nat × Nat) : Bool := here.any fun m => m.1 == k.1 && m.2.1 == k.2
  (s.departAll (here.filterMap (s.podArrival x.gen)) 4 r count).setPodRec
    { x with sent := x.sent.filter fun k => !gone k && (s.task? k.1).isSome }

/-- A POD barrier of a group departs on this module: the generation rises, and the members that stand at it go
on (R200, R201). -/
def State.podDepart (s : State) (x : PodRec) (r : Reduced) (count : Nat) : State :=
  let x := { x with result := some (r.kept count) }
  let s := s.podGoOn x r count
  { s with tasks := s.tasks.map fun e => (e.1, e.2.map fun t =>
      if t.podbar.any (·.group == x.group) ∧ t.podGen = x.gen then { t with podGen := (x.gen + 1) % 2 ^ 16 } else t) }

/-- The other modules of a group and this one (R200). -/
def State.podModules (s : State) (g : Nat) : List Nat := s.peerId :: s.podPeers.get [] g

/-- The master of a group: its module with the lowest peer id (R200). -/
def State.podMaster (s : State) (g : Nat) : Nat := (s.podPeers.get [] g).foldl min s.peerId

/-- Whether a group's count falls short of its members, as the arrivals show (R18): they cover more than the
count, or a module of the group has not arrived. -/
def State.podShort (s : State) (x : PodRec) (n : Nat) : Bool :=
  decide ((x.arrived.map (·.nmem)).sum ≠ n)
    || (s.podModules x.group).any fun p => !(x.arrived.any fun a => a.peer == p)

/-- What the arrivals reduce to. Where the count is smaller than the true number of members, which R18 does not
permit, what a BARRED receives is a free value (log entry 132). -/
def State.podReduced (s : State) (x : PodRec) (n : Nat) : Reduced :=
  match reduce (x.arrived.map fun a => (a.rop, a.value)) with
  | .value k v => if s.podShort x n then .clash else .value k v
  | r => r

/-- A reduction as a packet carries it: where the members named different operations, a value that nobody can
tell (R199). -/
def State.carried (s : State) (r : Reduced) : (Option Nat × Word) × State :=
  match r with
  | .value k v => ((some k, v), s)
  | Reduced.none => ((Option.none, 0), s)
  | .clash => ((some 0, BitVec.ofNat 64 s.free.1), s.free.2)

/-- The master releases every module once the members counted reach the group's count (R18, R200). A module
whose arrival comes after that is released at once. -/
def State.podRelease (s : State) (x : PodRec) : State :=
  let n := s.podCount x.group
  let send (s : State) (rop : Option Nat) (v : Word) (a : PodArrival) : State :=
    if a.peer = s.peerId then s
    else s.inject (barPacketOf s.peerId a.peer x.group x.gen true a.nmem rop v)
  match x.result with
  | some r =>
    let (w, s) := s.carried r.reduced
    (x.arrived.drop (x.arrived.length - 1)).foldl (fun s a => send s w.1 w.2 a) (s.podGoOn x r.reduced r.count)
  | none =>
    if n = 0 ∨ (x.arrived.map (·.nmem)).sum < n then s
    else
      let r := s.podReduced x n
      let (w, s) := s.carried r
      (x.arrived.foldl (fun s a => send s w.1 w.2 a) s).podDepart x r n

/-- The MOD part of a POD barrier with a group (R200): once every member of this module that no arrival of
it covers yet has arrived, the module sends an arrival for them to the master, or counts it as the master. -/
def State.podArrive (s : State) (g gen : Nat) : State :=
  let x := s.podRec g gen
  let ms := (s.podMembers g).filter fun m => !x.sent.contains (m.1, m.2.1)
  let bs := ms.filterMap (s.podArrival gen)
  if ms = [] ∨ bs.length ≠ ms.length then s
  else
    let (w, s) := s.carried (reduce (contributions bs))
    let x := { x with sent := x.sent ++ ms.map fun m => (m.1, m.2.1) }
    if s.podMaster g = s.peerId then
      let x := { x with arrived := x.arrived ++ [{ peer := s.peerId, nmem := ms.length, rop := w.1, value := w.2 }] }
      (s.setPodRec x).podRelease x
    else
      (s.setPodRec x).inject (barPacketOf s.peerId (s.podMaster g) g gen false ms.length w.1 w.2)

/-- The state with a task changed, if it is held. -/
def State.onTask1 (s : State) (id : Nat) (f : Task → Task) : State := s.setTask id ((s.task? id).map f)

/-- The arrival at which the core of the step stands, in its user context or else in its firmware context. -/
def Core.standsAt (c : Core) : Option BarHold :=
  match c.scu.hold, c.fws.hold with
  | .bar b, _ => some b
  | _, .bar b => some b
  | _, _ => none

/-- A barrier departs at every member once the last has arrived (R17, R197): the barrier at which
the core of the step stands. On EM-3216-S POD acts as MOD: the count of a BARRED's leaf is then that of the
task's own members (R14, R18, log entry 133). A member that was cut while its POD barrier departed goes on now
(R201). -/
def execBarrierDepart (s : State) : Out :=
  .next (
    let p := s.cur.core
    match s.me.standsAt, s.taskOf p with
    | some b, some t =>
      match (if s.scopeHere b.scope = 4 then t.podbar else none) with
      | some k =>
        let x := s.podRec k.group b.gen
        match x.result with
        | some r => (s.podGoOn x r.reduced r.count).onTask1 (s.me.task.getD 0) fun t =>
            if t.podGen = b.gen then { t with podGen := (b.gen + 1) % 2 ^ 16 } else t
        | none => s.podArrive k.group b.gen
      | none =>
        let ms := s.members p b.scope t
        match s.arrivals ms b.scope with
        | none => s
        | some bs => s.departAll bs b.scope (reduce (contributions bs)) ms.length
    | _, _ => s)

/-! ## Firmware events -/

/-- The firmware context starts on the oldest event when it is idle (R175). -/
def execFirmwareEventStart (s : State) : Out :=
  .next (
    if s.me.fwBusy || s.me.fwDead || s.me.fwq.isEmpty then s
    else s.onMe fun c => c.startEvent s.gtc)

/-- A fault in the firmware context of the core of the step (R176). -/
def execFirmwareContextFault (s : State) : Out := .next (s.firmwareFault s.cur.core)

/-- An engine fault of core `phys` (R426 to R428). -/
def execEngineFault (phys : Nat) (e : Engine) (cause ecode foff : Nat) (s : State) : Out :=
  .next (s.engineFault phys (engIdx e) cause ecode 0 foff)

end Sys2Proof.Machine
end

