-- ==== Sys2Proof/Machine/Fabric.lean ====
section
/-!
DEFINITION. The Azpin router: ports, links, flow control, routing, the Staff and the Siding lane,
and the time distribution (07, R142 to R170).
-/

namespace Sys2Proof.Machine

/-! ## Ports (Table 7.1) -/

/-- The peer that port `q` of module `me` reaches. -/
def portPeer (me q : Nat) : Nat :=
  let r := me / 32
  let c := me % 32
  if q < 31 then 32 * r + (c + 1 + q) % 32 else 32 * ((r + 1 + (q - 31)) % 16) + c

/-- The die that carries port `q` (R13, Table 7.1). -/
def portDie (q : Nat) : Nat :=
  if q < 31 then nth [0, 1, 2, 3, 4, 5, 6, 7, 24, 25, 26, 27, 28, 29, 30, 31] (q / 2)
  else if q < 35 then 8 else if q < 39 then 15 else if q < 43 then 16 else 23

/-- The ports of a die. -/
def diePorts (d : Nat) : List Nat := (List.range 46).filter fun q => portDie q == d

/-- The row port of module `me` to column `c`. -/
def rowPort (me c : Nat) : Nat := (c + 31 - me % 32) % 32

/-- The column port of module `me` to row `r`. -/
def colPort (me r : Nat) : Nat := 31 + (r + 15 - me / 32) % 16

/-- Port `q`. -/
def Fabric.port (f : Fabric) (q : Nat) : Port := f.ports.get Port.absent q

/-- The router with port `q` at `x`. -/
def Fabric.setPort (f : Fabric) (q : Nat) (x : Port) : Fabric :=
  { f with ports := f.ports.set Port.absent q x }

/-- The state with port `q` changed. -/
def State.onPort (s : State) (q : Nat) (g : Port → Port) : State :=
  { s with fabric := s.fabric.setPort q (g (s.fabric.port q)) }

/-- Whether a port is live. -/
def Fabric.live (f : Fabric) (q : Nat) : Bool := (f.port q).st == 2

/-- Flits of a packet. -/
def flits (p : Packet) : Nat := 1 + p.npay

/-- Allowance of a pool (R147). -/
def allowance (cap sent freed : Nat) : Nat := cap - (sent + 2 ^ 32 - freed) % 2 ^ 32

/-! ## Packets on their way -/

/-- A packet but for what routers change in it (R145). -/
def routed (p : Packet) : Packet := { p with det := false, hops := 0, via := p.dst, sid := false }

/-- Whether two packets are one, wherever it travels. -/
def samePkt (p q : Packet) : Bool := routed p == routed q

/-- A packet without the route choice that it was given at this module. -/
def unrouted (p : Packet) : Packet := if p.via = p.dst then p else { p with det := false, via := p.dst }

/-- The class of a packet: 0 Siding, 1 urgent, 2 bulk (R152, Table 7.3). -/
def pktClass (p : Packet) : Nat := if p.sid then 0 else if p.urg then 1 else 2

/-- The oldest packet of a class. -/
def oldest (c : Nat) (hs : List Held) : Option Held := hs.find? fun h => pktClass h.pkt == c

/-- The port with another queue: how long its oldest bulk packet has been that starts anew where it is another
one (R152). -/
def Port.withQueue (x : Port) (now : Nat) (hs : List Held) : Port :=
  if oldest 2 hs = oldest 2 x.queue then { x with queue := hs }
  else { x with queue := hs, bulkSince := now, promoted := false, slots := 0 }

/-! ## Failed ports -/

/-- A port is failed and removed from routing; the frames of its replay buffer, which nobody has acknowledged,
and its queue are routed anew: a hop on the link that failed has not been taken, and a packet that a receive
pool holds waits there for its next choice (R159, R169). -/
def State.failPort (s : State) (q : Nat) : State :=
  let p := s.fabric.port q
  let again : List Held := ((p.replay.flatMap (·.packets)).map fun k =>
      { pkt := { unrouted k with hops := k.hops - 1 }, at' := s.gtc, pool := none })
    ++ ((p.queue.filter fun h => h.pool.isNone).map fun h => { h with pkt := unrouted h.pkt })
  let back (k : Nat) (y : Held) : Held :=
    if p.queue.any fun h => h.pool == some k && h.pkt == y.pkt then { y with pkt := unrouted y.pkt } else y
  let f := s.fabric.setPort q
    { p with st := 3, keyed := false, replay := [], queue := [], promoted := false, report := none, time := false }
  { s with fabric := { f with
      route := f.route ++ again
      ports := f.ports.map fun e => (e.1, { e.2 with pool := e.2.pool.map (back e.1), siding := e.2.siding.map (back e.1) }) } }

/-! ## Sending (R144, R147, R152, R168) -/

/-- Whether the port's allowance lets a packet start (R147). -/
def Port.allows (x : Port) (p : Packet) : Bool :=
  if p.sid then decide (flits p ≤ allowance 64 x.ssent x.applied.sfreed)
  else decide (flits p ≤ allowance 1024 x.sent x.applied.freed)

/-- The packet that the port sends next: Siding, then urgent, then bulk. In each class the oldest goes first,
and one that has no allowance holds those behind it; urgent packets hold bulk ones, with which they share a
pool. While bulk is promoted every fourth packet is bulk (R147, R152). -/
def Port.nextSend (x : Port) : Option Held :=
  let first (c : Nat) : Option Held := (oldest c x.queue).filter fun h => x.allows h.pkt
  let main := if (oldest 1 x.queue).isSome then first 1 else first 2
  let usual := (first 0).or main
  if x.promoted && decide (3 ≤ x.slots) then (first 2).or usual else usual

/-- A frame leaves on a port with one packet or none, the report and the time mark that are due; where in a tick
the mark falls is a free value (R144, R167, log entry 140). -/
def State.sendFrame (s : State) (q : Nat) (h : Option Held) : State :=
  let x := s.fabric.port q
  let (tph, s) := if x.time then s.free else (0, s)
  let pkts := h.toList.map fun h => { h.pkt with hops := min 3 (h.pkt.hops + 1) }
  let fr : SentFrame := { fctr := x.txFctr, report := x.report
                          time := if x.time then some (s.gtc % 2 ^ 64, tph % 256) else none, packets := pkts }
  let n := (pkts.map flits).sum
  let sid := pkts.any (·.sid)
  let x := x.withQueue s.gtc (match h with | none => x.queue | some h => x.queue.erase h)
  let x := { x with
    txFctr := x.txFctr + 1, report := none, time := false, replay := x.replay ++ [fr]
    keyFrames := x.keyFrames + 1
    sent := if sid then x.sent else (x.sent + n) % 2 ^ 32
    ssent := if sid then (x.ssent + n) % 2 ^ 32 else x.ssent
    recent := (x.recent.filter fun e => decide (s.gtc < e.1 + 512)) ++ [(s.gtc, n)]
    slots := if h.isNone then x.slots else x.slots + 1 }
  let f := s.fabric.setPort q x
  { s with fabric := { f with wire := f.wire ++ [.frame q fr] } }

/-- A packet leaves the receive pool that held it: its flits are freed, and a detector that fired
for it rests (R147, R153). -/
def State.freePool (s : State) (q : Nat) (p : Packet) : State :=
  let s := s.onPort q fun x =>
    if x.pool.any fun h => samePkt h.pkt p then
      let first := (x.pool.head?.map fun h => samePkt h.pkt p).getD false
      { x with pool := x.pool.eraseP fun h => samePkt h.pkt p
               own := { x.own with freed := (x.own.freed + flits p) % 2 ^ 32 }
               fired := x.fired && !first }
    else if x.siding.any fun h => samePkt h.pkt p then
      { x with siding := x.siding.eraseP fun h => samePkt h.pkt p
               own := { x.own with sfreed := (x.own.sfreed + flits p) % 2 ^ 32 } }
    else x
  { s with fabric := { s.fabric with record := s.fabric.record.filter fun e => !(e.1 == q && samePkt e.2 p) } }

/-- Packets leave on a port while one may start; a key at 2^40 frames fails the link, and at the switch counter
nothing leaves until the keys have changed (R168, R454). -/
def State.pump (s : State) (q : Nat) : Nat → State
  | 0 => s
  | fuel + 1 =>
    let x := s.fabric.port q
    if x.st ≠ 2 then s
    else if 2 ^ 40 ≤ x.keyFrames then s.failPort q
    else if x.switchAt.any fun c => decide (c ≤ x.txFctr) then s
    else match x.nextSend with
      | none => s
      | some h =>
        let s := s.sendFrame q (some h)
        let s := match h.pool with
          | none => s
          | some k => s.freePool k h.pkt
        s.pump q fuel

/-- Everything a port may send now. -/
def State.pumpAll (s : State) (q : Nat) : State := s.pump q ((s.fabric.port q).queue.length + 1)

/-- What is due in the next header of a port leaves, with its packets or in a frame of its own (R147, R167). -/
def State.flushHeader (s : State) (q : Nat) : State :=
  let s := s.pumpAll q
  let x := s.fabric.port q
  if x.st = 2 ∧ (x.report.isSome ∨ x.time) ∧ !(x.switchAt.any fun c => decide (c ≤ x.txFctr)) then s.sendFrame q none else s

/-! ## Routing (R149 to R151, R155) -/

/-- The port of the Siding lane for a destination: row then column, the other order where that
link has failed (R155). -/
def State.sidingPort (s : State) (dst : Nat) : Option Nat :=
  let me := s.peerId
  let row := rowPort me (dst % 32)
  let col := colPort me (dst / 32)
  let rowWay := decide (me % 32 ≠ dst % 32) && s.fabric.live row
  let colWay := decide (me / 32 ≠ dst / 32) && s.fabric.live col
  if rowWay then some row else if colWay then some col else none

/-- The minimal ports for a packet (R149). -/
def State.minimalPorts (s : State) (via : Nat) : List Nat :=
  let me := s.peerId
  ((if me % 32 ≠ via % 32 then [rowPort me (via % 32)] else [])
    ++ (if me / 32 ≠ via / 32 then [colPort me (via / 32)] else [])).filter s.fabric.live

/-- The detour ports for a packet (R149). -/
def State.detourPorts (s : State) (p : Packet) : List Nat :=
  let me := s.peerId
  let sameRow := me / 32 == p.dst / 32
  let sameCol := me % 32 == p.dst % 32
  let ps := (List.range 46).filter fun q =>
    s.fabric.live q && !(s.minimalPorts p.via).contains q
  if p.det ∨ p.via ≠ p.dst then []
  else if p.hops = 0 then ps
  else if p.hops = 1 then
    ps.filter fun q => if q < 31 then sameRow && !sameCol else sameCol && !sameRow
  else []

/-- The score of a port (R150). -/
def State.portScore (s : State) (q : Nat) (detour : Bool) : Nat :=
  let x := s.fabric.port q
  (x.sent + 2 ^ 32 - x.applied.freed) % 2 ^ 32 + (x.queue.map fun h => flits h.pkt).sum
    + (if detour then 256 else 0)

/-- The entry of lowest score, then of lowest port (R150). -/
def lowest : List (Nat × Nat × Bool) → Option (Nat × Nat × Bool)
  | [] => none
  | e :: es =>
    match lowest es with
    | none => some e
    | some b => if b.1 < e.1 ∨ (b.1 = e.1 ∧ b.2.1 < e.2.1) then some b else some e

/-- The port chosen for a packet, with the packet as it leaves (R149, R150, R155). -/
def State.choosePort (s : State) (p : Packet) : Option (Nat × Packet) :=
  if p.sid then (s.sidingPort p.dst).map fun q => (q, p)
  else
    let p := if p.via = s.peerId then { p with via := p.dst } else p
    let mins := (s.minimalPorts p.via).map fun q => (s.portScore q false, q, false)
    let dets := (s.detourPorts p).map fun q => (s.portScore q true, q, true)
    (lowest (mins ++ dets)).map fun e =>
      (e.2.1, if e.2.2 then { p with det := true, via := portPeer s.peerId e.2.1 } else p)

/-- The answer to a request that found no way, or that its home refuses: an ACK, an RDR or an ATR
with a status (R146, R151). -/
def answerOf (p : Packet) (from' status : Nat) (opa : Nat) (payload : List Nat) : Packet :=
  let ty := match p.type with | 0x02 => 0x03 | 0x04 => 0x05 | _ => 0x08
  { p with type := ty, urg := decide (ty ≠ 0x03), sid := false, det := false, npay := payload.length
           hops := 0, src := from', dst := p.src, via := p.src, aop := 0, rel := false
           opa := opa, opb := 0, status := status, aux := 0, payload := payload, colmask := 0
           group := 0 }

/-- Whether a packet is a request that some answer settles (Table 7.3). -/
def isRequest (p : Packet) : Bool :=
  p.type == 0x01 || p.type == 0x02 || p.type == 0x04 || p.type == 0x06

/-- Which module sent a multicast copy (R164, R165): the row intermediate of its column, for a copy
sent down that column to another row; else its source. -/
def mcwSender (p : Packet) : Nat :=
  if p.dst % 32 ≠ p.src % 32 ∧ p.dst / 32 ≠ p.src / 32 then p.src / 32 * 32 + p.dst % 32 else p.src

/-- A packet for which no port exists: a request goes back as UNREACH, one of a barrier or a bisection as an
ACK (R151); the sender of a multicast copy hears of it as a copy without a route, by an MCA whose STATUS is 6
(R165, log entry 141). The answers themselves and the Staff go nowhere. A barrier's ACK keeps OPB, so that no
packet of a core takes it for its own. -/
def State.unreachable (s : State) (h : Held) : State :=
  let s := match h.pool with | none => s | some k => s.freePool k h.pkt
  if isRequest h.pkt ∨ h.pkt.type = 0x13 then
    s.inject (answerOf h.pkt s.peerId 6 0 [])
  else if h.pkt.type = 0x10 then s.inject { answerOf h.pkt s.peerId 6 0 [] with opb := h.pkt.opb }
  else if h.pkt.type = 0x07 then
    s.inject { h.pkt with type := 0x09, urg := true, npay := 1, dst := mcwSender h.pkt
                          via := mcwSender h.pkt, src := h.pkt.dst, status := 6, opa := 0, opb := 0
                          payload := [0], hops := 0, det := false, sid := false }
  else s

/-- Whether a packet has reached its home: VIA = DST = this module (R151). -/
def State.atHome (s : State) (p : Packet) : Bool := p.dst == s.peerId && p.via == s.peerId

/-- The next packet for which no port has been chosen: an injected one, else the oldest one of a
pool that is not at its home and waits in no output queue. -/
def State.nextRouted (s : State) : Option Held :=
  let queued (k : Nat) (p : Packet) : Bool :=
    s.fabric.ports.any fun e => e.2.queue.any fun h => h.pool == some k && h.pkt == p
  match s.fabric.route.find? fun h => !s.atHome h.pkt with
  | some h => some h
  | none =>
    (s.fabric.ports.flatMap fun e => (e.2.pool ++ e.2.siding).map fun h => { h with pool := some e.1 }).find?
      fun h => !s.atHome h.pkt && !queued (h.pool.getD 0) h.pkt

/-- A router chooses a port for a packet, or returns the packet (R149 to R151); the port sends
what it may. -/
def execPacketRoute (s : State) : Out :=
  .next (
    match s.nextRouted with
    | none => s
    | some h =>
      let s := { s with fabric := { s.fabric with
        route := if h.pool.isNone then s.fabric.route.erase h else s.fabric.route } }
      match s.choosePort h.pkt with
      | none => s.unreachable h
      | some (q, p) =>
        let s := match h.pool with
          | none => s
          | some k => s.onPort k fun x =>
              { x with pool := x.pool.map fun (y : Held) => if y.pkt = h.pkt then { y with pkt := p } else y
                       siding := x.siding.map fun (y : Held) => if y.pkt = h.pkt then { y with pkt := p } else y }
        let s := s.onPort q fun x => x.withQueue s.gtc (x.queue ++ [{ h with pkt := p }])
        s.pumpAll q)

/-- Whether a bulk packet has waited 512 ticks at the head of its queue (R152). -/
def Port.bulkAged (x : Port) (now : Nat) : Bool :=
  !x.promoted && (oldest 2 x.queue).isSome && decide (x.bulkSince + 512 ≤ now)

/-- When a bulk packet has waited 512 ticks, bulk has one slot in four (R152). -/
def execBulkAgePromote (s : State) : Out :=
  .next (s.onPort s.cur.port fun x => if x.bulkAged s.gtc then { x with promoted := true, slots := 0 } else x)

/-! ## Links (R144, R147, R148, R168) -/

/-- A link-management message leaves on a port. -/
def State.linkMsg (s : State) (q : Nat) (m : LinkMsg) : State :=
  { s with fabric := { s.fabric with wire := s.fabric.wire ++ [.msg q m] } }

/-- A port trained with a neighbour that reports a peer id (R142, R166, R168): it sends its own, and another peer
than Table 7.1 gives fails it; a new session gives the link a new key, and without one it stays in training. -/
def State.trained (s : State) (port reported delay : Nat) (keyed : Bool) : State :=
  let s := s.linkMsg port (.peerId s.peerId)
  if reported ≠ portPeer s.peerId port then s.failPort port
  else s.onPort port fun x =>
    if keyed then { x with st := 2, keyed := true, delay := delay, keyGen := x.keyGen + 1, keyFrames := 0
                           switchAt := none, tagFails := 0, reportAt := s.gtc }
    else { x with st := 1, delay := delay }

/-- Training of a port (R142, R144, R166): that of a failed one follows a request through PSTAT alone (R169),
and a die that is held in reset trains none (R13). -/
def execLinkTraining (port reported delay : Nat) (keyed : Bool) (s : State) : Out :=
  .next (
    if s.board.single ∨ 46 ≤ port ∨ 2 ≤ (s.fabric.port port).st ∨ !(s.die (portDie port)).present then s
    else s.trained port reported delay keyed)

/-- A flow report applied unless it is stale; four in a row that show lost flits fail the port
(R148). -/
def State.applyReport (s : State) (q : Nat) (r : Totals) : State :=
  let x := s.fabric.port q
  if (r.freed + 2 ^ 32 - x.applied.freed) % 2 ^ 32 < 2 ^ 31
      ∧ (r.sfreed + 2 ^ 32 - x.applied.sfreed) % 2 ^ 32 < 2 ^ 31 then
    let late := ((x.recent.filter fun e => decide (s.gtc < e.1 + 512)).map Prod.snd).sum
    let lost := decide (late < (x.sent + 2 ^ 32 - r.rcv) % 2 ^ 32)
    let n := if lost then x.loss + 1 else 0
    let s := s.onPort q fun x => { x with applied := r, loss := n }
    if 4 ≤ n then s.failPort q else s.pumpAll q
  else s

/-- The types of Table 7.3 that travel as flits: TIME does not (R144, R146). -/
def typeOk (t : Nat) : Bool := [0x01, 0x02, 0x03, 0x04, 0x05, 0x06, 0x07, 0x08, 0x09, 0x10, 0x12, 0x13].contains t

/-- Whether a header has the class and the payload flits that Table 7.3 gives its type. -/
def shapeOk (p : Packet) : Bool :=
  let data := (p.lenm1 + 64) / 64
  p.urg == [0x05, 0x08, 0x09, 0x10].contains p.type
    && (match p.type with
        | 0x01 => p.npay == data
        | 0x03 => p.npay == (if p.status = 0 then data else 0)
        | 0x07 => p.npay == data
        | 0x09 => p.npay == 1
        | 0x13 => decide (p.npay ≤ 1)
        | _ => p.npay == 0)

/-- Whether a router takes a packet up: no reserved type, field or value, and the shape of its type (R146, log
entry 142). -/
def headerOk (p : Packet) : Bool := typeOk p.type && shapeOk p && !p.rsv && !(p.type == 0x04 && decide (7 ≤ p.aop))

/-- A packet enters a receive pool, or is discarded and counted (R146, R147). -/
def State.receivePkt (s : State) (q : Nat) (p : Packet) : State :=
  s.onPort q fun x =>
    let n := flits p
    let h : Held := { pkt := p, at' := s.gtc, pool := some q }
    if !headerOk p then
      { x with lerr := (x.lerr + 1) % 2 ^ 16
               own := { x.own with rcv := (x.own.rcv + n) % 2 ^ 32, freed := (x.own.freed + n) % 2 ^ 32 } }
    else if p.sid ∨ p.type = 0x12 then
      { x with siding := x.siding ++ [h], own := { x.own with srcv := (x.own.srcv + n) % 2 ^ 32 } }
    else { x with pool := x.pool ++ [h], own := { x.own with rcv := (x.own.rcv + n) % 2 ^ 32 } }

/-! ## Time (R166, R167) -/

/-- The modules of the pod, as far as this module knows: itself and those it has been told of (log entry 16). -/
def State.modules (s : State) : List Nat := s.peerId :: s.fabric.present

/-- The master of the Staff and of time: the present module with the lowest peer id (R156, R166). -/
def State.master (s : State) : Nat := s.fabric.present.foldl min s.peerId

/-- Whether this module is the master. -/
def State.isMaster (s : State) : Bool := s.master == s.peerId

/-- Whether this module takes its time on a port (R166): from the master, else from a module of the master's row,
which holds time at depth one, where the module is not of that row or has lost its link to the master. -/
def State.takesTime (s : State) (q : Nat) : Bool :=
  let m := s.master
  let peer := portPeer s.peerId q
  peer == m || (peer / 32 == m / 32 && !(s.peerId / 32 == m / 32 && s.fabric.live (rowPort s.peerId (m % 32))))

/-- The difference of two times of 64 bits, in 1/256 tick. -/
def timeDiff (x y : Nat) : Int :=
  let d : Nat := (x % 2 ^ 72 + 2 ^ 72 - y % 2 ^ 72) % 2 ^ 72
  if d < 2 ^ 71 then (d : Int) else (d : Int) - 2 ^ 72

/-- A tick moved with the station clock. -/
def movedBy (n : Int) (t : Nat) : Nat := ((t : Int) + n).toNat

/-- The station clock stepped once, with what the router has timed by it (R167). -/
def State.stepClock (s : State) (n : Int) : State :=
  let hold (h : Held) : Held := { h with at' := movedBy n h.at' }
  let port (x : Port) : Port := { x with
    reportAt := movedBy n x.reportAt, bulkSince := movedBy n x.bulkSince, pool := x.pool.map hold
    siding := x.siding.map hold, queue := x.queue.map hold, recent := x.recent.map fun e => (movedBy n e.1, e.2) }
  let f := s.fabric
  { s with
    gtc := movedBy n s.gtc
    fabric := { f with
      timed := true, timeBad := 0, timeSeen := movedBy n s.gtc, timeSent := movedBy n f.timeSent
      staffSeen := movedBy n f.staffSeen, holding := f.holding.map (movedBy n), route := f.route.map hold
      ports := f.ports.map fun e => (e.1, port e.2)
      relays := f.relays.map fun r => { r with tick := movedBy n r.tick } } }

/-- TIME due on the live row ports, or on the live column ports; each frame that carries one leaves. -/
def State.timeOut (s : State) (row : Bool) : State :=
  let qs := (List.range 46).filter fun q => decide (q < 31) == row && s.fabric.live q
  qs.foldl (fun s q => (s.onPort q fun x => { x with time := true }).flushHeader q) s

/-- The event that time is lost, posted to the firmware of a die (R167). -/
def State.postTimeLost (s : State) : State :=
  s.post (s.dieCore ((s.dies.head?.map Prod.fst).getD 0)) 5 (BitVec.ofNat 64 s.gtc) 0 0

/-- The time fields of a header acted upon (R166, R167): `phase` is the module's own sub-tick phase at the mark's
arrival. A row peer of the master forwards a TIME on its column ports. Before the first task the clock is
stepped; after that it is trimmed by as many ppm as the offset has 1/256 ticks, up to 100 (log entry 143). Once
TLOST is set it stays so until a reset (log entry 144). -/
def State.applyTime (s : State) (q tgtc tph phase : Nat) : State :=
  if !s.takesTime q then s
  else
    let off := timeDiff (256 * tgtc + tph + (s.fabric.port q).delay) (256 * s.gtc + phase)
    let n := if 3 * 256 < off.natAbs then s.fabric.timeBad + 1 else 0
    let s :=
      if !s.fabric.timed then s.stepClock ((off + 128) / 256)
      else
        let f := s.fabric
        let s := { s with fabric := { f with timeSeen := s.gtc, timeBad := n, trim := sat off (-100) 100
                                             tlost := f.tlost || decide (16 ≤ n) } }
        if n = 16 then s.postTimeLost else s
    if portPeer s.peerId q = s.master ∧ q < 31 then s.timeOut false else s

/-- A frame discarded: it is counted and a replay is asked for (R144). -/
def State.badFrame (s : State) (q : Nat) (tag : Bool) : State :=
  let x := s.fabric.port q
  let win := s.gtc / 2 ^ 30
  let n := (if x.failWin = win then x.tagFails else 0) + b2n tag
  let s := s.onPort q fun x => { x with lerr := (x.lerr + 1) % 2 ^ 16, tagFails := n, failWin := win }
  if 8 ≤ n then s.failPort q else s.linkMsg q (.replayFrom x.rxFctr)

/-- A link frame received (R144, R147, R148, R167, R168): it is acknowledged, and where in a tick its time mark
arrives is a free value (log entry 140). -/
def execFrameReceive (port : Nat) (f : Frame) (s : State) : Out :=
  .next (
    let x := s.fabric.port port
    if x.st ≠ 2 then s
    else if !f.tagOk then s.badFrame port true
    else if !f.codeOk then s.badFrame port false
    else if f.fctr < x.rxFctr then s
    else if x.rxFctr < f.fctr then s.linkMsg port (.replayFrom x.rxFctr)
    else
      let s := (s.onPort port fun x => { x with rxFctr := x.rxFctr + 1 }).linkMsg port (.ack (x.rxFctr + 1))
      let s := f.packets.foldl (fun s p => s.receivePkt port p) s
      let s := if f.tv then s.free.2.applyTime port f.tgtc f.tph (s.free.1 % 256) else s
      if f.fv then
        s.applyReport port { rcv := f.rcv, freed := f.freed, srcv := f.srcv, sfreed := f.sfreed }
      else s)

/-- The frames below a counter are acknowledged: they leave the replay buffer (R144). -/
def State.ackFrames (s : State) (port fctr : Nat) : State :=
  s.onPort port fun x => { x with replay := x.replay.filter fun r => decide (fctr ≤ r.fctr) }

/-- Frames resent from the first missing one; the earlier ones have been acknowledged (R144). -/
def execFrameReplay (port fctr : Nat) (s : State) : Out :=
  .next (
    let s := s.ackFrames port fctr
    let again := (s.fabric.port port).replay
    { s with fabric := { s.fabric with wire := s.fabric.wire ++ again.map (Wire.frame port) } })

/-- Whether a report of a port is due (R147). -/
def Port.reportDue (x : Port) (now : Nat) : Bool := x.st == 2 && decide (x.reportAt + 256 ≤ now)

/-- Every 256 ticks the totals are placed in the next header (R147). -/
def execFlowReportTimer (s : State) : Out :=
  .next (
    let q := s.cur.port
    if !(s.fabric.port q).reportDue s.gtc then s
    else (s.onPort q fun x => { x with report := some x.own, reportAt := s.gtc }).flushHeader q)

/-- Whether a KEY_UPDATE of a port is due (R168). -/
def Port.updateDue (x : Port) : Bool := x.st == 2 && decide (2 ^ 39 ≤ x.keyFrames) && x.switchAt.isNone

/-- A KEY_UPDATE is started once 2^39 frames have been sent under the key (R168, R454). -/
def execKeyUpdateStart (s : State) : Out :=
  .next (
    let q := s.cur.port
    let x := s.fabric.port q
    if x.updateDue then
      (s.onPort q fun x => { x with switchAt := some (x.txFctr + 4096) }).linkMsg q (.keyUpdate (x.txFctr + 4096))
    else s)

/-- Whether a port has reached its switch counter (R454). -/
def Port.switchDue (x : Port) : Bool := x.st == 2 && x.switchAt.any fun c => decide (c ≤ x.txFctr)

/-- At the switch counter the keys change; frame counters go on, and so do the port's packets (R454). -/
def execKeySwitch (s : State) : Out :=
  .next (
    let q := s.cur.port
    if !(s.fabric.port q).switchDue then s
    else (s.onPort q fun x => { x with keyGen := x.keyGen + 1, keyFrames := 0, switchAt := none }).flushHeader q)

/-- A port is failed (R169). -/
def execLinkFail (s : State) : Out := .next (s.failPort s.cur.port)

/-- Software asks for retraining of a failed port (R169, R170). -/
def execPstatRetrain (s : State) : Out :=
  .next (s.onPort s.cur.port fun x => if x.st = 3 then { x with st := 1 } else x)

/-- Whether this module, the time master, must send TIME (R166). -/
def State.timeDue (s : State) : Bool :=
  s.isMaster && decide (s.fabric.timeSent + 4096 ≤ s.gtc) && (List.range 31).any s.fabric.live

/-- Every 4096 ticks the time master sends TIME on each live row port (R166). -/
def execTimeSend (s : State) : Out :=
  .next (if s.timeDue then ({ s with fabric := { s.fabric with timeSent := s.gtc } }).timeOut true else s)

/-- A TIME packet, by the time fields of a frame on a live port (R167). -/
def execTimePacket (port tgtc tph phase : Nat) (s : State) : Out :=
  .next (if s.fabric.live port then s.applyTime port tgtc tph phase else s)

/-- Whether time is lost for want of TIME (R167); the master receives none and misses none (log entry 144). -/
def State.timeGone (s : State) : Bool :=
  !s.isMaster && decide (s.fabric.timeSeen + 2 ^ 24 ≤ s.gtc) && !s.fabric.tlost

/-- No TIME for 2^24 ticks: time is lost (R167). -/
def execTimeLostTimeout (s : State) : Out :=
  .next (if s.timeGone then ({ s with fabric := { s.fabric with tlost := true } }).postTimeLost else s)

/-! ## The Staff and the Siding lane (R153 to R156) -/

/-- Whether a port's detector is due (R153). -/
def Port.stuckSince (x : Port) (now : Nat) : Bool :=
  !x.fired && x.pool.head?.any fun h => decide (h.at' + 4096 ≤ now)

/-- A detector fires when the oldest packet of its pool has not moved for 4096 ticks (R153). -/
def execDetectorFire (s : State) : Out :=
  .next (s.onPort s.cur.port fun x =>
    if x.stuckSince s.gtc then { x with fired := true, detf := (x.detf + 1) % 2 ^ 16 } else x)

/-- The module to which the Staff goes next: the present one with the next higher peer id, after the highest the
lowest (R154). -/
def State.nextStaff (s : State) : Nat :=
  match s.modules.filter fun p => decide (s.peerId < p) with
  | p :: ps => ps.foldl min p
  | [] => s.master

/-- The Staff is passed on (R154). -/
def State.passStaff (s : State) : State :=
  let dst := s.nextStaff
  let s := { s with fabric := { s.fabric with holding := none, record := [] } }
  if dst = s.peerId then s
  else s.inject
    { type := 0x12, urg := false, sid := true, det := false, npay := 0, hops := 0, src := s.peerId
      dst := dst, via := dst, score := 0, asid := 0, va := 0, task := 0, tag := 0, colmask := 0
      group := 0, aop := 0, rel := false, lenm1 := 0, opa := 0, opb := 0, status := 0
      aux := s.fabric.epoch, payload := [] }

/-- The packets in the pools of fired ports, oldest first (R154). -/
def State.stuck (s : State) : List (Nat × Packet) :=
  let all := s.fabric.ports.flatMap fun e =>
    if e.2.fired then e.2.pool.map fun h => (h.at', e.1, h.pkt) else []
  (all.foldl (fun acc e => (acc.takeWhile fun x => decide (x.1 ≤ e.1)) ++ [e]
    ++ acc.dropWhile fun x => decide (x.1 ≤ e.1)) []).map fun e => (e.2.1, e.2.2)

/-- The Staff that waits at its home in the Siding pool of a port. -/
def State.staffHere (s : State) (epoch : Nat) : Option (Nat × Packet) :=
  s.fabric.ports.findSome? fun e =>
    (e.2.siding.find? fun h => h.pkt.type == 0x12 && s.atHome h.pkt && h.pkt.aux % 2 ^ 32 == epoch).map fun h => (e.1, h.pkt)

/-- The Staff arrives and leaves the Siding pool (R154, R156): a lower epoch is discarded; with no detector fired
it is passed on, else this module is the holder. -/
def execStaffPacket (epoch : Nat) (s : State) : Out :=
  .next (
    match s.staffHere epoch with
    | none => s
    | some (q, p) =>
      let s := s.freePool q p
      if epoch < s.fabric.epoch then s
      else
        let s := { s with fabric := { s.fabric with epoch := epoch, staffSeen := s.gtc } }
        if s.fabric.ports.any fun e => e.2.fired then
          { s with fabric := { s.fabric with holding := some s.gtc, record := s.stuck } }
        else s.passStaff)

/-- A recorded packet as its pool holds it now. -/
def State.pooled (s : State) (k : Nat) (p : Packet) : Packet :=
  (((s.fabric.port k).pool.find? fun h => samePkt h.pkt p).map (·.pkt)).getD p

/-- A packet waits in no output queue any more. -/
def State.unqueue (s : State) (k : Nat) (p : Packet) : State :=
  { s with fabric := { s.fabric with ports := s.fabric.ports.map fun e =>
      (e.1, e.2.withQueue s.gtc (e.2.queue.filter fun h => !(h.pool == some k && samePkt h.pkt p))) } }

/-- The holder moves its first recorded packet into the Siding lane once there is allowance on its
Siding route; with an empty record it passes the Staff on (R154, R155). One whose home is here takes no route:
it is performed from its pool (log entry 16). -/
def execSidingDrain (s : State) : Out :=
  .next (
    if s.fabric.holding.isNone then s
    else if s.fabric.record = [] then s.passStaff
    else match s.fabric.record.find? fun e => e.2.dst != s.peerId with
      | none => s
      | some (k, p) =>
        let p := s.pooled k p
        match s.sidingPort p.dst with
        | none => (s.unqueue k p).unreachable { pkt := p, at' := s.gtc, pool := some k }
        | some q =>
          let sp := { unrouted p with sid := true }
          if !(s.fabric.port q).allows sp then s
          else
            let s := ((s.unqueue k p).freePool k p).onPort k fun x => { x with drains := (x.drains + 1) % 2 ^ 16 }
            let h : Held := { pkt := sp, at' := s.gtc, pool := none }
            let s := (s.onPort q fun x => x.withQueue s.gtc (h :: x.queue)).pumpAll q
            if s.fabric.record.isEmpty then s.passStaff else s)

/-- Whether the holder's time is over (R154). -/
def State.staffOver (s : State) : Bool := s.fabric.holding.any fun t => decide (t + 65536 ≤ s.gtc)

/-- The holder passes the Staff on 65,536 ticks after it took it (R154). -/
def execStaffHoldTimeout (s : State) : Out :=
  .next (
    if s.staffOver then s.passStaff else s)

/-- Whether the Staff is missed (R156). -/
def State.staffGone (s : State) : Bool := s.isMaster && decide (s.fabric.staffSeen + 67222656 ≤ s.gtc)

/-- A master that has not seen the Staff for 67,222,656 ticks issues a new one (R156). -/
def execStaffRegenerate (s : State) : Out :=
  .next (
    if s.staffGone then
      let s := { s with fabric := { s.fabric with epoch := (s.fabric.epoch + 1) % 2 ^ 32, staffSeen := s.gtc } }
      s.passStaff
    else s)

end Sys2Proof.Machine
end

