-- ==== Sys2Proof/Machine/Xlate.lean ====
section
/-!
DEFINITION. The physical address space, the address-space table, the hashed page table and its
walker, the translation caches, frame tags, the dirty log and the access counts (06, R127 to R140),
and memory under a key (17, R458 to R461).
-/

namespace Sys2Proof.Machine

/-! ## Physical addresses (Table 6.6) -/

/-- Bytes of an HBM stack. -/
def stackBytes : Nat := 36 * 2 ^ 30

/-- Whether a stack is in service: its die is released, it has trained and is not retired. -/
def State.stackOk (s : State) (k : Nat) : Bool := (s.die k).present && (s.die k).hbmOk

/-- Whether a physical address lies in a populated range (Table 6.6). -/
def State.populated (s : State) (pa : Nat) : Bool :=
  if pa < 32 * stackBytes then s.stackOk (pa / stackBytes)
  else if pa < 2 ^ 42 then false
  else if pa < 2 ^ 43 then decide (pa - 2 ^ 42 < s.board.ddrGiB * 2 ^ 30)
  else decide (pa < 2 ^ 44)

/-- Whether a frame lies among the data lines of the ENCI range of its stack (R461). -/
def State.enciFrame (s : State) (pa : Nat) : Bool :=
  let e := s.trust.encir.get 0 (pa / stackBytes)
  let base := bits e 13 0 * 2 ^ 30
  decide (pa < 32 * stackBytes) && decide (base ≤ pa) && decide (pa < base + bits e 35 32 * (7 * 2 ^ 27))

/-- `n` little-endian bytes at a physical address. -/
def State.paNum (s : State) (pa n : Nat) : Nat := s.num (s.paFlat pa) n

/-! ## The address-space table (Table 6.7) -/

/-- An address-space entry. -/
structure AstEntry where
  logb  : Nat
  hptb  : Nat
  dlb   : Nat
  dlogn : Nat
  head  : Nat
  tail  : Nat
  slot  : Nat
deriving DecidableEq, Repr

/-- Where the entry of an address space lies. -/
def State.astAt (s : State) (asid : Nat) : Nat := s.regs.astb + 64 * asid

/-- The entry of an address space, if it counts as valid (R128). -/
def State.ast (s : State) (asid : Nat) : Option AstEntry :=
  let a := s.astAt asid
  let w0 := s.paNum a 8
  let w1 := s.paNum (a + 8) 8
  let w3 := s.paNum (a + 0x18) 4
  let k := s.paNum (a + 0x24) 4
  let logb := bits w0 5 1
  let n := bits w3 4 0
  if bit w0 0 && decide (8 ≤ logb) && decide (logb ≤ 28) && decide (10 ≤ n) && decide (n ≤ 24)
      && bits w0 63 6 == 0 && bits w1 63 44 == 0 && bits w1 6 0 == 0 && bits w3 31 5 == 0
      && bits k 31 8 == 0 && s.paNum (a + 0x28) 24 == 0 then
    some { logb := logb, hptb := w1, dlb := s.paNum (a + 0x10) 8, dlogn := n
           head := s.paNum (a + 0x1C) 4, tail := s.paNum (a + 0x20) 4, slot := k }
  else none

/-! ## The hashed page table (R129 to R131) -/

/-- The first bucket of a virtual address (R129). -/
def firstBucket (asid va logb : Nat) : Nat :=
  let h := Nat.xor (bits va 51 21 * 0x9E3779B97F4A7C15 % 2 ^ 64)
    (asid * 0xC2B2AE3D27D4EB4F % 2 ^ 64)
  h / 2 ^ (64 - logb)

/-- A page-table entry as read: its two words and its physical address. -/
structure Pte where
  lo : Nat
  hi : Nat
  at' : Nat
deriving DecidableEq, Repr

/-- Whether an entry's low word matches an address (R131). -/
def pteMatches (lo asid va : Nat) : Bool :=
  bit lo 0 && bits lo 21 10 == asid
    && (if bit lo 1 then bits lo 57 27 == bits va 51 21 else bits lo 57 22 == bits va 51 16)

/-- A matching entry that completes the access with PERM (R131). -/
def pteBad (lo hi : Nat) : Bool :=
  bits lo 63 58 != 0 || bits hi 63 48 != 0 || bits lo 9 8 == 3
    || (bit lo 1 && (bits hi 4 0 != 0 || bits lo 26 22 != 0))
    || (bits lo 7 6 == 0 && bits hi 36 28 != 0) || (bits lo 7 6 != 0 && bits lo 9 8 != 0)

/-- The walk over the buckets that are left (R131). -/
def State.probe (s : State) (e : AstEntry) (asid va first : Nat) : Nat → Option Pte
  | 0 => none
  | left + 1 =>
    let b := e.hptb + 128 * ((first + (7 - left)) % 2 ^ e.logb)
    let lo (k : Nat) : Nat := s.paNum (b + 16 * k) 8
    match (List.range 8).find? fun k => pteMatches (lo k) asid va with
    | some k => some { lo := lo k, hi := s.paNum (b + 16 * k + 8) 8, at' := b + 16 * k }
    | none =>
      if (List.range 8).any fun k => !bit (lo k) 0 && !bit (lo k) 5 then none
      else s.probe e asid va first left

/-- The entry that the walk returns (R131). -/
def State.walk (s : State) (e : AstEntry) (asid va : Nat) : Option Pte :=
  s.probe e asid va (firstBucket asid va e.logb) 8

/-! ## Memory under a key (R460, R461) -/

/-- Whether a byte cannot be read under a key: uncorrectable data, or an ENCI line whose tag does
not check. -/
def State.sealBad (s : State) (key a : Nat) : Bool :=
  s.isBad a 1
    || (key != 0 && key % 2 == 0 && s.trust.counters.get 0 (a / 128) != 0
        && (match s.trust.seals.get none (a / 128) with
            | none => true
            | some x => x.key != key))

/-- Whether the line of a byte has no counter left for a write under an ENCI key (R460). -/
def State.counterFull (s : State) (key a : Nat) : Bool :=
  key != 0 && key % 2 == 0 && decide (2 ^ 56 - 1 ≤ s.trust.counters.get 0 (a / 128))

/-- A line brought under a key before some of its bytes are written: what no write covers keeps
the value it reads as under that key; an ENCI line counts the write (R460, R461). -/
def State.reseal (s : State) (key : Nat) (cs : List (Nat × Byte)) (line : Nat) : State :=
  let held := match s.trust.seals.get none line with
    | none => 0
    | some x => x.key
  let enci := decide (key ≠ 0) && key % 2 == 0
  let ctr := s.trust.counters.get 0 line
  let rest := if held = key ∧ !(enci && ctr == 0) then []
    else (List.range 128).filterMap fun i =>
      let a := 128 * line + i
      if cs.any fun c => c.1 == a then none else some (a, s.under key a)
  let s := s.write rest
  let x : Option Seal := if key = 0 then none
    else some { gen := (key - 1) / 2, enci := enci, ctr := if enci then ctr + 1 else 0 }
  { s with trust := { s.trust with
      seals := s.trust.seals.set none line x
      counters := if enci then s.trust.counters.set 0 line (ctr + 1) else s.trust.counters } }

/-- A write of bytes under a key (R460). -/
def State.writeUnder (s : State) (key : Nat) (cs : List (Nat × Byte)) : State :=
  let lines := (cs.map fun c => c.1 / 128).eraseDups
  if key = 0 ∧ lines.all (fun l => s.trust.seals.get none l == none) then s.write cs
  else (lines.foldl (fun s l => s.reseal key cs l) s).write cs

/-- Little-endian bytes written in plaintext at a physical address. -/
def State.paWrite (s : State) (pa n v : Nat) : State :=
  s.writeUnder 0 (cellsAt (s.paFlat pa) (leBytes n v))

/-! ## Where a translated access goes (R134, R135) -/

/-- What a translation gives. -/
inductive Xlat where
  | go (t : Target)
  | bad (status : Nat)
  /-- Not present. -/
  | absent
  /-- The write needs an entry of the dirty log, which is full (R139). -/
  | full
deriving DecidableEq, Repr

/-- The key of a frame of an address space: 0 for CLR; none where its slot is EMPTY (R458). -/
def State.keyFor (s : State) (slot conf : Nat) : Option Nat :=
  if conf = 0 then some 0
  else (s.trust.keySlots.get none slot).map fun k => 2 * k.gen + conf

/-- The tag of a frame of an entry (R135): CONF, and the address space for ENC and ENCI. -/
def frameTag (conf asid : Nat) : Nat := 1 + conf + (if conf = 0 then 0 else 4 * asid)

/-- A clear tag of a frame of installed memory set from an entry that a walk has returned (R135). -/
def State.tagFrame (s : State) (frame tag : Nat) : State :=
  if s.tags.get 0 frame = 0 ∧ frame < 2 ^ 27 then { s with tags := s.tags.set 0 frame tag } else s

/-- The checks of a matching entry for an access, and the frame tag set from it, whatever else the entry
withholds (R131, R127, R135, R458, R461). -/
def State.useEntry (s : State) (e : AstEntry) (asid va : Nat) (p : Pte) (write : Bool) :
    Xlat × State :=
  let conf := bits p.lo 9 8
  let mode := bits p.lo 7 6
  let frame := bits p.hi 27 0 + (if bit p.lo 1 then bits va 20 16 else 0)
  let pa := frame * 2 ^ 16
  let denied := !(if write then bit p.lo 3 else bit p.lo 2)
  if pteBad p.lo p.hi then (.bad 4, s)
  else if mode ≠ 0 then
    (if denied then .bad 4 else .go { mode := mode, peer := bits p.hi 36 28, base := pa, key := 0 }, s)
  else if !s.populated pa then (.bad 4, s)
  else
    let tag := frameTag conf asid
    let s1 := s.tagFrame frame tag
    match s.keyFor e.slot conf with
    | none => (.bad 4, s1)
    | some key =>
      if denied || (conf == 2 && !s.enciFrame pa) then (.bad 4, s1)
      else if pa < 2 ^ 43 ∧ s1.tags.get 0 frame ≠ tag then (.bad 5, s)
      else (.go { mode := 0, peer := 0, base := pa, key := key }, s1)

/-! ## Dirty tracking (R138, R139) -/

/-- DLTAIL of an address space as the port units last read it. -/
def State.tailOf (s : State) (asid : Nat) (e : AstEntry) : Nat :=
  let t := s.dlTail.get 0 asid
  if t = 0 then e.tail else t - 1

/-- Whether the dirty log has room (R139). -/
def State.logRoom (s : State) (asid : Nat) (e : AstEntry) : Bool :=
  (e.head + 2 ^ 32 - s.tailOf asid e) % 2 ^ 32 != 2 ^ e.dlogn

/-- The dirty-log entry of a page-table entry (Table 6.10). -/
def logEntry (p : Pte) (seq : Nat) : List Byte :=
  leBytes 8 (bits p.hi 36 28 * 2 ^ 30 + b2n (bits p.lo 7 6 != 0) * 2 ^ 29 + b2n (bit p.lo 1) * 2 ^ 28
      + bits p.hi 27 0)
    ++ leBytes 8 seq

/-- D set in memory and the entry logged (R138). -/
def State.markDirty (s : State) (asid : Nat) (e : AstEntry) (p : Pte) : State :=
  let s := s.paWrite p.at' 8 (p.lo + 16)
  let s := { s with dlTail := s.dlTail.set 0 asid (s.tailOf asid e + 1) }
  let s := s.writeAt (hostBase + (e.dlb + 16 * (e.head % 2 ^ e.dlogn)) % 2 ^ 64) (logEntry p e.head)
  s.paWrite (s.astAt asid + 0x1C) 4 ((e.head + 1) % 2 ^ 32)

/-! ## Access counts (R140) -/

/-- Threshold MTH(i). -/
def State.threshold (s : State) (i : Nat) : Nat := bits s.mth.toNat (8 * i + 7) (8 * i)

/-- `n` accesses added to the count of the entry at `pa`, if it still matches; a MIGRATE entry
that reaches its threshold posts an event to the firmware of die `d`. -/
def State.addCount (s : State) (d asid va pa n : Nat) : State :=
  let lo := s.paNum pa 8
  let hi := s.paNum (pa + 8) 8
  if n = 0 ∨ !pteMatches lo asid va ∨ pteBad lo hi then s
  else
    let old := bits hi 44 37
    let new := min 255 (old + n)
    let s := s.paWrite (pa + 8) 8 (hi - old * 2 ^ 37 + new * 2 ^ 37)
    let m := s.threshold (bits hi 47 45)
    if bits lo 7 6 = 3 ∧ old < m ∧ m ≤ new then
      let s := { s with nextEvent := (s.nextEvent + 1) % 2 ^ 32 }
      s.post (s.dieCore d) 4 (BitVec.ofNat 64 va) (BitVec.ofNat 64 asid) (BitVec.ofNat 64 s.nextEvent)
    else s

/-! ## The translation caches (R133) -/

/-- Whether a cached translation serves an address. -/
def TlbEntry.serves (e : TlbEntry) (asid va : Nat) : Bool :=
  e.asid == asid && (if e.size = 0 then e.va / 2 ^ 16 == va / 2 ^ 16 else e.va / 2 ^ 21 == va / 2 ^ 21)

/-- The entry as the walk read it. -/
def TlbEntry.pteOf (e : TlbEntry) : Pte := { lo := e.lo, hi := e.hi, at' := e.pte }

/-- The cached translations of core `p`. -/
def State.tlb (s : State) (p : Nat) : List TlbEntry := (s.core p).tlb

/-- A write-back of what an entry has gathered, down to `keep`. -/
def State.flushCount (s : State) (p : Nat) (e : TlbEntry) : State :=
  s.addCount (p / 32) e.asid e.va e.pte e.count

/-- Translations that leave the cache of core `p` write back their counts (R140). -/
def State.dropTlb (s : State) (p : Nat) (gone : TlbEntry → Bool) : State :=
  let out := (s.tlb p).filter gone
  let s := s.onCore p fun c => { c with tlb := c.tlb.filter fun e => !gone e }
  out.foldl (fun s e => s.flushCount p e) s

/-- A translation entered in the cache of core `p` as the one used last, with `n` accesses it has
served; a whole sixteen of its count is written back, and the least recently used of 96 leaves. -/
def State.useTlb (s : State) (p : Nat) (e : TlbEntry) (n : Nat) : State :=
  let total := e.count + n
  let s := s.addCount (p / 32) e.asid e.va e.pte (total / 16 * 16)
  let rest := (s.tlb p).filter fun x => !x.serves e.asid e.va
  let out := (({ e with count := total % 16 } :: rest).drop 96)
  let s := s.onCore p fun c => { c with tlb := ({ e with count := total % 16 } :: rest).take 96 }
  out.foldl (fun s x => s.flushCount p x) s

/-- The translation of an address for core `p`, from its cache or by a walk; `n` is the number of
access pieces it serves, 0 for none (R131 to R140). The walk restarts when the entry has changed
under a write that must mark it. -/
def State.xlate (s : State) (p asid va : Nat) (write : Bool) (n : Nat) : Nat → Xlat × State
  | 0 => (.absent, s)
  | fuel + 1 =>
    match s.ast asid with
    | none => (.bad 4, s)
    | some e =>
      let hit := (s.tlb p).find? fun x => x.serves asid va
      let found : Option TlbEntry := match hit with
        | some x => some x
        | none => (s.walk e asid va).map fun (q : Pte) =>
            { asid := asid, va := if bit q.lo 1 then va / 2 ^ 21 * 2 ^ 21 else va / 2 ^ 16 * 2 ^ 16
              size := b2n (bit q.lo 1), lo := q.lo, hi := q.hi, pte := q.at', count := 0 }
      match found with
      | none => (.absent, s)
      | some x =>
        match s.useEntry e asid va x.pteOf write with
        | (.go t, s1) =>
          if !write || bit x.lo 4 then (.go t, s1.useTlb p x n)
          else
            let lo := s.paNum x.pte 8
            let hi := s.paNum (x.pte + 8) 8
            if s.walk e asid va ≠ some { lo := lo, hi := hi, at' := x.pte } then
              (s.dropTlb p fun y => y.serves asid va).xlate p asid va write n fuel
            else if pteBad lo hi then (.bad 4, s1)
            else if bit lo 4 then (.go t, s1.useTlb p { x with lo := lo } n)
            else if !s.logRoom asid e then (.full, s1)
            else
              let s2 := s1.markDirty asid e { x.pteOf with lo := lo }
              (.go t, s2.useTlb p { x with lo := lo + 16 } n)
        | r => r

/-- The translation of an address for core `p`. -/
def State.translate (s : State) (p asid va : Nat) (write : Bool) (n : Nat) : Xlat × State :=
  s.xlate p asid va write n 3

/-- The translation of an address for no core's cache: the front end's, and that of a packet at its
home (R136, R399), which counts the `n` access pieces it serves at once (R140). -/
def State.translateHere (s : State) (asid va : Nat) (write : Bool) (n : Nat) : Xlat × State :=
  match s.ast asid with
  | none => (.bad 4, s)
  | some e =>
    match s.walk e asid va with
    | none => (.absent, s)
    | some q =>
      match s.useEntry e asid va q write with
      | (.go t, s1) =>
        if !write || bit q.lo 4 || t.mode != 0 then (.go t, s1.addCount 0 asid va q.at' n)
        else if !s.logRoom asid e then (.full, s1)
        else (.go t, (s1.markDirty asid e q).addCount 0 asid va q.at' n)
      | r => r

/-! ## Pauses (R132, R139) -/

/-- A new event id, with the walk that waits for it. -/
def State.newWalk (s : State) (p eng asid va : Nat) (full : Bool) : Nat × State :=
  let ev := (s.nextEvent + 1) % 2 ^ 32
  (ev, { s with nextEvent := ev
                walks := s.walks ++ [{ event := ev, core := p, eng := eng, asid := asid, va := va, full := full }] })

/-- The event of a page that is not present, or of a dirty log that is full, for engine `eng` of
core `p` (Table 8.2). -/
def State.pauseEvent (s : State) (p eng asid va : Nat) (write full : Bool) : Nat × State :=
  let (ev, s) := s.newWalk p eng asid va full
  let s1 : Nat := if full then 0 else va
  let s2 : Nat := if full then asid else b2n write * 2 ^ 25 + eng * 2 ^ 22 + p * 2 ^ 12 + asid
  (ev, s.post (s.dieCore (p / 32)) (if full then 3 else 2) (BitVec.ofNat 64 s1) (BitVec.ofNat 64 s2)
    (BitVec.ofNat 64 ev))

/-- A translation leaves the cache of core `phys`, and its gathered count is written back (R133,
R140). -/
def execAcntWriteback (phys asid va : Nat) (s : State) : Out :=
  .next (s.dropTlb phys fun e => e.serves asid va)

/-! ## Invalidation (R137) -/

/-- Whether an invalidation names a translation. -/
def invalidates (kind asid va : Nat) (e : TlbEntry) : Bool :=
  match kind with
  | 0 => e.serves asid va
  | 1 => e.asid == asid && e.va / 2 ^ 21 == va / 2 ^ 21
  | 2 => e.asid == asid
  | _ => true

/-- An invalidation written: at most 16 are pending, and a further write is held. -/
def State.invalidate (s : State) (kind asid va : Nat) : State :=
  { s with regs :=
      if s.regs.xinvPend.length < 16 then
        { s.regs with xinvPend := s.regs.xinvPend ++ [(kind, asid, va)] }
      else { s.regs with xinvHeld := s.regs.xinvHeld ++ [(kind, asid, va)] } }

/-- XINV_CTL with KIND 0. -/
def execXinvPage64k (asid va : Nat) (s : State) : Out := .next (s.invalidate 0 asid va)

/-- XINV_CTL with KIND 1. -/
def execXinvPage2m (asid va : Nat) (s : State) : Out := .next (s.invalidate 1 asid va)

/-- XINV_CTL with KIND 2. -/
def execXinvAsid (asid : Nat) (s : State) : Out := .next (s.invalidate 2 asid 0)

/-- XINV_CTL with KIND 3. -/
def execXinvAll (s : State) : Out := .next (s.invalidate 3 0 0)

/-- Whether no access of a core has been translated and not yet performed: no segment of its pre-translated
pages has still to move, every store has been injected, and every fabric write has been acknowledged, those
that went into the fabric cache included; no read awaits its answer (R72, R137, R141). -/
def Core.performedAll (c : Core) : Bool :=
  !c.sceS.ack.any (·.local?) && c.sceS.dirt.isEmpty && c.sceS.slots.all (fun x => x.pend.isEmpty)
    && c.lceS.reads.isEmpty && c.lceS.slots.all fun x => x.phase == .done || x.pre.isNone

/-- Whether every access that the address space of an invalidation has translated has been performed. -/
def State.quietSpace (s : State) (kind asid : Nat) : Bool :=
  s.cores.all fun e => (kind != 3 && ((s.taskOf e.1).map (·.asid)) != some asid) || e.2.performedAll

/-- The oldest pending invalidation completes: its translations leave every cache, and XINV_DONE
advances; accesses already translated are performed first (R137). -/
def execXinvComplete (s : State) : Out :=
  .next (
    match s.regs.xinvPend with
    | [] => s
    | (kind, asid, va) :: rest =>
      if !s.quietSpace kind asid then s
      else
        let s := (s.cores.map Prod.fst).foldl (fun s p => s.dropTlb p (invalidates kind asid va)) s
        { s with regs := { s.regs with
            xinvPend := rest ++ s.regs.xinvHeld.take 1
            xinvHeld := s.regs.xinvHeld.drop 1
            xinvDone := (s.regs.xinvDone + 1) % 2 ^ 32 } })

/-- DLKICK: the port units reread DLTAIL, and writes that wait for room go on (R137, R139). -/
def execDlkick (asid : Nat) (s : State) : Out :=
  .next (
    match s.ast asid with
    | none => s
    | some e =>
      let s := { s with dlTail := s.dlTail.set 0 asid (e.tail + 1) }
      if !s.logRoom asid e then s
      else ((s.walks.filter fun w => w.full && w.asid == asid).map (·.event)).foldl
        (fun s ev => s.retryEvent ev) s)

/-- FTTCLR clears frame tags (R135). -/
def execFttclr (first count : Nat) (s : State) : Out :=
  .next { s with tags := s.tags.clear first (first + count) }

/-- ENCIR(s) written (R461): ignored while a frame of the old range has its tag set; else the
counters of the range become zero. -/
def execEncirWrite (stack value : Nat) (s : State) : Out :=
  .next (
    let old := s.trust.encir.get 0 stack
    let lo (e : Nat) : Nat := bits e 13 0 * 2 ^ 30
    let hi (e : Nat) : Nat := lo e + bits e 35 32 * 2 ^ 30
    if 32 ≤ stack ∨ s.tags.any fun t => decide (lo old / 2 ^ 16 ≤ t.1) && decide (t.1 < hi old / 2 ^ 16) then s
    else
      let v := bits value 35 32 * 2 ^ 32 + bits value 13 0
      { s with trust := { s.trust with
          encir := s.trust.encir.set 0 stack v
          counters := s.trust.counters.clear (lo v / 128) (hi v / 128) } })

end Sys2Proof.Machine
end

