-- ==== Sys2Proof/Machine/Home.lean ====
section
/-!
DEFINITION. Packets performed at their home: stores, reads, atomics and multicast copies (07,
R136, R146, R164, R165; 13, R358).
-/

namespace Sys2Proof.Machine

/-- The bytes a WR, MCW or RDR packet carries (R146). -/
def pktData (p : Packet) : List Byte := (p.payload.flatMap (leBytes 64)).take (p.lenm1 + 1)

/-- Bytes as payload flits, zeros behind the last one (R146). -/
def flitsOf (bs : List Byte) : List Nat := (pieces 64 bs.length bs).map leNat

/-- Whether a packet that has reached its home can be performed (R151, R155): one injected here, one of a Siding
pool, or one of a main pool once no Siding packet waits here. -/
def State.arrived (s : State) (p : Packet) : Bool :=
  let ps := s.fabric.ports
  s.atHome p
    && (s.fabric.route.any (fun h => h.pkt == p) || ps.any (fun e => e.2.siding.any fun h => h.pkt == p)
      || (ps.any (fun e => e.2.pool.any fun h => h.pkt == p)
        && !ps.any fun e => e.2.siding.any fun h => s.atHome h.pkt))

/-- A packet leaves what held it: a receive pool, or the list of packets injected here. -/
def State.takePacket (s : State) (p : Packet) : State :=
  let s := (s.fabric.ports.map Prod.fst).foldl (fun s q => s.freePool q p) s
  { s with fabric := { s.fabric with route := s.fabric.route.eraseP fun h => h.pkt == p } }

/-- A BAR packet (R200): an arrival is counted at the master, a release departs the barrier here. -/
def execBarPacket (p : Packet) (s : State) : Out :=
  .next (
    if !s.arrived p then s
    else
    let s := s.takePacket p
    let nmem := p.opb % 2 ^ 17
    let rop := if bit p.opb 21 then some (bits p.opb 20 18) else none
    let x := s.podRec p.task p.tag
    if bit p.opb 17 then
      s.podDepart x (match rop with | none => .none | some k => .value k (BitVec.ofNat 64 p.opa)) (s.podCount p.task)
    else
      let x := { x with arrived := x.arrived ++ [{ peer := p.src, nmem := nmem, rop := rop
                                                   value := BitVec.ofNat 64 p.opa }] }
      (s.setPodRec x).podRelease x)

/-- A response that no packet awaits is discarded and counted in LERR (R160). -/
def State.lateResponse (s : State) (p : Packet) : State :=
  { s with fabric := { s.fabric with ports := s.fabric.ports.map fun e =>
      (e.1, if (e.2.pool ++ e.2.siding).any fun h => h.pkt == p then
        { e.2 with lerr := (e.2.lerr + 1) % 2 ^ 16 } else e.2) } }

/-- The packet counted in the receive commitments of its task, or as an orphan (R358); a capture run holds no
task id toward the fabric (R385). -/
def State.countRecv (s : State) (p : Packet) : State :=
  match (if s.isCapture p.task then none else s.task? p.task) with
  | none => { s with regs := { s.regs with rxorph := (s.regs.rxorph + 1) % 2 ^ 64 } }
  | some t =>
    let c := (t.recv.get Commit.zero p.src).add p
    s.setTask p.task (some { t with recv := t.recv.set Commit.zero p.src c })

/-- The access pieces of a packet: the sectors its bytes touch (R61, R140). -/
def pktPieces (p : Packet) : Nat := (p.va + p.lenm1) / 32 - p.va / 32 + 1

/-- What a home finds for a packet's address. -/
inductive HomeXlat where
  | go (a key : Nat)
  | refused
  /-- The write waits for room in the dirty log (R139). -/
  | wait
deriving DecidableEq, Repr

/-- The place of a packet's bytes in the flat memory (R134, R136): every failure at the home is
ACCESS, a frame under a key is not addressable from another module (R135), and a write waits while
the dirty log has no room. -/
def State.homePlace (s : State) (p : Packet) (write : Bool) : HomeXlat × State :=
  if p.phys then
    if s.populated p.va && decide (s.tags.get 0 (p.va / 2 ^ 16) ≤ 1) then (.go (s.paFlat p.va) 0, s)
    else (.refused, s)
  else
    match s.translateHere p.asid p.va write (pktPieces p) with
    | (.go t, s') =>
      if t.mode = 0 then (.go (s.paFlat (t.base + p.va % 2 ^ 16)) t.key, s') else (.refused, s)
    | (.full, _) => (.wait, s)
    | _ => (.refused, s)

/-- The addresses of `n` bytes. -/
def span (a n : Nat) : List Nat := (List.range n).map (a + ·)

/-- A store performed at its home: its status, 0 or ACCESS; none while it waits. -/
def State.homeStore (s : State) (p : Packet) : Option Nat × State :=
  match s.homePlace p true with
  | (.wait, s) => (none, s)
  | (.refused, s) => (some 7, s)
  | (.go a key, s) =>
    if s.counterFull key a then (some 7, s)
    else (some 0, s.writeUnder key (cellsAt a (pktData p)))

/-- WR (R146, R136): the store is performed, counted and answered by ACK. -/
def execWrPacket (p : Packet) (s : State) : Out :=
  .next (
    if !s.arrived p then s
    else match s.homeStore p with
      | (none, _) => s
      | (some st, s) => ((s.takePacket p).countRecv p).inject (answerOf p s.peerId st 0 []))

/-- RD (R146, R136): the bytes are read and answered by RDR. -/
def execRdPacket (p : Packet) (s : State) : Out :=
  .next (
    if !s.arrived p then s
    else
      let n := p.lenm1 + 1
      let (r, s) := s.homePlace p false
      let s := s.takePacket p
      match r with
      | .go a key =>
        if (span a n).any (s.sealBad key) then s.inject (answerOf p s.peerId 8 0 [])
        else s.inject (answerOf p s.peerId 0 0 (flitsOf ((span a n).map (s.under key))))
      | _ => s.inject (answerOf p s.peerId 7 0 []))

/-- The new value of a fabric atomic (R253): for CAS `y` is the swap value and `z` the compare
value; else `z` is the operand. -/
def fatNew (aop : Nat) (old z y : Word) : Word :=
  match aop with
  | 4 => atmNew 4 false old y z
  | 5 => atmNew 1 true old z 0
  | 6 => atmNew 2 true old z 0
  | k => atmNew k false old z 0

/-- A fabric atomic performed at its home: status and old value; none while it waits. -/
def State.homeAtomic (s : State) (p : Packet) : Option (Nat × Word) × State :=
  match (s.homePlace p false).1 with
  | .go _ _ =>
    match s.homePlace p true with
    | (.wait, s) => (none, s)
    | (.refused, s) => (some (7, 0), s)
    | (.go a key, s) =>
      if (span a 8).any (s.sealBad key) then (some (8, 0), s)
      else if s.counterFull key a then (some (7, 0), s)
      else
        let old := BitVec.ofNat 64 (leNat ((span a 8).map (s.under key)))
        let new := fatNew p.aop old (BitVec.ofNat 64 p.opa) (BitVec.ofNat 64 p.opb)
        (some (0, old), s.writeUnder key (cellsAt a (leBytes 8 new.toNat)))
  | _ => (some (7, 0), s)

/-- ATM (R253): the read-modify-write is performed, counted and answered by ATR. -/
def execAtmPacket (p : Packet) (s : State) : Out :=
  .next (
    if !s.arrived p then s
    else match s.homeAtomic p with
      | (none, _) => s
      | (some (st, old), s) =>
        ((s.takePacket p).countRecv p).inject (answerOf p s.peerId st old.toNat []))

/-! ## Multicast (R164, R165) -/

/-- A negative entry of an aggregate (Table 7.6). -/
def nakEntry (e : Nat × Nat) : Nat := 2 ^ 15 + e.2 * 2 ^ 12 + e.1

/-- A list of negative members with a new one, by peer id; ACCESS prevails over LINK (R252). -/
def addNak (xs : List (Nat × Nat)) (peer why : Nat) : List (Nat × Nat) :=
  match xs with
  | [] => [(peer, why)]
  | (q, w) :: r =>
    if peer < q then (peer, why) :: (q, w) :: r
    else if peer = q then (q, if w = 1 ∨ why = 1 then 1 else max w why) :: r
    else (q, w) :: addNak r peer why

/-- The four words of NAKE for the lowest negative members (Table 7.6). -/
def nakeWord (naks : List (Nat × Nat)) : Nat :=
  ((naks.take 4).mapIdx fun i e => nakEntry e * 2 ^ (16 * i)).sum

/-- The members of a bitmap, lowest first. -/
def membersOf (m : Nat) : List Nat := (List.range 512).filter fun i => bit m i

/-- The bitmap of some members. -/
def mapOf (ps : List Nat) : Nat := (ps.map fun p => 2 ^ p).sum

/-- The negative members that an MCA reports: those of NAKMAP with the reasons of NAKE. -/
def mcaNaks (p : Packet) : List (Nat × Nat) :=
  (membersOf (p.payload.headD 0)).map fun q =>
    let es := (List.range 4).map fun i => bits p.opb (16 * i + 15) (16 * i)
    match es.find? fun e => bit e 15 && bits e 8 0 == q with
    | some e => (q, bits e 14 12)
    | none => (q, 0)

/-- The members behind a copy in column `col`. -/
def colMembers (colmask col : Nat) : List Nat :=
  ((List.range 16).filter fun i => bit colmask i).map fun i => 32 * i + col

/-- The MCA by which module `me` answers a multicast copy that it has relayed (Table 7.6): it names the copy as
an ACK names its store, by the fields that it keeps of it (log entry 50). -/
def mcaOf (me : Nat) (r : Relay) : Packet :=
  let okn := r.okn
  let naks := r.nak
  { type := 0x09, urg := true, sid := false, det := false, npay := 1, hops := 0, src := me
    dst := r.src, via := r.src, score := r.score, asid := r.asid, va := r.va, task := r.task, tag := r.tag
    colmask := 0, group := r.group, aop := 0, rel := false, lenm1 := 0
    opa := naks.length * 2 ^ 16 + okn, opb := nakeWord naks, status := 0, aux := 0
    payload := [mapOf (naks.map Prod.fst)] }

/-- The WR form of a multicast copy at member `dst` (R356). -/
def wrForm (p : Packet) (dst : Nat) : Packet :=
  { p with type := 0x01, dst := dst, colmask := 0, group := 0 }

/-- The relay whose rows have all answered sends its MCA (R165). -/
def State.closeRelay (s : State) (r : Relay) : State :=
  let rest := s.fabric.relays.erase r
  if r.wait = [] then
    ({ s with fabric := { s.fabric with relays := rest } }).inject
      (mcaOf s.peerId r)
  else s

/-- MCW (R164, R165): the store is performed if this module's row is named, one copy goes down the
column to every other row named, and the answer waits for theirs. -/
def execMcwPacket (p : Packet) (s : State) : Out :=
  .next (
    if !s.arrived p then s
    else
      let me := s.peerId
      let mine := bit p.colmask (me / 32)
      let w := wrForm p me
      let (st, s1) : Option Nat × State := if mine then s.homeStore w else (some 0, s)
      match st with
      | none => s
      | some st =>
        let s := s1.takePacket p
        let s := if mine then s.countRecv w else s
        let rows := (List.range 16).filter fun i => decide (i ≠ me / 32) && bit p.colmask i
        let s := rows.foldl (fun s i =>
          let d := 32 * i + me % 32
          s.inject { p with dst := d, via := d, colmask := 2 ^ i, hops := 0, det := false, sid := false }) s
        let r : Relay :=
          { src := mcwSender { p with dst := me }, tag := p.tag, score := p.score, task := p.task
            group := p.group, asid := p.asid, va := p.va
            wait := rows.map fun i => (p.tag, 32 * i + me % 32)
            okn := if mine ∧ st = 0 then 1 else 0
            nak := if mine ∧ st ≠ 0 then [(me, 1)] else [], tick := s.gtc }
        ({ s with fabric := { s.fabric with relays := s.fabric.relays ++ [r] } }).closeRelay r)

/-- Some of the rows a relay waits for have answered: `oks` positively, `naks` with their reasons
(R165). -/
def State.relayAnswer (s : State) (r : Relay) (who okn : Nat) (naks : List (Nat × Nat)) : State :=
  let r' := { r with
    wait := r.wait.filter fun w => w.2 != who
    okn := r.okn + okn
    nak := naks.foldl (fun xs n => addNak xs n.1 n.2) r.nak }
  ({ s with fabric := { s.fabric with relays := s.fabric.relays.map fun x => if x = r then r' else x } }).closeRelay r'

/-- The bound D_FAB from injection to performance (Table 7.4). -/
def dFab : Nat := 100847808

/-- Whether a packet sent at a tick may still be answered: on the tick its timer expires the timer wins (R160,
R162). -/
def State.inTime (s : State) (tick : Nat) : Bool := decide (s.gtc < tick + dFab)

/-- The relay that awaits an answer of a module to a copy: that of its source core, task, tag, group and line. -/
def State.relayFor (s : State) (p : Packet) : Option Relay :=
  s.fabric.relays.find? fun r => r.score == p.score && r.tag == p.tag && r.task == p.task && r.group == p.group
    && r.asid == p.asid && r.va == p.va && s.inTime r.tick && r.wait.any fun w => w.2 == p.src

/-- What an MCA says: members answered OK, and negative ones with their reasons; a copy that found
no route makes every member behind it LINK (R165). -/
def mcaSays (p : Packet) : Nat × List (Nat × Nat) :=
  if p.status = 6 then (0, (colMembers p.colmask (p.src % 32)).map fun q => (q, 2))
  else (bits p.opa 9 0, mcaNaks p)

end Sys2Proof.Machine
end

