-- ==== Sys2Proof/Machine/Copy.lean ====
section
/-!
DEFINITION. What the two copy engines share (09, 10): command slots and their records, completion,
the elements and the segments of a copy, its images, and the reading of translated memory.
-/

namespace Sys2Proof.Machine

/-! ## Commands -/

/-- A command just issued: it runs from its first element. -/
def Cmd.new (sidx : Nat) (i : Instr) (words : List Nat) (cd cs ci : Coord) (slot mark : Nat)
    (ims : List Image) : Cmd :=
  { sidx := sidx, instr := i, words := words, cd := cd, cs := cs, ci := ci, slot := slot, slotD := 0, slotT := 0
    next := 0, got := [], pre := none, off := 0, phase := .running, status := 0, foff := 0, mark := mark, far := [], images := ims
    pkts := 0, old := 0, gvalid := false, gasid := 0, gmap := 0, agg := Mcast.empty
    peer := 0, pend := [] }

/-- The state with the commands of copy engine `e` of core `p` changed. -/
def State.onCmds (s : State) (p e : Nat) (f : List Cmd → List Cmd) : State :=
  s.onCore p fun c =>
    if e = 1 then { c with lceS := { c.lceS with slots := f c.lceS.slots } }
    else { c with sceS := { c.sceS with slots := f c.sceS.slots } }

/-- A command replaced by what it has become. -/
def State.setCmd (s : State) (p e : Nat) (x : Cmd) : State :=
  s.onCmds p e fun xs => xs.map fun y => if y.sidx = x.sidx then x else y

/-- A command of a copy engine, by its stream index. -/
def State.cmd? (s : State) (p e sidx : Nat) : Option Cmd :=
  ((s.core p).cmds e).find? fun x => x.sidx == sidx

/-- Whether a command waits for earlier ones of its stream that a MARK or a FLUSH names (R68,
R256). -/
def State.cmdWaits (s : State) (p e : Nat) (x : Cmd) : Bool :=
  ((s.core p).cmds e).any fun y => decide (y.sidx < x.mark) && y.phase != .done

/-- Whether a command slot is free (R215, R242). -/
def Core.slotFree (c : Core) (e : Nat) : Bool :=
  decide (((c.cmds e).filter fun x => x.phase != .done).length < 16)

/-- The status code of a check. -/
def Check.status (k : Check) : Nat :=
  match k with
  | .ok => 0
  | .bad st _ => st

/-- The first status that is not OK. -/
def firstBad : List Nat → Nat
  | [] => 0
  | x :: xs => if x = 0 then firstBad xs else x

/-! ## Images (R351) -/

/-- The image of a role. -/
def Cmd.image? (x : Cmd) (role : Nat) : Option Image := x.images.find? fun im => im.role == role

/-- The bytes of an image after `n` elements with some more elements (R351): a 4-bit element at an
odd place fills the high nibble of the last byte. -/
def addElems (fmt n : Nat) (bs : List Byte) (vs : List Nat) : List Byte :=
  match vs with
  | [] => bs
  | v :: rest =>
    if esize fmt = 4 ∧ n % 2 = 1 then
      bs.dropLast ++ [BitVec.ofNat 8 ((bs.getLast?.getD 0).toNat % 16 + v % 16 * 16)] ++ packElems fmt rest
    else bs ++ packElems fmt vs

/-- The command with more elements in the image of a role, which held `n`. -/
def Cmd.addTo (x : Cmd) (role n : Nat) (vs : List Nat) : Cmd :=
  { x with images := x.images.map fun im =>
      if im.role = role then { im with bytes := addElems im.fmt n im.bytes vs } else im }

/-- The command with more bytes in the image of a role. -/
def Cmd.addBytes (x : Cmd) (role : Nat) (bs : List Byte) : Cmd :=
  { x with images := x.images.map fun im =>
      if im.role = role then { im with bytes := im.bytes ++ bs } else im }

/-- An image that holds nothing yet. -/
def Image.start (role fmt : Nat) : Image := { role := role, fmt := fmt, blk := 0, ext := [], bytes := [] }

/-- The digest of the image of a role, if the command has one. -/
def Cmd.digestOf (x : Cmd) (role : Nat) : Option Digest := (x.image? role).map Image.digest

/-- The addresses of the bytes of an access. -/
def Access.bytesAt (acc : Access) : List Nat := (acc.bitOffs.flatMap acc.d.elemBytes)

/-- A command with more indices or scales that it has read, kept under a role of their own: 17 for indices, 16
for the scales of blocks, in logical order. -/
def Cmd.learn (x : Cmd) (role : Nat) (bs : List Byte) : Cmd :=
  let x := if (x.image? role).isSome then x.addBytes role bs
    else { x with images := x.images ++ [{ Image.start role fmtInt8 with bytes := bs }] }
  if role = 17 ∧ (x.image? 1).any (fun im => im.bytes = [] ∧ im.heads = []) then x.addBytes 1 bs else x

/-! ## Bytes by name -/

/-- The name of the byte that a tensor of core `p` has at an address: where it lies in the flat memory, for an
on-die tensor; its place in the accumulator store; its device virtual address in the task's address space,
or in that of a peer. -/
def State.name (s : State) (p : Nat) (d : Desc) (a : Nat) : Nat :=
  if d.space = 0 ∨ d.space = 2 then s.locate p d a
  else if d.space = 1 then 2 ^ 90 + a
  else if d.space = 5 then 2 ^ 92 + d.peer * 2 ^ 60 + a
  else 2 ^ 91 + a

/-! ## Elements and segments (R132) -/

/-- One element of a copy, by its place in the order of R132: the bit offset it is read from (none:
zero is written) and the one it is written to (none: it goes nowhere). -/
structure Piece where
  i   : Nat
  src : Option Nat
  dst : Option Nat
deriving DecidableEq, Repr

/-- The bytes of the source that an element needs: those it lies in, or both bytes of its quad. -/
def Desc.needs (d : Desc) (quads : Bool) (i bitOff : Nat) : List Nat :=
  if quads then [(bitOff - 4 * (i % 4)) / 8, (bitOff - 4 * (i % 4)) / 8 + 1] else d.elemBytes bitOff

/-- The elements of one segment and those after it: a segment ends before the element that would
bring its pages, source and destination together, past 64; `touch` names an element's bytes. -/
def takeSegment (touch : Piece → List Nat) : List Nat → List Piece → List Piece × List Piece
  | _, [] => ([], [])
  | pages, x :: xs =>
    let pages' := (((touch x).map (· / 2 ^ 16)) ++ pages).eraseDups
    if 64 < pages'.length then ([], x :: xs)
    else
      let (seg, rest) := takeSegment touch pages' xs
      (x :: seg, rest)

/-- The next segment: elements at its end that read nothing belong to the one after it, if there is
one, so that its start in bytes names it (R132, R438). -/
def nextSegment (touch : Piece → List Nat) (xs : List Piece) : List Piece :=
  let (seg, rest) := takeSegment touch [] xs
  if rest = [] then seg
  else
    let kept := (seg.reverse.dropWhile fun x => x.src.isNone).reverse
    if kept = [] then seg else kept

/-- Whether the bytes with the names `mine` share a sector with what an earlier unfinished command among `ys`
has yet to touch: `ahead` names that, or nothing while it is not known. The command then waits, so that the
accesses of one stream to a sector take effect in its order (R62, R68). -/
def overtakes (ys : List Cmd) (sidx : Nat) (ahead : Cmd → Option (List Nat)) (mine : List Nat) : Bool :=
  ys.any fun y => decide (y.sidx < sidx) && y.phase != .done && (match ahead y with
    | none => !mine.isEmpty
    | some ns => mine.any fun a => ns.any fun b => a / 32 == b / 32)

/-- Pieces of two accesses with the same extents, element by element (R218, R247). -/
def pairPieces (a b : Access) : List Piece :=
  if a.empty then []
  else (a.bitOffs.zip b.bitOffs).mapIdx fun i e => { i := i, src := some e.1, dst := some e.2 }

/-! ## Speculation: shadow frames, watches and parking (R418 to R420) -/

/-- A frame joins the read set of the speculation of core `p` whole, unless a watch covers it (R88, R419). -/
def State.watch (s : State) (p base : Nat) : State :=
  match s.shadowOf p with
  | none => s
  | some (k, x) =>
    if x.watch.any fun w => decide (w.1 ≤ base) && decide (base + 2 ^ 16 ≤ w.1 + w.2) then s
    else s.onShadow k fun x => { x with watch := x.watch ++ [(base, 2 ^ 16)] }

/-- A page as the speculation of core `p` sees it: its shadow frame, where it has one (R418). -/
def State.shadowed (s : State) (p va : Nat) (t : Target) : Target :=
  match s.shadowOf p with
  | none => t
  | some (_, x) =>
    match x.frames.find? fun f => f.1 == va / 2 ^ 16 * 2 ^ 16 with
    | some f => { t with base := f.2.2 }
    | none => t

/-! ## Reading the source of an LCE command -/

/-- The sectors that some addresses touch in a page. -/
def sectorsIn (page : Nat) (as : List Nat) : Nat :=
  (((as.filter fun a => a / 2 ^ 16 == page).map (· / 32)).eraseDups).length

/-- What comes of translating pages. -/
inductive Pages where
  | all (ts : List (Nat × Target))
  | bad (status : Nat)
  | wait (va : Nat) (full : Bool)
deriving DecidableEq, Repr

/-- Pages translated for core `p`, in rising order of first use (R132). -/
def State.walkPages (s : State) (p asid : Nat) (write : Bool) : List Nat → Pages × State
  | [] => (.all [], s)
  | g :: gs =>
    match s.translate p asid (g * 2 ^ 16) write 0 with
    | (.go t, s) =>
      match s.walkPages p asid write gs with
      | (.all ts, s) => (.all ((g, t) :: ts), s)
      | r => r
    | (.bad st, s) => (.bad st, s)
    | (.absent, s) => (.wait (g * 2 ^ 16) false, s)
    | (.full, s) => (.wait (g * 2 ^ 16) true, s)

/-- The access pieces at some addresses, counted by the translations of the cache of core `p` that serve
them (R140). -/
def State.countPieces (s : State) (p asid : Nat) (as : List Nat) (pages : List Nat) : State :=
  pages.foldl (fun s g => match (s.tlb p).find? fun e => e.serves asid (g * 2 ^ 16) with
    | none => s
    | some e => s.useTlb p e (sectorsIn g as)) s

/-- Every page of some addresses translated for core `p`; once all of them are, they count the access pieces
that they serve (R132, R140). -/
def State.xlatePages (s : State) (p asid : Nat) (write : Bool) (as pages : List Nat) : Pages × State :=
  match s.walkPages p asid write pages with
  | (.all ts, s) => (.all ts, s.countPieces p asid as pages)
  | r => r

/-- The translation of an address by pages already translated. -/
def pageOf (ts : List (Nat × Target)) (a : Nat) : Option Target :=
  (ts.find? fun e => e.1 == a / 2 ^ 16).map Prod.snd

/-- Where a line of the fabric cache of a die keeps its bytes (R82). -/
def cacheAt (die line : Nat) : Nat := 2 ^ 70 + die * 2 ^ 56 + line * 256

/-- The name of a line of the fabric cache. -/
def cacheLine (peer pa : Nat) : Nat := peer * 2 ^ 36 + pa / 256

/-- Whether the fabric cache of a die holds a byte. -/
def State.cached (s : State) (die peer pa : Nat) : Bool :=
  bit ((s.die die).cache.get 0 (cacheLine peer pa)) (pa % 256)

/-- A byte that a copy reads. -/
inductive Found where
  /-- In the flat memory, under a key. -/
  | at' (a key : Nat)
  /-- It has come over the fabric. -/
  | got (b : Byte)
  /-- It must come over the fabric: the home, the address there, whether that is physical, and
  the line of the fabric cache that it fills. -/
  | away (peer addr : Nat) (phys : Bool) (fill : Option Nat)
deriving DecidableEq, Repr

/-- Whether a module without pod peers finds the home of a page elsewhere (R14). -/
def State.noPeer (s : State) (peer : Nat) : Bool := s.board.single && peer != s.peerId

/-- Where a source byte of a command of core `p` is found (R134, R136, R82). -/
def State.findByte (s : State) (p : Nat) (x : Cmd) (d : Desc) (ts : List (Nat × Target)) (a : Nat) :
    Found :=
  let have' : Option Byte := (x.got.find? fun e => e.1 == s.name p d a).map Prod.snd
  if d.space = 2 then .at' (celBase (p / 32) + a) 0
  else if d.space = 5 then
    match have' with
    | some b => .got b
    | none => .away d.peer a false none
  else
    match (pageOf ts a).map (s.shadowed p a) with
    | none => .got 0
    | some t =>
      let pa := t.base + a % 2 ^ 16
      match (if s.noPeer t.peer then min t.mode 1 else t.mode) with
      | 0 => .at' (s.paFlat pa) t.key
      | 2 =>
        if s.cached (p / 32) t.peer pa then .at' (cacheAt (p / 32) (cacheLine t.peer pa) + pa % 256) 0
        else .away t.peer pa true (some (cacheLine t.peer pa))
      | _ =>
        match have' with
        | some b => .got b
        | none => .away t.peer pa true none

/-- A read to be sent: the name of its first byte, the home, the address there, the length. -/
structure ReadReq where
  va   : Nat
  peer : Nat
  addr : Nat
  phys : Bool
  len  : Nat
  fill : Option Nat
deriving DecidableEq, Repr

/-- A byte joins the reads to be sent: consecutive bytes of one 256-byte line travel together, and
a line of the fabric cache is read whole (R146). -/
def joinReq (rs : List ReadReq) (va peer addr : Nat) (phys : Bool) (fill : Option Nat) : List ReadReq :=
  match fill with
  | some l =>
    if rs.any fun r => r.fill == some l then rs
    else rs ++ [{ va := va, peer := peer, addr := addr / 256 * 256, phys := phys, len := 256, fill := fill }]
  | none =>
    match rs.getLast? with
    | some r =>
      if r.fill = none ∧ r.peer = peer ∧ r.va + r.len = va ∧ r.addr + r.len = addr ∧ r.addr / 256 = addr / 256 then
        rs.dropLast ++ [{ r with len := r.len + 1 }]
      else rs ++ [{ va := va, peer := peer, addr := addr, phys := phys, len := 1, fill := none }]
    | none => [{ va := va, peer := peer, addr := addr, phys := phys, len := 1, fill := none }]

/-- Whether an unsettled packet of a core holds a line of a home (Table 10.4). -/
def Core.lineHeld (c : Core) (peer addr : Nat) (phys : Bool) : Bool :=
  c.sceS.ack.any fun a => !a.sig && a.line == addr / 256 && a.local? == phys
    && (if a.mask = 0 then a.dst == peer else bit a.mask.toNat peer)

/-- Whether an unsettled packet of a core holds a tag (R357). -/
def Core.tagHeld (c : Core) (tag : Nat) : Bool :=
  c.sceS.ack.any (·.tag == tag) || c.lceS.reads.any (·.tag == tag)

/-- The task id, the address space of core `p`. -/
def State.idsOf (s : State) (p : Nat) : Nat × Nat :=
  (((s.core p).task).getD 0 % 2 ^ 32, ((s.taskOf p).map (·.asid)).getD 0)

/-- A packet from core `p` (Table 7.2). -/
def State.packetFrom (s : State) (p type : Nat) (urg : Bool) (dst va tag lenm1 : Nat) (phys : Bool) : Packet :=
  { type := type, urg := urg, sid := false, det := false, npay := 0, hops := 0, src := s.peerId
    dst := dst, via := dst, score := p, asid := (s.idsOf p).2, va := va, task := (s.idsOf p).1
    tag := tag, colmask := 0, group := 0, aop := 0, rel := false, lenm1 := lenm1, opa := 0, opb := 0
    status := 0, aux := 0, payload := [], phys := phys }

/-- The tag of packet `k` of the command at stream index `sidx` (R357). -/
def pktTag (sidx k : Nat) : Nat := 256 * (sidx % 256) + k % 256

/-- Reads of a command sent, in order, until one is held behind an unsettled store to its line or
behind its tag (R79, R357); a read that is already under way is not sent again. -/
def State.sendReads (s : State) (p : Nat) (x : Cmd) : List ReadReq → Cmd × State
  | [] => (x, s)
  | r :: rs =>
    let c := s.core p
    if c.lceS.reads.any fun w => w.sidx == x.sidx && w.va == r.va then s.sendReads p x rs
    else
      let tag := pktTag x.sidx x.pkts
      if c.lineHeld r.peer r.addr r.phys || c.tagHeld tag then (x, s)
      else
        let w : ReadWait := { tag := tag, sidx := x.sidx, va := r.va, len := r.len, fill := r.fill, tick := s.gtc }
        let s := s.onCore p fun c => { c with lceS := { c.lceS with reads := c.lceS.reads ++ [w] } }
        let s := s.inject (s.packetFrom p 0x02 false r.peer r.addr tag (r.len - 1) r.phys)
        s.sendReads p { x with pkts := x.pkts + 1 } rs

/-- What comes of gathering source bytes. -/
inductive Gather where
  /-- Every byte, by the address its tensor gives it. -/
  | bytes (bs : List (Nat × Byte))
  | failed (status : Nat)
  /-- The command waits: it is paused or parked, or reads are under way. -/
  | waits
deriving DecidableEq, Repr

/-- Fabric writes of other cores that are unacknowledged and that a read of some lines may have returned: lines
at their homes, and lines of the fabric cache of the die (R69 item 3). -/
def State.farOf (s : State) (p : Nat) (lines : List (Nat × Nat × Bool)) (cached : List Nat) : SMap Nat :=
  s.cores.foldl (fun m e =>
    let as := (e.2.sceS.ack.filter fun a => lines.any fun l =>
        a.line == l.2.1 && a.local? == l.2.2 && (if a.mask = 0 then a.dst == l.1 else bit a.mask.toNat l.1)).map (·.sidx)
    let ds := (if e.1 / 32 = p / 32 then e.2.sceS.dirt.filter fun d => cached.contains d.line else []).map (·.sidx)
    let n := ((as ++ ds).map (· + 1)).foldl max 0
    if n = 0 ∨ e.1 = p then m else m.set 0 (s.farKey e.1) (max n (m.get 0 (s.farKey e.1)))) []

/-- The lines that the addresses of some tensors stand in: those of other homes, and those of the fabric
cache. -/
def foreignLines (ts : List (Nat × Target)) (rs : List (Desc × List Nat)) : List (Nat × Nat × Bool) × List Nat :=
  let ls := rs.flatMap fun r => r.2.filterMap fun a =>
    if r.1.space = 5 then some (r.1.peer, a / 256, false)
    else match (if r.1.translated then pageOf ts a else none) with
      | none => none
      | some t => if t.mode = 0 then none else some (t.peer, (t.base + a % 2 ^ 16) / 256, true)
  (ls.eraseDups, ((ls.filter fun l => l.2.2).map fun l => cacheLine l.1 (256 * l.2.1)).eraseDups)

/-- The LCE stream of core `p` covers the writes of other cores that a read has returned. -/
def State.learnRead (s : State) (p : Nat) (ts : List (Nat × Target)) (rs : List (Desc × List Nat)) : State :=
  let (lines, cached) := foreignLines ts rs
  let far := if lines = [] then [] else s.farOf p lines cached
  if far = [] then s
  else s.onCore p fun c => { c with lce := { c.lce with clk := { c.lce.clk with far := joinFar c.lce.clk.far far } } }

/-- The frames and the Cellar pages that a read brings joined to the read set of a speculation: shadow frames
are no part of it (R419). -/
def State.watchRead (s : State) (p : Nat) (ts : List (Nat × Target)) (as : List Nat) : State :=
  match s.shadowOf p with
  | none => s
  | some (_, x) =>
    let own := ts.filter fun e => e.2.mode == 0 && !(x.frames.any fun f => f.1 == e.1 * 2 ^ 16)
    let cel := (as.map fun a => a / 2 ^ 16 * 2 ^ 16).eraseDups
    ((own.map fun e => s.paFlat e.2.base) ++ cel).foldl (fun s b => s.watch p b) s

/-- Where the bytes at some addresses of some tensors are found, by their names. -/
def State.findAll (s : State) (p : Nat) (x : Cmd) (rs : List (Desc × List Nat)) (ts : List (Nat × Target)) :
    List (Nat × Found) :=
  rs.flatMap fun r => r.2.map fun a => (s.name p r.1 a, s.findByte p x r.1 ts a)

/-- The reads that bytes found elsewhere need. -/
def requestsOf (fs : List (Nat × Found)) : List ReadReq :=
  fs.foldl (fun rs e => match e.2 with
    | .away peer addr phys fill => joinReq rs e.1 peer addr phys fill
    | _ => rs) []

/-- The translated pages of some addresses of some tensors. -/
def pagesRead (rs : List (Desc × List Nat)) : List Nat :=
  (((rs.filter fun r => r.1.translated).flatMap Prod.snd).map (· / 2 ^ 16)).eraseDups

/-- The bytes at some addresses of some tensors, for a command of the LCE of core `p`: its segment's pages are
translated once, and kept until the segment has been read (R132, R134, R141, R235). -/
def State.gather (s : State) (p : Nat) (x : Cmd) (rs : List (Desc × List Nat)) : Gather × Cmd × State :=
  let asid := (s.idsOf p).2
  let as := (rs.filter fun r => r.1.translated).flatMap Prod.snd
  let (pages, s) : Pages × State := match x.pre with
    | some ts => (.all ts, s)
    | none => s.xlatePages p asid false as (pagesRead rs)
  match pages with
  | .bad st => (.failed st, x, s)
  | .wait va full =>
    let (ev, s) := s.pauseEvent p 1 asid va false full
    (.waits, { x with phase := .paused ev }, s)
  | .all ts =>
    let fs := s.findAll p x rs ts
    let cel := (rs.filter fun r => r.1.space == 2).flatMap fun r => r.2.map (celBase (p / 32) + ·)
    let foreign := ts.any (fun e => e.2.mode != 0) || rs.any fun r => r.1.space == 5 && !r.2.isEmpty
    if foreign && (s.shadowOf p).isSome then (.waits, x, s.park p)
    else if foreign && s.capturing p then (.waits, x, s.outsideRun p 1 x.sidx)
    else if s.refreshing cel then (.waits, { x with pre := some ts }, s)
    else if fs.any fun e => match e.2 with | .at' a key => s.sealBad key a | _ => false then
      (.failed 8, x, s)
    else
      let reqs := requestsOf fs
      if reqs ≠ [] then
        let (x, s) := s.sendReads p { x with pre := some ts } reqs
        (.waits, x, s)
      else
        (.bytes (fs.map fun e => match e.2 with
          | .at' a key => (e.1, s.under key a)
          | .got b => (e.1, b)
          | .away _ _ _ _ => (e.1, 0)), { x with got := [], pre := none }, (s.watchRead p ts cel).learnRead p ts rs)

/-- A byte among those gathered. -/
def gathered (bs : List (Nat × Byte)) (a : Nat) : Byte := ((bs.find? fun e => e.1 == a).map Prod.snd).getD 0

/-- The code of the element at a bit offset, from gathered bytes; `nm` names the bytes of the tensor. -/
def elemFrom (nm : Nat → Nat) (d : Desc) (bs : List (Nat × Byte)) (bitOff : Nat) : Nat :=
  elemOfBytes d.fmt bitOff ((d.elemBytes bitOff).map fun a => gathered bs (nm a))

end Sys2Proof.Machine
end

