-- ==== Sys2Proof/Machine/Lce.lean ====
section
/-!
DEFINITION. The load copy engine (09): CPI, CPIC, CPIG, CPIB, CPW, CPA, CPQ, PREF, LSTAT and
RWAIT, the completion of its commands and the answers to its reads.
-/

namespace Sys2Proof.Machine

/-! ## Operands -/

/-- What kind of copy a command is. -/
inductive LceOp where
  | cpi | cpic | cpig | cpib | cpw | cpa | pref | cpq
deriving DecidableEq, Repr

/-- The operands of a copy command of the LCE (Table 9.3); `flg` is word 0 [3:0]. -/
structure LceArgs where
  op  : LceOp
  td  : Nat
  ts  : Nat
  ti  : Nat
  flg : Nat
  exp : Int
  ext : Option Ext
deriving DecidableEq, Repr

/-- The operands of an instruction that is a copy command of the LCE. -/
def lceArgs (i : Instr) : Option LceArgs :=
  match i with
  | .cpi _ td _ _ ts ext => some { op := .cpi, td := td, ts := ts, ti := 0, flg := 0, exp := 0, ext := ext }
  | .cpic _ td _ _ ts ext => some { op := .cpic, td := td, ts := ts, ti := 0, flg := 0, exp := 0, ext := ext }
  | .cpig _ td _ _ ts ti ci ext => some { op := .cpig, td := td, ts := ts, ti := ti, flg := ci, exp := 0, ext := ext }
  | .cpib _ td _ _ ts ext => some { op := .cpib, td := td, ts := ts, ti := 0, flg := 0, exp := 0, ext := ext }
  | .cpw _ td _ _ ts ext => some { op := .cpw, td := td, ts := ts, ti := 0, flg := 0, exp := 0, ext := ext }
  | .cpa _ td _ _ ts cvt exp ext =>
    some { op := .cpa, td := td, ts := ts, ti := 0, flg := b2n cvt, exp := sext 16 exp, ext := ext }
  | .cpq _ td _ _ ts rm sm ext =>
    some { op := .cpq, td := td, ts := ts, ti := 0, flg := 4 * rm + 2 * b2n sm, exp := 0, ext := ext }
  | .pref _ _ ts ext => some { op := .pref, td := 0, ts := ts, ti := 0, flg := 0, exp := 0, ext := ext }
  | _ => none

/-- Whether a command reads block scales, or takes quads apart (R224, R225). -/
def LceArgs.converts (a : LceArgs) : Bool := a.op == .cpq || (a.op == .cpa && a.flg == 1)

/-- The source access (R214). -/
def Core.lceSource (c : Core) (a : LceArgs) (cs : Coord) : Access :=
  let d := c.desc a.ts
  { d := d, slot := 0, origin := cs.origin
    ext := match a.ext with
      | none => d.tile
      | some x => [x.e0, x.e1, nth d.tile 2, nth d.tile 3] }

/-- The access of a CPIG to its index tensor (R223). -/
def Core.indexAccess (c : Core) (ti : Nat) (ci : Coord) : Access :=
  let d := c.desc ti
  { d := d, slot := 0, origin := [ci.int 0, 0, 0, 0], ext := [nth d.tile 0, 1, 1, 1] }

/-- The destination access: the extents of the block (R218, R223). -/
def Core.lceDest (c : Core) (a : LceArgs) (x : Cmd) : Access :=
  let src := c.lceSource a x.cs
  { d := c.desc a.td, slot := x.slot, origin := x.cd.origin
    ext := if a.op = .cpig then [nth src.ext 0, nth (c.desc a.ti).tile 0, 1, 1] else src.ext }

/-! ## Checks (R218 to R225) -/

/-- Whether CPQ and the conversion of CPA take a format: an integer or a floating-point one. -/
def plainFmt (f : Nat) : Bool := fmtOk f && decide (f ≤ 0x13)

/-- Whether the LCE reads a space (Table 4.1). -/
def lceReads (space : Nat) : Bool := decide (2 ≤ space) && decide (space ≤ 6)

/-- The conditions on descriptors that give DESC (R218, Table 9.4, R223, R224, R225). -/
def Core.lceDescs (c : Core) (a : LceArgs) : Bool :=
  let sd := c.desc a.ts
  let dd := c.desc a.td
  let own := dd.space == 0 && !dd.qwin
  sd.v && dd.v && lceReads sd.space && sd.layout != 2
    && (match a.op with
        | .cpic => own && dd.layout == 2 && dd.prod == 1
        | .cpw => dd.space == 2 && dd.layout != 2 && sd.space != 2
        | .cpa => dd.space == 1
        | .cpq => own && dd.layout != 2 && dd.blk == 0
        | _ => own && dd.layout != 2)
    && (match a.op with
        | .cpa => if a.flg = 1 then plainFmt sd.fmt && sd.fmt != fmtInt4 && sd.fmt != fmtInt64 else sd.fmt == fmtInt64
        | .cpq => plainFmt dd.fmt && (plainFmt sd.fmt || sd.fmt == fmtQX4)
        | .cpig => sd.fmt == dd.fmt && sd.fmt != fmtACC && sd.fmt != fmtQX4
        | _ => sd.fmt == dd.fmt && sd.fmt != fmtACC)
    && (a.op != .cpig
        || ((c.desc a.ti).v && (c.desc a.ti).fmt == fmtInt32 && (c.desc a.ti).rank == 1
            && lceReads (c.desc a.ti).space && (c.desc a.ti).layout != 2))

/-- The status of the checks made before any byte moves (R218): the descriptors, then the source
and the destination in the order of Table 6.4, then the operation's own. -/
def State.lceStatus (s : State) (p : Nat) (x : Cmd) (a : LceArgs) : Nat :=
  let c := s.core p
  let src := c.lceSource a x.cs
  let dst := c.lceDest a x
  let idx := c.indexAccess a.ti x.ci
  let row : Access := { src with origin := [x.cs.int 0, 0, x.cs.int 2, x.cs.int 3], ext := [nth src.ext 0, 1, 1, 1] }
  let scales : Nat := match c.scaleAccess src with
    | none => 0
    | some sa =>
      if a.converts && !src.empty then
        firstBad [(c.checkRights 1 src.d.stid false).status, (s.checkBounds p sa).status]
      else 0
  if !c.lceDescs a then 1
  else firstBad
    [ (c.checkRights 1 a.ts false).status
    , if a.op = .cpig then
        firstBad [(c.checkRights 1 a.ti false).status
          , if dst.empty then 0 else firstBad [(s.checkBounds p idx).status, (s.checkBounds p row).status]]
      else (s.checkBounds p src).status
    , scales
    , (c.checkRights 1 a.td true).status
    , (s.checkBounds p dst).status
    , if a.op = .cpw ∧ !(s.hdrOf p).cellarWrite then 3 else 0
    , if dst.empty then 0
      else if a.op = .cpa ∧ nth src.ext 0 ≠ 128 then 2
      else if a.op = .cpib ∧ ((s.taskOf p).map (·.shape)).getD 0 = 0 then 2
      else 0 ]

/-! ## Completion (R216, R236) -/

/-- The leaf of a copy command (Table 9.6). -/
def lceLeaf (x : Cmd) (a : LceArgs) (status foff : Nat) : LeafBody :=
  { kind := 1
    nmode := match a.op with
      | .cpa => a.flg + trunc 16 a.exp * 2 ^ 16
      | .cpq => a.flg
      | _ => 0
    opd0 := x.digestOf 0, opd1 := x.digestOf 1, opd2 := none
    res := if status = 0 then x.digestOf 3 else none
    extra := if status ≠ 0 then status + foff % 2 ^ 56 * 2 ^ 8 else if a.op = .cpic then x.slot else 0 }

/-- The 32-bit indices of a CPIG, once they have been read. -/
def Cmd.indices (x : Cmd) : List Int :=
  match x.image? 17 with
  | none => []
  | some im => (pieces 4 im.bytes.length im.bytes).map fun b => sext 32 (leNat b)

/-- The images of a copy command with the extents of their blocks (R381). -/
def Core.lceExtents (c : Core) (x : Cmd) (a : LceArgs) : List Image :=
  let src := c.lceSource a x.cs
  let rows := [nth src.ext 0, (x.indices.filter fun k => decide (0 ≤ k)).length, 1, 1]
  (x.images.filter fun im => decide (im.role < 16)).map fun im => { im with
    blk := if im.role = 0 ∧ (x.image? 16).isSome then src.d.blk else 0
    ext := if im.role = 0 then (if a.op = .cpig then rows else src.ext)
      else if im.role = 1 then [im.bytes.length / 4, 1, 1, 1] else (c.lceDest a x).ext }

/-- A copy command of the LCE completes (R216): DONE and ERRS count, the first failure is recorded,
its reads are forgotten, its leaf is formed, and it waits for its gives. -/
def State.lceFinish (s : State) (p : Nat) (x : Cmd) (a : LceArgs) (status foff : Nat) : State :=
  let s := s.onCore p fun c =>
    let l := c.lceS
    let first : FirstError := if status ≠ 0 ∧ l.errs = 0 then
        { fseq := x.sidx % 2 ^ 40, fcode := status, foff := foff, part := false, late := false }
      else l.first
    { c with lceS := { l with
        done := l.done + 1, errs := if status ≠ 0 then l.errs + 1 else l.errs, first := first
        reads := l.reads.filter fun r => r.sidx != x.sidx } }
  let y := { x with phase := .done, status := status, foff := foff, got := [], pre := none }
  let s := s.setCmd p 1 y
  s.leaf p 1 x.sidx x.words (lceLeaf x a status foff) ((s.core p).lceExtents x a)

/-! ## Moving a segment -/

/-- The elements of a command in the order of R132 (R218, R223). -/
def Core.lcePieces (c : Core) (x : Cmd) (a : LceArgs) : List Piece :=
  let src := c.lceSource a x.cs
  let dst := c.lceDest a x
  if a.op = .cpig then
    if dst.empty then []
    else
      let e0 := nth src.ext 0
      let offs := dst.bitOffs
      (x.indices.mapIdx fun (i : Nat) (k : Int) =>
        (List.range e0).map fun (j : Nat) =>
          let n := i * e0 + j
          let from' := src.d.bitOff 0 [(x.cs.int 0).toNat + j, k.toNat, (x.cs.int 2).toNat, (x.cs.int 3).toNat]
          { i := n, src := if k < 0 then none else some from', dst := some (offs.getD n 0) : Piece }).flatten
  else pairPieces src dst

/-- The number of element `i`'s scale block, in logical order (R120, R351). -/
def blockOf (src : Access) (i : Nat) : Nat :=
  let b := blkSize src.d.blk
  let e0 := nth src.ext 0
  let o := (src.origin.getD 0 0).toNat
  i / e0 * ((o + e0 - 1) / b - o / b + 1) + (o + i % e0) / b - o / b

/-- The scale code of element `i` of a block (R120). -/
def scaleOf (src : Access) (scales : List Byte) (i : Nat) : Nat := (scales.getD (blockOf src i) 0).toNat

/-- The value of a source element that is converted, and whether its quad is malformed. -/
def sourceVal (nm : Nat → Nat) (src : Access) (scales : List Byte) (bs : List (Nat × Byte)) (i bitOff : Nat) :
    Val × Bool :=
  let d := src.d
  if d.fmt = fmtQX4 then
    let q := (bitOff - 4 * (i % 4)) / 8
    let b0 := (gathered bs (nm q)).toNat
    let b1 := (gathered bs (nm (q + 1))).toNat
    (quadDecode b0 b1 (scaleOf src scales i) (i % 4), quadBad b0 b1)
  else
    let v := elemVal d.fmt (elemFrom nm d bs bitOff)
    (if d.blk = 0 then v else v.under (scaleOf src scales i), false)

/-- What an element becomes at the destination, with QXM and SATF raised (R219, R224, R225). -/
def lceValue (nm : Nat → Nat) (a : LceArgs) (src : Access) (dfmt : Nat) (scales : List Byte)
    (bs : List (Nat × Byte)) (z : Piece) : Nat × Bool × Bool :=
  match z.src with
  | none => (0, false, false)
  | some b =>
    match a.op with
    | .cpa =>
      if a.flg = 1 then
        let (v, bad) := sourceVal nm src scales bs z.i b
        let (e, sat) := cpaElem a.exp v
        (e.raw, bad, sat)
      else ((Elem.ofRaw (elemFrom nm src.d bs b)).raw, false, false)
    | .cpq =>
      let (v, bad) := sourceVal nm src scales bs z.i b
      let (r, f) := cvt v dfmt (Rm.of (a.flg / 4)) (bit a.flg 1)
      let finite := match elemVal dfmt r with | .fin _ _ _ => true | _ => false
      (r, bad, f.clamp || (f.of && finite))
    | _ => (elemFrom nm src.d bs b, false, false)

/-- The physical cores whose scratchpads a command writes (R220). -/
def State.lceTargets (s : State) (p : Nat) (a : LceArgs) : List Nat :=
  if a.op = .cpib then
    let quad := (s.die (p / 32)).quadPos (p % 32) / 4 * 4
    ((List.range 4).map fun k => s.quadCore p (quad + k)).filter fun q =>
      (s.core q).task == (s.core p).task
  else [p]

/-- Elements written at the destination: accumulator rows with their exponents, or cells of a
scratchpad or the Cellar. -/
def State.lceStore (s : State) (p : Nat) (a : LceArgs) (items : List (Nat × Nat)) : State :=
  let dd := (s.core p).desc a.td
  if a.op = .cpa then
    s.onCore p fun c =>
      let m := c.mxeS
      { c with mxeS := { m with
          acc := items.foldl (fun t e => t.set Elem.zero (e.1 / 64) (Elem.ofRaw e.2)) m.acc
          rexp := (items.map fun e => e.1 / 64 / 128).eraseDups.foldl (fun t g => t.set 0 g a.exp) m.rexp } }
  else
    (s.lceTargets p a).foldl (fun s q => s.write (storeElems dd (s.locate q dd) s.byte items [])) s

/-- Where the scale of block `k` of a converting copy lies: its byte in the scale tensor (R120). -/
def scaleAt (sa : Access) (k : Nat) : Nat := sa.d.bitOff 0 (sa.coords k) / 8

/-- How many scales of its blocks a command has read. -/
def Cmd.scalesRead (x : Cmd) : Nat := ((x.image? 16).map (·.bytes.length)).getD 0

/-- What a command must read before its elements move: the role it is kept under, the tensor and the addresses. -/
abbrev Prelude := Option (Nat × Desc × List Nat)

/-- The addresses in its scale tensor of the scales of blocks `k` to `n` - 1. -/
def scalesFrom (sa : Access) (k n : Nat) : List Nat := ((List.range n).drop k).map (scaleAt sa)

/-- The indices of a CPIG; and, for a converting copy that was restored, the scales of the blocks that lie
before its resume offset, which no save area holds. -/
def Core.lcePrelude (c : Core) (x : Cmd) (a : LceArgs) : Prelude :=
  if a.op = .cpig then
    if (x.image? 17).isNone ∧ !(c.lceDest a x).empty then
      let idx := c.indexAccess a.ti x.ci
      some (17, idx.d, idx.bitOffs.flatMap idx.d.elemBytes)
    else none
  else
    let src := c.lceSource a x.cs
    match c.scaleAccess src with
    | some sa =>
      if a.converts ∧ !src.empty ∧ x.scalesRead < blockOf src (min x.next (src.count - 1)) then
        some (16, sa.d, scalesFrom sa x.scalesRead (blockOf src (min x.next (src.count - 1))))
      else none
    | none => none

/-- The addresses of the scales that some elements need and that have not been read yet (R120). -/
def Core.scalesFor (c : Core) (x : Cmd) (a : LceArgs) (seg : List Piece) : Option (Desc × List Nat) :=
  let src := c.lceSource a x.cs
  if !a.converts then none
  else (c.scaleAccess src).map fun sa =>
    (sa.d, (((seg.map fun z => blockOf src z.i).eraseDups).filter fun k => decide (x.scalesRead ≤ k)).map (scaleAt sa))

/-- The source bytes that an element needs. -/
def Core.lceNeeds (c : Core) (x : Cmd) (a : LceArgs) (z : Piece) : List Nat :=
  let src := c.lceSource a x.cs
  match z.src with
  | none => []
  | some b => src.d.needs (a.op == .cpq && src.d.fmt == fmtQX4) z.i b

/-- The names of the bytes that an element of a copy touches: those of its source and its scale, and those that
it writes, wherever they lie (R132). -/
def State.lceTouch (s : State) (p : Nat) (x : Cmd) (a : LceArgs) (z : Piece) : List Nat :=
  let c := s.core p
  let dd := c.desc a.td
  ((c.lceNeeds x a z).map (s.name p (c.desc a.ts)))
    ++ (match c.scalesFor x a [z] with
        | none => []
        | some (d, as) => as.map (s.name p d))
    ++ (match z.dst with
        | none => []
        | some b => (s.lceTargets p a).flatMap fun q => (dd.elemBytes b).map (s.name q dd))

/-- The elements of the next segment of a command (R132). -/
def State.lceSegment (s : State) (p : Nat) (x : Cmd) (a : LceArgs) : List Piece :=
  nextSegment (s.lceTouch p x a) (((s.core p).lcePieces x a).drop x.next)

/-- The names of the bytes that a command has yet to touch; none while its indices are unread (R62). -/
def State.lceAhead (s : State) (p : Nat) (x : Cmd) : Option (List Nat) :=
  match lceArgs x.instr with
  | none => some []
  | some a =>
    if a.op = .cpig ∧ (x.image? 17).isNone then none
    else some ((((s.core p).lcePieces x a).drop x.next).flatMap (s.lceTouch p x a))

/-- Whether a command waits for an earlier one that has yet to touch a sector of the bytes it is about to
touch (R62, R68, R217). -/
def State.lceBehind (s : State) (p : Nat) (x : Cmd) (mine : List Nat) : Bool :=
  overtakes (s.core p).lceS.slots x.sidx (s.lceAhead p) mine

/-- The bytes of an access in logical order, from gathered bytes. -/
def accessBytes (nm : Nat → Nat) (as : List Nat) (bs : List (Nat × Byte)) : List Byte :=
  as.map fun a => gathered bs (nm a)

/-- The images completed with what was read and written: the scales follow the source's elements, and the
exponents the rows of a copy that wrote some (R236, R351). -/
def Core.lceImages (c : Core) (x : Cmd) (a : LceArgs) (status : Nat) : Cmd :=
  let x := match x.image? 16 with
    | some im => x.addBytes 0 im.bytes
    | none => x
  let dst := c.lceDest a x
  if a.op = .cpa ∧ status = 0 ∧ !dst.empty then
    let g0 := dst.d.base / 1024 + (dst.origin.getD 1 0).toNat
    x.addBytes 3 ((List.range (nth dst.ext 1)).flatMap fun i =>
      leBytes 2 (trunc 16 (c.mxeS.rexp.get 0 (g0 + i))))
  else x

/-- A copy command ends: its images are completed, and it completes with a status (R216, R236). -/
def State.lceEnd (s : State) (p : Nat) (x : Cmd) (a : LceArgs) (status foff : Nat) : State :=
  s.lceFinish p ((s.core p).lceImages x a status) a status foff

/-- The place after `n` elements that have a source. -/
def afterSources : Nat → List Piece → Nat
  | _, [] => 0
  | 0, _ => 0
  | n + 1, z :: zs => 1 + (if z.src.isSome then afterSources n zs else afterSources (n + 1) zs)

/-- A command that has read its indices: one that was restored has so far counted only the elements it
has read (R438). -/
def Core.lceLearn (c : Core) (x : Cmd) (a : LceArgs) (role : Nat) : Cmd :=
  if role = 17 then { x with next := afterSources x.next (c.lcePieces x a) } else x

/-- A command once a segment has been read and written: what it read joins its images, with the scales of new
blocks, and what it wrote (R236). -/
def State.lceMoved (s : State) (p : Nat) (x : Cmd) (a : LceArgs) (seg : List Piece) (bs : List (Nat × Byte))
    (out : List Nat) : Cmd :=
  let c := s.core p
  let src := c.lceSource a x.cs
  let read := seg.filterMap fun z => z.src.map fun b => elemFrom (s.name p src.d) src.d bs b
  let before := (((c.lcePieces x a).take x.next).filter fun z => z.src.isSome).length
  let x := (x.addTo 0 before read).addTo 3 x.next out
  { x with next := x.next + seg.length, off := (before + read.length) * esize src.d.fmt / 8 }

/-- A command that has learned the scales of a segment's new blocks from the bytes gathered for it (R120). -/
def Core.lceScaled (c : Core) (nm : Desc → Nat → Nat) (x : Cmd) (a : LceArgs) (seg : List Piece)
    (bs : List (Nat × Byte)) : Cmd :=
  match c.scalesFor x a seg with
  | none => x
  | some (_, []) => x
  | some (d, as) => x.learn 16 (accessBytes (nm d) as bs)

/-- The scales that a command has read. -/
def Cmd.scales (x : Cmd) : List Byte := ((x.image? 16).map (·.bytes)).getD []

/-- A segment whose bytes have been gathered moves: its elements are written, and QXM and SATF are raised
(R218, R224, R225). -/
def State.lceMove (s : State) (p : Nat) (x : Cmd) (a : LceArgs) (seg : List Piece) (bs : List (Nat × Byte)) :
    Cmd × State :=
  let c := s.core p
  let src := c.lceSource a x.cs
  let x := c.lceScaled (s.name p) x a seg bs
  let out := seg.map fun z => (z.dst.getD 0, lceValue (s.name p src.d) a src (c.desc a.td).fmt x.scales bs z)
  let y := s.lceMoved p x a seg bs (out.map fun e => e.2.1)
  let s := s.lceStore p a (out.map fun e => (e.1, e.2.1))
  (y, s.onCore p fun c => { c with lceS := { c.lceS with
    qxm := c.lceS.qxm || out.any fun e => e.2.2.1
    satf := c.lceS.satf || out.any fun e => e.2.2.2 } })

/-- What a segment reads: its source bytes, and the scales of its new blocks. -/
def Core.lceReads (c : Core) (x : Cmd) (a : LceArgs) (seg : List Piece) : List (Desc × List Nat) :=
  (c.desc a.ts, seg.flatMap (c.lceNeeds x a)) :: (c.scalesFor x a seg).toList

/-- How many reads a command has sent for its elements from `k` up that it has moved: the ordinal of its next
packet follows them, also where it was restored (R357). -/
def State.readsBefore (s : State) (p : Nat) (x : Cmd) (a : LceArgs) : Nat → Nat → Nat
  | 0, _ => 0
  | fuel + 1, k =>
    if x.next ≤ k then 0
    else
      let y := { x with next := k, got := [] }
      let seg := (s.lceSegment p y a).take (x.next - k)
      let rs := (s.core p).lceReads y a seg
      match s.walkPages p (s.idsOf p).2 false (pagesRead rs) with
      | (.all ts, _) => (requestsOf (s.findAll p y rs ts)).length + s.readsBefore p x a fuel (k + max 1 seg.length)
      | _ => 0

/-- A restored command with the ordinal of its next packet. -/
def State.lceOrdinal (s : State) (p : Nat) (a : LceArgs) (x : Cmd) : Cmd :=
  { x with pkts := x.pkts + s.readsBefore p x a x.next 0 }

/-- A command of the LCE of core `p` goes on as far as it can (R216, R218, R234, R235); once the core is
cut, it begins no further segment (R432). -/
def State.lceRun (s : State) (p : Nat) (x : Cmd) (a : LceArgs) : Nat → State
  | 0 => s.setCmd p 1 x
  | fuel + 1 =>
    let c := s.core p
    let src := c.lceSource a x.cs
    let still := c.cut.isSome && x.pre.isNone
    match c.lcePrelude x a with
    | some (role, d, as) =>
      if still || s.lceBehind p x (as.map (s.name p d)) then s.setCmd p 1 x
      else (match s.gather p x [(d, as)] with
        | (.failed st, x, s) => s.lceEnd p x a st x.off
        | (.waits, x, s) => s.setCmd p 1 x
        | (.bytes bs, x, s) =>
          let y := c.lceLearn (x.learn role (accessBytes (s.name p d) as bs)) a role
          s.lceRun p (if role = 17 then s.lceOrdinal p a y else y) a fuel)
    | none =>
      if x.indices.any fun k => decide ((nth src.d.dim 1 : Int) ≤ k) then s.lceEnd p x a 2 0
      else
        let seg := s.lceSegment p x a
        if seg = [] then s.lceEnd p x a 0 0
        else if still || s.lceBehind p x (seg.flatMap (s.lceTouch p x a)) then s.setCmd p 1 x
        else if a.op = .cpw ∧ s.refreshing (seg.filterMap fun z => z.dst.map fun b => celBase (p / 32) + b / 8) then
          s.setCmd p 1 x
        else
          match s.gather p x (c.lceReads x a seg) with
          | (.failed st, x, s) => s.lceEnd p x a st x.off
          | (.waits, x, s) => s.setCmd p 1 x
          | (.bytes bs, x, s) =>
            let (x, s) := s.lceMove p x a seg bs
            s.lceRun p x a fuel

/-- How many passes a command can need. -/
def Core.lceFuel (c : Core) (x : Cmd) (a : LceArgs) : Nat := (c.lcePieces x a).length + 4

/-- A running command goes on (R68, R216). -/
def State.lceAdvance (s : State) (p sidx : Nat) : State :=
  match s.cmd? p 1 sidx with
  | none => s
  | some x =>
    match lceArgs x.instr with
    | none => s
    | some a =>
      if x.phase ≠ .running ∨ s.cmdWaits p 1 x then s
      else
        let st := s.lceStatus p x a
        if st ≠ 0 then s.lceFinish p x a st 0
        else
          let n := nth (s.core p |>.lceSource a x.cs).ext 0 * nth ((s.core p).desc a.ti).tile 0
          s.lceRun p x a ((s.core p).lceFuel x a + n)

/-! ## Issue (R215) -/

/-- The images that a command's leaf will digest, empty yet. -/
def Core.lceStart (c : Core) (a : LceArgs) : List Image :=
  [Image.start 0 (c.desc a.ts).fmt] ++ (if a.op = .cpig then [Image.start 1 fmtInt32] else [])
    ++ [Image.start 3 (if a.op = .cpa then fmtACC else (c.desc a.td).fmt)]

/-- The tiles that a CPA writes become live at its issue (R264). -/
def Core.liveByCpa (c : Core) (a : LceArgs) (x : Cmd) : Core :=
  if a.op = .cpa ∧ c.lceDescs a then
    let dst := c.lceDest a x
    let g0 := dst.d.base / 1024 + (dst.origin.getD 1 0).toNat
    let tiles := (List.range (nth dst.ext 1)).map fun i => (g0 + i) / 128
    { c with mxeS := { c.mxeS with live := tiles.foldl (fun m t => m ||| BitVec.ofNat 8 (2 ^ t)) c.mxeS.live } }
  else c

/-- A copy command tried: it takes a slot and its leaf enters formation. -/
def State.lceTake (s : State) (i : Instr) (cd cs : Nat) : Eff :=
  match lceArgs i with
  | none => .program
  | some a =>
    let c := s.me
    if !c.slotFree 1 then .program
    else if s.myStream.formFull then .device
    else
      let slot := if a.op = .cpic then c.cursor 1 a.td else 0
      let ci := if a.op = .cpig then s.coord a.flg else Coord.zero
      let x := Cmd.new s.myStream.sidx i s.cur.words (s.coord cd) (s.coord cs) ci slot c.lceS.mark (c.lceStart a)
      let s := s.onMe fun c => { (c.liveByCpa a x) with lceS := { c.lceS with slots := c.lceS.slots ++ [x] } }
      .cmd (s.onStream Stream.formLeaf)

/-- A copy command of the LCE tried, and run as far as it goes. -/
def State.lceCopy (s : State) (h : Hdr) (i : Instr) (cd cs : Nat) : State :=
  (s.issue h fun s => s.lceTake i cd cs).lceAdvance s.cur.core s.myStream.sidx

/-- CPI: a plain copy into the own scratchpad (R219). -/
def execCpi (h : Hdr) (td cd cs ts : Nat) (ext : Option Ext) (s : State) : Out :=
  .next (s.lceCopy h (.cpi h td cd cs ts ext) cd cs)

/-- CPIC: a plain copy into the slot of a circular tensor (R219, R221). -/
def execCpic (h : Hdr) (td cd cs ts : Nat) (ext : Option Ext) (s : State) : Out :=
  .next (s.lceCopy h (.cpic h td cd cs ts ext) cd cs)

/-- CPIG: rows gathered by an index tensor (R223). -/
def execCpig (h : Hdr) (td cd cs ts ti ci : Nat) (ext : Option Ext) (s : State) : Out :=
  .next (s.lceCopy h (.cpig h td cd cs ts ti ci ext) cd cs)

/-- CPIB: a plain copy into the scratchpads of the quad (R219, R220). -/
def execCpib (h : Hdr) (td cd cs ts : Nat) (ext : Option Ext) (s : State) : Out :=
  .next (s.lceCopy h (.cpib h td cd cs ts ext) cd cs)

/-- CPW: a plain copy into the Cellar (R219, R222). -/
def execCpw (h : Hdr) (td cd cs ts : Nat) (ext : Option Ext) (s : State) : Out :=
  .next (s.lceCopy h (.cpw h td cd cs ts ext) cd cs)

/-- CPA: accumulator rows written (R224). -/
def execCpa (h : Hdr) (td cd cs ts : Nat) (cvt : Bool) (exp : Nat) (ext : Option Ext) (s : State) : Out :=
  .next (s.lceCopy h (.cpa h td cd cs ts cvt exp ext) cd cs)

/-- CPQ: a copy with format conversion (R225). -/
def execCpq (h : Hdr) (td cd cs ts rm : Nat) (sm : Bool) (ext : Option Ext) (s : State) : Out :=
  .next (s.lceCopy h (.cpq h td cd cs ts rm sm ext) cd cs)

/-- The pages of an access translated into the cache of core `p` where they can be; a failure
leaves no trace (R226). -/
def State.prefetch (s : State) (p asid : Nat) : List Nat → State
  | [] => s
  | g :: gs =>
    match s.translate p asid (g * 2 ^ 16) false 0 with
    | (.go _, s) => s.prefetch p asid gs
    | _ => s.prefetch p asid gs

/-- PREF starts the translation of a source access (R226). -/
def execPref (h : Hdr) (cs ts : Nat) (ext : Option Ext) (s : State) : Out :=
  .next (s.issue h fun s =>
    let a := s.access ts cs ext
    let p := s.cur.core
    if s.checkAccess p 1 ts false a ≠ .ok ∨ !a.d.translated ∨ a.empty then .done s 1
    else .done (s.prefetch p (s.idsOf p).2 (a.bytesAt.map (· / 2 ^ 16)).eraseDups) 1)

/-! ## LSTAT (R227) -/

/-- The 32 bytes of the LSTAT record (Table 9.5). -/
def LceState.record (l : LceState) : List Byte :=
  leBytes 8 l.done.toNat ++ leBytes 8 l.errs.toNat
    ++ leBytes 8 (b2n l.satf * 2 ^ 49 + b2n l.qxm * 2 ^ 48 + l.first.fcode * 2 ^ 40 + l.first.fseq)
    ++ leBytes 8 l.first.foff

/-- LSTAT writes the status record once every earlier copy command has completed (R227). -/
def execLstat (h : Hdr) (td cd : Nat) (clr : Bool) (s : State) : Out :=
  .next (s.issue h fun s =>
    let p := s.cur.core
    let d := s.me.desc td
    let a : Access := { d := d, slot := 0, origin := (s.coord cd).origin, ext := [4, 1, 1, 1] }
    if !s.quiet then .program
    else if !d.v || d.fmt != fmtInt64 || d.layout != 0 || d.space != 0 || d.qwin || !bit d.wr 1
        || s.checkBounds p a != .ok then .fault 4 0 0
    else
      let vs := (pieces 8 4 s.me.lceS.record).map leNat
      let s := s.write (s.elemCells p a vs)
      .done (if clr then s.onMe fun c => { c with lceS := { c.lceS with
          errs := 0, first := FirstError.none, qxm := false, satf := false } } else s) 1)

/-! ## Receive counters and RWAIT (R228 to R231) -/

/-- A receive counter on a tick: increments performed on that tick are seen from the next one
(R228). -/
def LceState.counter (l : LceState) (now k : Nat) : Word :=
  l.incs.foldl (fun v i => if i.1 < now ∧ i.2.1 = k then v + i.2.2 else v) (l.rc.get 0 k)

/-- The counters with every increment applied. -/
def LceState.settled (l : LceState) : LceState :=
  { l with incs := [], rc := l.incs.foldl (fun m i => m.set 0 i.2.1 (m.get 0 i.2.1 + i.2.2)) l.rc }

/-- A counter set to a value, later increments standing. -/
def LceState.setCounter (l : LceState) (now k : Nat) (v : Word) : LceState :=
  { l with rc := l.rc.set 0 k v, incs := l.incs.filter fun i => !(decide (i.1 < now) && i.2.1 == k) }

/-- The receive table of a task as one INT8 tile (R359). -/
def State.recvImage (s : State) (t : Nat) : Image :=
  byteImage 0 (commitTable (((s.task? t).map (·.recv)).getD []))

/-- The RECEIVE leaf of an RWAIT (R230). -/
def rwaitLeaf (ctr : Nat) (sub : Bool) (target : Nat) (im : Image) : LeafBody :=
  { kind := 2, nmode := 0, opd0 := some im.digest, opd1 := none, opd2 := none, res := none
    extra := ctr + b2n sub * 2 ^ 4 + target * 2 ^ 8 }

/-- RWAIT holds issue until a counter has reached its target (R229, R230). -/
def execRwait (h : Hdr) (ctr : Nat) (sub : Bool) (target : Nat) (s : State) : Out :=
  .next (s.issue h fun s =>
    let now := s.gtc
    let v := s.me.lceS.counter now ctr
    let left := v - BitVec.ofNat 64 target
    if 2 ^ 63 ≤ left.toNat then
      .hold ((if s.capturing s.cur.core then s.outsideMe else s).onStream fun t => { t with hold := .rwait target })
    else if s.myStream.formFull then .device
    else
      let sidx := s.myStream.sidx
      let s := if sub then s.onMe fun c => { c with lceS := c.lceS.setCounter now ctr left } else s
      let im := s.recvImage (s.me.task.getD 0)
      .done ((s.onStream Stream.formLeaf).leaf s.cur.core 1 sidx s.cur.words (rwaitLeaf ctr sub target im) [im]) 1)

/-! ## Completions and answers -/

/-- A command of the LCE of core `phys` goes on and completes if it can (R216). -/
def execLceCommandCompletion (phys sidx : Nat) (s : State) : Out := .next (s.lceAdvance phys sidx)

/-- Bytes that fill a line of the fabric cache: those it holds already stand (R82). -/
def State.fillLine (s : State) (die line asid : Nat) (bs : List Byte) : State :=
  let d := s.die die
  let held := d.cache.get 0 line
  let cells := (cellsAt (cacheAt die line) bs).filter fun c => !bit held (c.1 % 256)
  let s := s.write cells
  let mask := 2 ^ 256 - 1
  let st := mask + (held / 2 ^ 256 % 2 ^ 256) * 2 ^ 256 + asid * 2 ^ 512
  s.setDie die { d with cache := d.cache.set 0 line st }

/-- RDR answers a read of a core (R146, R161): its bytes come in, or the command ends with the
status. -/
def execRdrPacket (p : Packet) (s : State) : Out :=
  .next (
    let k := p.score
    if !s.arrived p then s
    else match (s.core k).lceS.reads.find? fun r => r.tag == p.tag && s.inTime r.tick with
    | none => (s.lateResponse p).takePacket p
    | some r =>
      let s := s.takePacket p
      let s := s.onCore k fun c => { c with lceS := { c.lceS with reads := c.lceS.reads.erase r } }
      match s.cmd? k 1 r.sidx with
      | none => s
      | some x =>
        match lceArgs x.instr with
        | none => s
        | some a =>
          if p.status ≠ 0 then s.lceEnd k x a p.status x.off
          else
            let bs := pktData p
            match r.fill with
            | some line => (s.fillLine (k / 32) line (s.idsOf k).2 bs).lceAdvance k x.sidx
            | none =>
              (s.setCmd k 1 { x with got := x.got ++ bs.mapIdx fun i b => (r.va + i, b) }).lceAdvance k x.sidx)

end Sys2Proof.Machine
end

