-- ==== Sys2Proof/Machine/Store.lean ====
section
/-!
DEFINITION. How the store copy engine writes translated memory (10, R243 to R248): the pages of a
segment, shadow frames (R418), lines of the fabric cache and their write-backs (R82, R256), packets
and the acknowledgement table (R245), and the sender's commitments (R258).
-/

namespace Sys2Proof.Machine

/-! ## The bytes that elements write -/

/-- A byte to be stored: its value, which of its nibbles are written (1 the low one, 2 the high
one), and the byte offset in the source access that it comes from. -/
structure StoreByte where
  val : Nat
  nib : Nat
  off : Nat
deriving DecidableEq, Repr

/-- Elements joined to the bytes to be stored, the later one prevailing: the bit offset it is
written to, its code and its byte offset in the source access, which each of its bytes goes on from (R66,
R244, R249). -/
def addStore (d : Desc) (m : SMap StoreByte) (e : Nat × Nat × Nat) : SMap StoreByte :=
  let (b, v, off) := e
  if d.oddEnd b then
    (m.erase (b / 8)).ins (b / 8) { val := v % 16, nib := 3, off := off }
  else if esize d.fmt = 4 then
    let k := b / 8
    let o := SMap.get { val := 0, nib := 0, off := off } m k
    let half := b % 8 / 4
    let val := if half = 0 then o.val / 16 * 16 + v % 16 else o.val % 16 + v % 16 * 16
    (m.erase k).ins k { val := val, nib := Nat.lor o.nib (2 ^ half), off := o.off }
  else
    ((elemBytesOf d.fmt v).mapIdx fun i x => (i, x)).foldl
      (fun m c => (m.erase (b / 8 + c.1)).ins (b / 8 + c.1) { val := c.2.toNat, nib := 3, off := off + c.1 }) m

/-- The byte to be stored over an old one. -/
def StoreByte.onto (x : StoreByte) (old : Nat) : Byte :=
  match x.nib with
  | 1 => BitVec.ofNat 8 (old / 16 * 16 + x.val % 16)
  | 2 => BitVec.ofNat 8 (old % 16 + x.val / 16 * 16)
  | _ => BitVec.ofNat 8 x.val

/-! ## Pages under speculation (R418) -/

/-- A page as its writer would translate it, with no dirty mark: the result, whether its entry
serves 2 MiB, and the frame tag set (R131, R135). -/
def State.peekWrite (s : State) (asid va : Nat) : Xlat × Bool × State :=
  match s.ast asid with
  | none => (.bad 4, false, s)
  | some e =>
    match s.walk e asid va with
    | none => (.absent, false, s)
    | some q =>
      let (r, s) := s.useEntry e asid va q true
      (r, bit q.lo 1, s)

/-- The speculation of shadow context `k` has met a capacity limit (R418, R421). -/
def State.overCapacity (s : State) (k : Nat) : State := s.onShadow k fun x => { x with isOver := true }

/-- The 64 KiB units that a speculation holds: frames, and audit records (R418). -/
def Shadow.units (x : Shadow) : Nat := x.frames.length + (64 * x.audit.length + 65535) / 65536

/-- A free frame of the shadow pool taken: one that has come back, else the next one from SPOOLB
(Table 15.2). -/
def State.poolTake (s : State) : Option (Nat × State) :=
  match s.pool with
  | f :: rest => some (f, { s with pool := rest })
  | [] =>
    if s.poolNext < s.regs.spooln then
      some (s.regs.spoolb + 2 ^ 16 * s.poolNext, { s with poolNext := s.poolNext + 1 })
    else none

/-- A shadow frame taken for a page and filled with it; the page's own frame joins the read set
(R418, R419). -/
def State.takeFrame (s : State) (k va : Nat) (t : Target) : Option Target × State :=
  match s.poolTake, s.shadows.get none k with
  | some (f, s'), some x =>
    if 16384 ≤ x.units then (none, s.overCapacity k)
    else
      let page := (List.range (2 ^ 16)).map fun i => s.under t.key (s.paFlat (t.base + i))
      let s := { s' with tags := s.tags.set 0 (f / 2 ^ 16) (s.tags.get 0 (t.base / 2 ^ 16)) }
      let s := s.writeUnder t.key (cellsAt f page)
      let s := s.onShadow k fun x =>
        { x with frames := x.frames ++ [(va / 2 ^ 16 * 2 ^ 16, t.base, f)]
                 watch := x.watch ++ [(s.paFlat t.base, 2 ^ 16)] }
      (some { t with base := f }, s)
  | _, _ => (none, s.overCapacity k)

/-- Pages of a speculation's output translated to their shadow frames (R418). -/
def State.shadowPages (s : State) (p k asid : Nat) : List Nat → Pages × State
  | [] => (.all [], s)
  | g :: gs =>
    let va := g * 2 ^ 16
    match s.peekWrite asid va with
    | (.bad st, _, s) => (.bad st, s)
    | (.absent, _, s) => (.wait va false, s)
    | (.full, _, s) => (.wait va true, s)
    | (.go t, big, s) =>
      let have' := ((s.shadows.get none k).bind fun x => x.frames.find? fun f => f.1 == va)
      let (r, s) : Option Target × State := match have' with
        | some f => (some { t with base := f.2.2 }, s)
        | none =>
          if t.mode ≠ 0 then (none, s.park p)
          else if big then (none, s.overCapacity k)
          else s.takeFrame k va t
      match r with
      | none => (.bad 0, s)
      | some t =>
        match s.shadowPages p k asid gs with
        | (.all ts, s) => (.all ((g, t) :: ts), s)
        | r => r

/-- The pages that some addresses write, translated for core `p` (R132, R138, R418); status 0 marks
a speculation that cannot go on. -/
def State.outPages (s : State) (p : Nat) (as : List Nat) : Pages × State :=
  let asid := (s.idsOf p).2
  let pages := (as.map (· / 2 ^ 16)).eraseDups
  match (s.taskOf p).bind (·.spec) with
  | none => s.xlatePages p asid true as pages
  | some k => s.shadowPages p k asid pages

/-! ## Lines of the fabric cache (R82, R256) -/

/-- The state of a line in the fabric cache of a die. -/
def State.line (s : State) (die l : Nat) : Nat := (s.die die).cache.get 0 l

/-- The bytes of a line that are held, and those that are dirty. -/
def lineHas (v : Nat) : Nat := v % 2 ^ 256

/-- The dirty bytes of a line. -/
def lineDirty (v : Nat) : Nat := v / 2 ^ 256 % 2 ^ 256

/-- The state of a line in the fabric cache set. -/
def State.setLine (s : State) (die l v : Nat) : State :=
  let d := s.die die
  s.setDie die { d with cache := d.cache.set 0 l v }

/-- Bytes that a command of core `p` writes into a line (R82). -/
def State.enterLine (s : State) (p sidx l asid : Nat) (bs : List (Nat × Byte)) : State :=
  let die := p / 32
  let s := s.write (bs.map fun b => (cacheAt die l + b.1, b.2))
  let mask := bs.foldl (fun m b => Nat.lor m (2 ^ b.1)) 0
  let v := s.line die l
  let s := s.setLine die l (Nat.lor (lineHas v) mask + Nat.lor (lineDirty v) mask * 2 ^ 256 + asid * 2 ^ 512)
  s.onCore p fun c =>
    let d : Dirt := { line := l, sidx := sidx, away := false }
    if c.sceS.dirt.contains d then c else { c with sceS := { c.sceS with dirt := c.sceS.dirt ++ [d] } }

/-- The runs of set bits of a mask below 256: first bit and length. -/
def runsOf (mask : Nat) : List (Nat × Nat) :=
  (List.range 256).foldl (fun rs i =>
    if !bit mask i then rs
    else match rs.getLast? with
      | some r => if r.1 + r.2 = i then rs.dropLast ++ [(r.1, r.2 + 1)] else rs ++ [(i, 1)]
      | none => [(i, 1)]) []

/-- The packets that write back the dirty bytes of a line: position 31 of the die, task 0 (R256). -/
def State.wbPackets (s : State) (die l : Nat) : List Packet :=
  let v := s.line die l
  let peer := l / 2 ^ 36
  let pa := l % 2 ^ 36 * 256
  (runsOf (lineDirty v)).map fun r =>
    { type := 0x01, urg := false, sid := false, det := false, npay := (r.2 + 63) / 64, hops := 0
      src := s.peerId, dst := peer, via := peer, score := 32 * die + 31, asid := v / 2 ^ 512
      va := pa + r.1, task := 0, tag := 0, colmask := 0, group := 0, aop := 0, rel := false
      lenm1 := r.2 - 1, opa := 0, opb := 0, status := 0, aux := 0
      payload := flitsOf (s.bytes (cacheAt die l + r.1) r.2), phys := true }

/-- Whether a write-back of a line has not settled. -/
def State.wbOpen (s : State) (die l : Nat) : Bool := (s.die die).wb.any fun w => w.line == l

/-- The least number not among those given. -/
def leastFree (used : List Nat) : Nat :=
  ((List.range (used.length + 1)).find? fun k => !used.contains k).getD used.length

/-- Write-backs leave in order, one packet of a line at a time (R79). -/
def State.pumpWb (s : State) (die : Nat) : List WriteBack → List WriteBack → List WriteBack × State
  | done, [] => (done, s)
  | done, w :: ws =>
    match w.pkts with
    | [] => s.pumpWb die done ws
    | k :: ks =>
      if w.sent || done.any (fun d => d.line == w.line) then s.pumpWb die (done ++ [w]) ws
      else
        let used := (done ++ ws).flatMap fun d => if d.sent then (d.pkts.take 1).map (·.tag) else []
        let k := { k with tag := leastFree used }
        (s.inject k).pumpWb die (done ++ [{ w with pkts := k :: ks, sent := true, tick := s.gtc }]) ws

/-- The write-backs of a die that may leave now. -/
def State.pumpDie (s : State) (die : Nat) : State :=
  let (ws, s) := s.pumpWb die [] (s.die die).wb
  let d := s.die die
  s.setDie die { d with wb := ws }

/-- The stores of a line whose write-back has started, or has settled. -/
def State.onDirt (s : State) (die l : Nat) (f : List Dirt → List Dirt) : State :=
  { s with cores := s.cores.map fun e =>
      (e.1, if e.1 / 32 = die ∧ e.2.sceS.dirt.any (fun d => d.line == l) then
        { e.2 with sceS := { e.2.sceS with dirt := f e.2.sceS.dirt } } else e.2) }

/-- The dirty bytes of a line start back to their home (R256). -/
def State.startWb (s : State) (die l : Nat) (for' : Option (Nat × Nat)) (inv : Bool) : State :=
  let v := s.line die l
  let w : WriteBack := { line := l, pkts := s.wbPackets die l, sent := false, for' := for', inv := inv, tick := s.gtc }
  let d := s.die die
  let s := s.setDie die { d with wb := d.wb ++ [w] }
  let s := s.setLine die l (lineHas v + v / 2 ^ 512 * 2 ^ 512)
  let s := s.onDirt die l fun ds => ds.map fun d => if d.line = l then { d with away := true } else d
  s.pumpDie die

/-- A line invalidated: bytes that a later store has made dirty stay (R256). -/
def State.invalidateLine (s : State) (die l : Nat) : State :=
  let v := s.line die l
  let d := lineDirty v
  s.setLine die l (if d = 0 then 0 else d + d * 2 ^ 256 + v / 2 ^ 512 * 2 ^ 512)

/-! ## Packets of a command (R245, R357, R358) -/

/-- A command's record of what it has sent, changed. -/
def State.onSend (s : State) (p sidx : Nat) (f : SendRec → SendRec) : State :=
  s.onCore p fun c => { c with sceS := { c.sceS with
    sends := c.sceS.sends.map fun r => if r.sidx = sidx then f r else r } }

/-- A packet counted in the sender's commitments: a multicast copy as its WR form at each member
(R258). -/
def State.countSend (s : State) (p sidx : Nat) (z : Sending) (k : Packet) : State :=
  if !z.count then s
  else s.onSend p sidx fun r =>
    { r with sums :=
        if z.mask = 0 then r.sums.set Commit.zero k.dst ((r.sums.get Commit.zero k.dst).add k)
        else (membersOf z.mask.toNat).foldl (fun m q =>
          m.set Commit.zero q ((m.get Commit.zero q).add (wrForm k q))) r.sums }

/-- A member that has answered negatively (R252). -/
def Cmd.nak (x : Cmd) (q why : Nat) : Cmd := { x with agg := { x.agg with nake := addNak x.agg.nake q why } }

/-- The members or the one peer that a store goes to. -/
def Sending.peers (z : Sending) : List Nat := if z.mask = 0 then [z.pkt.dst] else membersOf z.mask.toNat

/-- Whether a store of an earlier command of the core that is still to be injected goes to the line of a
packet (R62, R79, R262). -/
def Core.pendBefore (c : Core) (sidx : Nat) (z : Sending) : Bool :=
  c.sceS.slots.any fun y => decide (y.sidx < sidx) && y.pend.any fun w =>
    w.pkt.type != 0x06 && w.pkt.va / 256 == z.pkt.va / 256 && w.pkt.phys == z.pkt.phys
      && w.peers.any fun q => z.peers.contains q

/-- The next packet of a command injected, if nothing holds it: an unsettled packet to its line, or one still
to be injected by an earlier command, or one with its tag, or a full acknowledgement table (R245, R357). A
packet of a capture run counts as injected and settled (R380). A multicast line for this module itself
is performed here (R134, R164), and on a module without pod peers one for others is reported with reason
LINK (R251). -/
def State.sendNext (s : State) (p : Nat) (x : Cmd) (z : Sending) : Option (Cmd × State) :=
  let c := s.core p
  let tag := pktTag x.sidx x.pkts
  let k := { z.pkt with tag := tag }
  let sig := k.type == 0x06
  let lines := if z.mask = 0 then c.lineHeld k.dst k.va k.phys
    else (membersOf z.mask.toNat).any fun q => c.lineHeld q k.va k.phys
  if s.capturing p then
    some ({ x with pkts := if k.type = 0x07 ∧ k.dst = s.peerId then x.pkts else x.pkts + 1 }, s.countSend p x.sidx z k)
  else if (lines || c.pendBefore x.sidx z) && !sig then none
  else if k.type = 0x07 ∧ s.noPeer k.dst then
    some (z.peers.foldl (fun x q => x.nak q 2) { x with pkts := x.pkts + 1 }, s.countSend p x.sidx z k)
  else if k.type = 0x07 ∧ k.dst = s.peerId then
    let w := wrForm k s.peerId
    match s.homeStore w with
    | (none, _) => none
    | (some st, s) =>
      some (if st = 0 then x else x.nak s.peerId 1, (s.countRecv w).countSend p x.sidx z k)
  else if decide (256 ≤ c.sceS.ack.length) || c.tagHeld tag then none
  else
    let a : AckEntry :=
      { tag := tag, sidx := x.sidx, dst := k.dst, line := k.va / 256, local? := k.phys
        atm := k.type == 0x04, sig := sig, off := z.off, seg := z.seg, tick := s.gtc, mask := z.mask }
    let s := s.onCore p fun c => { c with sceS := { c.sceS with ack := c.sceS.ack ++ [a] } }
    some ({ x with pkts := x.pkts + 1 }, (s.inject k).countSend p x.sidx z k)

/-- Packets injected in order until one is held: it holds those behind it (R245). -/
def State.drain (s : State) (p : Nat) (x : Cmd) : List Sending → Cmd × State
  | [] => ({ x with pend := [] }, s)
  | z :: zs =>
    match s.sendNext p x z with
    | none => ({ x with pend := z :: zs }, s)
    | some (x, s) => s.drain p x zs

/-! ## A group of bytes stored -/

/-- Where a byte goes. -/
inductive Dest where
  | here (a key : Nat)
  | cache (line off : Nat)
  | away (peer addr : Nat) (phys : Bool)
deriving DecidableEq, Repr

/-- Where a byte of the destination of a command goes (R134, R136). -/
def State.destOf (s : State) (d : Desc) (ts : List (Nat × Target)) (a : Nat) : Dest :=
  if d.space = 5 then .away d.peer a false
  else match pageOf ts a with
    | none => .away 0 a false
    | some t =>
      let pa := t.base + a % 2 ^ 16
      match (if s.noPeer t.peer then min t.mode 1 else t.mode) with
      | 0 => .here (s.paFlat pa) t.key
      | 2 => .cache (cacheLine t.peer pa) (pa % 256)
      | _ => .away t.peer pa true

/-- A run of bytes on its way to one line of a home. -/
structure Run where
  peer : Nat
  addr : Nat
  phys : Bool
  bs   : List Byte
  off  : Nat
deriving DecidableEq, Repr

/-- A byte joins the runs: consecutive bytes of one aligned 256-byte line travel together (R146,
R248). -/
def joinRun (rs : List Run) (peer addr : Nat) (phys : Bool) (b : Byte) (off : Nat) : List Run :=
  let new : Run := { peer := peer, addr := addr, phys := phys, bs := [b], off := off }
  match rs.getLast? with
  | some r =>
    if r.peer = peer ∧ r.phys = phys ∧ r.addr + r.bs.length = addr ∧ r.addr / 256 = addr / 256 then
      rs.dropLast ++ [{ r with bs := r.bs ++ [b] }]
    else rs ++ [new]
  | none => [new]

/-- What byte a half-written byte is completed with: the one that memory or the cache holds; over
the fabric, a free value (log entry 4). -/
def State.oldByte (s : State) (die : Nat) (g : Dest) : Nat × State :=
  match g with
  | .here a key => ((s.under key a).toNat, s)
  | .cache l o => if bit (s.line die l) o then ((s.byte (cacheAt die l + o)).toNat, s) else s.free
  | .away _ _ _ => s.free

/-- The bytes of a group with where they go, half-written ones completed. -/
def State.completeBytes (s : State) (die : Nat) : List (Dest × StoreByte) → List (Dest × Byte × Nat) × State
  | [] => ([], s)
  | (g, b) :: r =>
    let (old, s) := if b.nib = 3 then (0, s) else s.oldByte die g
    let (out, s) := s.completeBytes die r
    ((g, b.onto old, b.off) :: out, s)

/-- The keys under which a group writes local memory. -/
def hereKeys (bs : List (Dest × Byte × Nat)) : List Nat :=
  (bs.filterMap fun e => match e.1 with | .here _ key => some key | _ => none).eraseDups

/-- The lines of the fabric cache that a group writes. -/
def cacheLines (bs : List (Dest × Byte × Nat)) : List Nat :=
  (bs.filterMap fun e => match e.1 with | .cache l _ => some l | _ => none).eraseDups

/-- Bytes stored for command `sidx` of core `p`: local ones are written, those of CACHED pages enter
the fabric cache, and the others are left as runs for the fabric (R134, R243). A capture run writes
none that has its home elsewhere (R380). -/
def State.storeBytes (s : State) (p sidx : Nat) (d : Desc) (ts : List (Nat × Target)) (m : SMap StoreByte) :
    List Run × State :=
  let (bs, s) := s.completeBytes (p / 32) (m.map fun e => (s.destOf d ts e.1, e.2))
  let s := (hereKeys bs).foldl (fun s key => s.writeUnder key (bs.filterMap fun e => match e.1 with
    | .here a k => if k = key then some (a, e.2.1) else none
    | _ => none)) s
  let s := (if s.capturing p then [] else cacheLines bs).foldl (fun s l => s.enterLine p sidx l (s.idsOf p).2 (bs.filterMap fun e => match e.1 with
    | .cache k o => if k = l then some (o, e.2.1) else none
    | _ => none)) s
  (bs.foldl (fun rs e => match e.1 with
    | .away peer addr phys => joinRun rs peer addr phys e.2.1 e.2.2
    | _ => rs) [], s)

/-- Whether a byte of a group lies in an ENCI line that has no counter left (R460). -/
def State.storeFull (s : State) (d : Desc) (ts : List (Nat × Target)) (m : SMap StoreByte) : Bool :=
  m.any fun e => match s.destOf d ts e.1 with
    | .here a key => s.counterFull key a
    | _ => false

/-- The WR packet of a run. -/
def State.runPacket (s : State) (p : Nat) (r : Run) : Packet :=
  let fl := flitsOf r.bs
  { s.packetFrom p 0x01 false r.peer r.addr 0 (r.bs.length - 1) r.phys with npay := fl.length, payload := fl }

/-- The copies of one multicast line (R164): this module's own store, the row intermediates, and
the members of its column. -/
def State.mcwCopies (s : State) (p group seg : Nat) (members : List Nat) (r : Run) : List Sending :=
  let me := s.peerId
  let k := { s.runPacket p r with type := 0x07, group := group }
  let copy (dst : Nat) (rows : List Nat) (col : Nat) : Sending :=
    { pkt := { k with dst := dst, via := dst, colmask := mapOf rows }, off := r.off, seg := seg
      mask := BitVec.ofNat 512 (mapOf (rows.map fun i => 32 * i + col)), count := true }
  let inCol (c : Nat) : List Nat := (members.filter fun q => q % 32 == c).map (· / 32)
  (if members.contains me then [copy me [me / 32] (me % 32)] else [])
    ++ ((List.range 32).filter fun c => c != me % 32 && inCol c != []).map (fun c =>
        copy (32 * (me / 32) + c) (inCol c) c)
    ++ ((inCol (me % 32)).filter (· != me / 32)).map fun i => copy (32 * i + me % 32) [i] (me % 32)

/-! ## Commitments in stream order (R258, R259) -/

/-- Two tables of commitments added. -/
def addCommits (m : SMap Commit) (d : SMap Commit) : SMap Commit :=
  d.foldl (fun m e =>
    let c := m.get Commit.zero e.1
    m.set Commit.zero e.1 { count := c.count + e.2.count, sum := c.sum + e.2.sum }) m

/-- The records of commands that have sent their last packet, added in stream order; the leaf of an
FSIG takes the sum toward its peer after its own packet (R259). -/
def State.mergeSends (s : State) (p : Nat) : Nat → State
  | 0 => s
  | fuel + 1 =>
    match (s.core p).sceS.sends with
    | [] => s
    | r :: rs =>
      if !r.isOver then s
      else
        let s := s.onCore p fun c => { c with sceS := { c.sceS with
          sends := rs, commit := addCommits c.sceS.commit r.sums } }
        let s := match r.leaf with
          | none => s
          | some (peer, extra, words) =>
            let im : Image := { role := 0, fmt := fmtInt8, blk := 0, ext := [32, 1, 1, 1]
                                bytes := leBytes 32 (((s.core p).sceS.commit.get Commit.zero peer).sum).toNat }
            s.leaf p 4 r.sidx words { kind := 4, nmode := 0, opd0 := some im.digest, opd1 := none, opd2 := none
                                      res := none, extra := extra } [im]
        s.mergeSends p fuel

/-- A command has sent its last packet, or has ended. -/
def State.sendOver (s : State) (p sidx : Nat) (leaf : Option (Nat × Nat × List Nat)) : State :=
  let s := s.onSend p sidx fun r => { r with isOver := true, leaf := leaf }
  s.mergeSends p (s.core p).sceS.sends.length

/-- The sender commitments of a core, records that wait for earlier ones included. -/
def SceState.commitments (x : SceState) : SMap Commit :=
  x.sends.foldl (fun m r => addCommits m r.sums) x.commit

end Sys2Proof.Machine
end

