-- ==== Sys2Proof/Machine/Sce.lean ====
section
/-!
DEFINITION. The store copy engine (10): CPO, CPOC, CPOS, CPF, CPM, FAT, FSIG, FLUSH and SSTAT, the
completion of its commands and the settlement of its packets.
-/

namespace Sys2Proof.Machine

/-! ## Operands -/

/-- What a command of the SCE does. -/
inductive SceOp where
  | cpo | cpoc | cpos | cpf | cpm | fat | fsig | flush | flushAll
deriving DecidableEq, Repr

/-- The operands of a command of the SCE (Table 10.3): `t3` and `r3` are TI and CI, or TR and CR;
`opt` is RES, REL or INV; `num` is GROUP, AOP or INC. -/
structure SceArgs where
  op   : SceOp
  td   : Nat
  ts   : Nat
  t3   : Nat
  ackw : Bool
  opt  : Bool
  num  : Nat
  ext  : Option Ext
deriving DecidableEq, Repr

/-- The operands of an instruction that is a command of the SCE. -/
def sceArgs (i : Instr) : Option SceArgs :=
  let a : SceArgs := { op := .cpo, td := 0, ts := 0, t3 := 0, ackw := false, opt := false, num := 0, ext := none }
  match i with
  | .cpo _ td _ _ ts w ext => some { a with td := td, ts := ts, ackw := w, ext := ext }
  | .cpoc _ td _ _ ts w ext => some { a with op := .cpoc, td := td, ts := ts, ackw := w, ext := ext }
  | .cpos _ td _ _ ts ti _ w ext => some { a with op := .cpos, td := td, ts := ts, t3 := ti, ackw := w, ext := ext }
  | .cpf _ td _ _ ts w ext => some { a with op := .cpf, td := td, ts := ts, ackw := w, ext := ext }
  | .cpm _ td _ _ ts g ext => some { a with op := .cpm, td := td, ts := ts, num := g, ext := ext }
  | .fat _ td _ _ ts res tr _ aop => some { a with op := .fat, td := td, ts := ts, t3 := tr, opt := res, num := aop }
  | .fsig _ _ ts rel w inc => some { a with op := .fsig, ts := ts, opt := rel, ackw := w, num := inc }
  | .flush _ td _ inv ext => some { a with op := .flush, td := td, opt := inv, ext := ext }
  | .flushAll _ inv => some { a with op := .flushAll, opt := inv }
  | _ => none

/-- Whether a command copies a block. -/
def SceOp.copies (o : SceOp) : Bool :=
  match o with
  | .cpo | .cpoc | .cpos | .cpf | .cpm => true
  | _ => false

/-- Whether a command emits a leaf (R259). -/
def SceOp.leafy (o : SceOp) : Bool := o != .flush && o != .flushAll

/-- The source access (R241, R247, R249). -/
def Core.sceSource (c : Core) (a : SceArgs) (x : Cmd) : Access :=
  let d := c.desc a.ts
  { d := d, slot := if a.op = .cpos then 0 else x.slot, origin := x.cs.origin
    ext :=
      if a.op = .cpos then [(a.ext.map (·.e0)).getD (nth d.tile 0), nth (c.desc a.t3).tile 0, 1, 1]
      else if a.op = .fat then [if a.num = 4 then 2 else 1, 1, 1, 1]
      else if a.op = .fsig then [1, 1, 1, 1]
      else match a.ext with
        | none => d.tile
        | some x => [x.e0, x.e1, nth d.tile 2, nth d.tile 3] }

/-- The access of CPOS to its index tensor (R249), in the slot of the cursor at issue if it is circular (R31). -/
def Core.sceIndex (c : Core) (a : SceArgs) (x : Cmd) : Access :=
  let d := c.desc a.t3
  { d := d, slot := x.slot, origin := [x.ci.int 0, 0, 0, 0], ext := [nth d.tile 0, 1, 1, 1] }

/-- The destination access; for CPOS one row, for FAT the target word, for FLUSH its range (R247,
R249, R253, R256). -/
def Core.sceDest (c : Core) (a : SceArgs) (x : Cmd) : Access :=
  let d := c.desc a.td
  let src := c.sceSource a x
  if a.op = .cpos then
    { d := d, slot := 0, origin := [x.cd.int 0, 0, x.cd.int 2, x.cd.int 3]
      ext := if src.empty then [0, 0, 0, 0] else [nth src.ext 0, 1, 1, 1] }
  else
    { d := d, slot := if a.op = .fat then x.slotD else if a.op = .flush then x.slot else 0, origin := x.cd.origin
      ext := if a.op = .fat then [1, 1, 1, 1]
        else if a.op = .flush then (match a.ext with
          | none => d.tile
          | some x => [x.e0, x.e1, nth d.tile 2, nth d.tile 3])
        else src.ext }

/-- The access of FAT to its result (R253). -/
def Core.sceResult (c : Core) (a : SceArgs) (x : Cmd) : Access :=
  { d := c.desc a.t3, slot := x.slotT, origin := x.ci.origin, ext := [1, 1, 1, 1] }

/-! ## Checks (R247 to R256) -/

/-- Whether a space is HBM, DDR or HOST. -/
def outSpace (space : Nat) : Bool := space == 3 || space == 4 || space == 6

/-- The conditions on descriptors that give DESC (Table 10.5, R249, R251, R253, R254, R256). -/
def Core.sceDescs (c : Core) (a : SceArgs) : Bool :=
  let sd := c.desc a.ts
  let dd := c.desc a.td
  let spd := sd.v && sd.space == 0
  let word := spd && !sd.qwin && sd.fmt == fmtInt64
  let same := dd.v && sd.fmt == dd.fmt && sd.fmt != fmtACC && dd.layout != 2
  match a.op with
  | .cpo => spd && sd.layout != 2 && same && outSpace dd.space
  | .cpoc => spd && !sd.qwin && sd.layout == 2 && sd.cons == 4 && same && outSpace dd.space
  | .cpos =>
    let id := c.desc a.t3
    spd && sd.layout != 2 && same && outSpace dd.space && sd.fmt != fmtQX4
      && id.v && id.fmt == fmtInt32 && id.rank == 1 && id.space == 0 && !id.qwin
  | .cpf => spd && sd.layout != 2 && same && dd.space == 5
  | .cpm => spd && sd.layout != 2 && same && dd.space == 5
  | .fat =>
    let rd := c.desc a.t3
    word && dd.v && dd.fmt == fmtInt64 && (dd.space == 3 || dd.space == 4 || dd.space == 5)
      && (!a.opt || (rd.v && rd.fmt == fmtInt64 && outSpace rd.space))
  | .fsig => word
  | .flush => dd.v && outSpace dd.space
  | .flushAll => true

/-- The first element bit of an access. -/
def Access.firstBit (a : Access) : Nat := a.bitOffs.headD 0

/-- The status of the checks made before any byte moves (R247): descriptors, then the source and
the destination in the order of Table 6.4. -/
def State.sceStatus (s : State) (p : Nat) (x : Cmd) (a : SceArgs) : Nat :=
  let c := s.core p
  let src := c.sceSource a x
  let dst := c.sceDest a x
  let from' : List Nat := [(c.checkRights 4 a.ts false).status, (s.checkBounds p src).status]
  let to' : List Nat := [(c.checkRights 4 a.td true).status, (s.checkBounds p dst).status]
  if !c.sceDescs a then 1
  else match a.op with
    | .cpos => firstBad ([(c.checkRights 4 a.ts false).status, (c.checkRights 4 a.t3 false).status
        , (s.checkBounds p (c.sceIndex a x)).status, (s.checkBounds p src).status] ++ to')
    | .fat => firstBad (from' ++ to' ++ [if dst.firstBit / 8 % 8 = 0 then 0 else 2]
        ++ (if a.opt then [(c.checkRights 4 a.t3 true).status, (s.checkBounds p (c.sceResult a x)).status] else []))
    | .fsig => firstBad from'
    | .flush => firstBad to'
    | .flushAll => 0
    | _ => firstBad (from' ++ to')

/-! ## Completion (R243, R244, R252, R259) -/

/-- Whether some packet of a command has not settled. -/
def Core.unsettled (c : Core) (sidx : Nat) : Bool := c.sceS.ack.any fun k => k.sidx == sidx

/-- The aggregate of a CPM as it completes with a status of its own (R251, R252). -/
def Cmd.aggregate (x : Cmd) (group status : Nat) : Mcast :=
  let naks := x.agg.nake
  let members := (membersOf x.gmap.toNat).length
  let code := if naks = [] then status
    else if status ≠ 0 then status
    else if ((naks.headD (0, 1)).2 == 1) then 7 else 6
  { val := true, code := code, part := naks != [], group := group, seq := x.sidx
    okn := if status = 0 then members - naks.length else 0
    nakn := naks.length, nake := naks, nakmap := BitVec.ofNat 512 (mapOf (naks.map Prod.fst)) }

/-- The extra field of Table 10.9 for a command that completes with OK or PARTIAL. -/
def sceExtra (x : Cmd) (a : SceArgs) (g : Mcast) : Nat :=
  match a.op with
  | .cpoc => x.slot * 2 ^ 8
  | .cpm => g.code + b2n g.part * 2 ^ 8 + a.num * 2 ^ 16 + g.okn * 2 ^ 24 + g.nakn * 2 ^ 34
  | .fat => a.num * 2 ^ 8 + x.peer * 2 ^ 12
  | _ => 0

/-- The extra field of an FSIG (Table 10.9), from its signal word. -/
def fsigExtra (a : SceArgs) (w : Nat) : Nat :=
  a.num * 2 ^ 9 + b2n a.opt * 2 ^ 37 + bits w 40 32 * 2 ^ 38 + bits w 53 50 * 2 ^ 47 + bits w 49 41 * 2 ^ 51

/-- The images of a command with the extents of their blocks (R381). -/
def Core.sceExtents (c : Core) (x : Cmd) (a : SceArgs) : List Image :=
  let src := c.sceSource a x
  let rows := [nth src.ext 0, (x.indices.filter fun k => decide (0 ≤ k)).length, 1, 1]
  (x.images.filter fun im => decide (im.role < 16)).map fun im =>
    if im.role = 0 then { im with ext := src.ext }
    else if im.role = 3 then { im with ext := if a.op = .cpos then rows else src.ext }
    else if a.op = .cpos then { im with ext := [im.bytes.length / 4, 1, 1, 1] }
    else im

/-- The leaf of a command that is no FSIG formed (Table 10.9): a CPM is PARTIAL where its negative members alone
make its status (R252). -/
def State.sceLeaf (s : State) (p : Nat) (x : Cmd) (a : SceArgs) (g : Mcast) (status foff : Nat) : State :=
  let bad := decide (status ≠ 0) && !(g.part && decide (x.status = 0))
  let body : LeafBody :=
    { kind := 3, nmode := 0, opd0 := x.digestOf 0, opd1 := x.digestOf 1, opd2 := x.digestOf 2
      res := if bad then none else x.digestOf 3
      extra := if bad then status + foff % 2 ^ 56 * 2 ^ 8 else sceExtra x a g }
  s.leaf p 4 x.sidx x.words body ((s.core p).sceExtents x a)

/-- A command of the SCE completes (R243, R244): DONE and ERRS count, the first failure is recorded,
a CPM leaves its aggregate, and the leaf is formed; that of an FSIG waits for earlier commands, and carries the
commitment that its SIG has entered, whatever became of it (R259). -/
def State.sceFinish (s : State) (p : Nat) (x : Cmd) (a : SceArgs) (status foff : Nat) : State :=
  let g := if a.op = .cpm then x.aggregate a.num status else Mcast.empty
  let x := if a.op = .cpm then
      { x with agg := g, images := x.images ++ [byteImage 2 (leBytes 64 g.nakmap.toNat)] } else x
  let code := if a.op = .cpm then g.code else status
  let s := s.onCore p fun c =>
    let l := c.sceS
    let first : FirstError := if code ≠ 0 ∧ l.errs = 0 then
        { fseq := x.sidx % 2 ^ 40, fcode := code, foff := foff, part := g.part && decide (status = 0), late := false }
      else l.first
    { c with sceS := { l with
        done := l.done + 1, errs := if code ≠ 0 then l.errs + 1 else l.errs, first := first
        last := if a.op = .cpm then g else l.last
        late := if code ≠ 0 ∧ c.unsettled x.sidx then l.late ++ [x.sidx] else l.late } }
  let waiting := (s.core p).sce.gives.any fun g => g.sidx == x.sidx
  let y := { x with phase := .done, status := code, foff := foff, pend := [] }
  let x := { x with status := status }
  let s := s.onCmds p 4 fun xs =>
    if waiting || a.op.leafy then xs.map fun z => if z.sidx = x.sidx then y else z else xs.filter fun z => z.sidx != x.sidx
  if !a.op.leafy then s
  else if a.op = .fsig then
    if code = 0 ∨ x.next = 1 then
      s.sendOver p x.sidx (some (bits x.old.toNat 40 32
        , if code = 0 then fsigExtra a x.old.toNat else code + foff % 2 ^ 56 * 2 ^ 8, x.words))
    else
      let body : LeafBody := { kind := 4, nmode := 0, opd0 := none, opd1 := none, opd2 := none, res := none
                               extra := code + foff % 2 ^ 56 * 2 ^ 8 }
      (s.leaf p 4 x.sidx x.words body []).sendOver p x.sidx none
  else (s.sceLeaf p x a g code foff).sendOver p x.sidx none

/-! ## Copies (R247 to R252) -/

/-- The elements of a copy out, in the order of its source; a negative index sends its row nowhere
(R249). -/
def Core.scePieces (c : Core) (a : SceArgs) (x : Cmd) : List Piece :=
  let src := c.sceSource a x
  let dst := c.sceDest a x
  if a.op = .cpos then
    if src.empty then []
    else
      let e0 := nth src.ext 0
      src.bitOffs.mapIdx fun (i : Nat) (b : Nat) =>
        let k : Int := x.indices.getD (i / e0) 0
        { i := i, src := some b
          dst := if k < 0 then none
            else some (dst.d.bitOff 0 [(x.cd.int 0).toNat + i % e0, k.toNat, (x.cd.int 2).toNat, (x.cd.int 3).toNat]) }
  else pairPieces src dst

/-- The destination bytes an element writes. -/
def Desc.writes (d : Desc) (z : Piece) : List Nat :=
  match z.dst with
  | none => []
  | some b => d.elemBytes b

/-- The bytes of a segment in the groups that travel apart: each row of a CPOS, else the whole
(R248, R249). Each element is its destination bit offset, its code and its source byte offset. -/
def segGroups (a : SceArgs) (e0 es : Nat) (d : Desc) (seg : List (Piece × Nat)) : List (SMap StoreByte) :=
  let item (z : Piece × Nat) : Option (Nat × Nat × Nat) := z.1.dst.map fun b => (b, z.2, z.1.i * es / 8)
  let rows : List Nat := if a.op = .cpos then (seg.map fun z => z.1.i / e0).eraseDups else [0]
  rows.map fun r => (seg.filter fun z => a.op != .cpos || z.1.i / e0 == r).foldl
    (fun m z => match item z with | none => m | some e => addStore d m e) []

/-- The packets that the runs of a group become (R248, R251). -/
def State.runsOut (s : State) (p : Nat) (x : Cmd) (a : SceArgs) (seg : Nat) (rs : List Run) : List Sending :=
  if a.op = .cpm then rs.flatMap fun r => s.mcwCopies p a.num seg (membersOf x.gmap.toNat) r
  else rs.map fun r => { pkt := s.runPacket p r, off := r.off, seg := seg, mask := 0, count := true }

/-- The groups of a segment stored, one after another. -/
def State.storeGroups (s : State) (p : Nat) (x : Cmd) (a : SceArgs) (d : Desc) (ts : List (Nat × Target)) (seg : Nat) :
    List (SMap StoreByte) → Cmd × State
  | [] => (x, s)
  | m :: ms =>
    let (rs, s) := s.storeBytes p x.sidx d ts m
    s.storeGroups p { x with pend := x.pend ++ s.runsOut p x a seg rs } a d ts seg ms

/-- A copy that has moved its last element: a waited one and a CPM go on waiting for their packets
(R243). -/
def State.sceMoved (s : State) (p : Nat) (x : Cmd) (a : SceArgs) : State :=
  let wait := a.ackw || a.op == .cpm
  let s := if wait then s.onSend p x.sidx fun r => { r with isOver := true } else s
  let s := s.mergeSends p (s.core p).sceS.sends.length
  if wait && (s.core p).unsettled x.sidx then s.setCmd p 4 x
  else s.sceFinish p x a x.status x.foff

/-- A copy that ends at its source with a status sends nothing more; one that waits for its packets still does
(R243, R250). What its packets brought first stands. -/
def State.sceFail (s : State) (p : Nat) (x : Cmd) (a : SceArgs) (status foff : Nat) : State :=
  let x := if x.status = 0 then { x with status := status, foff := foff } else x
  s.sceMoved p { x with next := ((s.core p).scePieces a x).length, pend := [] } a

/-- The names of the bytes that an element of a copy out touches: its source and what it writes at the home of
its page or of a peer, a multicast at each member (R132). -/
def State.sceTouch (s : State) (p : Nat) (x : Cmd) (a : SceArgs) (z : Piece) : List Nat :=
  let c := s.core p
  let sd := c.desc a.ts
  let dd := c.desc a.td
  let ds := if a.op = .cpm then (membersOf x.gmap.toNat).map fun q => { dd with peer := q } else [dd]
  (match z.src with
    | none => []
    | some b => (sd.elemBytes b).map (s.name p sd))
    ++ ds.flatMap fun d => (d.writes z).map (s.name p d)

/-- The names of the bytes that an instruction touches which moves single words: FAT and FSIG. -/
def State.sceWords (s : State) (p : Nat) (x : Cmd) (a : SceArgs) : List Nat :=
  let c := s.core p
  let names (acc : Access) : List Nat := acc.bytesAt.map (s.name p acc.d)
  let res := if a.opt then names (c.sceResult a x) else []
  match a.op with
  | .fat => if x.next = 0 then names (c.sceSource a x) ++ names (c.sceDest a x) ++ res
    else if x.next < 3 then res else []
  | .fsig => if x.next = 0 then names (c.sceSource a x) else []
  | _ => []

/-- The names of the bytes that a command has yet to touch; none while its indices are unread (R62). -/
def State.sceAhead (s : State) (p : Nat) (x : Cmd) : Option (List Nat) :=
  match sceArgs x.instr with
  | none => some []
  | some a =>
    if !a.op.copies then some (s.sceWords p x a)
    else if a.op = .cpos ∧ (x.image? 17).isNone then none
    else some ((((s.core p).scePieces a x).drop x.next).flatMap (s.sceTouch p x a))

/-- Whether a command waits for an earlier one that has yet to touch a sector of the bytes it is about to
touch (R62, R68). -/
def State.sceBehind (s : State) (p : Nat) (x : Cmd) (mine : List Nat) : Bool :=
  overtakes (s.core p).sceS.slots x.sidx (s.sceAhead p) mine

/-- A copy out goes on as far as it can (R247, R250). -/
def State.sceCopyRun (s : State) (p : Nat) (x : Cmd) (a : SceArgs) : Nat → State
  | 0 => s.setCmd p 4 x
  | fuel + 1 =>
    let (x, s) := s.drain p x x.pend
    if x.pend ≠ [] then s.setCmd p 4 x
    else
      let c := s.core p
      let src := c.sceSource a x
      let dd := c.desc a.td
      let all := c.scePieces a x
      let seg := nextSegment (s.sceTouch p x a) (all.drop x.next)
      let es := esize src.d.fmt
      let off := x.next * es / 8
      if seg = [] then s.sceMoved p x a
      else if c.cut.isSome || s.sceBehind p x (seg.flatMap (s.sceTouch p x a)) then s.setCmd p 4 x
      else if s.anyBad (seg.flatMap fun z => (z.src.map (s.elemAddrs p src.d)).getD []) then
        s.sceFail p x a 8 off
      else
        let out := seg.flatMap dd.writes
        match (if dd.translated then s.outPages p out else (.all [], s)) with
        | (.bad 0, s) => s.setCmd p 4 x
        | (.bad st, s) => s.sceFail p x a st off
        | (.wait va full, s) =>
          let (ev, s) := s.pauseEvent p 4 (s.idsOf p).2 va true full
          s.setCmd p 4 { x with phase := .paused ev, off := off }
        | (.all ts, s) =>
          let codes := seg.map fun z => (z, elemOfBytes src.d.fmt (z.src.getD 0)
            (((z.src.map (s.elemAddrs p src.d)).getD []).map s.byte))
          let groups := segGroups a (nth src.ext 0) es dd codes
          if groups.any (s.storeFull dd ts) then s.sceFail p x a 4 off
          else
            let sentBefore := ((all.take x.next).filter fun z => z.dst.isSome).length
            let x := (x.addTo 0 x.next (codes.map Prod.snd)).addTo 3 sentBefore
              ((codes.filter fun z => z.1.dst.isSome).map Prod.snd)
            let (x, s) := s.storeGroups p x a dd ts off groups
            s.sceCopyRun p { x with next := x.next + seg.length, off := (x.next + seg.length) * es / 8 } a fuel

/-- The indices of a CPOS read and checked: none while they hold, else the status (R249). -/
def State.sceLearn (s : State) (p : Nat) (x : Cmd) (a : SceArgs) : Cmd × Nat :=
  if a.op ≠ .cpos ∨ (x.image? 17).isSome then (x, 0)
  else
    let idx := (s.core p).sceIndex a x
    if s.accessBad p idx then (x, 8)
    else
      let x := x.learn 17 (packElems fmtInt32 (s.elems p idx))
      (x, if x.indices.any fun k => decide ((nth ((s.core p).desc a.td).dim 1 : Int) ≤ k) then 2 else 0)

/-- A copy out begins or goes on; a packet that has settled negatively does not keep the others back, which the
command defines too (R258). -/
def State.sceCopy (s : State) (p : Nat) (x : Cmd) (a : SceArgs) : State :=
  if a.op = .cpm ∧ (!x.gvalid || x.gasid != (s.idsOf p).2) then
    s.sceFinish p { x with gmap := 0 } a 7 0
  else if a.op = .cpos ∧ s.sceBehind p x ((((s.core p).sceIndex a x).bytesAt).map (s.name p ((s.core p).desc a.t3))) then
    s.setCmd p 4 x
  else
    let (x, st) := s.sceLearn p x a
    if st ≠ 0 then s.sceFail p x a st 0
    else s.sceCopyRun p x a (((s.core p).scePieces a x).length + 4)

/-! ## FAT (R253) -/

/-- The ATM packet of a FAT. -/
def State.atmPacket (s : State) (p : Nat) (a : SceArgs) (ops : List Nat) (peer addr : Nat) (phys : Bool) : Sending :=
  { pkt := { s.packetFrom p 0x04 false peer addr 0 7 phys with
      aop := a.num, opa := ops.getD 0 0, opb := if a.num = 4 then ops.getD 1 0 else 0 }
    off := 0, seg := 0, mask := 0, count := true }

/-- The old value of a FAT has come: it joins the images, and the result is written. -/
def Cmd.gotOld (x : Cmd) (old : Word) : Cmd :=
  { x with old := old, next := 2
           images := x.images.map fun im => if im.role = 3 then { im with bytes := leBytes 8 old.toNat } else im }

/-- The result of a FAT written, where one is asked for. -/
def State.fatResult (s : State) (p : Nat) (x : Cmd) (a : SceArgs) : State :=
  if x.status ≠ 0 then s.sceFinish p x a x.status 0
  else if !a.opt then s.sceFinish p x a 0 0
  else if x.next = 3 then
    let (x, s) := s.drain p x x.pend
    if x.pend ≠ [] then s.setCmd p 4 x else s.sceFinish p x a 0 0
  else
    let acc := (s.core p).sceResult a x
    match s.outPages p acc.bytesAt with
    | (.bad st, s) => s.sceFinish p x a st 0
    | (.wait va full, s) =>
      let (ev, s) := s.pauseEvent p 4 (s.idsOf p).2 va true full
      s.setCmd p 4 { x with phase := .paused ev }
    | (.all ts, s) =>
      let m := addStore acc.d [] (acc.firstBit, x.old.toNat, 0)
      if s.storeFull acc.d ts m then s.sceFinish p x a 4 0
      else
        let (rs, s) := s.storeBytes p x.sidx acc.d ts m
        let out := rs.map fun r => { pkt := s.runPacket p r, off := 0, seg := 0, mask := 0, count := false : Sending }
        let (x, s) := s.drain p { x with next := 3 } out
        if x.pend ≠ [] then s.setCmd p 4 x else s.sceFinish p x a 0 0

/-- The atomic of a FAT performed here, or sent to its home. -/
def State.fatSend (s : State) (p : Nat) (x : Cmd) (z : Sending) : State :=
  let (x, s) := s.drain p { x with next := 1, peer := z.pkt.dst } [z]
  let s := if x.pend = [] then s.onSend p x.sidx fun r => { r with isOver := true } else s
  (s.setCmd p 4 x).mergeSends p (s.core p).sceS.sends.length

/-- A FAT that has not sent its atomic (R253). -/
def State.fatStart (s : State) (p : Nat) (x : Cmd) (a : SceArgs) : State :=
  let c := s.core p
  let asid := (s.idsOf p).2
  let src := c.sceSource a x
  let dst := c.sceDest a x
  let va := dst.firstBit / 8
  if s.sceBehind p x (s.sceWords p x a) then s.setCmd p 4 x
  else if s.accessBad p src then s.sceFinish p x a 8 0
  else
    let ops := s.elems p src
    let x := { x with images := x.images.map fun im =>
      if im.role = 0 then { im with bytes := packElems fmtInt64 ops } else im }
    let (pre, s) : Pages × State := if a.opt then s.outPages p (c.sceResult a x).bytesAt else (.all [], s)
    match pre with
    | .bad st => s.sceFinish p x a st 0
    | .wait v full =>
      let (ev, s) := s.pauseEvent p 4 asid v true full
      s.setCmd p 4 { x with phase := .paused ev }
    | .all _ =>
      if dst.d.space = 5 then s.fatSend p x (s.atmPacket p a ops dst.d.peer va false)
      else
        match s.xlatePages p asid false [] [va / 2 ^ 16] with
        | (.bad st, s) => s.sceFinish p x a st 0
        | (.wait v full, s) =>
          let (ev, s) := s.pauseEvent p 4 asid v false full
          s.setCmd p 4 { x with phase := .paused ev }
        | (.all _, s) =>
          match s.xlatePages p asid true [va] [va / 2 ^ 16] with
          | (.bad st, s) => s.sceFinish p x a st 0
          | (.wait v full, s) =>
            let (ev, s) := s.pauseEvent p 4 asid v true full
            s.setCmd p 4 { x with phase := .paused ev }
          | (.all ts, s) =>
            match pageOf ts va with
            | none => s.setCmd p 4 x
            | some t =>
              let pa := t.base + va % 2 ^ 16
              if t.mode = 0 then
                let at' := s.paFlat pa
                if (span at' 8).any (s.sealBad t.key) then s.sceFinish p x a 8 0
                else if s.counterFull t.key at' then s.sceFinish p x a 4 0
                else
                  let old := BitVec.ofNat 64 (leNat ((span at' 8).map (s.under t.key)))
                  let new := fatNew a.num old (BitVec.ofNat 64 (ops.getD 0 0)) (BitVec.ofNat 64 (ops.getD 1 0))
                  let s := s.writeUnder t.key (cellsAt at' (leBytes 8 new.toNat))
                  s.fatResult p ({ x with peer := s.peerId }.gotOld old) a
              else if t.mode = 2 then
                let die := p / 32
                let l := cacheLine t.peer pa
                if lineDirty (s.line die l) ≠ 0 then
                  (s.startWb die l (some (p, x.sidx)) true).setCmd p 4 x
                else if s.wbOpen die l then s.setCmd p 4 x
                else (s.invalidateLine die l).fatSend p x (s.atmPacket p a ops t.peer pa true)
              else s.fatSend p x (s.atmPacket p a ops t.peer pa true)

/-- A FAT goes on: `next` is 0 before its atomic is sent, 1 until its answer, 2 and 3 then. -/
def State.sceFat (s : State) (p : Nat) (x : Cmd) (a : SceArgs) : State :=
  match x.next with
  | 0 => if s.capturing p then s.outsideRun p 4 x.sidx else s.fatStart p x a
  | 1 =>
    let (x, s) := s.drain p x x.pend
    let s := if x.pend = [] then s.onSend p x.sidx fun r => { r with isOver := true } else s
    let s := (s.setCmd p 4 x).mergeSends p (s.core p).sceS.sends.length
    if x.pend = [] ∧ !(s.core p).unsettled x.sidx then s.sceFinish p x a x.status 0 else s
  | _ => s.fatResult p x a

/-! ## FSIG (R254, R255) -/

/-- Whether everything that an FSIG.REL covers has been performed at POD (R255): earlier commands
have completed, and what they and covered commands of other cores sent has been acknowledged (R69, R80). -/
def State.covered (s : State) (p : Nat) (x : Cmd) : Bool :=
  let c := s.core p
  !(c.sceS.slots.any fun y => decide (y.sidx < x.sidx) && y.phase != .done)
    && !c.unacked x.sidx && s.farAcked { Clock.zero with far := x.far }

/-- The SIG packet of a signal word (R254). -/
def State.sigPacket (s : State) (p : Nat) (a : SceArgs) (w : Nat) : Packet :=
  { s.packetFrom p 0x06 false (bits w 40 32)
      (bits w 31 0 * 2 ^ 13 + bits w 49 41 * 2 ^ 4 + bits w 53 50) 0 0 false with
    opa := a.num, rel := a.opt }

/-- An FSIG goes on (R254, R255). -/
def State.sceFsig (s : State) (p : Nat) (x : Cmd) (a : SceArgs) : State :=
  let c := s.core p
  if x.next = 0 then
    let src := c.sceSource a x
    if (a.opt && !s.covered p x) || s.sceBehind p x (s.sceWords p x a) then s.setCmd p 4 x
    else if s.accessBad p src then s.sceFinish p x a 8 0
    else
      let w := (s.elems p src).headD 0
      if bits w 63 54 ≠ 0 then s.sceFinish p x a 2 0
      else
        let z : Sending := { pkt := s.sigPacket p a w, off := 0, seg := 0, mask := 0, count := true }
        let (x, s) := s.drain p { x with old := BitVec.ofNat 64 w } [z]
        if x.pend ≠ [] then s.setCmd p 4 { x with pend := [] }
        else if a.ackw then s.setCmd p 4 { x with next := 1 }
        else s.sceFinish p x a 0 0
  else if c.unsettled x.sidx then s.setCmd p 4 x
  else s.sceFinish p x a x.status 0

/-! ## FLUSH (R256) -/

/-- Whether a page is not CACHED, so that a FLUSH skips it whatever else its entry says (R256). -/
def State.notCached (s : State) (asid va : Nat) : Bool :=
  match (s.ast asid).bind fun e => s.walk e asid va with
  | none => false
  | some q => !pteBad q.lo q.hi && bits q.lo 7 6 != 2

/-- The lines of the fabric cache in the range of a FLUSH, or the status that ends it. -/
def State.flushLines (s : State) (p : Nat) (asid : Nat) (as : List Nat) : List Nat → Nat × List Nat × State
  | [] => (0, [], s)
  | g :: gs =>
    if s.notCached asid (g * 2 ^ 16) then s.flushLines p asid as gs
    else match s.peekWrite asid (g * 2 ^ 16) with
    | (.bad st, _, s) => (st, [], s)
    | (.go t, _, s) =>
      let mine := if t.mode ≠ 2 then []
        else ((as.filter fun a => a / 2 ^ 16 == g).map fun a => cacheLine t.peer (t.base + a % 2 ^ 16)).eraseDups
      let (st, ls, s) := s.flushLines p asid as gs
      (st, mine ++ ls, s)
    | (_, _, s) => s.flushLines p asid as gs

/-- A line invalidated once the write-back that is open for it settles (R256). -/
def State.invalidateLater (s : State) (die l : Nat) : State :=
  let d := s.die die
  s.setDie die { d with wb := d.wb.map fun w => if w.line = l then { w with inv := true } else w }

/-- A FLUSH goes on: it starts the write-backs of its lines, and completes once they have settled. A
capture run has written none, and injects nothing (R380). -/
def State.sceFlush (s : State) (p : Nat) (x : Cmd) (a : SceArgs) : State :=
  let die := p / 32
  let asid := (s.idsOf p).2
  if s.capturing p then s.sceFinish p x a 0 0
  else if x.next = 0 then
    let as := if a.op = .flushAll then [] else ((s.core p).sceDest a x).bytesAt
    let (st, ls, s) : Nat × List Nat × State := if a.op = .flushAll then
        (0, ((s.die die).cache.filter fun e => e.2 / 2 ^ 512 == asid).map Prod.fst, s)
      else s.flushLines p asid as (as.map (· / 2 ^ 16)).eraseDups
    if st ≠ 0 then s.sceFinish p x a st 0
    else
      let s := ls.foldl (fun s l =>
        if lineDirty (s.line die l) ≠ 0 then s.startWb die l (some (p, x.sidx)) a.opt
        else if !a.opt then s
        else if s.wbOpen die l then s.invalidateLater die l
        else s.invalidateLine die l) s
      let x := { x with next := 1 }
      if (s.die die).wb.any fun w => w.for' == some (p, x.sidx) then s.setCmd p 4 x
      else s.sceFinish p x a 0 0
  else if (s.die die).wb.any fun w => w.for' == some (p, x.sidx) then s.setCmd p 4 x
  else s.sceFinish p x a x.status 0

/-! ## Issue (R242, R260) -/

/-- Whether a command has moved and sent nothing: a cut leaves it so (R260, R432). -/
def Cmd.untouched (x : Cmd) : Bool := x.next == 0 && x.pend.isEmpty && x.status == 0

/-- A running command goes on (R68, R243); once the core is cut, it begins no further segment
(R432). -/
def State.sceAdvance (s : State) (p sidx : Nat) : State :=
  match s.cmd? p 4 sidx with
  | none => s
  | some x =>
    match sceArgs x.instr with
    | none => s
    | some a =>
      if x.phase ≠ .running ∨ s.cmdWaits p 4 x ∨ ((s.core p).cut.isSome ∧ x.untouched) then s
      else
        let st := s.sceStatus p x a
        if st ≠ 0 ∧ x.next = 0 then s.sceFinish p x a st 0
        else match a.op with
          | .fat => s.sceFat p x a
          | .fsig => s.sceFsig p x a
          | .flush => s.sceFlush p x a
          | .flushAll => s.sceFlush p x a
          | _ => s.sceCopy p x a

/-- The images that a command's leaf will digest, empty yet (Table 10.9). -/
def Core.sceStart (c : Core) (a : SceArgs) (gmap : BitVec 512) : List Image :=
  match a.op with
  | .fat => [Image.start 0 fmtInt64, Image.start 3 fmtInt64]
  | .cpos => [Image.start 0 (c.desc a.ts).fmt, Image.start 1 fmtInt32, Image.start 3 (c.desc a.td).fmt]
  | .cpm => [Image.start 0 (c.desc a.ts).fmt, byteImage 1 (leBytes 64 gmap.toNat), Image.start 3 (c.desc a.td).fmt]
  | .cpo | .cpoc | .cpf => [Image.start 0 (c.desc a.ts).fmt, Image.start 3 (c.desc a.td).fmt]
  | _ => []

/-- Whether an address lies in an output region of the task of core `p` (R418). -/
def State.inOutputs (s : State) (p va : Nat) : Bool :=
  ((s.taskOf p).map (·.regions)).getD [] |>.any fun r =>
    r.w && !r.cel && decide (r.start ≤ va) && decide (va < r.start + r.len)

/-- Whether a speculation holds a command at issue (R260, R420): a copy whose destination lies outside the
declared outputs, whatever its checks would find. -/
def State.sceParks (s : State) (p : Nat) (x : Cmd) (a : SceArgs) : Bool :=
  match a.op with
  | .cpo | .cpoc | .cpos =>
    let dd := (s.core p).desc a.td
    let x := (s.sceLearn p x a).1
    let zs := (s.core p).scePieces a x
    !zs.isEmpty && ((a.op == .cpos && (x.image? 17).isNone) || !outSpace dd.space
      || !(zs.flatMap dd.writes).all (s.inOutputs p))
  | _ => true

/-- The slot of a circular tensor that an instruction names, at its issue (R31). -/
def Core.slotOf (c : Core) (e t : Nat) : Nat := if (c.desc t).layout = 2 then c.cursor e t else 0

/-- A command tried: it takes a slot, reads its operands, and its leaf enters formation (R242). -/
def State.sceTake (s : State) (h : Hdr) (i : Instr) (cd cs ci : Nat) : Eff :=
  match sceArgs i with
  | none => .program
  | some a =>
    let c := s.me
    let p := s.cur.core
    let sidx := s.myStream.sidx
    let slot := c.slotOf 4 (if a.op = .cpos then a.t3 else if a.op = .flush then a.td else a.ts)
    let g := if a.op = .cpm then s.groups.get GroupEntry.empty a.num else GroupEntry.empty
    let mark := if a.op.leafy then c.sceS.mark else sidx
    let x := { Cmd.new sidx i s.cur.words (s.coord cd) (s.coord cs) (s.coord ci) slot mark
        (c.sceStart a g.members) with
        gvalid := g.v, gasid := g.asid, gmap := g.members, far := (s.covers h).far
        slotD := if a.op = .fat then c.slotOf 4 a.td else 0
        slotT := if a.op = .fat ∧ a.opt then c.slotOf 4 a.t3 else 0 }
    if (s.shadowOf p).isSome && s.sceParks p x a then .raw (s.park p)
    else if !c.slotFree 4 then .program
    else if a.op.leafy && s.myStream.formFull then .device
    else
      let r : SendRec := { sidx := sidx, isOver := false, sums := [], leaf := none }
      let s := s.onMe fun c => { c with sceS := { c.sceS with
        slots := c.sceS.slots ++ [x], sends := if a.op.leafy then c.sceS.sends ++ [r] else c.sceS.sends } }
      .cmd (if a.op.leafy then s.onStream Stream.formLeaf else s)

/-- A command of the SCE tried, and run as far as it goes. -/
def State.sceCommand (s : State) (h : Hdr) (i : Instr) (cd cs ci : Nat) : State :=
  (s.issue h fun s => s.sceTake h i cd cs ci).sceAdvance s.cur.core s.myStream.sidx

/-- CPO copies a block out (R248). -/
def execCpo (h : Hdr) (td cd cs ts : Nat) (ackw : Bool) (ext : Option Ext) (s : State) : Out :=
  .next (s.sceCommand h (.cpo h td cd cs ts ackw ext) cd cs 0)

/-- CPOC copies a slot of a circular tensor out (R248). -/
def execCpoc (h : Hdr) (td cd cs ts : Nat) (ackw : Bool) (ext : Option Ext) (s : State) : Out :=
  .next (s.sceCommand h (.cpoc h td cd cs ts ackw ext) cd cs 0)

/-- CPOS scatters rows by an index tensor (R249). -/
def execCpos (h : Hdr) (td cd cs ts ti ci : Nat) (ackw : Bool) (ext : Option Ext) (s : State) : Out :=
  .next (s.sceCommand h (.cpos h td cd cs ts ti ci ackw ext) cd cs ci)

/-- CPF copies a block to a peer (R248). -/
def execCpf (h : Hdr) (td cd cs ts : Nat) (ackw : Bool) (ext : Option Ext) (s : State) : Out :=
  .next (s.sceCommand h (.cpf h td cd cs ts ackw ext) cd cs 0)

/-- CPM multicasts a block through a group (R251, R252). -/
def execCpm (h : Hdr) (td cd cs ts group : Nat) (ext : Option Ext) (s : State) : Out :=
  .next (s.sceCommand h (.cpm h td cd cs ts group ext) cd cs 0)

/-- FAT performs a fabric atomic (R253). -/
def execFat (h : Hdr) (td cd cs ts : Nat) (res : Bool) (tr cr aop : Nat) (s : State) : Out :=
  .next (s.sceCommand h (.fat h td cd cs ts res tr cr aop) cd cs cr)

/-- FSIG adds to a receive counter of a peer's task (R254, R255). -/
def execFsig (h : Hdr) (cs ts : Nat) (rel ackw : Bool) (inc : Nat) (s : State) : Out :=
  .next (s.sceCommand h (.fsig h cs ts rel ackw inc) 0 cs 0)

/-- FLUSH writes back the lines of a range (R256). -/
def execFlush (h : Hdr) (td cd : Nat) (inv : Bool) (ext : Option Ext) (s : State) : Out :=
  .next (s.sceCommand h (.flush h td cd inv ext) cd 0 0)

/-- FLUSH.ALL writes back every line of the address space (R256). -/
def execFlushAll (h : Hdr) (inv : Bool) (s : State) : Out :=
  .next (s.sceCommand h (.flushAll h inv) 0 0 0)

/-! ## SSTAT (R257) -/

/-- The status record (Table 10.7). -/
def SceState.record (x : SceState) : List Nat :=
  [x.done.toNat, x.errs.toNat
  , b2n x.first.part * 2 ^ 49 + b2n x.first.late * 2 ^ 48 + x.first.fcode * 2 ^ 40 + x.first.fseq
  , x.first.foff]

/-- The last-multicast record (Table 10.8). -/
def Mcast.record (g : Mcast) : List Nat :=
  [ b2n g.part * 2 ^ 48 + g.code * 2 ^ 40 + g.seq % 2 ^ 40, g.nakn * 2 ^ 16 + g.okn, nakeWord g.nake
  , b2n g.val * 2 ^ 8 + g.group ]
    ++ (List.range 8).map fun i => bits g.nakmap.toNat (64 * i + 63) (64 * i)

/-- What CLR clears (R257). -/
def SceState.clear (x : SceState) : SceState :=
  { x with errs := 0, first := FirstError.none, last := Mcast.empty }

/-- Whether the event for a page that SSTAT has posted still waits. -/
def State.statPaused (s : State) (p : Nat) : Bool := s.walks.any fun w => w.core == p && w.eng == 4

/-- The record of an SSTAT stored, its packets injected; none while one of them is held. -/
def State.statStore (s : State) (p : Nat) (d : Desc) (ts : List (Nat × Target)) (bs vs : List Nat) : Option State :=
  let m := (bs.zip vs).foldl (fun m e => addStore d m (e.1, e.2, 0)) []
  let x := Cmd.new s.myStream.sidx (.cellarRefresh 0) s.cur.words Coord.zero Coord.zero Coord.zero 0 0 []
  let (rs, s) := s.storeBytes p x.sidx d ts m
  let out := rs.map fun r => { pkt := s.runPacket p r, off := 0, seg := 0, mask := 0, count := false : Sending }
  let (x, s) := s.drain p x out
  if x.pend ≠ [] then none
  else some (s.onCore p fun c =>
    if out = [] then c else { c with sceS := { c.sceS with late := c.sceS.late ++ [x.sidx] } })

/-- SSTAT writes the status record or the last-multicast record once every earlier command has
completed, and with SETL settled (R257). -/
def execSstat (h : Hdr) (td cd : Nat) (setl agg clr : Bool) (s : State) : Out :=
  .next (s.issue h fun s =>
    let p := s.cur.core
    let c := s.me
    let d := c.desc td
    let vs := if agg then c.sceS.last.record else c.sceS.record
    let a : Access := { d := d, slot := 0, origin := (s.coord cd).origin, ext := [vs.length, 1, 1, 1] }
    if (s.shadowOf p).isSome && !a.bytesAt.all (s.inOutputs p) then .raw (s.park p)
    else if !s.quiet || (setl && !c.sceS.ack.isEmpty) || s.statPaused p then .program
    else if !d.v || d.fmt != fmtInt64 || d.layout != 0 || !outSpace d.space || !bit d.wr 4
        || s.checkBounds p a != .ok then .fault 4 0 0
    else match s.outPages p a.bytesAt with
      | (.bad 0, s) => .raw s
      | (.bad _, _) => .fault 4 0 0
      | (.wait va full, s) => .hold (s.pauseEvent p 4 (s.idsOf p).2 va true full).2
      | (.all ts, s) =>
        if s.storeFull d ts (addStore d [] (a.firstBit, 0, 0)) then .fault 4 0 0
        else match s.statStore p d ts a.bitOffs vs with
          | none => .device
          | some s =>
            .done (if clr then s.onMe fun c => { c with sceS := c.sceS.clear } else s) 1)

/-! ## Completion and settlement -/

/-- A command of the SCE of core `phys` goes on and completes if it can (R243). -/
def execSceCommandCompletion (phys sidx : Nat) (s : State) : Out := .next (s.sceAdvance phys sidx)

/-- A late error of a command that completed with OK (R244): the first one counts. -/
def State.lateError (s : State) (p : Nat) (a : AckEntry) (status : Nat) : State :=
  s.onCore p fun c =>
    let l := c.sceS
    if status = 0 ∨ l.late.contains a.sidx then c
    else
      let first : FirstError := if l.errs = 0 then
          { fseq := a.sidx % 2 ^ 40, fcode := status, foff := a.off, part := false, late := true }
        else l.first
      { c with sceS := { l with errs := l.errs + 1, first := first, late := l.late ++ [a.sidx] } }

/-- Other commands of a core go on after a packet has settled. -/
def State.sceWake (s : State) (p : Nat) : State :=
  (((s.core p).sceS.slots.filter fun x => x.phase == .running).map (·.sidx)).foldl (fun s k => s.sceAdvance p k) s

/-- A packet of core `p` settles with a status (R243, R244): for a multicast copy `naks` are the
members that answered negatively, for an ATM `old` is the old value. -/
def State.settlePacket (s : State) (p : Nat) (a : AckEntry) (status : Nat) (old : Word) (naks : List (Nat × Nat)) : State :=
  let s := s.onCore p fun c =>
    let ack := c.sceS.ack.erase a
    { c with sceS := { c.sceS with ack := ack } }
  let s := match s.cmd? p 4 a.sidx with
    | some (x : Cmd) =>
      if x.phase = CmdPhase.done then s.lateError p a status
      else if a.mask ≠ 0 then s.setCmd p 4 (naks.foldl (fun (x : Cmd) (n : Nat × Nat) => x.nak n.1 n.2) x)
      else if status ≠ 0 then
        s.setCmd p 4 (if x.status = 0 then { x with status := status, foff := a.seg } else x)
      else if a.atm then s.setCmd p 4 (x.gotOld old)
      else s
    | none => s.lateError p a status
  let s := s.onCore p fun c => { c with sceS := { c.sceS with
    late := c.sceS.late.filter fun k => k != a.sidx || c.unsettled k } }
  s.sceWake p

/-- A write-back packet of a die settles (R256): the next packet of its line leaves, or the line is
done with. -/
def State.settleWb (s : State) (die : Nat) (w : WriteBack) (status : Nat) : State :=
  let d := s.die die
  let more := w.pkts.drop 1
  let ws := d.wb.filterMap fun x => if x = w then (if more = [] then none else some { w with pkts := more, sent := false }) else some x
  let s := s.setDie die { d with wb := ws }
  let s := match w.for' with
    | none => s
    | some (p, k) =>
      match s.cmd? p 4 k with
      | some x => if status ≠ 0 ∧ x.status = 0 ∧ x.phase ≠ CmdPhase.done ∧ x.next ≠ 0 then s.setCmd p 4 { x with status := status } else s
      | none => s
  let s := if more ≠ [] then s
    else
      let s := if w.inv then s.invalidateLine die w.line else s
      if s.wbOpen die w.line then s
      else s.onDirt die w.line fun ds => ds.filter fun d => !(d.line == w.line && d.away)
  let s := s.pumpDie die
  ((s.cores.map Prod.fst).filter fun p => p / 32 == die).foldl (fun s p => s.sceWake p) s

/-- The write-back of a die whose packet carries a tag. -/
def Die.wbTagged (d : Die) (tag : Nat) : Option WriteBack :=
  d.wb.find? fun w => w.sent && (w.pkts.head?.map (·.tag)) == some tag

/-- ACK settles the packet that awaits it, or the write-back of a die (R146, R243, R256). -/
def execAckPacket (p : Packet) (s : State) : Out :=
  .next (
    let k := p.score
    if !s.arrived p then s
    else if k % 32 = 31 then
      match ((s.die (k / 32)).wbTagged p.tag).filter fun w => s.inTime w.tick with
      | some w => (s.takePacket p).settleWb (k / 32) w p.status
      | none => (s.lateResponse p).takePacket p
    else match (s.core k).sceS.ack.find? fun a =>
        a.tag == p.tag && !a.atm && a.mask == 0 && p.opb == 0 && s.inTime a.tick with
      | some a => (s.takePacket p).settlePacket k a p.status 0 []
      | none => (s.lateResponse p).takePacket p)

/-- ATR settles an ATM and brings its old value (R146, R253). -/
def execAtrPacket (p : Packet) (s : State) : Out :=
  .next (
    if !s.arrived p then s
    else match (s.core p.score).sceS.ack.find? fun a => a.tag == p.tag && a.atm && s.inTime a.tick with
    | some a => (s.takePacket p).settlePacket p.score a p.status (BitVec.ofNat 64 p.opa) []
    | none => (s.lateResponse p).takePacket p)

/-- MCA settles a multicast copy of a core of this module, or answers this module as the row
intermediate (R165). -/
def execMcaPacket (p : Packet) (s : State) : Out :=
  .next (
    let (okn, naks) := mcaSays p
    if !s.arrived p then s
    else match (s.core p.score).sceS.ack.find? fun a =>
        a.tag == p.tag && a.mask != 0 && a.dst == p.src && s.inTime a.tick with
    | some a => (s.takePacket p).settlePacket p.score a 0 0 naks
    | none =>
      match s.relayFor p with
      | some r => (s.takePacket p).relayAnswer r p.src okn naks
      | none => (s.lateResponse p).takePacket p)

/-- A packet of core `p` settles as its command hears it (R244): a multicast copy that is not OK
makes its members negative, with ACCESS or LINK. -/
def State.settleAs (s : State) (p : Nat) (a : AckEntry) (status : Nat) : State :=
  let naks := if status = 0 then [] else (membersOf a.mask.toNat).map fun q => (q, if status = 7 then 1 else 2)
  s.settlePacket p a status 0 naks

/-- A packet settles with a status (R243, R244). -/
def execPacketSettlement (phys tag status : Nat) (s : State) : Out :=
  .next (
    match (s.core phys).sceS.ack.find? fun a => a.tag == tag with
    | some a => s.settleAs phys a status
    | none => s)

/-- A read that no answer has come for ends its command (R160, R161). -/
def State.readLost (s : State) (p tag : Nat) : State :=
  match (s.core p).lceS.reads.find? fun r => r.tag == tag && !s.inTime r.tick with
  | none => s
  | some r =>
    let s := s.onCore p fun c => { c with lceS := { c.lceS with reads := c.lceS.reads.erase r } }
    match s.cmd? p 1 r.sidx with
    | none => s
    | some x =>
      match lceArgs x.instr with
      | none => s
      | some a => s.lceEnd p x a 6 x.off

/-- A row that has not answered a row intermediate within D_FAB ticks counts as LINK (R165). -/
def State.relayLost (s : State) (score tag : Nat) : State :=
  match s.fabric.relays.find? fun r => r.score == score && r.tag == tag && !s.inTime r.tick with
  | none => s
  | some r =>
    let r' := { r with wait := [], nak := r.wait.foldl (fun xs w => addNak xs w.2 2) r.nak }
    ({ s with fabric := { s.fabric with relays := s.fabric.relays.map fun x => if x = r then r' else x } }).closeRelay r'

/-- A packet of core `phys`, or of the fabric cache of its die, that has awaited its response for D_FAB
ticks settles as UNREACH, or as LINK for a multicast copy (R160, R165). -/
def State.responseLost (s : State) (phys tag : Nat) : State :=
  if phys % 32 = 31 then
    match (s.die (phys / 32)).wbTagged tag with
    | some w => if s.inTime w.tick then s else s.settleWb (phys / 32) w 6
    | none => s
  else match (s.core phys).sceS.ack.find? fun a => a.tag == tag && !s.inTime a.tick with
    | some a => s.settleAs phys a 6
    | none => s.readLost phys tag

/-- The fabric cache of a die evicts a line: what is dirty is written back, reported nowhere
(R256). -/
def execFabricCacheEviction (die line : Nat) (s : State) : Out :=
  .next (
    if s.line die line = 0 then s
    else if lineDirty (s.line die line) ≠ 0 then s.startWb die line none true
    else s.invalidateLine die line)

/-- The refresh window of the Cellar bank that the module clock names (R232): accesses to that bank
of the die's Cellar wait until it ends. -/
def execCellarRefresh (die : Nat) (s : State) : Out :=
  .next (
    if s.gtc % 256 < 64 then
      { s with plat := { s.plat with
          cellarUntil := s.plat.cellarUntil.set 0 die (s.gtc / 256 * 256 + 64) } }
    else s)

/-! ## Walks (R131 to R133) -/

/-- The pages of a tensor at some addresses, with the direction in which they are translated. -/
def pagesAt (d : Desc) (write : Bool) (as : List Nat) : List (Nat × Bool) :=
  if d.translated then ((as.map (· / 2 ^ 16)).eraseDups).map fun g => (g, write) else []

/-- The pages that a command of the LCE names: those of the segment that it is about to translate. -/
def State.lcePages (s : State) (p : Nat) (x : Cmd) : List (Nat × Bool) :=
  let c := s.core p
  match lceArgs x.instr with
  | none => []
  | some a =>
    if x.pre.isSome || decide (s.lceStatus p x a ≠ 0) then []
    else match c.lcePrelude x a with
      | some (_, d, as) => pagesAt d false as
      | none => (c.lceReads x a (s.lceSegment p x a)).flatMap fun r => pagesAt r.1 false r.2

/-- The pages that a command of the SCE names: those that its next segment writes, and those of the target and
the result of a FAT. -/
def State.scePages (s : State) (p : Nat) (x : Cmd) : List (Nat × Bool) :=
  let c := s.core p
  match sceArgs x.instr with
  | none => []
  | some a =>
    if decide (s.sceStatus p x a ≠ 0) then []
    else if a.op.copies then
      let dd := c.desc a.td
      pagesAt dd true ((nextSegment (s.sceTouch p x a) ((c.scePieces a x).drop x.next)).flatMap dd.writes)
    else if a.op = .fat ∧ x.next ≠ 1 then
      (if x.next = 0 then pagesAt (c.desc a.td) false (c.sceDest a x).bytesAt else [])
        ++ (if a.opt then pagesAt (c.desc a.t3) true (c.sceResult a x).bytesAt else [])
    else []

/-- The first command of copy engine `e` of core `p` that names the page of an address, with the direction. -/
def State.namedBy (s : State) (p e va : Nat) : Option (Nat × Bool) :=
  (((s.core p).cmds e).filter fun x => x.phase == .running && !s.cmdWaits p e x).findSome? fun x =>
    (((if e = 1 then s.lcePages p x else s.scePages p x).find? fun g => g.1 == va / 2 ^ 16)).map fun g => (x.sidx, g.2)

/-- A walk for an address that a command of core `phys` names (R131, R133): its translation enters the cache of
the core; a page that is not present pauses the command (R132). An address that no command names is not walked
for. -/
def execTranslationWalk (phys asid va : Nat) (s : State) : Out :=
  .next (
    let walkFor (e : Nat) : State :=
      match s.namedBy phys e va with
      | none => s
      | some (k, write) =>
        match s.translate phys asid va write 0 with
        | (.absent, s) =>
          let (ev, s) := s.pauseEvent phys e asid va write false
          s.onCmds phys e fun xs => xs.map fun x => if x.sidx = k then { x with phase := .paused ev } else x
        | (_, s) => s
    if ((s.taskOf phys).map (·.asid)) ≠ some asid then s
    else if (s.namedBy phys 1 va).isSome then walkFor 1 else walkFor 4)

end Sys2Proof.Machine
end

