-- ==== Sys2Proof/Machine/Queue.lean ====
section
/-!
DEFINITION. Queues: the queue table, QCTL, the notify registers, slots, packet numbers, completion
words, status records, interrupts, and the end of a speculation (15, R386 to R396, R423); the root
log (13, R363).
-/

namespace Sys2Proof.Machine

/-! ## The root log (R363) -/

/-- Whether RLN describes a ring. -/
def Regs.logSet (r : Regs) : Bool := decide (10 ≤ r.rln) && decide (r.rln ≤ 24)

/-- Whether appends to the root log wait: the ring is full, or has not been set up (R363). -/
def State.logFull (s : State) : Bool :=
  !s.regs.logSet || (s.regs.rlhead % 2 ^ 32 + 2 ^ 32 - s.regs.rltail) % 2 ^ 32 == 2 ^ s.regs.rln

/-- Bytes 0x00 to 0x0F of a root-log record (Table 13.6). -/
def logHead (type id seq : Nat) : List Byte := [BitVec.ofNat 8 type, 1, 0, 0] ++ leBytes 4 id ++ leBytes 8 seq

/-- A record appended to the root log; RLHEAD advances after it is written (R363). -/
def State.logAppend (s : State) (type id : Nat) (body : List Byte) : State :=
  let rec' := logHead type id s.regs.rlhead ++ body
  let s := s.writeAt (hostBase + s.regs.rlb + 128 * (s.regs.rlhead % 2 ^ s.regs.rln)) rec'
  { s with regs := { s.regs with rlhead := s.regs.rlhead + 1 }
           trust := { s.trust with records := s.trust.records ++ [rec'] } }

/-! ## The queue table (Table 15.1) -/

/-- Where the entry of queue `q` lies. -/
def State.qEntryAt (s : State) (q : Nat) : Nat := s.regs.qtb + 64 * q

/-- The entry of queue `q` as it stands, if V is 1 and every field lies in its range (R386). -/
def State.readEntry (s : State) (q : Nat) : Option QueueEntry :=
  let a := s.qEntryAt q
  let w0 := s.paNum a 4
  let w1 := s.paNum (a + 4) 4
  let w5 := s.paNum (a + 0x28) 4
  let rlog := bits w0 24 20
  let nlog := bits w5 15 8
  let slog := bits w5 7 0
  if bit w0 0 && decide (6 ≤ rlog) && decide (rlog ≤ 22) && decide (4 ≤ nlog) && decide (nlog ≤ 16)
      && decide (4 ≤ slog) && decide (slog ≤ 16) then
    some { rlog := rlog, asid := bits w0 19 8, cls := bits w0 5 4, spec := bit w0 2, priv := bit w0 1
           slice := bits w1 31 16, vec := bits w1 10 0
           ring := fedAddrOf (s.paNum (a + 8) 8) 6, cwa := fedAddrOf (s.paNum (a + 0x10) 8) 3
           stb := fedAddrOf (s.paNum (a + 0x18) 8) 5, nrb := fedAddrOf (s.paNum (a + 0x20) 8) 5
           nlog := nlog, slog := slog }
  else none

/-- V of the entry of queue `q` written 0 (R386, R387). -/
def State.clearV (s : State) (q : Nat) : State :=
  let a := s.qEntryAt q
  let w := s.paNum a 4
  s.paWrite a 4 (w - w % 2)

/-- Bytes written by the front end at an address of its own (R386). -/
def State.fedWrite (s : State) (a : FedAddr) (off : Nat) (bs : List Byte) : State :=
  s.writeUnder 0 (cellsAt (s.fedAt a + off) bs)

/-- The state with queue `q` changed. -/
def State.onQueue (s : State) (q : Nat) (f : Queue → Queue) : State := s.setQueue q (f (s.queue q))

/-! ## Interrupts (R396) -/

/-- An event of queue `q` that raises its interrupt: at once, or at the end of the 256 ticks after
the last one. -/
def State.irq (s : State) (q : Nat) : State :=
  let x := s.queue q
  if x.lastIrq.any fun l => decide (s.gtc < l + 256) || x.irqDue then s.setQueue q { x with irqDue := true }
  else { s.setQueue q { x with lastIrq := some s.gtc } with out := s.out ++ [.msix x.entry.vec] }

/-- The 256 ticks after the last interrupt of the queue of the step end: one interrupt covers the
events that fell within them. -/
def execInterruptCoalesceTimer (s : State) : Out :=
  .next (
    let q := s.cur.queue
    let x := s.queue q
    if x.irqDue && x.lastIrq.all fun l => decide (l + 256 ≤ s.gtc) then
      { s.setQueue q { x with lastIrq := some s.gtc, irqDue := false } with out := s.out ++ [.msix x.entry.vec] }
    else s)

/-! ## Status records and the completion word (R394, R395) -/

/-- Packets of the queue below this number have all completed. -/
def Queue.compl (x : Queue) : Nat := (x.opens.map (·.seq)).foldl min x.pseq

/-- Whether the status ring has room, by STACK as last read. -/
def Queue.statRoom (x : Queue) : Bool :=
  (x.statN % 2 ^ 32 + 2 ^ 32 - x.stack % 2 ^ 32) % 2 ^ 32 != 2 ^ x.entry.slog

/-- A status record of queue `q` (R395). -/
def State.statusRecord (s : State) (q seq : Nat) (v : Verdict) : State :=
  let x := s.queue q
  let n := x.statN
  let body := leBytes 8 seq ++ leBytes 8 (v.status + v.tag * 2 ^ 16 + v.detail % 2 ^ 32 * 2 ^ 32)
    ++ leBytes 4 (n + 1) ++ zeros 12
  ((s.fedWrite x.entry.stb (32 * (n % 2 ^ x.entry.slog)) body).setQueue q { x with statN := n + 1 }).irq q

/-- The completion word of queue `q` written where its value has risen from `old` (R394). -/
def State.complWrite (s : State) (q old : Nat) : State :=
  let x := s.queue q
  if old < x.compl then s.fedWrite x.entry.cwa 0 (leBytes 8 (x.compl - 1)) else s

/-- What a packet completes with: that of its first part, in order, with a nonzero status (R400). -/
def OpenPkt.verdict (o : OpenPkt) : Option Verdict :=
  let first := o.worst.foldl (fun (m : Option (Nat × Nat × Nat × Nat)) e =>
    match m with
    | none => some e
    | some f => if e.1 < f.1 then some e else some f) none
  first.map fun e => { status := e.2.1, tag := e.2.2.1, detail := e.2.2.2 }

/-- A packet whose parts have all completed, completed: its status record first, if it has one, then
the completion word, its interrupt, and the error state that STOP_ON_ERROR asks for; it waits while
the status ring has no room (R393 to R396), and while the root log is full (R363). The record of a wrong tail
names no packet and needs no completion word. -/
def State.closePacket (s : State) (q : Nat) (o : OpenPkt) : State :=
  let x := s.queue q
  if s.logFull ∧ o.seq ≠ 2 ^ 64 - 1 then s
  else match o.verdict with
  | none =>
    let s := (s.setQueue q { x with opens := x.opens.erase o }).complWrite q x.compl
    if o.irq then s.irq q else s
  | some v =>
    if !x.statRoom then s
    else
      let s := s.statusRecord q o.seq v
      let s := (s.onQueue q fun x => { x with opens := x.opens.erase o }).complWrite q x.compl
      let s := if o.irq then s.irq q else s
      if o.stop ∧ o.seq ≠ 2 ^ 64 - 1 then (s.onQueue q fun x => { x with err := true }).irq q else s

/-- Every packet of queue `q` that can complete, completed in order. -/
def State.closePackets (s : State) (q : Nat) : State :=
  ((s.queue q).opens.filter fun o => o.left == 0).foldl (fun s o => s.closePacket q o) s

/-- Part `node` of packet `seq` of queue `q` completes with a status (R394, R400). -/
def State.completePart (s : State) (q seq node : Nat) (v : Verdict) : State :=
  (s.onQueue q fun x => { x with opens := x.opens.map fun o =>
    if o.seq = seq then
      { o with left := o.left - 1
               worst := if v.status = 0 then o.worst else o.worst ++ [(node, v.status, v.tag, v.detail)] }
    else o }).closePackets q

/-- The status OK. -/
def Verdict.ok : Verdict := { status := 0, tag := 0, detail := 0 }

/-! ## The end of a speculation (R421, R423, R424) -/

/-- The reason of a discard as it counts in Table 15.9. -/
def discardCount (why : DiscardReason) : Nat :=
  match why with
  | .mismatch => 2
  | .watch => 3
  | .capacity => 4
  | .cores => 5
  | .queue => 6

/-- A core that its task leaves: its firmware context stays (R21, R174). -/
def Core.vacate (c : Core) : Core :=
  { Core.idle with fw := c.fw, fws := c.fws, fwBusy := c.fwBusy, fwDead := c.fwDead, fwvec := c.fwvec
                   fwq := c.fwq, fwWait := c.fwWait, tlb := c.tlb }

/-- Cores freed. -/
def State.freeCores (s : State) (ps : List Nat) : State :=
  let s := ps.foldl (fun s p => s.onCore p Core.vacate) s
  { s with walks := s.walks.filter fun w => !ps.contains w.core }

/-- Timetable counter `k` counts one (Table 15.9). -/
def State.countTt (s : State) (k : Nat) : State :=
  { s with regs := { s.regs with ttcnt := s.regs.ttcnt.modify k fun n => (n + 1) % 2 ^ 64 } }

/-- Frames given back to the shadow pool with their tags cleared (R422, R423). -/
def State.poolGive (s : State) (frames : List Nat) : State :=
  { s with pool := s.pool ++ frames, tags := frames.foldl (fun m f => m.set 0 (f / 2 ^ 16) 0) s.tags }

/-- The shadow context of queue `q`, if it has a speculation. -/
def State.specOf (s : State) (q : Nat) : Option (Nat × Shadow) :=
  s.shadows.findSome? fun e => match e.2 with
    | some x => if x.queue = q then some (e.1, x) else none
    | none => none

/-- The speculation of queue `q` discarded: its cores, its shadow context and its frames are free
again, and nothing but a counter tells of it (R423, R424). -/
def State.discard (s : State) (q : Nat) (why : DiscardReason) : State :=
  match s.specOf q with
  | none => s
  | some (k, x) =>
    let s := s.freeCores (((s.task? x.task).map (·.cores)).getD [])
    let s := s.setTask x.task none
    let s := { s with shadows := s.shadows.set none k none }
    (s.poolGive (x.frames.map fun f => f.2.2)).countTt (discardCount why)

/-- Whether the reason of a discard holds for the speculation of queue `q` (R421): a watched write
or a capacity limit has been met. What the packets, the tasks and QCTL bring about is a part of
their own steps. -/
def State.discardDue (x : Shadow) (why : DiscardReason) : Bool :=
  match why with
  | .watch => x.hit
  | .capacity => x.isOver
  | _ => true

/-- A speculation is discarded (R421, R423). -/
def execSpeculationDiscard (q : Nat) (why : DiscardReason) (s : State) : Out :=
  .next (
    match s.specOf q with
    | some (_, x) => if State.discardDue x why then s.discard q why else s
    | none => s)

/-! ## Slots (R390) -/

/-- Active slots. -/
def slotCount : Nat := 32

/-- Whether a queue needs a slot: its pending bit is set, its head differs from its tail, or its
spawn buffer holds a packet (R390, R407). -/
def Queue.wants (x : Queue) : Bool :=
  x.v && (x.pending || x.head != x.tail || !x.spawn.isEmpty)

/-- Whether a slotted queue is idle (R390). -/
def Queue.isIdle (x : Queue) : Bool := x.head == x.tail && x.spawn.isEmpty

/-- The slots in use. -/
def State.slotsUsed (s : State) : Nat := (s.queues.filter fun e => e.2.slotted).length

/-- The slot of queue `q` and its idle time after a change: a free slot is given at once, and a queue
that finds none waits (R390). -/
def State.settleSlot (s : State) (q : Nat) : State :=
  let x := s.queue q
  if x.slotted then
    s.setQueue q { x with idle := if x.isIdle then some (x.idle.getD s.gtc) else none, needs := none }
  else if x.wants then
    if s.slotsUsed < slotCount then
      s.setQueue q { x with slotted := true, needs := none, idle := if x.isIdle then some s.gtc else none }
    else s.setQueue q { x with needs := some (x.needs.getD s.gtc) }
  else s.setQueue q { x with needs := none }

/-- Whether queue `q` is the waiting queue to be served first: the lowest CLASS, then the one that
first needed a slot (R390). -/
def State.firstWaiting (s : State) (q : Nat) : Bool :=
  let x := s.queue q
  match x.needs with
  | none => false
  | some t => s.queues.all fun e => e.1 == q || (match e.2.needs with
      | none => true
      | some u => decide (x.entry.cls < e.2.entry.cls) || (x.entry.cls == e.2.entry.cls
          && (decide (t < u) || (t == u && decide (q < e.1)))))

/-- A freed slot is given to the waiting queue of the step, if it is the one to be served (R390). -/
def execSlotGrant (s : State) : Out :=
  .next (
    let q := s.cur.queue
    if s.slotsUsed < slotCount ∧ s.firstWaiting q then
      s.onQueue q fun x => { x with slotted := true, needs := none, idle := if x.isIdle then some s.gtc else none }
    else s)

/-- The queue of the step has been idle in its slot for 65,536 ticks: it loses the slot, the slot's
Timetable entries and its speculation (R390). -/
def execSlotEvict (s : State) : Out :=
  .next (
    let q := s.cur.queue
    let x := s.queue q
    if x.slotted && x.idle.any fun t => decide (t + 65536 ≤ s.gtc) then
      (s.discard q .queue).setQueue q { x with
        slotted := false, idle := none, entries := [], prev := none, pred := none
        specKept := false, specDue := false }
    else s)

/-! ## QCTL (R387) -/

/-- A QCTL operation has completed. -/
def State.qctlOver (s : State) : State :=
  { s with regs := { s.regs with qctlDone := (s.regs.qctlDone + 1) % 2 ^ 32 } }

/-- A disabled queue whose accepted tasks have all completed: V reads 0 (R387). -/
def State.settleDisable (s : State) (q : Nat) : State :=
  let x := s.queue q
  let busy := s.tasks.any fun e => match e.2 with
    | some t => t.queue == q && t.spec.isNone && (match t.phase with | .kept _ _ => false | _ => true)
    | none => false
  if x.disabling && !busy && !x.opens.any (fun o => o.left == 0) then
    (s.clearV q).setQueue q { x with v := false, disabling := false }
  else s

/-- Whether the TDI that owns queue `q` is locked or runs: PF0 cannot operate on the queue then (R455,
R456). -/
def State.pfLocked (s : State) (q : Nat) : Bool :=
  match (s.trust.tdis.get Tdi.unlocked (q / 32 + 1)).phase with
  | .locked | .run => true
  | _ => false

/-- ENABLE reads the entry of the queue of the step, starts its counts anew and writes 2^64 − 1 to
its completion word; it fails with V read as 0 where a field lies outside its range (R386, R387).
FLOOR is written as it stands (R412). -/
def State.enableQueue (s : State) (q : Nat) : State :=
  let s := s.discard q .queue
  let old := s.queue q
  let a := s.qEntryAt q
  let s := match s.readEntry q with
    | none => (s.clearV q).setQueue q { old with v := false, disabling := false }
    | some e =>
      let head := s.paNum (a + 0x2C) 4
      let x := { Queue.empty with
        v := true, entry := e, head := head, tail := head, slotted := old.slotted
        stack := s.paNum (a + 0x30) 4, nack := s.paNum (a + 0x34) 4
        clamps := old.clamps, floor := old.floor, tsave := old.tsave, trest := old.trest
        lastIrq := old.lastIrq }
      ((s.setQueue q x).fedWrite e.cwa 0 (leBytes 8 (2 ^ 64 - 1))).paWrite (a + 0x3C) 4 old.floor
  s.settleSlot q

/-- A QCTL operation of the queue of the step, ignored where its TDI is locked or runs (R387, R456). -/
def State.qctl (s : State) (f : Nat → State → State) : State :=
  if s.pfLocked s.cur.queue then s else (f s.cur.queue s).qctlOver

/-- ENABLE (R386, R387). -/
def execQueueEnable (s : State) : Out := .next (s.qctl fun q s => s.enableQueue q)

/-- DISABLE stops the decoding of a queue and discards its speculation; V reads 0 once the tasks already
accepted have completed (R387). -/
def State.disableQueue (s : State) (q : Nat) : State :=
  if (s.queue q).v then
    ((s.discard q .queue).onQueue q fun x => { x with disabling := true, specKept := false, specDue := false }).settleDisable q
  else s

/-- DISABLE (R387). -/
def execQueueDisable (s : State) : Out := .next (s.qctl fun q s => s.disableQueue q)

/-- A tail out of range puts the queue in the error state with a record that names no packet
(R388). -/
def State.checkTail (s : State) (q : Nat) : State :=
  let x := s.queue q
  if x.v && !x.err && decide (2 ^ x.entry.rlog < (x.tail + 2 ^ 32 - x.head) % 2 ^ 32) then
    let o : OpenPkt := { seq := 2 ^ 64 - 1, irq := false, stop := false, left := 0, worst := [(0, 1, 0, x.tail)] }
    ((s.setQueue q { x with err := true, opens := x.opens ++ [o] }).irq q).closePackets q
  else s

/-- A queue in the error state decodes again, with the latest tail written (R387, R388). -/
def State.restartQueue (s : State) (q : Nat) : State :=
  if (s.queue q).err then
    ((s.onQueue q fun x => { x with err := false, pending := false }).checkTail q).settleSlot q
  else s

/-- RESTART (R387). -/
def execQueueRestart (s : State) : Out := .next (s.qctl fun q s => s.restartQueue q)

/-! ## Notify (R388, R389) -/

/-- A tail written to the notify register of a queue: it counts as the latest one and sets the
pending bit, and a sleeping front end starts to wake; a write for a queue with V = 0 is dropped and
counted. -/
def execNotifyWrite (q tail : Nat) (s : State) : Out :=
  .next (
    let x := s.queue q
    if !x.v then { s with regs := { s.regs with ndrop := (s.regs.ndrop + 1) % 2 ^ 32 } }
    else
      let s := (s.setQueue q { x with tail := tail % 2 ^ 32, pending := true }).settleSlot q
      if s.fedGate ≠ 0 ∧ s.fedWake = none then
        { s with fedWake := some (s.gtc + (if s.fedGate = 1 then 140 else 28000)) }
      else s)

/-- The wake-up of the front end ends (R389). -/
def execFedWakeup (s : State) : Out :=
  .next (if s.fedWake.isSome then { s with fedGate := 0, fedWake := none } else s)

/-- Whether the front end may gate itself: every queue is idle, no task runs or is ready, and no
speculation exists (R389). -/
def State.mayGate (s : State) : Bool :=
  s.queues.all (fun e => !e.2.wants)
    && s.tasks.all (fun e => match e.2 with
        | some t => (match t.phase with | .running => false | .ready _ _ => false | _ => true)
        | none => true)
    && s.shadows.all fun e => e.2.isNone

/-- The front end gates its clock or its power, where it may. -/
def State.gateFed (s : State) (power : Bool) : State :=
  if s.mayGate then { s with fedGate := if power then 2 else 1, fedWake := none } else s

/-! ## STACK and NACK (R395, R406) -/

/-- STACK of the queue of the step is read again while the status ring is full; packets that waited
for their records complete. -/
def execStackReread (s : State) : Out :=
  .next (
    let q := s.cur.queue
    let x := s.queue q
    if x.v && !x.statRoom then
      ((s.setQueue q { x with stack := s.paNum (s.qEntryAt q + 0x30) 4 }).closePackets q).settleDisable q
    else s)

/-- Whether the notification ring has room, by NACK as last read (R406). -/
def Queue.noteRoom (x : Queue) : Bool :=
  (x.notN % 2 ^ 32 + 2 ^ 32 - x.nack % 2 ^ 32) % 2 ^ 32 != 2 ^ x.entry.nlog

/-- NACK of the queue of the step is read again while its notification ring is full. -/
def execNackReread (s : State) : Out :=
  .next (
    let q := s.cur.queue
    let x := s.queue q
    if x.v && !x.noteRoom then s.setQueue q { x with nack := s.paNum (s.qEntryAt q + 0x34) 4 } else s)

/-! ## Accepting packets (R391 to R394) -/

/-- Whether the next packet of queue `q` can be decoded: nothing stops or holds the queue and its
status ring has room (R387, R391, R393, R395, R399, R401). -/
def State.canDecode (s : State) (q : Nat) : Bool :=
  let x := s.queue q
  x.v && x.slotted && !x.disabling && !x.err && x.dep.isNone && x.hold.isNone && x.statRoom && s.fedGate == 0
    && !s.plat.dark

/-- Whether a packet that a step decodes is the next one of its queue: a spawned one while the spawn
buffer holds one, else one of the ring (R407). -/
def State.nextIs (s : State) (h : PktHdr) : Bool :=
  s.canDecode h.q && (s.queue h.q).spawn.isEmpty != h.spawned

/-- A packet accepted with `parts` parts to complete: its sequence number, and the state (R394, R407). -/
def State.accept (s : State) (h : PktHdr) (parts : Nat) : Nat × State :=
  let x := s.queue h.q
  if h.spawned then
    let seq := x.pseq - x.spawn.length
    (seq, (s.setQueue h.q { x with
      spawn := x.spawn.drop 1
      opens := x.opens.map fun o => if o.seq = seq then { o with left := parts } else o }).settleSlot h.q)
  else
    let o : OpenPkt := { seq := x.pseq, irq := h.irq, stop := h.stopOnError, left := parts, worst := [] }
    (x.pseq, (s.setQueue h.q { x with
      head := (x.head + h.len) % 2 ^ 32, ringSeq := (x.ringSeq + 1) % 2 ^ 24, pseq := x.pseq + 1
      opens := x.opens ++ [o] }).settleSlot h.q)

/-- A packet that is settled at once, nothing of it executed (R393). -/
def State.settlePkt (s : State) (h : PktHdr) (v : Verdict) : State :=
  let (seq, s) := s.accept h 1
  (s.completePart h.q seq 0 v).settleDisable h.q

/-- A framing error: the queue enters the error state, its head stays, and the packet takes a
sequence number (Table 15.4, R387). -/
def State.frameError (s : State) (q : Nat) (v : Verdict) : State :=
  let x := s.queue q
  let o : OpenPkt := { seq := x.pseq, irq := false, stop := false, left := 1, worst := [] }
  let s := (s.setQueue q { x with pseq := x.pseq + 1, opens := x.opens ++ [o], err := true }).irq q
  s.completePart q x.pseq 0 v

/-- A packet of a type that only a ring with PRIV may carry (R397, R407), or that any queue may:
executed by `f` with its sequence number, or settled with PRIVILEGED. Nothing happens where the
packet is not the next of its queue. -/
def State.packet (s : State) (h : PktHdr) (priv : Bool) (f : Nat → State → State) : State :=
  if !s.nextIs h then s
  else if priv && (h.spawned || !(s.queue h.q).entry.priv) then
    s.settlePkt h { status := 4, tag := 0, detail := pktType h }
  else
    let (seq, s) := s.accept h 1
    (f seq s).settleDisable h.q

/-- A packet of a reserved type completes at once (R393, R397). -/
def execUnsupportedTypePacket (h : PktHdr) (type : Nat) (s : State) : Out :=
  .next (if s.nextIs h then s.settlePkt h { status := 2, tag := 0, detail := type } else s)

/-! ## DEP, SIGNAL, MAP and SEAL (R401 to R405) -/

/-- DEP: the queue decodes no further packet until the completion word of the named queue reaches
`seq` (R401). -/
def execDep (h : PktHdr) (queue seq : Nat) (s : State) : Out :=
  .next (s.packet h false fun n s =>
    if (s.queue queue).v then s.onQueue h.q fun x => { x with dep := some (queue, seq, n) }
    else s.completePart h.q n 0 { status := 12, tag := 0, detail := queue })

/-- Whether the completion word of queue `q` has reached a number, both read as signed (R394). -/
def State.reached (s : State) (q seq : Nat) : Bool :=
  decide (sext 64 seq ≤ (((s.queue q).compl : Int) - 1))

/-- The DEP of the queue of the step completes once the word it waits for has come (R401). -/
def execDepSatisfied (s : State) : Out :=
  .next (
    let q := s.cur.queue
    match (s.queue q).dep with
    | none => s
    | some (k, seq, n) =>
      if s.reached k seq then (s.onQueue q fun x => { x with dep := none }).completePart q n 0 Verdict.ok
      else s)

/-- SIGNAL waits for every earlier packet of its queue (R402). -/
def execSignal (h : PktHdr) (a : FedAddr) (value : Nat) (s : State) : Out :=
  .next (s.packet h false fun n s =>
    s.onQueue h.q fun x => { x with signals := x.signals ++ [(n, a, BitVec.ofNat 64 value)] })

/-- The oldest SIGNAL of the queue of the step writes its value once every earlier packet has
completed, and completes (R402). -/
def execSignalWrite (s : State) : Out :=
  .next (
    let q := s.cur.queue
    match (s.queue q).signals with
    | [] => s
    | (n, a, v) :: rest =>
      if (s.queue q).compl = n then
        ((s.fedWrite a 0 (leBytes 8 v.toNat)).onQueue q fun x => { x with signals := rest }).completePart q n 0 Verdict.ok
      else s)

/-- MAP writes an entry of the group table; a speculation of its queue is discarded (R403, R421). -/
def execMapGroup (h : PktHdr) (group : Nat) (valid : Bool) (asid members : Nat) (s : State) : Out :=
  .next (s.packet h true fun n s =>
    let e : GroupEntry := { v := valid, asid := asid, members := BitVec.ofNat 512 members }
    let s := s.discard h.q .queue
    ({ s with groups := s.groups.set GroupEntry.empty group e }).completePart h.q n 0 Verdict.ok)

/-- The SEAL packets of queue `q` whose records lie in a signed batch complete (R405); none does
while the root log is full (R363). -/
def State.closeSeals (s : State) (q : Nat) : State :=
  let (done, left) := (s.queue q).seals.partition fun e => decide (e.2 ≤ s.rlPrev)
  if s.logFull ∨ done = [] then s
  else done.foldl (fun s e => s.completePart q e.1 0 Verdict.ok) (s.onQueue q fun x => { x with seals := left })

/-- SEAL completes once every record appended before its decoding lies in a signed batch (R405). -/
def execSeal (h : PktHdr) (s : State) : Out :=
  .next (s.packet h false fun n s =>
    (s.onQueue h.q fun x => { x with seals := x.seals ++ [(n, s.regs.rlhead)] }).closeSeals h.q)

/-! ## Batches (R366, R367, R405) -/

/-- The bytes of a signature with index `i` of a digest, padded to a slot of the signature ring
(R366; log entry 10). -/
def signatureBytes (i : Nat) (d : Digest) : List Byte :=
  (List.range 8392).map (Config.signature i d.toNat) ++ zeros 56

/-- Whether SGN describes a ring, and it has a free slot (R366). -/
def State.sigRoom (s : State) : Bool :=
  decide (4 ≤ s.regs.sgn) && (s.regs.sghead % 2 ^ 32 + 2 ^ 32 - s.regs.sgtail) % 2 ^ 32 != 2 ^ s.regs.sgn

/-- The next one-time index reserved for a signature: a new block of 1024 is noted in the
non-volatile store before its first index is used (R367). -/
def Trust.nextIndex (t : Trust) : Trust :=
  { t with idxNext := t.idxNext + 1, idxEnd := if t.idxNext = t.idxEnd then t.idxEnd + 1024 else t.idxEnd }

/-- The BATCH record of a batch appended, where one waits and the root log has room (R363, R366). -/
def State.appendBatch (s : State) : State :=
  match s.trust.batchDue with
  | none => s
  | some body =>
    if s.logFull then s else { s with trust := { s.trust with batchDue := none } }.logAppend 3 s.trust.bootEpoch body

/-- What waits for the root log goes on as far as it has room: the BATCH record, SEAL packets, and the
completion words of the other packets (R363). -/
def State.logGoesOn (s : State) : State :=
  (s.queues.map Prod.fst).foldl (fun s q => ((s.closeSeals q).closePackets q).settleDisable q) s.appendBatch

/-- The records in no batch yet are signed as one batch, its BATCH record is appended once the root log has room,
and SEAL packets that waited for it complete (R363, R366, R405). -/
def execBatchSign (s : State) : Out :=
  .next (
    let t := s.trust
    if t.records = [] ∨ (t.lastBatch ≠ 0 ∧ s.gtc + 1 < t.lastBatch + 700000) ∨ !s.sigRoom then s
    else
      let first := s.rlPrev
      let last := s.regs.rlhead - 1
      let d := shake (0x42 :: digBytes t.prevBatch ++ leBytes 4 t.bootEpoch ++ leBytes 8 first ++ leBytes 8 last
        ++ t.records.flatten)
      let slot := s.regs.sghead % 2 ^ s.regs.sgn
      let s := s.writeAt (hostBase + s.regs.sgb + 8448 * slot) (signatureBytes t.idxNext d)
      let body := leBytes 8 first ++ leBytes 8 last ++ digBytes d ++ digBytes t.prevBatch
        ++ leBytes 8 t.idxNext ++ leBytes 4 slot ++ zeros 4 ++ leBytes 8 s.gtc ++ zeros 8
      { s with
        rlPrev := last + 1
        regs := { s.regs with sghead := s.regs.sghead + 1 }
        trust := { t.nextIndex with
          records := [], prevBatch := d, lastBatch := s.gtc + 1, batchDue := some body } }.logGoesOn)

end Sys2Proof.Machine
end

