-- ==== Sys2Proof/Machine/Regs.lean ====
section
/-!
DEFINITION. The registers of BAR0 that have no step of their own, and the packet that the front end
decodes next (00, R3; 15, R391, R393).
-/

namespace Sys2Proof.Machine

/-! ## Registers without a row of their own (R3) -/

/-- A value of the field that ends at bit `hi` and starts at bit `lo`, where it stands. -/
def field (v hi lo : Nat) : Nat := bits v hi lo * 2 ^ lo

/-- What an 8-byte register at `base` holds after a write of `width` bytes at `off`. -/
def merged (old base off width v : Nat) : Nat :=
  if width = 8 ∧ off = base then v
  else if off = base then old / 2 ^ 32 * 2 ^ 32 + v % 2 ^ 32
  else if off = base + 4 then old % 2 ^ 32 + v % 2 ^ 32 * 2 ^ 32
  else old

/-- A write to a BAR0 register that has no row of its own (Tables 6.9, 13.5, 15.2): reserved bits
are ignored, read-only registers keep their values, and where no register stands nothing is
written. A new shadow pool starts with every frame free, and what waits for the root log goes on where it has
room again (R363). -/
def execRegisterWrite (off width value : Nat) (s : State) : Out :=
  let r := s.regs
  let put (old base : Nat) : Nat := merged old base off width value
  let r := match off / 8 * 8 with
    | 0x2000 => { r with xinvVa := field (put r.xinvVa 0x2000) 51 16 }
    | 0x2040 => { r with astb := field (put r.astb 0x2040) 43 6 }
    | 0x2048 => { r with hwbase := field (put r.hwbase 0x2048) 63 16 }
    | 0x4000 => { r with rlb := field (put r.rlb 0x4000) 63 7 }
    | 0x4008 => { r with rln := bits (put r.rln 0x4008) 4 0 }
    | 0x4010 => { r with rltail := bits (put r.rltail 0x4010) 31 0 }
    | 0x4018 => { r with sgb := field (put r.sgb 0x4018) 63 7 }
    | 0x4020 => { r with sgn := bits (put r.sgn 0x4020) 3 0 }
    | 0x4028 => { r with sgtail := bits (put r.sgtail 0x4028) 31 0 }
    | 0x5000 => { r with qtb := field (put r.qtb 0x5000) 43 16 }
    | 0x5018 => { r with spoolb := field (put r.spoolb 0x5018) 43 16 }
    | 0x5020 => { r with spooln := bits (put r.spooln 0x5020) 27 0 }
    | _ => r
  let pool := decide (r.spoolb ≠ s.regs.spoolb) || decide (r.spooln ≠ s.regs.spooln)
  let s := { s with regs := r, pool := if pool then [] else s.pool, poolNext := if pool then 0 else s.poolNext }
  .next s.logGoesOn

/-! ## The next packet of a queue (R391 to R393) -/

/-- What stands next in a queue. -/
inductive NextPkt where
  | none
  /-- Its framing fails (Table 15.4, checks 1 and 2). -/
  | frame (v : Verdict)
  | pkt (h : PktHdr)
deriving DecidableEq, Repr

/-- `n` units of the ring of queue `q` from its head up (R388). -/
def State.ringUnits (s : State) (q n : Nat) : List Nat :=
  let x := s.queue q
  (List.range n).map fun k => s.num (s.fedAt x.entry.ring + 8 * ((x.head + k) % 2 ^ x.entry.rlog)) 8

/-- The next packet of queue `q`: the oldest spawned one, else the one at its ring's head (R391, R407). -/
def State.nextPkt (s : State) (q : Nat) : NextPkt :=
  let x := s.queue q
  match x.spawn with
  | raw :: _ => .pkt (pktHdr q true raw)
  | [] =>
    let avail := (x.tail + 2 ^ 32 - x.head) % 2 ^ 32
    if avail = 0 then .none
    else
      let w := (s.ringUnits q 1).headD 0
      let len := bits w 36 24
      if len = 0 ∨ avail < len ∨ headerBad w then .frame { status := 1, tag := 0, detail := 0 }
      else if bits w 63 40 ≠ x.ringSeq then .frame { status := 5, tag := 0, detail := x.ringSeq }
      else .pkt (pktHdr q false (s.ringUnits q len))

/-- Regions declared by tasks that have not completed (R410). -/
def State.regionCount (s : State) : Nat :=
  (s.tasks.map fun e => match e.2 with
    | some t => if t.spec.isNone then t.regions.length else 0
    | none => 0).sum

/-- The regions that a packet declares (R408). -/
def pktRegions (h : PktHdr) : Nat :=
  let fs := fieldsOf h.raw
  match pktType h with
  | 0x0001 => (withTag 0x8007 fs).length
  | 0x0002 => ((withTag 0x8010 fs).map fun f => (nodeOf f).regions.length).sum
  | 0x0031 => 1
  | _ => 0

/-- Whether the graph tracker holds the regions of a packet (R410). -/
def State.tracks (s : State) (h : PktHdr) : Bool :=
  pktRegions h == 0 || decide (s.regionCount + pktRegions h ≤ 4096)

/-- Whether the front end can take something from queue `q`: a tail to be read, or a packet (R391). -/
def State.takes (s : State) (q : Nat) : Bool :=
  s.canDecode q && ((s.queue q).pending || (match s.nextPkt q with
    | .none => false
    | .frame _ => true
    | .pkt h => s.tracks h))

/-- How far queue `q` is from its turn in its class (R391). -/
def State.turnOf (s : State) (q : Nat) : Nat := (q + 1024 - s.fedTurn.get 0 (s.queue q).entry.cls % 1024) % 1024

/-- Whether queue `q` is the one the front end serves next: the lowest CLASS, then round-robin (R391). -/
def State.served (s : State) (q : Nat) : Bool :=
  s.takes q && s.queues.all fun e => e.1 == q || !s.takes e.1
    || decide ((s.queue q).entry.cls < e.2.entry.cls)
    || ((s.queue q).entry.cls == e.2.entry.cls && decide (s.turnOf q < s.turnOf e.1))

/-- What the front end does with queue `q`: it reads a tail that has been written (R389); else it
settles the next packet by Table 15.4, or decodes it to a step (R393). -/
def State.fedTake (s : State) (q : Nat) : State × Option Instr :=
  if !s.served q then (s, none)
  else if (s.queue q).pending then
    (((s.onQueue q fun x => { x with pending := false }).checkTail q).settleSlot q, none)
  else
    let cls := (s.queue q).entry.cls
    let s := { s with fedTurn := s.fedTurn.set 0 cls (q + 1) }
    match s.nextPkt q with
    | .none => (s, none)
    | .frame v => (s.frameError q v, none)
    | .pkt h =>
      match checkPacket h ((s.queue q).entry.priv && !h.spawned) with
      | .error v => (s.settlePkt h v, none)
      | .ok fs => (s, some (instrOf h fs))

end Sys2Proof.Machine
end

