-- ==== Sys2Proof/Machine/Mxe.lean ====
section
/-!
DEFINITION. The matrix engine (11): operand queues and weight slots, MMA and MMAG, the accumulator
operations, retirement, mode and status, and the completion of its instructions.
-/

namespace Sys2Proof.Machine

/-! ## Resources and holds (R268) -/

/-- The storage buffer of an operand queue that its `n`-th entry uses. -/
def bufOf (q n : Nat) : Nat := 2 * q + n % 2

/-- The resource number of weight slot `w`. -/
def slotRes (w : Nat) : Nat := 8 + w

/-- The resource numbers of rows of a tile. -/
def rowRes (an r0 n : Nat) : List Nat := (List.range n).map fun i => 16 + 128 * an + r0 + i

/-- The number under which storage of the matrix engine of core `p` is marked as holding uncorrectable data: a
queue buffer, a slot or a tile row (R276, R473, log entry 134). -/
def mxeUnit (p r : Nat) : Nat := 2 ^ 80 + 2 ^ 12 * p + r

/-- Whether some instruction in progress has a write of a resource pending; a write that completes on a
tick is seen on the next (R268). -/
def MxeState.writing (m : MxeState) (now : Nat) (rs : List Nat) : Bool :=
  (m.flight.any fun o => o.writes.any rs.contains) || (m.doneAt == now && m.done.any rs.contains)

/-- The conditions of R268. -/
def MxeState.ready (m : MxeState) (now unit : Nat) (reads writes : List Nat) : Bool :=
  !(m.flight.any fun o => o.unit == unit && decide (unit < 4) && decide (now < o.free))
    && !m.writing now reads
    && !(m.flight.any fun o => o.reads.any writes.contains)
    && !(m.flight.any fun o => o.writes.any fun r => decide (16 ≤ r) && writes.contains r)

/-- The entries of a queue, in stream order. -/
def MxeState.count (m : MxeState) (q : Nat) : Nat := m.wr.get 0 q - m.rd.get 0 q

/-- The buffer of a queue's head entry. -/
def MxeState.head (m : MxeState) (q : Nat) : Nat := bufOf q (m.rd.get 0 q)

/-- The queue with its head entry removed, if `pop`. -/
def MxeState.pop (m : MxeState) (q : Nat) (pop : Bool) : MxeState :=
  if pop then { m with rd := m.rd.set 0 q (m.rd.get 0 q + 1) } else m

/-- The tile marked live (R264). -/
def MxeState.mark (m : MxeState) (an : Nat) : MxeState := { m with live := m.live ||| BitVec.ofNat 8 (2 ^ an) }

/-! ## Accumulator rows -/

/-- Element `j` of row `r` of a tile. -/
def MxeState.at' (m : MxeState) (an r j : Nat) : Elem := m.acc.get Elem.zero (16384 * an + 128 * r + j)

/-- The exponent of row `r` of a tile. -/
def MxeState.exp (m : MxeState) (an r : Nat) : Int := m.rexp.get 0 (128 * an + r)

/-- The canonical image of `n` rows of a tile from `r0` up (R351). -/
def MxeState.rows (m : MxeState) (role an r0 n : Nat) : Image :=
  { role := role, fmt := fmtACC, blk := 0, ext := [128, n, 1, 1]
    bytes := ((List.range n).flatMap fun i => (List.range 128).flatMap fun j => leBytes 8 (m.at' an (r0 + i) j).raw)
      ++ (List.range n).flatMap fun i => leBytes 2 (trunc 16 (m.exp an (r0 + i))) }

/-- The matrix engine after a write of a completing instruction, memory apart. -/
def MxeState.put (m : MxeState) (w : MxeWrite) : MxeState :=
  match w with
  | .elem k x => { m with acc := m.acc.set Elem.zero k x }
  | .rowExp k e => { m with rexp := m.rexp.set 0 k e }
  | .clearTile an =>
    { m with acc := m.acc.clear (16384 * an) (16384 * (an + 1)), rexp := m.rexp.clear (128 * an) (128 * (an + 1))
             live := m.live &&& ~~~(BitVec.ofNat 8 (2 ^ an)) }
  | .slot w b => { m with slots := m.slots.set none w b }
  | .entry k b => { m with bufs := m.bufs.set none k (some b) }
  | .bytes _ => m
  | .clearMxst => { m with mxst := 0 }

/-- The matrix engine after several writes. -/
def MxeState.puts (m : MxeState) (ws : List MxeWrite) : MxeState := ws.foldl MxeState.put m

/-! ## Issue -/

/-- An MXE instruction about to issue. -/
structure MxeTry where
  unit   : Nat
  occ    : Nat
  lat    : Nat
  reads  : List Nat
  writes : List Nat
  effect : List MxeWrite
  mxst   : Nat
  trap   : Bool
  uncorr : Bool
  yield  : Bool
  sums   : Bool
  body   : Option LeafBody
  images : List Image

/-- An instruction that does nothing yet. -/
def MxeTry.plain (unit occ lat : Nat) : MxeTry :=
  { unit := unit, occ := occ, lat := lat, reads := [], writes := [], effect := [], mxst := 0, trap := false
    uncorr := false, yield := false, sums := false, body := none, images := [] }

/-- The tiles among some resources. -/
def tilesOf (rs : List Nat) : List Nat := ((rs.filter fun r => decide (16 ≤ r)).map fun r => (r - 16) / 128).eraseDups

/-- The matrix engine as its instructions in progress leave it (R271, R290). -/
def MxeState.ahead (m : MxeState) : MxeState := m.puts (m.flight.flatMap (·.effect))

/-- The state as the memory writes of the matrix instructions in progress leave it, for the reads of a later one of
the stream (R62, R271). -/
def State.ahead (s : State) : State := s.landBytes s.cur.core s.myStream.sidx fun _ => true

/-- An MXE instruction issues with the state `m` that its issue leaves, or holds (R268, R365). One that meets
uncorrectable data writes nothing and has not issued when its fault comes at its completion: it occupies its
unit, takes from its queue what it pops, and nothing issues behind it (R276, R283, R285, R346, R349). -/
def State.mxeIssue (s : State) (m : MxeState) (x : MxeTry) : Eff :=
  if x.body.isSome && s.myStream.formFull then .device
  else if !s.me.mxeS.ready s.gtc x.unit x.reads x.writes then .program
  else
    let sidx := s.myStream.sidx
    let bad := x.uncorr || x.reads.any fun r => s.bad.get false (mxeUnit s.cur.core r)
    let o : MxeOp :=
      { unit := x.unit, sidx := sidx, free := s.gtc + x.occ, due := s.gtc + x.lat, reads := x.reads
        writes := x.writes, effect := if bad then [] else x.effect, mxst := if bad then 0 else x.mxst
        trap := x.trap && !bad, uncorr := bad, foff := s.myStream.pc, yield := x.yield && !bad, sums := x.sums
        record := if bad then none else x.body.map fun b => leafRecord 2 s.me.vcore sidx s.cur.words b
        images := x.images }
    if bad then
      .raw (s.onMe fun c => { c with mxeS := { c.mxeS with
        rd := m.rd, flight := c.mxeS.flight ++ [o], broken := true } })
    else
      let writer := (tilesOf x.writes).foldl (fun w an => w.set 0 an (sidx + 1)) m.writer
      let s := s.onMe fun c => { c with mxeS :=
        { m with flight := m.flight ++ [o], writer := writer, yield := m.yield || x.yield } }
      .done (if x.body.isSome then s.onStream Stream.formLeaf else s) x.lat

/-- A leaf body of the MXE (R291). -/
def mxeLeaf (m : MxeState) (a b t : Nat) (d0 d1 d2 r : Option Digest) (extra : Nat) : LeafBody :=
  { kind := 5, nmode := b2n m.ovt + a * 2 ^ 8 + b * 2 ^ 16 + t * 2 ^ 24
    opd0 := d0, opd1 := d1, opd2 := d2, res := r, extra := extra }

/-- The rows an instruction names (R267): none where the range is out of bounds. -/
def State.rowRange (s : State) (r : Rows) : Option (Nat × Nat) :=
  if r.all then some (0, 128)
  else
    let c := s.coord r.cr
    let r0 := c.int 0
    let n := c.int 1
    if 0 ≤ r0 ∧ 0 ≤ n ∧ r0 + n ≤ 128 then some (r0.toNat, n.toNat) else none

/-- A quotient rounded up, at least 1. -/
def ticks (n d : Nat) : Nat := max 1 ((n + d - 1) / d)

/-- An accumulator operation on a row range: the allocation, then the range, are checked (R267). -/
def State.onRows (s : State) (tiles : List Nat) (r : Rows) (f : Nat → Nat → Eff) : Eff :=
  if tiles.any fun n => decide ((s.hdrOf s.cur.core).acct ≤ n) then .fault 5 0 0
  else match s.rowRange r with
    | none => .fault 4 7 0
    | some (r0, n) => f r0 n

/-! ## Blocks (R272, R273) -/

/-- The formats an operand block may have. -/
def blockFmt (f : Nat) : Bool := [fmtE4M3, fmtE5M2, fmtInt8, fmtBF16, fmtQX4].contains f

/-- Whether an access may be an operand block (R272). -/
def Core.blockOk (c : Core) (a : Access) (cel : Bool) : Bool :=
  let sc := match c.scaleAccess a with
    | none => 0
    | some b => b.count
  (a.d.space == 0 || (cel && a.d.space == 2)) && a.d.layout != 2 && blockFmt a.d.fmt
    && nth a.ext 2 == 1 && nth a.ext 3 == 1 && decide (nth a.ext 1 ≤ 128)
    && decide ((esize a.d.fmt * a.count + 7) / 8 ≤ 65536) && decide (sc ≤ 4096)

/-- The block that an access reads, with its image. -/
def State.readBlock (s : State) (p : Nat) (a : Access) : Block × Image :=
  let im := s.imageOf p 0 a
  let es := if a.empty then [] else s.elems p a
  let b := blkSize a.d.blk
  ({ fmt := a.d.fmt, blk := a.d.blk, rows := nth a.ext 1, k := nth a.ext 0, elems := es
     scales := if a.empty then [] else s.scaleBytes p a
     start := if b = 0 then 0 else (a.origin.getD 0 0).toNat % b, digest := im.digest }, im)

/-- The access of MRD and WLD: dimension 0 is K, dimension 1 the rows or columns. -/
def State.blockAccess (s : State) (ts cs : Nat) (ext : Option Ext) : Access :=
  let d := s.me.desc ts
  { d := d, slot := 0, origin := (s.coord cs).origin
    ext := match ext with
      | none => d.tile
      | some x => [x.e0, x.e1, nth d.tile 2, nth d.tile 3] }

/-- The ticks that a block read occupies its unit, and those until it completes (Table 11.4); arbitration and a
refreshing bank lengthen both by `k` (R270). -/
def blockTicks (d : Desc) (im : Image) (k : Nat) : Nat × Nat :=
  if d.space = 2 then let o := ticks im.bytes.length 1024 + k; (o, o + 20)
  else let o := ticks im.bytes.length 2048 + k; (o, o + 6 + (if d.qwin then 4 else 0))

/-- The instructions in progress below stream index `k` no longer write slot `w`: a later one has replaced it
(R273). -/
def MxeState.withoutSlot (m : MxeState) (k w : Nat) : MxeState :=
  { m with flight := m.flight.map fun o =>
      if o.sidx < k then { o with effect := o.effect.filter fun x => match x with
        | .slot v _ => v != w
        | _ => true } else o }

/-- A block read that met uncorrectable data, at its issue, once its unit and its target are free: the
engine fault, with the state `m` it leaves (R272, R273). -/
def State.badBlock (s : State) (m : MxeState) (unit res : Nat) : Eff :=
  if s.myStream.formFull then .device
  else if !s.me.mxeS.ready s.gtc unit [] [res] then .program
  else .raw ((s.onMe fun c => { c with mxeS := m }).atDone.raise 10 11 0)

/-- MRD reads an A block into an operand queue (R272). -/
def State.mrdEff (s : State) (q ts cs : Nat) (ext : Option Ext) : Eff :=
  let p := s.cur.core
  let m := s.me.mxeS
  let a := s.blockAccess ts cs ext
  match s.checkAccess p 2 ts false a with
  | .bad _ cause => .fault cause 9 0
  | .ok =>
    if !s.me.blockOk a false then .fault 4 6 0
    else if 2 ≤ m.count q then .fault 4 2 0
    else
      let (b, im) := s.ahead.readBlock p a
      let (o, lat) := blockTicks a.d im (s.readWait [])
      let buf := bufOf q (m.wr.get 0 q)
      let bad := s.ahead.accessBad p a
      let s := (s.cacheTile p ts (s.coord cs) a).unstall
      if bad then s.badBlock m 0 buf
      else s.mxeIssue { m with wr := m.wr.set 0 q (m.wr.get 0 q + 1) }
        { MxeTry.plain 0 o lat with
          writes := [buf], effect := [.entry buf b]
          body := some (mxeLeaf m b.fmt 0 0 (some b.digest) none none none q), images := [im] }

/-- MRD. -/
def execMrd (h : Hdr) (q ts cs : Nat) (ext : Option Ext) (s : State) : Out :=
  .next (s.issue h fun s => s.mrdEff q ts cs ext)

/-- WLD loads a B block into a weight slot (R273). -/
def State.wldEff (s : State) (w ts cs : Nat) (ext : Option Ext) : Eff :=
  let p := s.cur.core
  let m := s.me.mxeS
  let a := s.blockAccess ts cs ext
  match s.checkAccess p 2 ts false a with
  | .bad _ cause => .fault cause 9 0
  | .ok =>
    if !s.me.blockOk a true then .fault 4 6 0
    else
      let (b, im) := s.ahead.readBlock p a
      let (o, lat) := blockTicks a.d im (s.readWait (if a.empty ∨ a.d.space ≠ 2 then [] else s.addrs p a))
      let bad := s.ahead.accessBad p a
      let x : WSlot := { block := b, ts := ts, origin := s.coord cs, e0 := nth a.ext 0, e1 := nth a.ext 1
                         cel := a.d.space == 2 }
      let s := (s.cacheTile p ts (s.coord cs) a).unstall
      if bad then s.badBlock ((m.withoutSlot s.myStream.sidx w).puts [.slot w none]) 1 (slotRes w)
      else s.mxeIssue m
        { MxeTry.plain 1 o lat with
          writes := [slotRes w], effect := [.slot w (some x)]
          body := some (mxeLeaf m 0 b.fmt 0 (some b.digest) none none none w), images := [im] }

/-- WLD. -/
def execWld (h : Hdr) (w ts cs : Nat) (ext : Option Ext) (s : State) : Out :=
  .next (s.issue h fun s => s.wldEff w ts cs ext)

/-! ## MMA and MMAG (R274 to R278) -/

/-- The K rate of a pairing, if it is one (Table 11.5). -/
def pairing (a b : Nat) : Option Nat :=
  let fp8 (f : Nat) : Bool := f == fmtE4M3 || f == fmtE5M2
  if fp8 a && fp8 b then some 8
  else if a = fmtInt8 ∧ b = fmtInt8 then some 8
  else if (a = fmtE4M3 ∧ b = fmtQX4) ∨ (a = fmtQX4 ∧ b = fmtE4M3) then some 8
  else if a = fmtQX4 ∧ b = fmtQX4 then some 16
  else if a = fmtBF16 ∧ b = fmtBF16 then some 2
  else none

/-- The two bytes of the quad that holds element `k` of row `r`. -/
def Block.quad (b : Block) (r k : Nat) : Nat × Nat :=
  let c (i : Nat) : Nat := b.elems.getD (r * b.k + k / 4 * 4 + i) 0
  (c 0 + 16 * c 1, c 2 + 16 * c 3)

/-- The scale code of element `k` of row `r`. -/
def Block.scale (b : Block) (r k : Nat) : Nat :=
  let z := blkSize b.blk
  let per := if b.k = 0 then 0 else (b.start + b.k - 1) / z + 1
  b.scales.getD (r * per + (b.start + k) / z) 0

/-- The value of element `k` of row `r`, its scale applied (R50, R44). -/
def Block.val (b : Block) (r k : Nat) : Val :=
  if b.fmt = fmtQX4 then
    let (b0, b1) := b.quad r k
    quadDecode b0 b1 (b.scale r k) (k % 4)
  else
    let v := elemVal b.fmt (b.elems.getD (r * b.k + k) 0)
    if b.blk = 0 then v else v.under (b.scale r k)

/-- Whether some quad of rows `r0` up to `r1` is malformed (R44). -/
def Block.badQuad (b : Block) (r0 r1 : Nat) : Bool :=
  b.fmt == fmtQX4 && (List.range (r1 - r0)).any fun i => (List.range (b.k / 4)).any fun j =>
    let (b0, b1) := b.quad (r0 + i) (4 * j)
    quadBad b0 b1

/-- Rows `lo` up to `hi` of a tile accumulate entry rows against a slot (R50, R275): the writes, and
whether some element saturates. With K = 0 every element keeps its value (R276). -/
def MxeState.multiply (m : MxeState) (an : Nat) (e b : Block) (lo hi : Nat) : List MxeWrite × Bool :=
  let out := (List.range (if e.k = 0 then 0 else hi - lo)).flatMap fun i => (List.range b.rows).map fun j =>
    let r := lo + i
    let ps := (List.range e.k).map fun k => (e.val r k).mul (b.val j k)
    let (x, sat) := accumulate (m.exp an r) (m.at' an r j) ps
    (MxeWrite.elem (16384 * an + 128 * r + j) x, sat)
  (out.map Prod.fst, out.any Prod.snd)

/-- The image of a block. -/
def Block.image (b : Block) (role : Nat) : Image :=
  { role := role, fmt := b.fmt, blk := b.blk, ext := [b.k, b.rows, 1, 1]
    bytes := packElems b.fmt b.elems ++ b.scales.map (BitVec.ofNat 8 ·) }

/-- The sticky flags of a multiplication (Table 11.2). -/
def mulFlags (qxm asat govf : Bool) : Nat := b2n qxm + b2n asat * 4 + b2n govf * 16

/-- MMA (R275, R276). -/
def State.mmaEff (s : State) (an q w : Nat) (pop : Bool) : Eff :=
  let m := s.me.mxeS
  let buf := m.head q
  if (s.hdrOf s.cur.core).acct ≤ an then .fault 5 0 0
  else if s.myStream.formFull then .device
  else if m.writing s.gtc [buf, slotRes w] then .program
  else if m.count q = 0 then .fault 4 1 0
  else match m.bufs.get none buf, m.slots.get none w with
    | none, _ => .fault 4 1 0
    | _, none => .fault 4 3 0
    | some e, some sl =>
      let b := sl.block
      match pairing e.fmt b.fmt with
      | none => .fault 4 4 0
      | some kr =>
        if e.k ≠ b.k then .fault 4 5 0
        else
          let (ws, sat) := m.multiply an e b 0 e.rows
          let qxm := decide (0 < e.rows) && decide (0 < b.rows) && (e.badQuad 0 e.rows || b.badQuad 0 b.rows)
          let o := ticks e.k kr
          let before := m.rows 2 an 0 e.rows
          let after := (m.puts ws).rows 3 an 0 e.rows
          s.mxeIssue ((m.mark an).pop q pop)
            { MxeTry.plain 2 o (o + 12) with
              reads := [buf, slotRes w] ++ rowRes an 0 e.rows, writes := rowRes an 0 e.rows, effect := ws
              mxst := mulFlags qxm sat false, trap := m.ovt && sat, sums := true
              body := some (mxeLeaf m e.fmt b.fmt 0 (some e.digest) (some b.digest) (some before.digest)
                (some after.digest) (an + q * 2 ^ 3 + w * 2 ^ 5 + b2n pop * 2 ^ 7 + e.rows * 2 ^ 8 + e.k * 2 ^ 16
                  + b.rows * 2 ^ 30))
              images := [e.image 0, b.image 1, before, after] }

/-- MMA. -/
def execMma (h : Hdr) (an q w : Nat) (pop : Bool) (s : State) : Out := .next (s.issue h fun s => s.mmaEff an q w pop)

/-- The row groups of an MMAG: first and last row of each, and the sum of the counts (R278). -/
def groupRows (mrows : Nat) : Nat → List Nat → List (Nat × Nat) × Nat
  | base, [] => ([], base)
  | base, n :: ns =>
    let (gs, total) := groupRows mrows (base + n) ns
    ((min base mrows, min (base + n) mrows) :: gs, total)

/-- What a check of an MMAG's groups finds, group by group from `g` on: the cause code of the first fault, 0 for
none (R278). -/
def MxeState.groupFault (m : MxeState) (e : Block) : Nat → Nat → List Int → Nat
  | _, _, [] => 0
  | g, base, n :: ns =>
    let past := base + n.toNat
    if n < 0 then 7
    else if min past e.rows ≤ min base e.rows then m.groupFault e (g + 1) past ns
    else match m.slots.get none g with
      | none => 3
      | some sl =>
        if (pairing e.fmt sl.block.fmt).isNone then 4
        else if sl.block.k ≠ e.k then 5
        else m.groupFault e (g + 1) past ns

/-- The block of slot `g`. -/
def MxeState.slotBlock (m : MxeState) (g : Nat) : Option Block := (m.slots.get none g).map (·.block)

/-- MMAG (R278). -/
def State.mmagEff (s : State) (an q : Nat) (pop : Bool) (cg ngm1 : Nat) : Eff :=
  let m := s.me.mxeS
  let buf := m.head q
  let ng := ngm1 + 1
  let c := s.coord cg
  let counts : List Int := (List.range ng).map fun g => c.int g
  if (s.hdrOf s.cur.core).acct ≤ an then .fault 5 0 0
  else if s.myStream.formFull then .device
  else if m.writing s.gtc [buf] then .program
  else if m.count q = 0 then .fault 4 1 0
  else match m.bufs.get none buf with
    | none => .fault 4 1 0
    | some e =>
      let (gs, total) := groupRows e.rows 0 (counts.map Int.toNat)
      let live := (gs.mapIdx fun g r => (g, r.1, r.2)).filter fun x => decide (x.2.1 < x.2.2)
      if m.writing s.gtc (live.map fun x => slotRes x.1) then .program
      else
        let bad := m.groupFault e 0 0 counts
        if bad ≠ 0 then .fault 4 bad 0
        else
          let parts := live.filterMap fun x => (m.slotBlock x.1).map fun b => (x.1, x.2.1, x.2.2, b)
          let muls := parts.map fun x => m.multiply an e x.2.2.2 x.2.1 x.2.2.1
          let ws := muls.flatMap Prod.fst
          let sat := muls.any Prod.snd
          let qxm := parts.any fun x => decide (0 < x.2.2.2.rows) && (e.badQuad x.2.1 x.2.2.1 || x.2.2.2.badQuad 0 x.2.2.2.rows)
          let govf := decide (e.rows < total)
          let o := max 1 ((parts.map fun x => let kr := (pairing e.fmt x.2.2.2.fmt).getD 1; (e.k + kr - 1) / kr).sum)
          let before := m.ahead.rows 2 an 0 e.rows
          let after := (m.ahead.puts ws).rows 3 an 0 e.rows
          let digs := (List.range ng).flatMap fun g => match parts.find? fun x => x.1 == g with
            | some x => digBytes x.2.2.2.digest
            | none => zeros 32
          let coords := (List.range 4).flatMap fun g => leBytes 4 (if g < ng then trunc 32 (c.int g) else 0)
          let im1 : Image := { role := 1, fmt := fmtInt8, blk := 0, ext := [(digs ++ coords).length, 1, 1, 1]
                               bytes := digs ++ coords }
          let aux := ((List.range ng).map fun g => match parts.find? fun x => x.1 == g with
              | some x => x.2.2.2.image 4
              | none => { role := 5, fmt := 0, blk := 0, ext := [0, 0, 0, 0], bytes := [] })
            ++ [{ role := 4, fmt := fmtInt32, blk := 0, ext := [4, 1, 1, 1], bytes := coords : Image }]
          let fmt0 := ((m.ahead.slotBlock 0).map (·.fmt)).getD 0
          s.mxeIssue ((m.mark an).pop q pop)
            { MxeTry.plain 2 o (o + 12) with
              reads := buf :: parts.map (fun x => slotRes x.1) ++ rowRes an 0 (min total e.rows)
              writes := rowRes an 0 (min total e.rows), effect := ws
              mxst := mulFlags qxm sat govf, trap := m.ovt && sat, sums := true
              body := some (mxeLeaf m e.fmt fmt0 0 (some e.digest) (some im1.digest) (some before.digest)
                (some after.digest) (an + q * 2 ^ 3 + b2n pop * 2 ^ 5 + ngm1 * 2 ^ 6 + b2n govf * 2 ^ 8))
              images := [e.image 0, before, after] ++ aux }

/-- MMAG. -/
def execMmag (h : Hdr) (an q : Nat) (pop : Bool) (cg ngm1 : Nat) (s : State) : Out :=
  .next (s.issue h fun s => s.mmagEff an q pop cg ngm1)

/-! ## Accumulator operations (R279 to R282) -/

/-- An operation that rewrites rows of a tile: unit times, reads beside its own rows, writes, flags,
trap and leaf. -/
def State.rowOp (s : State) (m' : MxeState) (an r0 n rate extraTicks : Nat) (own : Bool) (also : List Nat) (ws : List MxeWrite)
    (flags : Nat) (trap sums : Bool) (ims : List Image) (d1 : Option Digest) (extra : Nat) : Eff :=
  let m := s.me.mxeS
  let o := ticks n rate
  let before := m.rows 0 an r0 n
  let after := (m.puts ws).rows 3 an r0 n
  s.mxeIssue m'
    { MxeTry.plain 3 o (o + extraTicks) with
      reads := (if own then rowRes an r0 n else []) ++ also, writes := rowRes an r0 n, effect := ws, mxst := flags
      trap := trap, sums := sums
      body := some (mxeLeaf m 0 0 0 (some before.digest) d1 none (some after.digest) extra)
      images := [before, after] ++ ims }

/-- Rows set to zero elements with an exponent. -/
def resetRows (an r0 n : Nat) (e : Int) : List MxeWrite :=
  (List.range n).flatMap fun i =>
    MxeWrite.rowExp (128 * an + r0 + i) e :: (List.range 128).map fun j => MxeWrite.elem (16384 * an + 128 * (r0 + i) + j) Elem.zero

/-- ASET (R279). -/
def execAset (h : Hdr) (an : Nat) (r : Rows) (exp : Nat) (s : State) : Out :=
  .next (s.issue h fun s => s.onRows [an] r fun r0 n =>
    let m := s.me.mxeS
    s.rowOp (m.mark an) an r0 n 8 2 false [] (resetRows an r0 n (sext 16 exp)) 0 false false [] none
      (an + r0 * 2 ^ 3 + n * 2 ^ 11 + b2n r.all * 2 ^ 19 + exp % 2 ^ 16 * 2 ^ 20))

/-- ACLR (R280): with ALL the tile stops being live. -/
def execAclr (h : Hdr) (an : Nat) (r : Rows) (s : State) : Out :=
  .next (s.issue h fun s => s.onRows [an] r fun r0 n =>
    s.rowOp s.me.mxeS an r0 n 8 2 false [] (if r.all then [.clearTile an] else resetRows an r0 n 0) 0 false false [] none
      (an + r0 * 2 ^ 3 + n * 2 ^ 11 + b2n r.all * 2 ^ 19))

/-- The writes of an ANORM, and whether some row is left unchanged (R52, R281). -/
def MxeState.normRows (m : MxeState) (an r0 n k : Nat) : List MxeWrite × Bool :=
  let rows : List (Nat × Int) := (List.range n).map fun i => (r0 + i, m.exp an (r0 + i))
  ((rows.filter fun x => decide (x.2 + (k : Int) ≤ 32767)).flatMap fun x =>
      MxeWrite.rowExp (128 * an + x.1) (x.2 + (k : Int))
        :: (List.range 128).map fun j => MxeWrite.elem (16384 * an + 128 * x.1 + j) ((m.at' an x.1 j).norm k)
   , rows.any fun x => decide (32767 < x.2 + (k : Int)))

/-- ANORM (R281). -/
def execAnorm (h : Hdr) (an : Nat) (r : Rows) (k : Nat) (s : State) : Out :=
  .next (s.issue h fun s => s.onRows [an] r fun r0 n =>
    let m := s.me.mxeS
    let (ws, expr) := m.normRows an r0 n k
    s.rowOp (m.mark an) an r0 n 4 4 true [] ws (b2n expr * 8) false false [] none
      (an + r0 * 2 ^ 3 + n * 2 ^ 11 + b2n r.all * 2 ^ 19 + k * 2 ^ 20))

/-- The writes of an AADD, and whether some element saturates (R282). -/
def MxeState.addRows (m : MxeState) (an as r0 n : Nat) : List MxeWrite × Bool :=
  let out := (List.range n).flatMap fun i => (List.range 128).map fun j =>
    let r := r0 + i
    let (x, sat) := (m.at' an r j).add (m.exp as r - m.exp an r) (m.at' as r j)
    (MxeWrite.elem (16384 * an + 128 * r + j) x, sat)
  (out.map Prod.fst, out.any Prod.snd)

/-- AADD (R282). -/
def execAadd (h : Hdr) (an : Nat) (r : Rows) (as : Nat) (s : State) : Out :=
  .next (s.issue h fun s => s.onRows [an, as] r fun r0 n =>
    let m := s.me.mxeS
    let (ws, sat) := m.addRows an as r0 n
    let src := m.rows 1 as r0 n
    s.rowOp (m.mark an) an r0 n 4 4 true (rowRes as r0 n) ws (b2n sat * 4) (m.ovt && sat) true [src] (some src.digest)
      (an + as * 2 ^ 3 + r0 * 2 ^ 6 + n * 2 ^ 14))

/-! ## Retirement and raw rows (R283 to R286) -/

/-- The bytes that element codes write to an on-die access, as a completion performs them. -/
def State.codeBytes (s : State) (p : Nat) (a : Access) (vs : List Nat) : List (Nat × Nat × Nat) :=
  ((a.bitOffs.zip vs).foldl (fun m e => addStore a.d m (e.1, e.2, 0)) []).map fun e =>
    (s.locate p a.d e.1, e.2.val, e.2.nib)

/-- Whether a descriptor is one that retired rows may go to (R283). -/
def retireTarget (d : Desc) : Bool :=
  (fmtIsFp d.fmt || (fmtIsInt d.fmt && d.fmt != fmtInt64)) && d.space == 0
    && (d.layout != 2 || d.prod == 2) && decide (nth d.tile 0 ≤ 128)

/-- The codes that a retirement writes, in the order of its destination, and whether RSAT is set
(R53, R54, R283). -/
def MxeState.retire (m : MxeState) (an r0 n nc f rm sh : Nat) (q : List Nat) : List Nat × Bool :=
  let out := (List.range n).flatMap fun i => (List.range nc).map fun j =>
    let x := m.at' an (r0 + i) j
    if fmtIsFp f then retireFp f (Rm.of rm) (m.exp an (r0 + i)) x
    else
      let (v, sat) := retireInt f (sext 32 (q.getD j 0)) sh (sext 32 (q.getD (nc + j) 0)) x
      (trunc (esize f) v, sat)
  (out.map Prod.fst, out.any Prod.snd)

/-- Whether an ARET is a yield point (R293). -/
def Core.yieldPoint (c : Core) (an : Nat) (free : Bool) : Bool :=
  c.yreq && free && (c.mxeS.live &&& ~~~(BitVec.ofNat 8 (2 ^ an))) == 0
    && !(c.mxeS.flight.any (·.sums))
    && !(c.lceS.slots.any fun x => x.phase != .done && (match x.instr with | .cpa _ _ _ _ _ _ _ _ => true | _ => false))

/-- ARET (R283). -/
def State.aretEff (s : State) (an r0 n : Nat) (free : Bool) (sh td cd tq cq rm : Nat) : Eff :=
  let p := s.cur.core
  let m := s.me.mxeS
  let d := s.me.desc td
  let nc := nth d.tile 0
  let a : Access := { d := d, slot := if d.layout = 2 then s.me.cursor 2 td else 0, origin := (s.coord cd).origin
                      ext := [nc, n, 1, 1] }
  let int := fmtIsInt d.fmt
  let qd := s.me.desc tq
  let qa : Access := { d := qd, slot := if qd.layout = 2 then s.me.cursor 2 tq else 0, origin := (s.coord cq).origin
                       ext := [nc, 2, 1, 1] }
  match s.me.checkRights 2 td true with
  | .bad _ cause => .fault cause 9 0
  | .ok =>
    if !retireTarget d then .fault 4 8 0
    else match (s.checkBounds p a).andThen (if int then s.checkAccess p 2 tq false qa else .ok) with
      | .bad _ cause => .fault cause 9 0
      | .ok =>
        if int && (qd.fmt != fmtInt32 || qd.space != 0) then .fault 4 8 0
        else
          let q := if int then s.ahead.elems p qa else []
          let bad := int && s.ahead.accessBad p qa
          let (vs, rsat) := m.retire an r0 n nc d.fmt rm sh q
          let o := ticks n 2
          let rows := m.rows 0 an r0 n
          let qim := s.ahead.imageOf p 1 qa
          let res : Image := { role := 3, fmt := d.fmt, blk := 0, ext := a.ext, bytes := packElems d.fmt vs }
          s.mxeIssue m
            { MxeTry.plain 3 o (o + 6) with
              reads := rowRes an r0 n, writes := if free then rowRes an 0 128 else []
              effect := .bytes (if n = 0 then [] else s.codeBytes p a vs) :: (if free then [.clearTile an] else [])
              mxst := b2n rsat * 2, uncorr := bad, yield := s.me.yieldPoint an free
              body := some (mxeLeaf m 0 0 d.fmt (some rows.digest) (if int then some qim.digest else none) none (some res.digest)
                (an + r0 * 2 ^ 3 + n * 2 ^ 11 + b2n free * 2 ^ 19 + rm * 2 ^ 20 + sh * 2 ^ 22))
              images := [rows] ++ (if int then [qim] else []) ++ [res] }

/-- ARET. -/
def execAret (h : Hdr) (an : Nat) (r : Rows) (free : Bool) (sh td cd tq cq rm : Nat) (s : State) : Out :=
  .next (s.issue h fun s => s.onRows [an] r fun r0 n => s.aretEff an r0 n free sh td cd tq cq rm)

/-- An access of an MXE instruction to an INT64 tensor of the scratchpad, with its checks. -/
def State.wordAccess (s : State) (t c e0 e1 : Nat) (write : Bool) (row : Bool) (f : Access → Eff) : Eff :=
  let p := s.cur.core
  let d := s.me.desc t
  let a : Access := { d := d, slot := if d.layout = 2 then s.me.cursor 2 t else 0, origin := (s.coord c).origin
                      ext := [e0, e1, 1, 1] }
  match s.me.checkRights 2 t write with
  | .bad _ cause => .fault cause 9 0
  | .ok =>
    if d.fmt != fmtInt64 || d.space != 0 || (row && d.layout != 0) then .fault 4 8 0
    else match s.checkBounds p a with
      | .bad _ cause => .fault cause 9 0
      | .ok => f a

/-- ARD writes rows raw (R284). -/
def execArd (h : Hdr) (an : Nat) (r : Rows) (xe : Bool) (td cd : Nat) (s : State) : Out :=
  .next (s.issue h fun s => s.onRows [an] r fun r0 n =>
    s.wordAccess td cd (128 + b2n xe) n true true fun a =>
      let m := s.me.mxeS
      let vs := (List.range n).flatMap fun i => (List.range 128).map (fun j => (m.at' an (r0 + i) j).raw)
        ++ (if xe then [trunc 64 (m.exp an (r0 + i))] else [])
      let o := max 1 n
      s.mxeIssue m
        { MxeTry.plain 3 o (o + 6) with
          reads := rowRes an r0 n
          effect := [.bytes (if n = 0 then [] else s.codeBytes s.cur.core a vs)] })

/-- The exponents among the words that an AWR reads. -/
def awrExps (n : Nat) (xe : Bool) (vs : List Nat) : List Int :=
  if xe then (List.range n).map fun i => sext 64 (vs.getD (129 * i + 128) 0) else []

/-- The writes of an AWR from the words it reads. -/
def awrWrites (an r0 n : Nat) (xe : Bool) (vs : List Nat) : List MxeWrite :=
  (List.range n).flatMap fun i =>
    (if xe then [MxeWrite.rowExp (128 * an + r0 + i) ((awrExps n xe vs).getD i 0)] else [])
      ++ (List.range 128).map fun j =>
        MxeWrite.elem (16384 * an + 128 * (r0 + i) + j) (Elem.ofRaw (vs.getD ((128 + b2n xe) * i + j) 0))

/-- AWR writes rows from memory (R285). -/
def execAwr (h : Hdr) (an : Nat) (r : Rows) (xe : Bool) (ts cs : Nat) (s : State) : Out :=
  .next (s.issue h fun s => s.onRows [an] r fun r0 n =>
    s.wordAccess ts cs (128 + b2n xe) n false false fun a =>
      let m := s.me.mxeS
      let p := s.cur.core
      let vs := if n = 0 then [] else s.ahead.elems p a
      if (awrExps n xe vs).any fun e => decide (e < -32768) || decide (32767 < e) then .fault 4 8 0
      else
        let bad := n ≠ 0 && s.ahead.accessBad p a
        let ws := awrWrites an r0 n xe vs
        let o := max 1 n
        let src := s.ahead.imageOf p 0 a
        let before := m.rows 1 an r0 n
        let after := (m.puts ws).rows 3 an r0 n
        s.mxeIssue (m.mark an)
          { MxeTry.plain 3 o (o + 6) with
            writes := rowRes an r0 n, effect := ws, uncorr := bad, sums := true
            body := some (mxeLeaf m 0 0 0 (some src.digest) (some before.digest) none (some after.digest)
              (an + r0 * 2 ^ 3 + n * 2 ^ 11 + b2n xe * 2 ^ 19))
            images := [src, before, after] })

/-- The row summary of AMAX (R286). -/
def MxeState.summary (m : MxeState) (an r : Nat) : Nat :=
  let xs := (List.range 128).map fun j => m.at' an r j
  let has (c : Cls) : Bool := xs.any fun x => x.cls == c
  (xs.foldl (fun k x => if x.cls = .finite then max k x.v.natAbs else k) 0)
    + b2n (has .posInf) * 2 ^ 56 + b2n (has .negInf) * 2 ^ 57 + b2n (has .nan) * 2 ^ 58
    + b2n (xs.any (·.sat)) * 2 ^ 59

/-- AMAX writes a summary of each row (R286). -/
def execAmax (h : Hdr) (an : Nat) (r : Rows) (td cd : Nat) (s : State) : Out :=
  .next (s.issue h fun s => s.onRows [an] r fun r0 n =>
    s.wordAccess td cd 2 n true false fun a =>
      let m := s.me.mxeS
      let vs := (List.range n).flatMap fun i => [m.summary an (r0 + i), trunc 64 (m.exp an (r0 + i))]
      let o := ticks n 4
      s.mxeIssue m
        { MxeTry.plain 3 o (o + 4) with
          reads := rowRes an r0 n
          effect := [.bytes (if n = 0 then [] else s.codeBytes s.cur.core a vs)] })

/-! ## Mode and status (R287, R288) -/

/-- MXMODE writes OVT (R287). -/
def execMxmode (h : Hdr) (ovt : Bool) (s : State) : Out :=
  .next (s.issue h fun s => .done (s.onMe fun c => { c with mxeS := { c.mxeS with ovt := ovt } }) 1)

/-- The status words (R288). -/
def MxeState.status (m : MxeState) : List Nat :=
  [ m.mxst.toNat % 32
  , m.live.toNat + ((List.range 4).map fun q => m.count q * 2 ^ (8 + 2 * q)).sum
      + ((List.range 4).map fun w => b2n (m.slots.get none w).isSome * 2 ^ (16 + w)).sum + b2n m.ovt * 2 ^ 20 ]

/-- MSTAT writes the status words once every earlier instruction has completed (R288). -/
def execMstat (h : Hdr) (clr : Bool) (td cd : Nat) (s : State) : Out :=
  .next (s.issue h fun s =>
    if !s.quiet then .program
    else s.wordAccess td cd 2 1 true false fun a =>
      let m := s.me.mxeS
      s.mxeIssue m
        { MxeTry.plain 3 1 4 with
          effect := .bytes (s.codeBytes s.cur.core a m.status) :: (if clr then [.clearMxst] else []) })

/-! ## Completion (R270, R277, R290, R293) -/

/-- The forced tick of the yield request of a task (R292). -/
def Task.forcedTick (t : Task) : Option Nat := t.cutReq.bind fun r => if r.yield then some (r.ty + t.hdr.maxred) else none

/-- When the streams of core `p` halt after a yield point that completes now (R293). -/
def State.yieldCut (s : State) (p : Nat) : Nat :=
  match (s.taskOf p).bind Task.forcedTick with
  | none => s.gtc + 16
  | some f => min (s.gtc + 16) f

/-- The earlier of two ticks. -/
def sooner (a : Option Nat) (b : Nat) : Option Nat := some (match a with | none => b | some x => min x b)

/-- The bytes that a completion writes, after those of earlier instructions in the same sectors (R62, R271). -/
def State.landOp (s : State) (p : Nat) (o : MxeOp) : State :=
  let bs := o.effect.flatMap MxeWrite.stored
  (s.landBytes p o.sidx fun a => bs.any fun b => b.1 / 32 == a / 32).writeNibbles bs

/-- The storage that a completing instruction has written whole, which no longer holds uncorrectable data
(R473): its queue buffer, its slot, and the rows that an operation other than a multiplication rewrites. -/
def MxeOp.renews (o : MxeOp) : List Nat :=
  o.effect.flatMap fun w => match w with
    | .entry k _ => [k]
    | .slot w _ => [slotRes w]
    | .clearTile an => rowRes an 0 128
    | .elem k _ => if o.unit = 3 then [16 + k / 128] else []
    | _ => []

/-- The matrix engine once instruction `o` has completed: the slots that it has written stay so, whatever an
earlier one brings later (R273). -/
def MxeState.complete (m : MxeState) (o : MxeOp) (now : Nat) : MxeState :=
  let m := o.effect.foldl (fun m w => match w with
    | .slot w _ => m.withoutSlot o.sidx w
    | _ => m) (m.puts o.effect)
  { m with flight := m.flight.filter fun x => x.sidx != o.sidx
           doneAt := now
           done := if m.doneAt = now then m.done ++ o.writes else o.writes
           mxst := m.mxst ||| BitVec.ofNat 64 o.mxst
           broken := m.broken && !o.uncorr }

/-- One instruction of the MXE of core `p` completes: its writes, its flags, its leaf, its yield and
its fault. -/
def State.mxeComplete (s : State) (p : Nat) (o : MxeOp) : State :=
  let s := s.landOp p o
  let news := o.renews
  let s := { s with bad := s.bad.filter fun e => !news.any fun r => mxeUnit p r == e.1 }
  let s := s.onCore p fun c =>
    { c with
      mxeS := c.mxeS.complete o s.gtc
      mxe := match o.record with
        | some rec' => c.mxe.fillLeaf o.sidx rec' o.images
        | none => c.mxe
      cutAt := if o.yield then sooner c.cutAt (s.yieldCut p) else c.cutAt
      cutBy := if o.yield then 2 else c.cutBy }
  let s := s.settleCore p
  if o.uncorr then s.engineFault p 2 10 11 0 o.foff
  else if o.trap then s.engineFault p 2 7 10 0 o.foff
  else s

/-- The instructions of the MXE of the core of the step that are due complete, in issue order. -/
def execMxeCompletion (s : State) : Out :=
  .next (
    let p := s.cur.core
    (s.me.mxeS.flight.filter fun o => decide (o.due ≤ s.gtc)).foldl (fun s o => s.mxeComplete p o) s)

end Sys2Proof.Machine
end

