-- ==== Sys2Proof/Machine/Save.lean ====
section
/-!
DEFINITION. The context save layout CSL 1.0, as it is written (16, R436 to R439, R475).
-/

namespace Sys2Proof.Machine

/-! ## Sections and image states (R437, Table 16.8b) -/

/-- A section with its header, its body padded to 16 bytes. -/
def sectionOf (ty : Nat) (body : List Byte) : List Byte :=
  leBytes 8 ty ++ leBytes 8 body.length ++ padTo 16 body

/-- An image state (Table 16.8b). -/
def imageState (im : Image) : List Byte :=
  let n := im.bytes.length / 1024 * 1024
  let cds := im.heads ++ chunkDigests im.fmt im.heads.length (im.bytes.take n)
  let part := im.bytes.drop n
  leBytes 8 (im.role + im.fmt * 2 ^ 8 + cds.length * 2 ^ 16) ++ leBytes 8 part.length ++ cds.flatMap digBytes
    ++ padTo 16 part

/-! ## Command records (R438, Table 16.8a) -/

/-- The CPM block of a record: the group entry read at issue and the aggregate so far (Table 7.6). -/
def cpmBlock (x : Cmd) : List Byte :=
  let okn := if x.phase = .done then x.agg.okn else 0
  leBytes 8 (b2n x.gvalid + x.gasid * 2 ^ 12) ++ leBytes 64 x.gmap.toNat
    ++ leBytes 8 (x.agg.nake.length * 2 ^ 16 + okn) ++ leBytes 8 (nakeWord x.agg.nake)
    ++ leBytes 64 (mapOf (x.agg.nake.map Prod.fst))

/-- A command record from its parts. -/
def recordBytes (sidx : Nat) (words : List Nat) (cregs : List Byte) (flags roff : Nat) (cpm : List Byte)
    (ims : List Image) : List Byte :=
  let body := leBytes 8 sidx ++ ((words ++ [0, 0, 0, 0]).take 4).flatMap (leBytes 4) ++ cregs
    ++ leBytes 8 (flags + ims.length * 2 ^ 24) ++ leBytes 8 roff ++ cpm ++ ims.flatMap imageState
  let rlen := (8 + body.length + 15) / 16 * 16
  padTo 16 (leBytes 8 rlen ++ body)

/-- The images a command's record carries: those its leaf will digest, while that leaf has not been
appended. -/
def Core.recordImages (c : Core) (e : Nat) (x : Cmd) : List Image :=
  if (c.userStream e).form.any fun f => f.sidx == x.sidx then
    x.images.filter fun im => decide (im.role < 16)
  else []

/-- The record of a command of copy engine `e`. One that has completed with a failure has no offset to resume
at: ROFF is then the offset that its leaf carries. -/
def Core.cmdRecord (c : Core) (e : Nat) (x : Cmd) : List Byte :=
  let paused := match x.phase with | .paused _ => true | _ => false
  let rel := match x.instr with | .fsig _ _ _ r _ _ => r && x.next == 0 && x.phase != .done | _ => false
  let cpm := match x.instr with | .cpm _ _ _ _ _ _ _ => true | _ => false
  let flags := x.status % 2 ^ 8 + b2n paused * 2 ^ 8 + b2n rel * 2 ^ 9 + b2n (x.phase == .done) * 2 ^ 10
    + b2n cpm * 2 ^ 11 + x.slot % 16 * 2 ^ 12
  recordBytes x.sidx x.words (x.cd.bytes ++ x.cs.bytes ++ x.ci.bytes) flags
    (if x.phase = .done ∧ x.status ≠ 0 then x.foff else x.off) (if cpm then cpmBlock x else [])
    (c.recordImages e x)

/-- The record of an RWAIT whose leaf waits behind an unfinished command: it has completed, and its
image is the receive table it saw. -/
def formRecord (f : Forming) : List Byte :=
  let r := f.record.getD []
  recordBytes f.sidx ((pieces 4 4 ((r.drop 0x10).take 16)).map leNat) (zeros 48) (2 ^ 10) 0 [] f.images

/-- The records of copy engine `e`, by stream index. -/
def Core.records (c : Core) (e : Nat) : SMap (List Byte) :=
  let m : SMap (List Byte) := ((c.userStream e).form.filter fun f => f.record.isSome).foldl
    (fun m f => SMap.set [] m f.sidx (formRecord f)) []
  (c.cmds e).foldl (fun m x => SMap.set [] m x.sidx (c.cmdRecord e x)) m

/-- The count of records and the records. -/
def Core.recordList (c : Core) (e : Nat) : List Byte :=
  let rs := c.records e
  leBytes 2 rs.length ++ zeros 6 ++ rs.flatMap Prod.snd

/-! ## The sections of a core (Table 16.8) -/

/-- HOLDV of an AT or a WAITT as it is saved: relative to VIEWT (R439). -/
def relHold (viewt hold v : Nat) : Nat :=
  if hold = 1 then (v + 2 ^ 40 - viewt % 2 ^ 40) % 2 ^ 40
  else if hold = 2 then (v + 2 ^ 64 - viewt) % 2 ^ 64
  else v

/-- Section 1. -/
def Core.secCore (c : Core) (p : Nat) : List Byte :=
  let cs := c.cursors.map fun e => leBytes 4 (e.1 % 256 + e.1 / 256 % 8 * 2 ^ 8 + e.2 * 2 ^ 12)
  leBytes 2 c.vcore ++ leBytes 2 p ++ zeros 4 ++ leBytes 8 c.ilc ++ leBytes 2 cs.length ++ zeros 6 ++ cs.flatten

/-- Section 2. -/
def Core.secStreams (c : Core) (viewt now : Nat) : List Byte :=
  (List.range 5).flatMap fun e =>
    let t := c.userStream e
    c.streamEntry e now fun h v => if h = 1 ∧ t.atd then 0 else relHold viewt h v

/-- Section 3: the belt, the named registers, STATUS with DZ only, and the arrival at a barrier. -/
def Core.secScu (c : Core) : List Byte :=
  let regs := (List.range 32).flatMap fun k => leBytes 8 (c.user.operand k).toNat
  let (w, v) : Nat × Nat := match c.scu.hold with
    | .bar b => (1 + b.scope * 2 + (b.rop.getD 0) * 2 ^ 4 + b2n b.rop.isSome * 2 ^ 7 + b.gen * 2 ^ 16, b.contrib.toNat)
    | _ => (0, 0)
  regs ++ leBytes 8 (b2n c.dz) ++ leBytes 8 w ++ leBytes 8 v

/-- Section 4. -/
def Core.secCoord (c : Core) : List Byte :=
  (List.range 4).flatMap fun e => (List.range 16).flatMap fun r => (c.coord (e + 1) r).bytes

/-- Section 5. -/
def Core.secLce (c : Core) : List Byte :=
  let l := c.lceS.settled
  ((List.range 16).flatMap fun k => leBytes 8 (l.rc.get 0 k).toNat) ++ l.record.take 16 ++ l.record.drop 16
    ++ c.recordList 1

/-- Section 6. -/
def Core.secSce (c : Core) : List Byte :=
  let x := c.sceS
  let t := commitTable x.commitments
  x.record.flatMap (leBytes 8) ++ x.last.record.flatMap (leBytes 8)
    ++ leBytes 8 (t.length / 48) ++ t ++ c.recordList 4

/-- A queue entry of the MXE (Table 16.8c). -/
def Block.saved (b : Block) : List Byte :=
  let es := packElems b.fmt b.elems
  padTo 16 (leBytes 8 (b.fmt + b.blk * 2 ^ 8 + b.rows * 2 ^ 16 + b.k * 2 ^ 24)
    ++ leBytes 8 es.length ++ leBytes 8 b.scales.length ++ digBytes b.digest ++ es
    ++ b.scales.map (BitVec.ofNat 8))

/-- A weight slot (Table 16.8c): by reference when its source was the Cellar and the kernel does not
write it (R294). -/
def slotSaved (cellarWrite : Bool) (w : Option WSlot) : List Byte :=
  match w with
  | none => zeros 16
  | some x =>
    let b := x.block
    let ref := x.cel && !cellarWrite
    let head := leBytes 8 ((if ref then 1 else 2) + b.fmt * 2 ^ 8 + b.blk * 2 ^ 16 + b.rows * 2 ^ 24 + b.k * 2 ^ 32)
    ++ digBytes b.digest
    if ref then padTo 16 (head ++ leBytes 8 x.ts ++ x.origin.bytes ++ leBytes 8 (x.e0 + x.e1 * 2 ^ 14))
    else
      let es := packElems b.fmt b.elems
      padTo 16 (head ++ leBytes 8 es.length ++ leBytes 8 b.scales.length ++ es ++ b.scales.map (BitVec.ofNat 8))

/-- Section 7 (R475). -/
def Core.secMxe (c : Core) (cellarWrite : Bool) : List Byte :=
  let m := c.mxeS
  let entry (q i : Nat) : List Byte := match m.bufs.get none (bufOf q (m.rd.get 0 q + i)) with
    | none => []
    | some b => b.saved
  m.status.flatMap (leBytes 8)
    ++ ((List.range 8).flatMap fun an => if m.live.getLsbD an then (m.rows 0 an 0 128).bytes else [])
    ++ ((List.range 4).flatMap fun q => (List.range (m.count q)).flatMap (entry q))
    ++ ((List.range 4).flatMap fun w => slotSaved cellarWrite (m.slots.get none w))

/-- The open segment (R475). -/
def Segment.saved (g : Segment) : List Byte :=
  let im (role : Nat) (bs : List Byte) (hs : List Digest) : Image :=
    { role := role, fmt := 0x01, blk := 0, ext := [], bytes := bs, heads := hs }
  leBytes 8 g.issues ++ leBytes 8 g.blocks ++ digBytes g.snap
    ++ imageState (im 0 (g.reads.flatMap digBytes) g.rheads)
    ++ imageState (im 1 (g.words.flatMap (leBytes 4)) g.wheads)

/-- Section 8; the snapshot of a segment in which nothing has issued is taken now. -/
def State.secVxe (s : State) (p : Nat) : List Byte :=
  let c := s.core p
  let h := s.hdrOf p
  let x := c.vxeS.landed
  let g := if x.seg.issues = 0 then { x.seg with snap := imageDigest 0x01 (s.snapshot p) } else x.seg
  ((List.range h.valloc).flatMap fun r => leBytes 512 (x.v.get 0 r).toNat)
    ++ ((List.range 7).flatMap fun k => leBytes 64 (x.m.get 0 (k + 1)).toNat)
    ++ leBytes 8 x.vxst.toNat ++ leBytes 8 x.vxctl.toNat ++ leBytes 8 x.vbstall.toNat
    ++ (if h.spillbank then (List.range 32).flatMap fun k => leBytes 512 (x.spill.get 0 k).toNat else [])
    ++ g.saved

/-- Section 9. -/
def Core.secTree (c : Core) : List Byte :=
  (List.range 5).flatMap fun e =>
    let t := c.userStream e
    leBytes 8 t.range.count ++ leBytes 8 t.sidx ++ leBytes 1 t.range.peaks.length ++ zeros 7
      ++ t.range.peaks.flatMap fun k => leBytes 1 k.1 ++ zeros 7 ++ digBytes k.2

/-- Section 10. -/
def Core.secDesc (c : Core) : List Byte :=
  leBytes 32 ((c.descs.map fun e => 2 ^ e.1).sum) ++ c.descs.flatMap fun e => leBytes 64 e.2.toNat

/-- Section 12: the fault frame as it stands, HOLDV relative (R430, R439). -/
def State.secFrame (s : State) (p viewt : Nat) : List Byte :=
  let f := frameBase p
  s.bytes f 0x40 ++ (List.range 5).flatMap fun e =>
    let a := f + 0x40 + 128 * e
    let hold := bits (s.num (a + 4) 4) 15 12
    s.bytes a 8 ++ leBytes 8 (if hold = 1 ∧ bit (s.num (a + 4) 4) 0 then 0 else relHold viewt hold (s.num (a + 8) 8))
      ++ s.bytes (a + 16) 112

/-- A core record (R437). -/
def State.coreRecord (s : State) (p viewt : Nat) : List Byte :=
  let c := s.core p
  let h := s.hdrOf p
  ([ (1, c.secCore p), (2, c.secStreams viewt s.gtc), (3, c.secScu), (4, c.secCoord), (5, c.secLce), (6, c.secSce)
   , (7, c.secMxe h.cellarWrite), (8, s.secVxe p), (9, c.secTree), (10, c.secDesc)
   , (11, s.bytes (spdBase p) (65536 * h.spd)) ]
    ++ (if c.halted then [(12, s.secFrame p viewt)] else [])).flatMap fun (e : Nat × List Byte) => sectionOf e.1 e.2

/-! ## The whole area (R436) -/

/-- The increments held for an unplaced task, summed by virtual core and counter (Table 16.8). -/
def pendingBody (incs : List (Nat × Nat × Word)) : List Byte :=
  let m : SMap Word := incs.foldl (fun m i =>
    let k := 16 * i.1 + i.2.1
    m.set 0 k (m.get 0 k + i.2.2)) []
  leBytes 8 m.length ++ m.flatMap fun (e : Nat × Word) => leBytes 8 (e.1 / 16 + e.1 % 16 * 2 ^ 16) ++ leBytes 8 e.2.toNat

/-- The task record. -/
def Task.saved (t : Task) (kind : Nat) : List Byte :=
  let r := commitTable t.recv
  sectionOf 13 (leBytes 8 (r.length / 48) ++ r)
    ++ sectionOf 14 (if t.podbar.isSome then leBytes 2 t.podGen ++ zeros 6 else [])
    ++ (if kind = 6 then sectionOf 15 (pendingBody t.pendInc) else [])

/-- Parts laid one behind another from an offset, 64-byte aligned: the offset and length of each, and
the bytes. -/
def layOut (off : Nat) : List (List Byte) → List (Nat × Nat) × List Byte
  | [] => ([], [])
  | b :: bs =>
    let x := padTo 64 b
    let (es, rest) := layOut (off + x.length) bs
    ((off, b.length) :: es, x ++ rest)

/-- An area with its digest set (Table 16.7). -/
def sealArea (bs : List Byte) : List Byte :=
  let z := bs.take 0xE0 ++ zeros 32 ++ bs.drop 0x100
  bs.take 0xE0 ++ digBytes (shake z) ++ bs.drop 0x100

/-- The save area of task `id` (R436): its cut kind and its cut tick. -/
def State.saveArea (s : State) (id : Nat) (t : Task) (kind cutt : Nat) : List Byte :=
  let viewt := (cutt + t.clock.toNat) % 2 ^ 64
  let ps := if kind = 6 then [] else t.cores
  let faulted := ps.any fun p => (s.core p).halted
  let launch := t.launch.flatMap (leBytes 8)
  let dirLen := 16 * t.n
  let start := (0x100 + dirLen + 63) / 64 * 64
  let (offs, body) := layOut start (t.saved kind :: launch :: ps.map fun p => s.coreRecord p viewt)
  let dir := if kind = 6 then zeros dirLen else (offs.drop 2).flatMap fun o => leBytes 8 o.1 ++ leBytes 8 o.2
  let head := leBytes 4 0x4C53435A ++ leBytes 4 0x00030100 ++ leBytes 8 (start + body.length)
    ++ leBytes 4 id ++ leBytes 4 (t.queue * 2 ^ 12 + t.asid) ++ leBytes 8 t.pseq ++ leBytes 8 cutt ++ leBytes 8 viewt
    ++ leBytes 4 (b2n faulted * 2 ^ 8 + kind) ++ leBytes 4 t.n
    ++ leBytes 8 ((offs.map Prod.fst).getD 1 0) ++ leBytes 8 ((offs.map Prod.fst).getD 0 0)
    ++ t.hdr.raw ++ zeros 24 ++ zeros 32
  sealArea (padTo 64 (head ++ dir) ++ body)

/-- Whether some byte that a save reads holds uncorrectable data (R435). -/
def State.saveBad (s : State) (t : Task) : Bool :=
  t.cores.any fun p => s.isBad (spdBase p) (65536 * t.hdr.spd) || (s.core p).halted && s.isBad (frameBase p) 0x2C0

end Sys2Proof.Machine
end

