-- ==== Sys2Proof/Machine/Restore.lean ====
section
/-!
DEFINITION. The context save layout CSL 1.0, as it is read and restored (16, R436 to R441, R475; 11,
R295).
-/

namespace Sys2Proof.Machine

/-! ## Reading bytes -/

/-- The little-endian number of `n` bytes at an offset. -/
def numAt (bs : List Byte) (off n : Nat) : Nat := leNat ((bs.drop off).take n)

/-- Some bytes at an offset. -/
def cutAt (bs : List Byte) (off n : Nat) : List Byte := (bs.drop off).take n

/-- The digest in the 32 bytes at an offset. -/
def digAt (bs : List Byte) (off : Nat) : Digest := BitVec.ofNat 256 (numAt bs off 32)

/-- The coordinate register in the 16 bytes at an offset. -/
def coordAt (bs : List Byte) (off : Nat) : Coord :=
  let k (i : Nat) : BitVec 24 := BitVec.ofNat 24 (numAt bs (off + 4 * i) 4)
  { x := k 0, y := k 1, z := k 2, w := k 3 }

/-- The next multiple of `k`. -/
def upTo (k n : Nat) : Nat := (n + k - 1) / k * k

/-! ## The kernel header (R32) -/

/-- A kernel header from its 128 bytes (Table 2.7). -/
def KHeader.parse (bs : List Byte) : KHeader :=
  let n (o k : Nat) : Nat := leNat ((bs.drop o).take k)
  { spillbank := bit (n 8 4) 4, speculable := bit (n 8 4) 3, cellarWrite := bit (n 8 4) 2
    check := bit (n 8 4) 1, audit := bit (n 8 4) 0, arglen := n 0x0C 2, ndesc := n 0x0E 2
    soff := (List.range 5).map fun e => n (0x10 + 8 * e) 4
    slen := (List.range 5).map fun e => n (0x14 + 8 * e) 4
    vregs := n 0x38 1, acct := n 0x39 1, spd := n 0x3A 2, maxred := n 0x3C 4
    ilinit := (List.range 10).map fun k => bits (n 0x40 8) (6 * k + 5) (6 * k)
    descoff := n 0x48 4, imglen := n 0x4C 4, raw := bs.take 128 }

/-! ## Sections (R437) -/

/-- The sections of a record, which they must fill; none where a length does not check. -/
def parseSections : Nat → List Byte → Option (List (Nat × List Byte))
  | _, [] => some []
  | 0, _ => none
  | fuel + 1, bs =>
    let len := numAt bs 8 8
    let n := 16 + upTo 16 len
    if bs.length < n then none
    else (parseSections fuel (bs.drop n)).map fun xs => (numAt bs 0 1, cutAt bs 16 len) :: xs

/-- The body of a section. -/
def bodyOfType (ty : Nat) (xs : List (Nat × List Byte)) : List Byte :=
  match xs.find? fun e => e.1 == ty with
  | some e => e.2
  | none => []

/-- An image state and the bytes behind it (Table 16.8b). -/
def parseImage (bs : List Byte) : Option (Image × List Byte) :=
  let w := numAt bs 0 8
  let c := bits w 47 16
  let p := numAt bs 8 8 % 2 ^ 11
  let n := 16 + 32 * c + upTo 16 p
  if bs.length < n ∨ 1024 ≤ p then none
  else some ({ Image.start (bits w 7 0) (bits w 15 8) with
      bytes := cutAt bs (16 + 32 * c) p, heads := (List.range c).map fun i => digAt bs (16 + 32 * i) }, bs.drop n)

/-- `n` image states one behind another. -/
def parseImages : Nat → List Byte → Option (List Image)
  | 0, _ => some []
  | n + 1, bs =>
    match parseImage bs with
    | none => none
    | some (im, rest) => (parseImages n rest).map fun ims => im :: ims

/-! ## Command records (Table 16.8a) -/

/-- A command record, read. -/
structure SavedCmd where
  sidx   : Nat
  words  : List Nat
  cd     : Coord
  cs     : Coord
  ci     : Coord
  flags  : Nat
  off    : Nat
  cpm    : List Byte
  images : List Image
deriving DecidableEq, Repr

/-- `n` records, which must fill the bytes. -/
def parseRecords : Nat → List Byte → Option (List SavedCmd)
  | 0, bs => if bs = [] then some [] else none
  | n + 1, bs =>
    let rlen := numAt bs 0 8
    let flags := numAt bs 0x50 8
    let cpm := if bit flags 11 then 152 else 0
    if rlen < 0x60 + cpm ∨ rlen % 16 ≠ 0 ∨ bs.length < rlen then none
    else
      match parseImages (bits flags 31 24) (cutAt bs (0x60 + cpm) (rlen - 0x60 - cpm)) with
      | none => none
      | some ims =>
        let ws := (pieces 4 4 (cutAt bs 0x10 16)).map leNat
        let x : SavedCmd :=
          { sidx := numAt bs 8 8, words := ws.take (lenOf (ws.getD 0 0)), cd := coordAt bs 0x20, cs := coordAt bs 0x30
            ci := coordAt bs 0x40, flags := flags, off := numAt bs 0x58 8, cpm := cutAt bs 0x60 cpm, images := ims }
        (parseRecords n (bs.drop rlen)).map fun xs => x :: xs

/-- The count of records at an offset and the records behind it, which fill the section. -/
def recordsAt (bs : List Byte) (off : Nat) : Option (List SavedCmd) :=
  if bs.length < off + 8 then none else parseRecords (numAt bs off 2) (bs.drop (off + 8))

/-- A commitment table of `n` entries (R359). -/
def tableAt (bs : List Byte) (off n : Nat) : SMap Commit :=
  (List.range n).foldl (fun m i =>
    let o := off + 48 * i
    m.set Commit.zero (numAt bs o 2) { count := numAt bs (o + 8) 8, sum := BitVec.ofNat 256 (numAt bs (o + 16) 32) }) []

/-! ## The MXE section (Table 16.8c) -/

/-- A queue entry and the bytes behind it. -/
def parseEntry (bs : List Byte) : Option (Block × List Byte) :=
  let w := numAt bs 0 8
  let el := numAt bs 8 8
  let sl := numAt bs 0x10 8
  let n := upTo 16 (0x38 + el + sl)
  if bs.length < n then none
  else
    let rows := bits w 23 16
    let k := bits w 37 24
    some ({ fmt := bits w 7 0, blk := bits w 9 8, rows := rows, k := k
            elems := unpackElems (bits w 7 0) (rows * k) (cutAt bs 0x38 el)
            scales := (cutAt bs (0x38 + el) sl).map BitVec.toNat, start := 0, digest := digAt bs 0x18 }, bs.drop n)

/-- `n` queue entries. -/
def parseEntries : Nat → List Byte → Option (List Block × List Byte)
  | 0, bs => some ([], bs)
  | n + 1, bs =>
    match parseEntry bs with
    | none => none
    | some (b, rest) => (parseEntries n rest).map fun x => (b :: x.1, x.2)

/-- A slot as saved: empty, by reference (the block's digest, its tensor, origin and extents) or as
data. -/
inductive SavedSlot where
  | empty
  | ref (digest : Digest) (ts : Nat) (origin : Coord) (e0 e1 : Nat)
  | data (b : Block)
deriving DecidableEq, Repr

/-- A slot and the bytes behind it. -/
def parseSlot (bs : List Byte) : Option (SavedSlot × List Byte) :=
  let w := numAt bs 0 8
  match w % 2 ^ 8 with
  | 0 => if bs.length < 16 then none else some (.empty, bs.drop 16)
  | 1 =>
    if bs.length < 0x50 then none
    else
      let x := numAt bs 0x40 8
      some (.ref (digAt bs 8) (numAt bs 0x28 1) (coordAt bs 0x30) (bits x 13 0) (bits x 27 14), bs.drop 0x50)
  | 2 =>
    let el := numAt bs 0x28 8
    let sl := numAt bs 0x30 8
    let n := upTo 16 (0x38 + el + sl)
    if bs.length < n then none
    else
      let rows := bits w 31 24
      let k := bits w 45 32
      some (.data { fmt := bits w 15 8, blk := bits w 17 16, rows := rows, k := k
                    elems := unpackElems (bits w 15 8) (rows * k) (cutAt bs 0x38 el)
                    scales := (cutAt bs (0x38 + el) sl).map BitVec.toNat, start := 0, digest := digAt bs 8 }
           , bs.drop n)
  | _ => none

/-- `n` slots, which must end the section. -/
def parseSlots : Nat → List Byte → Option (List SavedSlot)
  | 0, bs => if bs = [] then some [] else none
  | n + 1, bs =>
    match parseSlot bs with
    | none => none
    | some (x, rest) => (parseSlots n rest).map fun xs => x :: xs

/-- The MXE section, read: the two status words, the images of the live tiles, the entries of each
queue, and the slots. -/
structure SavedMxe where
  st    : Nat
  word  : Nat
  tiles : List (List Byte)
  qs    : List (List Block)
  slots : List SavedSlot
deriving DecidableEq, Repr

/-- The entries of the queues from `q` up. -/
def parseQueues (word : Nat) : Nat → List Byte → Option (List (List Block) × List Byte)
  | 0, bs => some ([], bs)
  | left + 1, bs =>
    let q := 3 - left
    match parseEntries (bits word (9 + 2 * q) (8 + 2 * q)) bs with
    | none => none
    | some (xs, rest) => (parseQueues word left rest).map fun y => (xs :: y.1, y.2)

/-- The MXE section. -/
def parseMxe (bs : List Byte) : Option SavedMxe :=
  let word := numAt bs 8 8
  let live := (List.range 8).countP fun k => bit word k
  let tb := 131328
  if bs.length < 16 + live * tb then none
  else
    match parseQueues word 4 (bs.drop (16 + live * tb)) with
    | none => none
    | some (qs, rest) => (parseSlots 4 rest).map fun sl =>
        { st := numAt bs 0 8, word := word, tiles := (List.range live).map fun i => cutAt bs (16 + tb * i) tb
          qs := qs, slots := sl }

/-! ## The other sections -/

/-- A stream's tree state: leaf count, stream index, peaks; and the bytes behind it. -/
def parseTree (bs : List Byte) : Option ((Range × Nat) × List Byte) :=
  let n := numAt bs 16 1
  if bs.length < 24 + 40 * n then none
  else some (({ count := numAt bs 0 8, peaks := (List.range n).map fun i => (numAt bs (24 + 40 * i) 1, digAt bs (32 + 40 * i)) }
      , numAt bs 8 8), bs.drop (24 + 40 * n))

/-- The tree states of `n` streams, which must fill the section. -/
def parseTrees : Nat → List Byte → Option (List (Range × Nat))
  | 0, bs => if bs = [] then some [] else none
  | n + 1, bs =>
    match parseTree bs with
    | none => none
    | some (x, rest) => (parseTrees n rest).map fun xs => x :: xs

/-- The open segment of the VXE (R475). -/
def parseSegment (bs : List Byte) : Option Segment :=
  if bs.length < 48 then none
  else
    match parseImage (bs.drop 48) with
    | none => none
    | some (r, rest) =>
      match parseImage rest with
      | none => none
      | some (w, tail) =>
        if tail ≠ [] then none
        else some { issues := numAt bs 0 8, blocks := numAt bs 8 8, snap := digAt bs 16
                    reads := (pieces 32 r.bytes.length r.bytes).map fun d => BitVec.ofNat 256 (leNat d)
                    words := (pieces 4 w.bytes.length w.bytes).map leNat, rheads := r.heads, wheads := w.heads
                    snapIm := [], ims := [] }

/-- Bytes of the VXE section before its open segment. -/
def vxeFixed (h : KHeader) : Nat := 512 * h.valloc + 448 + 24 + (if h.spillbank then 32 * 512 else 0)

/-- Whether the sections of a core record check in type and length. -/
def coreOk (h : KHeader) (xs : List (Nat × List Byte)) : Bool :=
  let body (ty : Nat) : List Byte := bodyOfType ty xs
  let types := xs.map Prod.fst
  (types == (List.range 11).map (· + 1) || types == (List.range 12).map (· + 1))
    && (body 1).length == 24 + 4 * numAt (body 1) 16 2 && (body 2).length == 640 && (body 3).length == 280
    && (body 4).length == 1024 && (recordsAt (body 5) 160).isSome
    && (recordsAt (body 6) (136 + 48 * numAt (body 6) 128 8)).isSome && (parseMxe (body 7)).isSome
    && decide (vxeFixed h ≤ (body 8).length) && (parseSegment ((body 8).drop (vxeFixed h))).isSome
    && (parseTrees 5 (body 9)).isSome
    && (body 10).length == 32 + 64 * ((List.range 256).countP fun i => bit (numAt (body 10) 0 32) i)
    && (body 11).length == 65536 * h.spd && (!types.contains 12 || (body 12).length == 0x2C0)

/-! ## The area (Table 16.7) -/

/-- A save area, read. -/
structure Csl where
  taskId : Nat
  cutt   : Nat
  viewt  : Nat
  kind   : Nat
  n      : Nat
  launch : List Nat
  khdr   : List Byte
  recv   : SMap Commit
  podGen : Nat
  pend   : List (Nat × Nat × Word)
  cores  : List (List (Nat × List Byte))
deriving DecidableEq, Repr

/-- The increments of section 15; none where it is malformed. -/
def parsePending (bs : List Byte) : Option (List (Nat × Nat × Word)) :=
  let n := numAt bs 0 8
  if bs.length ≠ 8 + 16 * n then none
  else some ((List.range n).map fun i =>
    let w := numAt bs (8 + 16 * i) 8
    (bits w 15 0, bits w 19 16, BitVec.ofNat 64 (numAt bs (16 + 16 * i) 8)))

/-- The core records that the directory names. -/
def parseCores (h : KHeader) (bs : List Byte) : List Nat → Option (List (List (Nat × List Byte)))
  | [] => some []
  | v :: vs =>
    let off := numAt bs (0x100 + 16 * v) 8
    let len := numAt bs (0x108 + 16 * v) 8
    if off % 64 ≠ 0 ∨ bs.length < off + len then none
    else
      match parseSections 16 (cutAt bs off len) with
      | none => none
      | some xs => if !coreOk h xs then none else (parseCores h bs vs).map fun ys => xs :: ys

/-- The task record's sections, up to where its last one ends. -/
def parseTask (kind : Nat) (bs : List Byte) : Option (List (Nat × List Byte)) :=
  let types := if kind = 6 then [13, 14, 15] else [13, 14]
  types.foldl (fun (acc : Option (List (Nat × List Byte) × List Byte)) ty =>
    match acc with
    | none => none
    | some (xs, rest) =>
      let len := numAt rest 8 8
      if rest.length < 16 + upTo 16 len ∨ numAt rest 0 1 ≠ ty then none
      else some (xs ++ [(ty, cutAt rest 16 len)], rest.drop (16 + upTo 16 len))) (some ([], bs)) |>.map Prod.fst

/-- A save area that checks (R440, check 1): its layout, its digest, its sections and lengths. -/
def parseArea (avail : Nat) (bs : List Byte) : Option Csl :=
  let len := numAt bs 8 8
  let bs := bs.take len
  let w := numAt bs 4 4
  let kind := numAt bs 0x30 4 % 16
  let n := numAt bs 0x34 4 % 2 ^ 10
  let khdr := cutAt bs 0x48 128
  let h := KHeader.parse khdr
  let lo := numAt bs 0x38 8
  let units := bits (numAt bs lo 8) 36 24
  if numAt bs 0 4 ≠ 0x4C53435A ∨ bits w 23 16 ≠ 3 ∨ bits w 15 8 ≠ 1 ∨ len < 0x100 ∨ avail < len ∨ bs.length < len
      ∨ cutAt bs 0xE0 32 ≠ digBytes (shake (bs.take 0xE0 ++ zeros 32 ++ bs.drop 0x100))
      ∨ units = 0 ∨ len < lo + 8 * units then none
  else
    match parseTask kind (bs.drop (numAt bs 0x40 8)) with
    | none => none
    | some ts =>
      let r := bodyOfType 13 ts
      let pend := if kind = 6 then parsePending (bodyOfType 15 ts) else some []
      let cores := if kind = 6 then some [] else parseCores h bs (List.range n)
      if r.length ≠ 8 + 48 * numAt r 0 8 then none
      else match pend, cores with
        | some pend, some cores =>
          some { taskId := numAt bs 0x10 4, cutt := numAt bs 0x20 8, viewt := numAt bs 0x28 8, kind := kind, n := n
                 launch := (List.range units).map fun i => numAt bs (lo + 8 * i) 8, khdr := khdr
                 recv := tableAt r 8 (numAt r 0 8), podGen := numAt (bodyOfType 14 ts) 0 2, pend := pend, cores := cores }
        | _, _ => none

/-! ## A core restored (R440) -/

/-- The position of everything before the cut: after a restore each leaf before it counts as
covered. -/
def clockOf (trees : List (Range × Nat)) : Clock := { idx := trees.map Prod.snd }

/-- A stream from its entry (Table 16.2), its tree state and its place in the kernel; HOLDV is
rebased to the view (R441). -/
def streamOf (h : KHeader) (e : Nat) (en : List Byte) (trees : List (Range × Nat)) (viewt start : Nat) : Stream :=
  let w := numAt en 4 4
  let (r, sidx) := trees.getD e (Range.empty, 0)
  let clk := clockOf trees
  let held := numAt en 0x60 8
  let gp := bits held 6 4
  let gn := bits held 2 0
  { Stream.empty with
    pc := numAt en 0 4, off := nth h.soff e, len := nth h.slen e, ended := bit w 1, atd := bit w 0
    loops := ((List.range (min (bits w 11 8) 4)).map fun l =>
      { start := numAt en (0x10 + 16 * l) 4, stop := numAt en (0x14 + 16 * l) 4
        count := numAt en (0x18 + 16 * l) 8 % 2 ^ 28 : LoopLevel }).reverse
    hold := if bits w 15 12 = 2 then .waitt ((viewt + numAt en 8 8) % 2 ^ 64) else .none
    gives := if gp + gn = 0 then [] else [{ sidx := sidx, gp := gp, gn := gn, due := .tick 0, clk := clk }]
    sidx := sidx, ready := start, clk := clk, range := r, base := r }

/-- The gives of a command, from its words. -/
def cmdGive (clk : Clock) (x : SavedCmd) : List Give :=
  let h := Sys2Proof.hdrOf x.words 0
  if h.gp + h.gn = 0 then []
  else [{ sidx := x.sidx, gp := h.gp, gn := h.gn, due := .command x.sidx, clk := clk }]

/-- A record as a command that goes on from its resume offset; one that has not begun waits for every earlier
restored command. The offset of a failure is ROFF where the command has completed; else the record has no
place for it, and it is the free value `pick` (log entry 137). -/
def SavedCmd.cmd (x : SavedCmd) (i : Instr) (es pick : Nat) : Cmd :=
  let begun := decide (x.off ≠ 0) || x.images.any fun im => im.bytes != [] || im.heads != []
  { Cmd.new x.sidx i x.words x.cd x.cs x.ci (bits x.flags 15 12) (if begun then 0 else x.sidx) x.images with
    off := x.off, next := x.off * 8 / max 1 es, status := x.flags % 2 ^ 8
    foff := if x.flags % 2 ^ 8 = 0 then 0 else if bit x.flags 10 then x.off else Config.freeValue pick
    phase := if bit x.flags 10 then .done else .running }

/-- Whether the leaf of a record waits: it has images, or some record before it has not completed. -/
def SavedCmd.waits (x : SavedCmd) (before : List SavedCmd) : Bool :=
  x.images != [] || before.any fun y => !bit y.flags 10

/-- A record of the LCE restored: its command, its leaf in formation and its gives. -/
def Core.restoreLce1 (c : Core) (clk : Clock) (free : Nat) (before : List SavedCmd) (x : SavedCmd) : Core :=
  match Sys2Proof.decode .lce x.words with
  | .ok (.rwait _ ctr sub target) =>
    let im := x.images.headD (Image.start 0 fmtInt8)
    let f : Forming := { sidx := x.sidx, images := x.images, drop := false
                         record := some (leafRecord 1 c.vcore x.sidx x.words (rwaitLeaf ctr sub target im)) }
    { c with lce := { c.lce with form := c.lce.form ++ [f] } }
  | .ok i =>
    match lceArgs i with
    | none => c
    | some a =>
      let y := x.cmd i (esize (c.desc a.ts).fmt) (free + 3 * before.length)
      let done := bit x.flags 10
      let f : Forming := { sidx := x.sidx, images := x.images, drop := false
                           record := if done then some (leafRecord 1 c.vcore x.sidx x.words (lceLeaf y a y.status y.foff)) else none }
      let form := if !done || x.waits before then c.lce.form ++ [f] else c.lce.form
      { c with lceS := { c.lceS with slots := c.lceS.slots ++ [y] }
               lce := { c.lce with form := form, gives := c.lce.gives ++ cmdGive clk x } }
  | .error _ => c

/-- The negative members that the four words of NAKE and NAKMAP give. -/
def naksFrom (nake nakmap : Nat) : List (Nat × Nat) :=
  (membersOf nakmap).map fun q =>
    match ((List.range 4).map fun i => bits nake (16 * i + 15) (16 * i)).find? fun e => bit e 15 && bits e 8 0 == q with
    | some e => (q, bits e 14 12)
    | none => (q, 1)

/-- The slot of a circular target or result of a FAT, which no record holds: a free value (log entry 137). -/
def Desc.slotFrom (d : Desc) (pick : Nat) : Nat := if d.layout = 2 then Config.freeValue pick % (d.nsm1 + 1) else 0

/-- A command of the SCE with its CPM block, or with the old value a FAT has had (R438). -/
def SavedCmd.sceCmd (x : SavedCmd) (c : Core) (i : Instr) (a : SceArgs) (pick : Nat) : Cmd :=
  let y := x.cmd i (esize (c.desc a.ts).fmt) pick
  let y := if x.cpm = [] then y
    else
      let w := numAt x.cpm 0 8
      let naks := naksFrom (numAt x.cpm 80 8) (numAt x.cpm 88 64)
      { y with gvalid := bit w 0, gasid := bits w 23 12, gmap := BitVec.ofNat 512 (numAt x.cpm 8 64)
               agg := { Mcast.empty with nake := naks, okn := numAt x.cpm 72 8 % 2 ^ 16, nakn := naks.length
                                         code := y.status, part := naks != [] } }
  match a.op with
  | .fat =>
    let y := { y with slotD := (c.desc a.td).slotFrom (pick + 1)
                      slotT := if a.opt then (c.desc a.t3).slotFrom (pick + 2) else 0 }
    match y.image? 3 with
    | some im => if im.bytes = [] then { y with next := 0 } else { y with next := 2, old := BitVec.ofNat 64 (leNat im.bytes) }
    | none => { y with next := 0 }
  | .fsig | .flush | .flushAll => { y with next := 0 }
  | _ => y

/-- The statuses with which an FSIG ends before its SIG is sent (R254): the others are answers to it. -/
def fsigUnsent : List Nat := [1, 2, 3, 8]

/-- A record of the SCE restored. The leaf of an FSIG that waited for earlier commands waits again, its
extra formed from the signal word as restored. -/
def State.restoreSce1 (s : State) (p : Nat) (clk : Clock) (free : Nat) (before : List SavedCmd) (x : SavedCmd) : State :=
  match Sys2Proof.decode .sce x.words with
  | .error _ => s
  | .ok i =>
    match sceArgs i with
    | none => s
    | some a =>
      let c := s.core p
      let y := x.sceCmd c i a (free + 3 * before.length)
      let done := bit x.flags 10
      let wait := a.op.leafy && (!done || x.waits before)
      let sum := done && a.op == .fsig && !(fsigUnsent.contains y.status)
      let word := (s.elems p (c.sceSource a y)).headD 0
      let failed := y.status + y.foff % 2 ^ 56 * 2 ^ 8
      let leaf : LeafBody := if a.op = .fsig then
          { kind := 4, nmode := 0, opd0 := none, opd1 := none, opd2 := none, res := none, extra := failed }
        else
          let bad := y.status != 0 && !y.agg.part
          { kind := 3, nmode := 0, opd0 := y.digestOf 0, opd1 := y.digestOf 1, opd2 := y.digestOf 2
            res := if bad then none else y.digestOf 3
            extra := if bad then failed else sceExtra y a { y.agg with code := y.status } }
      let f : Forming := { sidx := x.sidx, images := x.images, drop := false
                           record := if done && !sum then some (leafRecord 4 c.vcore x.sidx x.words leaf) else none }
      let r : SendRec := { sidx := x.sidx, isOver := done || decide (y.next = 2 ∧ a.op = .fat), sums := []
                           leaf := if sum then
                             some (bits word 40 32, if y.status = 0 then fsigExtra a word else failed, x.words)
                           else none }
      s.onCore p fun c => { c with
        sceS := { c.sceS with slots := c.sceS.slots ++ [y], sends := if wait then c.sceS.sends ++ [r] else c.sceS.sends }
        sce := { c.sce with form := if wait then c.sce.form ++ [f] else c.sce.form
                            gives := c.sce.gives ++ cmdGive clk x } }

/-- How many packets a command of the SCE has sent for its elements from `k` up that it has moved (R357). -/
def State.sentBefore (s : State) (p : Nat) (x : Cmd) (a : SceArgs) : Nat → Nat → Nat
  | 0, _ => 0
  | fuel + 1, k =>
    if x.next ≤ k then 0
    else
      let c := s.core p
      let src := c.sceSource a x
      let dd := c.desc a.td
      let seg := (nextSegment (s.sceTouch p x a) ((c.scePieces a x).drop k)).take (x.next - k)
      let groups := segGroups a (nth src.ext 0) (esize src.d.fmt) dd (seg.map fun z => (z, 0))
      match (if dd.translated then s.outPages p (seg.flatMap dd.writes) else (.all [], s)) with
      | (.all ts, t) =>
        let out := (t.storeGroups p { x with pend := [] } a dd ts 0 groups).1.pend
        (out.filter fun z => !(z.pkt.type == 0x07 && z.pkt.dst == s.peerId)).length
          + s.sentBefore p x a fuel (k + max 1 seg.length)
      | _ => 0

/-- The commands of core `p`, restored, with the ordinals of their next packets: what they have moved counts, the
indices of a CPIG apart, which it reads again first (R357). -/
def State.renumber (s : State) (p : Nat) : State :=
  let f (x : Cmd) : Cmd := match lceArgs x.instr with
    | some a => if a.op = .cpig then x else s.lceOrdinal p a x
    | none => x
  let g (x : Cmd) : Cmd := match sceArgs x.instr with
    | some a => if !a.op.copies || x.phase == .done then x
      else { x with pkts := s.sentBefore p (s.sceLearn p x a).1 a x.next 0 }
    | none => x
  s.onCore p fun c => { c with
    lceS := { c.lceS with slots := c.lceS.slots.map f }, sceS := { c.sceS with slots := c.sceS.slots.map g } }

/-- The hold of core `p` of a task restored at a barrier: its arrival stands, with its contribution and
generation, so that no member arrives twice (R201). -/
def State.restoreArrival (s : State) (p : Nat) (b : List Byte) : State :=
  let w := numAt b 264 8
  let me := { s with cur := Cur.scuOf p false }
  let hold (h : Hdr) (ws : List Nat) (rop : Option Nat) (d : Nat) : State :=
    let x : BarHold := { scope := bits w 3 1, rop := rop, contrib := BitVec.ofNat 64 (numAt b 272 8), dst := d, hdr := h
                         words := ws, gen := bits w 31 16 }
    s.onCore p fun c => { c with scu := { c.scu with hold := .bar x } }
  if !bit w 0 then s
  else match me.fetch with
    | .words ws =>
      match Sys2Proof.decode .scu ws with
      | .ok (.bar h _) => hold h ws none 0
      | .ok (.barred h d _ _ _) => hold h ws (some (bits w 6 4)) d
      | _ => s
    | _ => s

/-- Records restored in stream order. -/
def restoreAll {α : Type} (f : α → List SavedCmd → SavedCmd → α) : α → List SavedCmd → List SavedCmd → α
  | s, _, [] => s
  | s, before, x :: xs => restoreAll f (f s before x) (before ++ [x]) xs

/-- The first-error record in 16 bytes: `late` and `part` stand where the SCE has them. -/
def firstAt (bs : List Byte) (off : Nat) (sce : Bool) : FirstError :=
  let w := numAt bs off 8
  { fseq := bits w 39 0, fcode := bits w 47 40, foff := numAt bs (off + 8) 8
    part := sce && bit w 49, late := sce && bit w 48 }

/-- The last-multicast record (Table 10.8). -/
def mcastAt (bs : List Byte) (off : Nat) : Mcast :=
  let w (i : Nat) : Nat := numAt bs (off + 8 * i) 8
  let map := numAt bs (off + 32) 64
  { val := bit (w 3) 8, code := bits (w 0) 47 40, part := bit (w 0) 48, group := bits (w 3) 7 0
    seq := bits (w 0) 39 0, okn := bits (w 1) 15 0, nakn := bits (w 1) 31 16, nake := naksFrom (w 2) map
    nakmap := BitVec.ofNat 512 map }

/-- The SCU context of section 3. -/
def scuOf (b : List Byte) : ScuCtx :=
  let reg (k : Nat) : Word := BitVec.ofNat 64 (numAt b (8 * k) 8)
  { ScuCtx.zero with
    slots := (List.range 16).foldl (fun (m : SMap Word) k => m.set 0 (ScuCtx.zero.slot k) (reg k)) []
    named := (List.range 16).foldl (fun (m : SMap Word) k => m.set 0 k (reg (16 + k))) [] }

/-- Accumulator tiles from their canonical images. -/
def putTiles (m : MxeState) (live : List Nat) (ts : List (List Byte)) : MxeState :=
  (live.zip ts).foldl (fun m e =>
    let (an, bs) := e
    { m with
      acc := ((pieces 8 16384 (bs.take 131072)).mapIdx fun i b => (i, b)).foldl
        (fun t x => t.set Elem.zero (16384 * an + x.1) (Elem.ofRaw (leNat x.2))) m.acc
      rexp := (List.range 128).foldl (fun t r => t.set 0 (128 * an + r) (sext 16 (numAt bs (131072 + 2 * r) 2))) m.rexp }) m

/-- Where a row of `k` elements that has `per` scales starts in its first scale block of `z`: the image
does not say where it may be any of several, and `pick` chooses then (log entry 4). -/
def scaleStart (z per k pick : Nat) : Nat :=
  let lo := z * (per - 1) + 1 - k
  let hi := min (z - 1) (z * per - k)
  lo + pick % (hi + 1 - lo)

/-- A block whose rows start where the number of its scales lets them: the save area does not say where
(Table 16.8c, log entry 118). -/
def Block.placed (b : Block) (pick : Nat) : Block :=
  { b with start := if b.blk = 0 ∨ b.rows = 0 then 0
      else scaleStart (blkSize b.blk) (b.scales.length / b.rows) b.k pick }

/-- The matrix engine of section 7, slots by reference apart; free values from `free` up place its blocks. -/
def mxeOf (x : SavedMxe) (free : Nat) : MxeState :=
  let live := (List.range 8).filter fun k => bit x.word k
  let m := putTiles MxeState.zero live x.tiles
  let slot (w : Nat) (y : SavedSlot) : Option WSlot := match y with
    | .data b => some { block := b.placed (Config.freeValue (free + 8 + w)), ts := 0, origin := Coord.zero, e0 := b.k, e1 := b.rows, cel := false }
    | _ => none
  { m with
    live := BitVec.ofNat 8 (x.word % 2 ^ 8), ovt := bit x.word 20, mxst := BitVec.ofNat 64 (x.st % 32)
    bufs := (x.qs.mapIdx fun q bs => (q, bs)).foldl (fun t e =>
      (e.2.mapIdx fun i b => (i, b)).foldl (fun t y => t.set none (bufOf e.1 y.1) (some (y.2.placed (Config.freeValue (free + 2 * e.1 + y.1))))) t) []
    wr := (x.qs.mapIdx fun q bs => (q, bs.length)).foldl (fun t e => t.set 0 e.1 e.2) []
    slots := (x.slots.mapIdx fun w y => (w, slot w y)).foldl (fun t e => t.set none e.1 e.2) [] }

/-- The vector engine of section 8. -/
def vxeOf (h : KHeader) (b : List Byte) (loop : Option VLoop) : VxeState :=
  let nv := h.valloc
  let o := 512 * nv
  { VxeState.zero with
    v := (List.range nv).foldl (fun (m : SMap (BitVec 4096)) r => m.set 0 r (BitVec.ofNat 4096 (numAt b (512 * r) 512))) []
    m := (List.range 7).foldl (fun (m : SMap (BitVec 512)) k => m.set 0 (k + 1) (BitVec.ofNat 512 (numAt b (o + 64 * k) 64))) []
    vxst := BitVec.ofNat 64 (numAt b (o + 448) 8), vxctl := BitVec.ofNat 64 (numAt b (o + 456) 8)
    vbstall := BitVec.ofNat 64 (numAt b (o + 464) 8)
    spill := if h.spillbank then
        (List.range 32).foldl (fun (m : SMap (BitVec 4096)) k => m.set 0 k (BitVec.ofNat 4096 (numAt b (o + 472 + 512 * k) 512))) []
      else []
    vloop := loop, seg := (parseSegment (b.drop (vxeFixed h))).getD Segment.empty }

/-- The VLOOP state of an entry. -/
def vloopAt (en : List Byte) : Option VLoop :=
  let v := numAt en 0x50 8
  if bit (numAt en 4 4) 2 then
    some { count := bits v 23 0, iter := bits v 47 24, rb := bits v 52 48, rlm1 := bits v 57 53, rs := bits v 62 58
           start := numAt en 0x58 4, stop := numAt en 0x5C 4 }
  else none

/-- The valid descriptors of section 10. -/
def descsOf (b : List Byte) : SMap (BitVec 512) :=
  let ids := (List.range 256).filter fun i => bit (numAt b 0 32) i
  (ids.mapIdx fun k i => (i, BitVec.ofNat 512 (numAt b (32 + 64 * k) 64))).foldl (fun m e => m.set 0 e.1 e.2) []

/-- A weight slot that was saved by reference, read from the Cellar of core `p`'s die: none where the
digest differs (R295). -/
def State.refSlot (s : State) (p : Nat) (dig : Digest) (ts : Nat) (o : Coord) (e0 e1 : Nat) : Option WSlot :=
  let d := (s.core p).desc ts
  let a : Access := { d := d, slot := 0, origin := o.origin, ext := [e0, e1, nth d.tile 2, nth d.tile 3] }
  if s.accessBad p a then none
  else
    let b := (s.readBlock p a).1
    if b.digest = dig then some { block := b, ts := ts, origin := o, e0 := e0, e1 := e1, cel := true } else none

/-- The slots by reference of a core restored; the flag tells whether each matched. -/
def State.restoreRefs (s : State) (p : Nat) (xs : List SavedSlot) : Bool × State :=
  (xs.mapIdx fun w x => (w, x)).foldl (fun (acc : Bool × State) e =>
    match e.2 with
    | .ref dig ts o e0 e1 =>
      match acc.2.refSlot p dig ts o e0 e1 with
      | none => (false, acc.2)
      | some y => (acc.1, acc.2.onCore p fun c => { c with mxeS := { c.mxeS with slots := c.mxeS.slots.set none e.1 (some y) } })
    | _ => acc) (true, s)

/-- The fault frame of a core that was saved faulted: it stands in the new firmware RAM, and event
KIND 1 is posted (R430, R441). -/
def State.restoreFrame (s : State) (p viewt : Nat) (b : List Byte) : State :=
  let entry (e : Nat) : List Byte :=
    let en := cutAt b (0x40 + 128 * e) 128
    let hold := bits (numAt en 4 4) 15 12
    let v := numAt en 8 8
    let v := if hold = 1 then (viewt + v) % 2 ^ 40 else if hold = 2 then (viewt + v) % 2 ^ 64 else v
    en.take 8 ++ leBytes 8 v ++ en.drop 16
  let s := s.writeAt (frameBase p) (b.take 0x40 ++ (List.range 5).flatMap entry)
  (s.onCore p fun c => { c with halted := true }).post p 1 0 0 0

/-- Core `p` restored as virtual core `v` of task `id` (R440): every item of each section. The flag
tells whether the slots saved by reference matched. -/
def State.restoreCore (s : State) (p id v : Nat) (h : KHeader) (xs : List (Nat × List Byte)) (viewt start : Nat) :
    Bool × State :=
  let body (ty : Nat) : List Byte := bodyOfType ty xs
  let trees := (parseTrees 5 (body 9)).getD []
  let clk := clockOf trees
  let entry (e : Nat) : List Byte := cutAt (body 2) (128 * e) 128
  let c := (s.core p).vacate
  let b1 := body 1
  let b5 := body 5
  let b6 := body 6
  let w5 := numAt b5 144 8
  let ilc := numAt b1 8 8
  let c := { c with
    task := some id, vcore := v, user := scuOf (body 3), dz := bit (numAt (body 3) 256 8) 0
    iq := (List.range 10).foldl (fun m q => m.set [] q (List.replicate (bits ilc (6 * q + 5) (6 * q)) clk)) []
    cursors := (List.range (numAt b1 16 2)).foldl (fun m i =>
      let w := numAt b1 (24 + 4 * i) 4
      m.set 0 (256 * bits w 10 8 + bits w 7 0) (bits w 15 12)) []
    coords := (List.range 64).foldl (fun m k => m.set Coord.zero (16 + k) (coordAt (body 4) (16 * k))) []
    descs := descsOf (body 10)
    mxeS := match parseMxe (body 7) with | some x => mxeOf x s.freeCtr | none => MxeState.zero
    vxeS := vxeOf h (body 8) (vloopAt (entry 3))
    lceS := { LceState.zero with
      rc := (List.range 16).foldl (fun m k => m.set 0 k (BitVec.ofNat 64 (numAt b5 (8 * k) 8))) []
      done := BitVec.ofNat 64 (numAt b5 128 8), errs := BitVec.ofNat 64 (numAt b5 136 8)
      first := firstAt b5 144 false, qxm := bit w5 48, satf := bit w5 49 }
    sceS := { SceState.zero with
      done := BitVec.ofNat 64 (numAt b6 0 8), errs := BitVec.ofNat 64 (numAt b6 8 8), first := firstAt b6 16 true
      last := mcastAt b6 32, commit := tableAt b6 136 (numAt b6 128 8) } }
  let c := (List.range 5).foldl (fun c e => c.setStream (engOf e) false (streamOf h e (entry e) trees viewt start)) c
  let c := restoreAll (fun c before x => c.restoreLce1 clk (s.freeCtr + 16) before x) c [] ((recordsAt b5 160).getD [])
  let s := (s.setCore p c).writeAt (spdBase p) (body 11)
  let s := restoreAll (fun s before x => s.restoreSce1 p clk (s.freeCtr + 1024) before x) s []
    ((recordsAt b6 (136 + 48 * numAt b6 128 8)).getD [])
  let s := ({ s with freeCtr := s.freeCtr + 2048 }.renumber p).restoreArrival p (body 3)
  let s := if body 12 = [] then s else s.restoreFrame p viewt (body 12)
  s.restoreRefs p (match parseMxe (body 7) with | some x => x.slots | none => [])

end Sys2Proof.Machine
end

