-- ==== Sys2Proof/Machine/Launch.lean ====
section
/-!
DEFINITION. LAUNCH, GRAPH and CELLAR: the kernel header and its checks, the descriptor table, the
acceptance of tasks, and what the Timetable learns and claims (02, R28 to R34; 06, R117; 15, R398 to
R404, R415, R416, R422).
-/

namespace Sys2Proof.Machine

/-! ## The kernel header (R32, R33) -/

/-- A core whose streams have these lengths. -/
def lenCore (slen : List Nat) : Core :=
  (List.range 5).foldl (fun c e => c.setStream (engOf e) false { Stream.empty with len := nth slen e }) Core.idle

/-- The initial interlock counts folded along the chains of empty engines (R28). -/
def Core.folded (c : Core) (init : List Nat) : List Nat :=
  (List.range 10).map fun q =>
    let w := waiter q
    if c.transparent w then 0
    else if q % 2 = 0 then ((List.range (c.chain w 4 + 1)).map fun j => nth init (fwdIn (w + 4 * j))).sum
    else ((List.range (c.chain w 1 + 1)).map fun j => nth init (backIn (w + j))).sum

/-- Whether the two engines of a circular tensor are neighbours once empty engines are removed (R30). -/
def Core.neighbours (c : Core) (prod cons : Nat) : Bool :=
  decide (prod ≤ 4) && decide (cons ≤ 4) && prod != cons && !c.transparent prod && !c.transparent cons
    && ((prod + c.chain prod 1 + 1) % 5 == cons || (prod + 4 * (c.chain prod 4 + 1)) % 5 == cons)

/-- Whether a range of an image of `len` bytes is aligned and lies in it. -/
def inImage (len off n align : Nat) : Bool := n == 0 || (off % align == 0 && decide (off + n ≤ len))

/-- The first condition of R33 that a header meets, short of those that need the descriptors. -/
def KHeader.faulty (h : KHeader) : Option Nat :=
  let n (o k : Nat) : Nat := leNat ((h.raw.drop o).take k)
  let c := lenCore h.slen
  if n 0 4 ≠ 0x4B484D5A ∨ n 4 2 ≠ 0x0100 ∨ n 6 2 ≠ 128 then some 1
  else if bits (n 8 4) 31 5 ≠ 0 ∨ bits (n 0x40 8) 63 60 ≠ 0 ∨ n 0x50 48 ≠ 0 then some 2
  else if h.audit ∧ !h.check then some 3
  else if 32 < h.vregs ∨ 8 < h.acct ∨ 24 < h.spd then some 4
  else if h.arglen % 8 ≠ 0 ∨ 4096 < h.arglen then some 5
  else if 256 < h.ndesc then some 6
  else if !(((List.range 5).all fun e => inImage h.imglen (nth h.soff e) (4 * nth h.slen e) 4)
      && inImage h.imglen h.descoff (64 * h.ndesc) 64) then some 7
  else if h.slen.all (· == 0) || (c.folded h.ilinit).any fun n => decide (63 < n) then some 8
  else none

/-! ## Reading the image (R399, item 1) -/

/-- What translating pages of a kernel image gives. -/
inductive Mapped where
  | all (pages : List (Nat × Nat × Nat))
  | absent (va : Nat)
  | fails
deriving DecidableEq, Repr

/-- The pages that hold `n` bytes at an address. -/
def pagesOver (va n : Nat) : List Nat :=
  if n = 0 then [] else (List.range ((va + n - 1) / 2 ^ 16 - va / 2 ^ 16 + 1)).map (va / 2 ^ 16 + ·)

/-- Pages of an image that begins at `va` translated for the front end: they must be LOCAL. -/
def State.mapPages (s : State) (asid va : Nat) (have' : List (Nat × Nat × Nat)) : List Nat → Mapped × State
  | [] => (.all have', s)
  | g :: gs =>
    if have'.any fun e => e.1 == g then s.mapPages asid va have' gs
    else if 2 ^ 36 ≤ g then (.fails, s)
    else match s.translateHere asid (g * 2 ^ 16) false 0 with
      | (.go t, s) =>
        if t.mode = 0 then s.mapPages asid va (have' ++ [(g, s.paFlat t.base, t.key)]) gs else (.fails, s)
      | (.absent, s) => (.absent (max va (g * 2 ^ 16)), s)
      | (_, s) => (.fails, s)

/-- Where the byte at an address lies in some pages, and its key. -/
def placeIn (pages : List (Nat × Nat × Nat)) (va : Nat) : Nat × Nat :=
  match pages.find? fun e => e.1 == va / 2 ^ 16 with
  | some e => (e.2.1 + va % 2 ^ 16, e.2.2)
  | none => (0, 0)

/-- Bytes of an image read through its pages, unless some of them cannot be read. -/
def State.readImage (s : State) (pages : List (Nat × Nat × Nat)) (va n : Nat) : Option (List Byte) :=
  let at' (i : Nat) : Nat × Nat := placeIn pages (va + i)
  if (List.range n).any fun i => s.sealBad (at' i).2 (at' i).1 then none
  else some ((List.range n).map fun i => s.under (at' i).2 (at' i).1)

/-! ## The checks of a launch (R399) -/

/-- What a launch that passes its checks runs: the kernel header, the pages of its image and the
descriptor table. -/
structure Kernel where
  hdr   : KHeader
  pages : List (Nat × Nat × Nat)
  descs : SMap (BitVec 512)
deriving DecidableEq, Repr

/-- What the checks of a launch give: the queue is held for a page, the packet is settled, or the
kernel can run. -/
inductive Prep where
  | hold (va : Nat)
  | bad (v : Verdict)
  | ok (k : Kernel)
deriving DecidableEq, Repr

/-- KERNEL-INVALID. -/
def kernelInvalid (k : Nat) : Verdict := { status := 6, tag := 0, detail := k }

/-- The descriptor table: the template, then what the LAUNCH overrides; one with V = 0 is none (R34,
R117). -/
def descTable (template : List Byte) (f : LaunchFields) : SMap (BitVec 512) :=
  let put (m : SMap (BitVec 512)) (id v : Nat) : SMap (BitVec 512) :=
    m.set 0 id (if bit v 24 then BitVec.ofNat 512 v else 0)
  let m := ((pieces 64 template.length template).mapIdx fun i bs => (i, bs)).foldl (fun m e => put m e.1 (leNat e.2)) []
  f.descs.foldl (fun m e => put m e.1 (leNat (e.2.map (BitVec.ofNat 8)))) m

/-- Checks 2 (R30) to 6 of R399, the kernel image having been read. -/
def State.judge (s : State) (f : LaunchFields) (held : List Nat) (h : KHeader) (descs : SMap (BitVec 512)) :
    Option Verdict :=
  let c := lenCore h.slen
  let ring (b : BitVec 512) : Bool :=
    let d := Desc.of b
    d.layout != 2 || c.neighbours d.prod d.cons
  if descs.any fun e => !ring e.2 then some (kernelInvalid 8)
  else match descs.find? fun e => !Desc.valid e.2 (descs.get 0 (Desc.of e.2).stid) with
    | some e => some { status := 7, tag := 0, detail := e.1 }
    | none =>
      if (s.task? f.taskId).isSome ∨ held.contains f.taskId then some { status := 8, tag := 0, detail := f.taskId }
      else if f.arg.length ≠ h.arglen then some (kernelInvalid 10)
      else if h.audit ∧ f.audring.isNone then some (kernelInvalid 12)
      else none

/-- The checks of a launch for an address space, in order; `held` lists ids that earlier nodes of its
GRAPH take. -/
def State.prepare (s : State) (asid : Nat) (f : LaunchFields) (held : List Nat) : Prep × State :=
  match s.mapPages asid f.kva [] (pagesOver f.kva 128) with
  | (.absent va, s) => (.hold va, s)
  | (.fails, s) => (.bad (kernelInvalid 9), s)
  | (.all ps, s) =>
    match s.readImage ps f.kva 128 with
    | none => (.bad (kernelInvalid 9), s)
    | some bs =>
      let h := KHeader.parse bs
      match h.faulty with
      | some k => (.bad (kernelInvalid k), s)
      | none =>
        let more := pagesOver (f.kva + h.descoff) (64 * h.ndesc)
          ++ (List.range 5).flatMap fun e => pagesOver (f.kva + nth h.soff e) (4 * nth h.slen e)
        match s.mapPages asid f.kva ps more with
        | (.absent va, s) => (.hold va, s)
        | (.fails, s) => (.bad (kernelInvalid 9), s)
        | (.all ps, s) =>
          match s.readImage ps (f.kva + h.descoff) (64 * h.ndesc) with
          | none => (.bad (kernelInvalid 9), s)
          | some tpl =>
            let descs := descTable tpl f
            match s.judge f held h descs with
            | some v => (.bad v, s)
            | none => (.ok { hdr := h, pages := ps, descs := descs }, s)

/-- The die whose firmware serves the front end: die 0, or die 31 once its standby serves (R399). -/
def State.fedDie (s : State) : Nat := if (s.die 0).present then 0 else 31

/-- A not-present page of a kernel image holds the decoding of queue `q` and posts its event (R399). -/
def State.holdFed (s : State) (q va : Nat) : State :=
  let asid := (s.queue q).entry.asid
  let (ev, s) := s.newWalk 1023 7 asid va false
  let s := s.post (s.dieCore s.fedDie) 2 (BitVec.ofNat 64 va)
    (BitVec.ofNat 64 (7 * 2 ^ 22 + 1023 * 2 ^ 12 + asid)) (BitVec.ofNat 64 ev)
  s.onQueue q fun x => { x with hold := some ev }

/-! ## Accepted tasks -/

/-- A task of queue `q` accepted as part of packet `pseq`, with the launch it came in. -/
def taskOf' (q pseq order asid : Nat) (ordered : Bool) (node : Option Nat) (preds : List Nat) (f : LaunchFields)
    (k : Kernel) (raw : List Nat) : Task :=
  { kind := .kernel, queue := q, pseq := pseq, node := node, preds := preds, asid := asid, kva := f.kva
    pages := k.pages, kid := f.kid, hdr := k.hdr, n := f.cores, shape := f.shape
    args := f.arg.map (BitVec.ofNat 8), regions := f.regions, descs := k.descs, podbar := f.podbar
    audring := f.audring, audN := 0, audWait := [], rooted := false, launch := raw, phase := .waiting, cores := []
    order := order, ordered := ordered, readyAt := 0, started := 0, slice := 0, expired := false, clock := 0, recv := [], pendInc := []
    podGen := 0, cutReq := none, startAt := 0, restore := none, spec := none, reserving := false, after := none, pins := [] }

/-- A task added under its key, with the next place in acceptance order. -/
def State.addTask (s : State) (key : Nat) (t : Task) : State :=
  { (s.setTask key (some { t with order := s.order })) with order := s.order + 1
                                                            fabric := { s.fabric with timed := true } }

/-! ## What the Timetable learns (R415, R416) -/

/-- The body words of a packet. -/
def bodyOf (raw : List Nat) : List Nat := (raw.drop 1).flatMap fun u => [u % 2 ^ 32, u / 2 ^ 32 % 2 ^ 32]

/-- The layout of a packet. -/
def layoutOf (raw : List Nat) : List (Nat × Nat) := (fieldsOf raw).map fun f => (f.tag, f.bytes.length)

/-- The entry of a kernel. -/
def Queue.ttEntry (x : Queue) (kid : Nat) : Option TtEntry := x.entries.find? fun e => e.kid == kid

/-- An entry written: it is the one used last, and of more than eight the least recently used goes. -/
def Queue.putEntry (x : Queue) (e : TtEntry) : Queue :=
  { x with entries := (e :: x.entries.filter fun o => o.kid != e.kid).take 8 }

/-- The succession from the launch learned before to this one (R416). -/
def Queue.succeed (x : Queue) (kid : Nat) (body : List Nat) : Queue :=
  match x.prev.bind x.ttEntry with
  | none => x
  | some k =>
    if x.pred.any fun p => p.after == k.kid && p.body == body then x.putEntry { k with conf := min 3 (k.conf + 1) }
    else x.putEntry { k with next := some kid, conf := 1 }

/-- The prediction after a launch of `kid` (R416). -/
def Queue.predict (x : Queue) (kid : Nat) : Option Prediction :=
  (x.ttEntry kid).bind fun e => e.next.bind fun n => (x.ttEntry n).map fun m =>
    { after := kid, body := List.zipWith (fun a d => (a + d) % 2 ^ 32) m.last m.delta }

/-- A LAUNCH learned (R416). -/
def Queue.learn (x : Queue) (kid : Nat) (raw : List Nat) : Queue :=
  let body := bodyOf raw
  let lay := layoutOf raw
  let x := x.succeed kid body
  let x := match x.ttEntry kid with
    | none => x.putEntry { kid := kid, last := body, layout := lay, delta := body.map fun _ => 0, next := none, conf := 0 }
    | some e => x.putEntry { e with
        last := body, layout := lay
        delta := if e.layout = lay then List.zipWith (fun a b => (a + 2 ^ 32 - b) % 2 ^ 32) body e.last
          else body.map fun _ => 0 }
  let π := x.predict kid
  { x with prev := some kid, pred := π, specKept := π.isSome, specDue := π.isSome }

/-- Whether a LAUNCH is learned (R416). -/
def learns (h : PktHdr) : Bool := !h.spawned && !h.nospec && decide (h.raw.length ≤ 129)

/-! ## Claims (R422) -/

/-- The kernel id and the mandatory fields of a launch body, ARG among them. -/
def mandatory (raw : List Nat) : List (Nat × List Byte) :=
  ((fieldsOf raw).filter fun f => decide (2 ^ 15 ≤ f.tag)).map fun f => (f.tag, f.bytes)

/-- The packet that a launch body makes under the header of another. -/
def packetOfBody (w : Nat) (body : List Nat) : List Nat :=
  w :: ((pieces 2 body.length body).map fun p => p.getD 0 0 + p.getD 1 0 * 2 ^ 32)

/-- Whether a LAUNCH matches a speculation's prediction. -/
def Shadow.matches' (x : Shadow) (raw : List Nat) : Bool :=
  mandatory (packetOfBody 0 x.body) == mandatory raw

/-- The output pages of a speculation whose entries have D = 0: each takes an entry of the dirty log. -/
def State.cleanPages (s : State) (asid : Nat) (x : Shadow) : Nat :=
  match s.ast asid with
  | none => 0
  | some e => (x.frames.filter fun f => (s.walk e asid f.1).any fun p => !bit p.lo 4).length

/-- Whether the dirty log has room for the pages a claim remaps (R139, R422). -/
def State.claimRoom (s : State) (asid : Nat) (x : Shadow) : Bool :=
  match s.ast asid with
  | none => true
  | some e => decide ((e.head + 2 ^ 32 - s.tailOf asid e) % 2 ^ 32 + s.cleanPages asid x ≤ 2 ^ e.dlogn)

/-- An output page remapped to its shadow frame with D = 1 (R422, R138). -/
def State.remap (s : State) (asid : Nat) (f : Nat × Nat × Nat) : State :=
  match s.ast asid with
  | none => s
  | some e =>
    match s.walk e asid f.1 with
    | none => s
    | some p =>
      let hi := p.hi - bits p.hi 27 0 + f.2.2 / 2 ^ 16
      let s := s.paWrite (p.at' + 8) 8 hi
      if bit p.lo 4 then s else s.markDirty asid e { p with hi := hi }

/-- The speculation of shadow context `k` claimed by packet `seq` of queue `q` (R422): its pages are
remapped, its original frames join the pool, and its task goes on as the task of the launch. -/
def State.claim (s : State) (k : Nat) (x : Shadow) (q seq : Nat) (f : LaunchFields) (raw : List Nat) : State :=
  match s.task? x.task with
  | none => s
  | some t =>
    let s := x.frames.foldl (fun s g => s.remap t.asid g) s
    let s := s.poolGive (x.frames.map fun g => g.2.1)
    let s := (s.cores.map Prod.fst).foldl (fun s p =>
      s.dropTlb p fun y => x.frames.any fun g => y.serves t.asid g.1) s
    let s := t.cores.foldl (fun s p => s.onCore p fun c => { c with task := some f.taskId }) s
    let s := (s.setTask x.task none).addTask f.taskId { t with
      queue := q, pseq := seq, regions := f.regions, launch := raw, spec := none, audWait := x.audit }
    let s := ({ s with shadows := s.shadows.set none k none }).countTt 1
    s.auditDrain f.taskId x.audit.length

/-! ## LAUNCH (R398, R399) -/

/-- A LAUNCH that has passed its checks: it is learned, claims the speculation of its queue or
discards it, or becomes a task (R416, R421, R422). -/
def State.acceptLaunch (s : State) (h : PktHdr) (f : LaunchFields) (k : Kernel) : State :=
  let asid := (s.queue h.q).entry.asid
  let start (s : State) : State :=
    let (seq, s) := s.accept h 1
    s.addTask f.taskId (taskOf' h.q seq s.order asid h.ordered none [] f k h.raw)
  if !learns h then start s
  else
    let learned (s : State) : State := s.onQueue h.q fun x => x.learn f.kid h.raw
    match s.specOf h.q with
    | none => learned (start s)
    | some (n, x) =>
      if !x.matches' h.raw then learned (start (s.discard h.q .mismatch))
      else if x.hit then learned (start (s.discard h.q .watch))
      else if !s.claimRoom asid x then s
      else
        let (seq, s) := s.accept h 1
        learned (s.claim n x h.q seq f h.raw)

/-- LAUNCH (R398, R399). -/
def execLaunch (h : PktHdr) (f : LaunchFields) (s : State) : Out :=
  .next (
    if !s.nextIs h then s
    else match badField f with
      | some (tag, k) => s.settlePkt h { status := 1, tag := tag, detail := unitOf h.raw tag k }
      | none =>
        match s.prepare (s.queue h.q).entry.asid f [] with
        | (.hold va, s) => s.holdFed h.q va
        | (.bad v, s) => s.settlePkt h v
        | (.ok k, s) => s.acceptLaunch h f k)

/-! ## GRAPH (R400) -/

/-- What the checks of the nodes give: held, settled, or each node's kernel. -/
inductive Preps where
  | hold (va : Nat)
  | bad (v : Verdict)
  | ok (xs : List (LaunchFields × Kernel))
deriving DecidableEq, Repr

/-- The nodes checked in order. -/
def State.prepareAll (s : State) (asid : Nat) (xs : List (LaunchFields × Kernel)) : List LaunchFields → Preps × State
  | [] => (.ok xs, s)
  | f :: fs =>
    match s.prepare asid f (xs.map fun x => x.1.taskId) with
    | (.hold va, s) => (.hold va, s)
    | (.bad v, s) => (.bad v, s)
    | (.ok k, s) => s.prepareAll asid (xs ++ [(f, k)]) fs

/-- The first edge that is malformed. -/
def badEdge (n : Nat) (edges : List (Nat × Nat)) : Option Nat :=
  edges.findIdx? fun e => decide (e.2 ≤ e.1) || decide (n ≤ e.2)

/-- The packet that a NODE stands for: a LAUNCH with the flags of its GRAPH. -/
def nodePacket (w : Nat) (f : PktField) : List Nat :=
  let us := unitsOf f.bytes
  (1 + bits w 19 16 * 2 ^ 16 + (us.length + 1) * 2 ^ 24) :: us

/-- The first node with a value outside its range: its number, and the tag and number of the field. -/
def badNode (nodes : List LaunchFields) : Option (Nat × Nat × Nat) :=
  (nodes.mapIdx fun i f => (badField f).map fun b => (i, b.1, b.2)).findSome? id

/-- The unit in the packet of a field of a node. -/
def nodeUnit (raw : List Nat) (i tag k : Nat) : Nat :=
  match (withTag 0x8010 (fieldsOf raw)).drop i with
  | [] => 0
  | f :: _ =>
    match nodeFields f with
    | .ok fs => (((withTag tag fs).drop k).head?.map (·.unit)).getD 0
    | .error u => u

/-- GRAPH (R400). -/
def execGraph (h : PktHdr) (nodes : List LaunchFields) (edges : List (Nat × Nat)) (s : State) : Out :=
  .next (
    if !s.nextIs h then s
    else match badNode nodes with
      | some (i, tag, k) => s.settlePkt h { status := 1, tag := tag, detail := nodeUnit h.raw i tag k }
      | none =>
        match badEdge nodes.length edges with
        | some k => s.settlePkt h { status := 1, tag := 0x8011, detail := unitOf h.raw 0x8011 k }
        | none =>
          let asid := (s.queue h.q).entry.asid
          match s.prepareAll asid [] nodes with
          | (.hold va, s) => s.holdFed h.q va
          | (.bad v, s) => s.settlePkt h v
          | (.ok xs, s) =>
            if xs.isEmpty then s.settlePkt h Verdict.ok
            else
              let (seq, s) := s.accept h xs.length
              let first := s.order
              let raws := (withTag 0x8010 (fieldsOf h.raw)).map (nodePacket (h.raw.headD 0))
              (xs.mapIdx fun i x => (i, x)).foldl (fun s e =>
                let (i, f, k) := e
                let preds := (edges.filter fun g => g.2 == i).map fun g => first + g.1
                s.addTask f.taskId (taskOf' h.q seq s.order asid h.ordered (some i) preds f k (raws.getD i []))) s)

/-! ## CELLAR (R404) -/

/-- The key of a CELLAR task among the tasks. -/
def cellarKey (order : Nat) : Nat := 2 ^ 40 + order

/-- CELLAR: a task that writes a range of the Cellar; a speculation of its queue is discarded (R404,
R421). -/
def execCellarLoad (h : PktHdr) (src : FedAddr) (off mask len : Nat) (s : State) : Out :=
  .next (
    if !s.nextIs h then s
    else if h.spawned || !(s.queue h.q).entry.priv then
      s.settlePkt h { status := 4, tag := 0, detail := pktType h }
    else
      let s := s.discard h.q .queue
      if off % 64 ≠ 0 then s.settlePkt h { status := 1, tag := 0x8022, detail := unitOf h.raw 0x8022 0 }
      else if len % 64 ≠ 0 ∨ 96 * 2 ^ 20 < off + len then
        s.settlePkt h { status := 1, tag := 0x8023, detail := unitOf h.raw 0x8023 0 }
      else
        let (seq, s) := s.accept h 1
        let f : LaunchFields := launchOf []
        let t := taskOf' h.q seq s.order (s.queue h.q).entry.asid h.ordered none [] f { hdr := KHeader.empty, pages := [], descs := [] } h.raw
        s.addTask (cellarKey s.order) { t with
          kind := .cellar src off mask len, regions := [{ start := off, len := len, w := true, cel := true }] })

end Sys2Proof.Machine
end

