-- ==== Sys2Proof/Machine/Capture.lean ====
section
/-!
DEFINITION. Capture runs: the image that a CAPTURE writes and its end (14, R379 to R382).
-/

namespace Sys2Proof.Machine

/-- The bytes of an image for a capture: where a save area has brought a beginning of it as digests only,
that beginning is a free value (R438). -/
def State.captureBytes (s : State) (im : Image) : List Byte × State :=
  let n := 1024 * im.heads.length
  ((List.range n).map (fun i => BitVec.ofNat 8 (Config.freeValue (s.freeCtr + i))) ++ im.bytes
  , { s with freeCtr := s.freeCtr + n })

/-- An image of a capture with its descriptor's fields, and its offset where it fits (Table 14.6). -/
structure Placed where
  im   : Image
  ord  : Nat
  data : List Byte
  off  : Option Nat
deriving DecidableEq, Repr

/-- The images of a capture placed from an offset up, each on a 64-byte boundary (R381). -/
def placeImages (max off : Nat) : List (Image × Nat × List Byte) → List Placed
  | [] => []
  | (im, ord, data) :: rest =>
    if off + data.length ≤ max then
      { im := im, ord := ord, data := data, off := some off }
        :: placeImages max ((off + data.length + 63) / 64 * 64) rest
    else { im := im, ord := ord, data := data, off := none } :: placeImages max off rest

/-- An image descriptor (Table 14.6); the block of an empty group of MMAG has a digest of zeros (R382). -/
def Placed.descriptor (x : Placed) : List Byte :=
  let aux := decide (4 ≤ x.im.role)
  [BitVec.ofNat 8 (min 4 x.im.role), BitVec.ofNat 8 x.im.fmt, BitVec.ofNat 8 x.im.blk, BitVec.ofNat 8 (if aux then x.ord else 0)]
    ++ (List.range 4).flatMap (fun k => leBytes 3 (x.im.ext.getD k 0))
    ++ leBytes 4 x.data.length ++ leBytes 4 (x.off.getD 0) ++ zeros 8
    ++ (if x.im.role = 5 then zeros 32 else digBytes x.im.digest)

/-- The outcome of a capture run that has ended (Table 14.2): OK where its target was reached, what
decided it, or NOT-REACHED. -/
def Capture.outcome (c : Capture) : Nat :=
  if c.decided.isNone then 11 else if c.record = [] then c.status else 0

/-- The header of a capture image (Table 14.5). -/
def Capture.header (c : Capture) (status phys : Nat) (trunc : Bool) (ni : Nat) : List Byte :=
  let hit := decide (status = 0)
  let dig := leafDigest c.record
  leBytes 4 0x4D494343
    ++ leBytes 4 ((if status = 12 then c.fcause else 0) * 2 ^ 16 + 0x100 + status)
    ++ leBytes 4 (b2n trunc * 4 + b2n c.pinned * 2 + b2n (hit && dig == c.expect))
    ++ leBytes 4 phys
    ++ leBytes 8 (c.osidx % 2 ^ 40)
    ++ leBytes 8 ((c.psidx.getD (2 ^ 40 - 1)) % 2 ^ 40)
    ++ leBytes 4 ni ++ leBytes 4 c.ovcore ++ zeros 24
    ++ (if hit then digBytes dig else zeros 32) ++ zeros 32

/-- Bytes written to the image area of a capture, as far as it reaches. -/
def State.captureWrite (s : State) (c : Capture) (off : Nat) (bs : List Byte) : State :=
  s.writeAt (hostBase + (c.imgb + off)) (bs.take (c.imgMax - off))

/-- The images with their order among the AUX images, and their bytes. -/
def State.captureData (s : State) : Nat → List Image → List (Image × Nat × List Byte) × State
  | _, [] => ([], s)
  | k, im :: ims =>
    let (bs, s) := s.captureBytes im
    let (rest, s) := s.captureData (if 4 ≤ im.role then k + 1 else k) ims
    ((im, k, bs) :: rest, s)

/-- The capture image written (R381): header, leaf record, descriptors and images. -/
def State.writeCapture (s : State) (c : Capture) (status phys : Nat) : State :=
  let ims := if status = 0 then c.images else []
  let (data, s) := s.captureData 0 ims
  let n := data.length
  let xs := placeImages c.imgMax ((0x140 + 64 * n + 63) / 64 * 64) data
  let trunc := xs.any fun x => x.off.isNone
  let s := s.captureWrite c 0 (c.header status phys trunc n)
  let s := s.captureWrite c 0x80 (if status = 0 then c.record else zeros 192)
  let s := s.captureWrite c 0x140 (xs.flatMap Placed.descriptor)
  xs.foldl (fun s x => match x.off with
    | some o => s.captureWrite c o x.data
    | none => s) s

/-- The status of an audit command as its packet completes with it (Table 15.6, R373). -/
def auditVerdict (status : Nat) : Verdict := { status := if status = 0 then 0 else 13, tag := 0, detail := status }

/-- A capture run has ended: its cores are free, its image is written, and the CAPTURE completes. -/
def State.endCapture (s : State) (c : Capture) (t : Task) : State :=
  let status := c.outcome
  let s := (s.freeCores t.cores).setTask c.task none
  let s := { s with taster := { s.taster with captures := s.taster.captures.filter fun k => k.task != c.task }
                    queues := s.queues.map fun (e : Nat × Queue) => (e.1, { e.2 with specDue := e.2.specKept }) }
  let s := s.writeCapture c status (t.cores.getD c.vcore 0)
  (s.completePart c.q c.pseq 0 (auditVerdict status)).settleDisable c.q

end Sys2Proof.Machine
end

