-- ==== Sys2Proof/Machine/Vxe.lean ====
section
/-!
DEFINITION. What the instructions of the vector engine share (12, R299 to R306, R337 to R342):
elements of registers, masks, renaming, reads, results and their flags.
-/

namespace Sys2Proof.Machine

/-! ## Elements and masks -/

/-- A register's bits. -/
abbrev VReg := BitVec 4096

/-- Element `i` of size `sz` bits (R299). -/
def vget (x : VReg) (sz i : Nat) : Nat := x.toNat / 2 ^ (sz * i) % 2 ^ sz

/-- Elements of size `sz`, element 0 first, as one number. -/
def packNat (sz : Nat) : List Nat → Nat
  | [] => 0
  | v :: vs => v % 2 ^ sz + 2 ^ sz * packNat sz vs

/-- A register of elements, zero beyond those listed. -/
def vput (sz : Nat) (vs : List Nat) : VReg := BitVec.ofNat 4096 (packNat sz vs)

/-- The number of elements of size `sz`. -/
def vcount (sz : Nat) : Nat := 4096 / sz

/-- A mask register; m0 reads as all ones (R300). -/
def VxeState.mask (x : VxeState) (k : Nat) : BitVec 512 :=
  if k = 0 then BitVec.allOnes 512 else x.m.get 0 k

/-- A mask of the bits that a function gives to elements 0 to `n` - 1; the others are clear. -/
def maskOf (n : Nat) (f : Nat → Bool) : BitVec 512 :=
  BitVec.ofNat 512 (packNat 1 ((List.range n).map fun i => b2n (f i)))

/-! ## Names -/

/-- A register name under the renaming of an active VLOOP (R338). -/
def VxeState.name (x : VxeState) (r : Nat) : Nat :=
  match x.vloop with
  | none => r
  | some v => if v.rb ≤ r ∧ r < v.rb + v.rlm1 + 1 then v.rb + (r - v.rb + v.iter * v.rs) % (v.rlm1 + 1) else r

/-- The VXE of the step. -/
def State.vxe (s : State) : VxeState := s.me.vxeS

/-- The state with it changed. -/
def State.onVxe (s : State) (f : VxeState → VxeState) : State := s.onMe fun c => { c with vxeS := f c.vxeS }

/-- The fields of word 0 after renaming. -/
def State.renamed (s : State) (r : VRegs) : VRegs :=
  { r with vd := s.vxe.name r.vd, va := s.vxe.name r.va, vb := s.vxe.name r.vb }

/-- A vector register as it can be read now: pending results have not landed (R95). -/
def State.vreg (s : State) (r : Nat) : VReg := s.vxe.v.get 0 r

/-- Whether a result for a vector register, or for a mask, is pending (R95). -/
def VxeState.pending (x : VxeState) (mask : Bool) (r : Nat) : Bool :=
  x.pend.any fun l => l.mask == mask && l.reg == r

/-! ## Issue -/

/-- An instruction that names the vector registers `ds`, and reads the registers `rs` and the masks
`ms` (R303, R95, Table 12.12): a name beyond the allocation faults, and so does an early read under
CHECK. -/
def State.vector (s : State) (ds rs ms : List Nat) (k : Eff) : Eff :=
  if (ds ++ rs).any fun r => decide ((s.hdrOf s.cur.core).valloc ≤ r) then .fault 5 6 0
  else if (rs.any (s.vxe.pending false) || ms.any (s.vxe.pending true))
      && (s.hdrOf s.cur.core).check then .fault 2 7 0
  else k

/-- A result that lands `lat` ticks on. -/
def VxeState.produce (x : VxeState) (due : Nat) (mask : Bool) (r : Nat) (v : BitVec 4096) : VxeState :=
  { x with pend := x.pend ++ [{ due := due, mask := mask, reg := r, value := v }] }

/-- The flags of an instruction, ORed into VXST at its issue; those enabled raise a trap at its
completion (R301, R342). -/
def VxeState.raiseFlags (x : VxeState) (due foff fl : Nat) : VxeState :=
  { x with vxst := x.vxst ||| BitVec.ofNat 64 (fl % 128)
           traps := if Nat.land fl (x.vxctl.toNat % 32) = 0 then x.traps
             else x.traps ++ [{ due := due, foff := foff }] }

/-- An instruction that writes a vector register issues (R305). -/
def State.vresult (s : State) (d lat : Nat) (v : VReg) (fl : Nat) : Eff :=
  .done (s.onVxe fun x => (x.produce (s.gtc + lat) false d v).raiseFlags (s.gtc + lat) s.myStream.pc fl) lat

/-- An instruction that writes a mask register issues. -/
def State.mresult (s : State) (d lat : Nat) (m : BitVec 512) (fl : Nat) : Eff :=
  .done (s.onVxe fun x =>
    (x.produce (s.gtc + lat) true d (m.setWidth 4096)).raiseFlags (s.gtc + lat) s.myStream.pc fl) lat

/-! ## Elementwise instructions -/

/-- The OR of the flags of several elements. -/
def orFlags (fs : List Nat) : Nat := fs.foldl Nat.lor 0

/-- The immediate as an element of size `sz` (R303). -/
def vimm (o : VArith) (sz : Nat) : Nat := trunc sz (sext 16 o.imm)

/-- Whether an instruction keeps its destination where its mask leaves it, and so reads it (R305). -/
def vkeeps (o : VArith) : Bool := decide (o.msk ≠ 0) && !o.z

/-- What an elementwise instruction reads: the registers, with VB unless an immediate stands for it,
and the destination where it is a source. -/
def vsources (o : VArith) (r : VRegs) (useA useB useD : Bool) : List Nat :=
  (if useA then [r.va] else []) ++ (if useB && !o.i then [r.vb] else [])
    ++ if useD || vkeeps o then [r.vd] else []

/-- The elements an elementwise instruction writes: selected ones from `f`, the others kept or zero
(R307, R320). -/
def vselect (n : Nat) (k : BitVec 512) (z : Bool) (old : Nat → Nat) (f : Nat → Nat × Nat) : List (Nat × Nat) :=
  (List.range n).map fun i => if k.getLsbD i then f i else (if z then 0 else old i, 0)

/-- An elementwise instruction on elements of size `sz`: `f` answers an element and its flags from
its index, the elements of VA and VB, or the immediate, and the old element of VD. -/
def State.velem (s : State) (r0 : VRegs) (o : VArith) (lat sz imm : Nat) (useA useB useD : Bool)
    (f : Nat → Nat → Nat → Nat → Nat × Nat) : Eff :=
  let r := s.renamed r0
  s.vector [r.vd] (vsources o r useA useB useD) [o.msk] <|
    let old := s.vreg r.vd
    let es := vselect (vcount sz) (s.vxe.mask o.msk) o.z (vget old sz) fun i =>
      f i (vget (s.vreg r.va) sz i) (if o.i then imm else vget (s.vreg r.vb) sz i) (vget old sz i)
    s.vresult r.vd lat (vput sz (es.map Prod.fst)) (orFlags (es.map Prod.snd))

/-- A comparison that writes a mask: bits of selected elements from `f`, the others kept or cleared,
and the bits past the last element clear (R322, R300). -/
def State.vcompare (s : State) (r0 : VRegs) (o : VArith) (lat sz imm : Nat) (f : Nat → Nat → Bool × Nat) : Eff :=
  let r := s.renamed r0
  let reads := r.va :: if o.i then [] else [r.vb]
  s.vector [] reads (o.msk :: if vkeeps o then [r0.vd] else []) <|
    let old := s.vxe.mask r0.vd
    let n := vcount sz
    let es := (List.range n).map fun i =>
      if (s.vxe.mask o.msk).getLsbD i then
        f (vget (s.vreg r.va) sz i) (if o.i then imm else vget (s.vreg r.vb) sz i)
      else (!o.z && old.getLsbD i, 0)
    s.mresult r0.vd lat (maskOf n fun i => (es.getD i (false, 0)).1) (orFlags (es.map Prod.snd))

/-- An instruction that forms the whole register from VA and the mask, all other elements zero: a
reduction (R332 to R334). -/
def State.vreduce (s : State) (r0 : VRegs) (o : VArith) (lat sz : Nat) (f : List (Bool × Nat) → List Nat × Nat) :
    Eff :=
  let r := s.renamed r0
  s.vector [r.vd] [r.va] [o.msk] <|
    let es := (List.range (vcount sz)).map fun i =>
      ((s.vxe.mask o.msk).getLsbD i, vget (s.vreg r.va) sz i)
    let (vs, fl) := f es
    s.vresult r.vd lat (vput sz vs) fl

/-! ## Banks (R306) -/

/-- The banks that flat addresses in scratchpads lie in, with their cores. -/
def banksOf (as : List Nat) : List (Nat × Nat) :=
  ((as.filter fun a => decide (spdBase 0 ≤ a) && decide (a < fwBase 0)).map fun a =>
    ((a - spdBase 0) / 2 ^ 21, (a - spdBase 0) % 2 ^ 21 / 64 % 48)).eraseDups

/-- The last tick on which an earlier access of this VXE holds a bank, its own core's or, through the quad
window, another's. What other engines and other cores hold is contention, and not counted here. -/
def State.bankHeld (s : State) (b : Nat × Nat) : Nat :=
  (s.vxe.banks.filterMap fun h => if h.1 = b.1 ∧ h.2.1 = b.2 then some h.2.2 else none).foldl max 0

/-- How long an access that issues now waits for its banks: it needs them on the two ticks after. -/
def State.bankWait (s : State) (as : List Nat) : Nat := ((banksOf as).map s.bankHeld).foldl max 0 - s.gtc

/-- The state in which the access holds its banks, and VBSTALL has counted its wait. -/
def State.holdBanks (s : State) (as : List Nat) : State :=
  let k := s.bankWait as
  s.onVxe fun x =>
    { x with vbstall := x.vbstall + BitVec.ofNat 64 k
             banks := (x.banks.filter fun h => decide (s.gtc < h.2.2))
               ++ (banksOf as).map fun b => (b.1, b.2, s.gtc + k + 2) }

/-! ## Segments (R339) -/

/-- A block read enters the open segment with its image. -/
def State.segBlock (s : State) (im : Image) : State :=
  s.onVxe fun x => { x with seg := { x.seg with
    blocks := x.seg.blocks + 1, reads := x.seg.reads ++ [im.digest], ims := x.seg.ims ++ [{ im with role := 4 }] } }

end Sys2Proof.Machine
end

