-- ==== Sys2Proof/Machine/VxeFp.lean ====
section
/-!
DEFINITION. The vector engine's floating point: arithmetic, functions, comparison, conversion, QX4
blocks, scaling and the floating-point reduction (12, R325 to R331, R333).
-/

namespace Sys2Proof.Machine

/-- A result with its flags as bits of VXST. -/
def withFlags (x : Nat × Flags) : Nat × Nat := (x.1, x.2.vxst)

/-- The immediate of the FP32 families: a BF16 pattern, widened exactly (R303). -/
def fpImm (o : VArith) : Nat := o.imm * 2 ^ 16

/-- VFADD adds or subtracts (R326). -/
def execVfadd (h : Hdr) (r : VRegs) (o : VArith) (s : State) : Out :=
  .next (s.issue h fun s =>
    s.velem r o 4 32 (fpImm o) true true false fun _ a b _ =>
      withFlags (fadd (Rm.of o.rm) o.sat (o.sub == 1) a b))

/-- VFMUL multiplies (R326). -/
def execVfmul (h : Hdr) (r : VRegs) (o : VArith) (s : State) : Out :=
  .next (s.issue h fun s =>
    s.velem r o 4 32 (fpImm o) true true false fun _ a b _ => withFlags (fmul (Rm.of o.rm) o.sat a b))

/-- VFMA adds the product to VD, or subtracts it, and rounds once (R326). -/
def execVfma (h : Hdr) (r : VRegs) (o : VArith) (s : State) : Out :=
  .next (s.issue h fun s =>
    s.velem r o 4 32 (fpImm o) true true true fun _ a b d =>
      withFlags (ffma (Rm.of o.rm) o.sat (o.sub == 1) d a b))

/-- VFMINMAX (R326). -/
def execVfminmax (h : Hdr) (r : VRegs) (o : VArith) (s : State) : Out :=
  .next (s.issue h fun s =>
    s.velem r o 4 32 (fpImm o) true true false fun _ a b _ => withFlags (fminmax (o.sub == 1) a b))

/-- VFUN (R328). -/
def execVfun (h : Hdr) (r : VRegs) (o : VArith) (s : State) : Out :=
  .next (s.issue h fun s =>
    s.velem r o 10 32 0 true false false fun _ a _ _ => withFlags (vfun o.sub (Rm.of o.rm) o.sat a))

/-- VFCMP writes a mask (R327). -/
def execVfcmp (h : Hdr) (r : VRegs) (o : VArith) (s : State) : Out :=
  .next (s.issue h fun s =>
    s.vcompare r o 4 32 (fpImm o) fun a b =>
      let (c, nv) := fcmp o.sub a b
      (c, b2n nv))

/-- VCVT converts between formats of two sizes (R329). -/
def execVcvt (h : Hdr) (r : VRegs) (o : VArith) (s : State) : Out :=
  .next (s.issue h fun s =>
    let q := s.renamed r
    let src := o.imm / 256
    let dst := o.imm % 256
    let n := 4096 / max (esize src) (esize dst)
    s.vector [q.vd] (vsources o q true false false) [o.msk] <|
      let es := vselect n (s.vxe.mask o.msk) o.z (vget (s.vreg q.vd) (esize dst)) fun i =>
        withFlags (cvt (elemVal src (vget (s.vreg q.va) (esize src) i)) dst (Rm.of o.rm) o.sat)
      s.vresult q.vd 4 (vput (esize dst) (es.map Prod.fst)) (orFlags (es.map Prod.snd)))

/-- VQX4.ENC encodes four blocks (R330). -/
def execVqx4Enc (h : Hdr) (r : VRegs) (_o : VArith) (s : State) : Out :=
  .next (s.issue h fun s =>
    let q := s.renamed r
    s.vector [q.vd] [q.va, q.vb] [] <|
      let scale (b : Nat) : Nat := vget (s.vreg q.vb) 32 b % 256
      if (List.range 4).any fun b => scale b == 0xFF then .fault 4 5 0
      else
        let bytes := (List.range 32).flatMap fun k =>
          let (x, y) := quadEncode ((scale (k / 8) : Nat) - 127) fun j => f32 (vget (s.vreg q.va) 32 (4 * k + j))
          [x, y]
        s.vresult q.vd 4 (vput 8 bytes) 0)

/-- VQX4.DEC decodes four blocks (R330). -/
def execVqx4Dec (h : Hdr) (r : VRegs) (o : VArith) (s : State) : Out :=
  .next (s.issue h fun s =>
    let q := s.renamed r
    s.vector [q.vd] [q.va, q.vb] [] <|
      let es := (List.range 128).map fun i =>
        let b0 := vget (s.vreg q.va) 8 (i / 4 * 2)
        let b1 := vget (s.vreg q.va) 8 (i / 4 * 2 + 1)
        let x := cvt (quadDecode b0 b1 (vget (s.vreg q.vb) 32 (i / 32) % 256) (i % 4)) fmtFP32 (Rm.of o.rm) o.sat
        (x.1, x.2.vxst + 64 * b2n (quadBad b0 b1))
      s.vresult q.vd 4 (vput 32 (es.map Prod.fst)) (orFlags (es.map Prod.snd)))

/-- a × 2^k rounded once (R331). Beyond 600 every product overflows, or underflows below half the
least subnormal, whatever `k` is. -/
def scaleb (rm : Rm) (sm : Bool) (a : Nat) (k : Int) : Nat × Flags :=
  cvt ((f32 a).scale (sat k (-600) 600)) fmtFP32 rm sm

/-- VSCALE multiplies by powers of two (R331). -/
def execVscale (h : Hdr) (r : VRegs) (o : VArith) (s : State) : Out :=
  .next (s.issue h fun s =>
    s.velem r o 4 32 (vimm o 32) true true false fun _ a b _ =>
      withFlags (scaleb (Rm.of o.rm) o.sat a (sext 32 b)))

/-- The E8M0 code of a block from its selected elements (R331, BLKEXP). -/
def blockExp (imm : Int) (vs : List Val) : Nat :=
  if vs.any Val.isNan then 0xFF
  else if vs.any fun v => match v with | .inf _ => true | _ => false then 0xFE
  else
    let logs := vs.filterMap fun v => match v with
      | .fin _ m e => if m = 0 then none else some (leadExp m e)
      | _ => none
    match logs with
    | [] => 0
    | x :: xs => (sat (xs.foldl max x - imm + 127) 0 254).toNat

/-- VSCALE.BLKEXP finds the scale of each block of 32 elements (R331). -/
def execVscaleBlk (h : Hdr) (r : VRegs) (o : VArith) (s : State) : Out :=
  .next (s.issue h fun s =>
    let q := s.renamed r
    s.vector [q.vd] [q.va] [o.msk] <|
      let k := s.vxe.mask o.msk
      let code (b : Nat) : Nat :=
        blockExp (sext 16 o.imm) (((List.range 32).filter fun j => k.getLsbD (32 * b + j)).map fun j =>
          f32 (vget (s.vreg q.va) 32 (32 * b + j)))
      s.vresult q.vd 4 (vput 32 ((List.range 4).map code)) 0)

/-- The identities of VFRED (R56): −0, +∞ and −∞. -/
def fredIdentity (sub : Nat) : Nat :=
  match sub with
  | 0 => 0x80000000
  | 1 => 0x7F800000
  | _ => 0xFF800000

/-- One node of VFRED (R333). -/
def fredOp (sub : Nat) (rm : Rm) (x y : Nat × Nat) : Nat × Nat :=
  let z := withFlags (match sub with
    | 0 => fadd rm false false x.1 y.1
    | 1 => fminmax false x.1 y.1
    | _ => fminmax true x.1 y.1)
  (z.1, Nat.lor (Nat.lor x.2 y.2) z.2)

/-- VFRED reduces FP32 elements under the tree of R56. -/
def execVfred (h : Hdr) (r : VRegs) (o : VArith) (s : State) : Out :=
  .next (s.issue h fun s => s.vreduce r o 8 32 fun es =>
    let x := tree (fredOp o.sub (Rm.of o.rm)) (0, 0)
      (es.map fun e => (if e.1 then e.2 else fredIdentity o.sub, 0))
    ([x.1], x.2))

end Sys2Proof.Machine
end

