-- ==== Sys2Proof/Machine/VxeInt.lean ====
section
/-!
DEFINITION. The vector engine's broadcasts, permutations, masks, integer arithmetic and integer
reductions, its spill bank and VLOOP (12, R311 to R324, R332, R334, R337, R474).
-/

namespace Sys2Proof.Machine

/-- The flag IS of VXST. -/
def flagIs : Nat := 32

/-! ## Broadcast and sequence (R313, R314) -/

/-- VBC.E broadcasts element IMM of VA. -/
def execVbcE (h : Hdr) (r : VRegs) (o : VArith) (s : State) : Out :=
  .next (s.issue h fun s =>
    let q := s.renamed r
    let v := vget (s.vreg q.va) r.size o.imm
    s.vector [q.vd] [q.va] [o.msk] <|
      if vcount r.size ≤ o.imm then .fault 4 3 0
      else s.velem r o 2 r.size 0 true false false fun _ _ _ _ => (v, 0))

/-- VBC.I broadcasts the immediate. -/
def execVbcI (h : Hdr) (r : VRegs) (o : VArith) (s : State) : Out :=
  .next (s.issue h fun s => s.velem r o 2 r.size 0 false false false fun _ _ _ _ => (vimm o r.size, 0))

/-- VBC.C broadcasts a component of a coordinate register. -/
def execVbcC (h : Hdr) (r : VRegs) (o : VArith) (s : State) : Out :=
  .next (s.issue h fun s =>
    let v := trunc r.size ((s.coord (bits o.imm 5 2)).int (bits o.imm 1 0))
    s.velem r o 2 r.size 0 false false false fun _ _ _ _ => (v, 0))

/-- VBC.ST reads VXST, VXCTL or VBSTALL into element 0. -/
def execVbcSt (h : Hdr) (r : VRegs) (o : VArith) (s : State) : Out :=
  .next (s.issue h fun s =>
    let d := (s.renamed r).vd
    let v := match o.imm with
      | 0 => s.vxe.vxst
      | 1 => s.vxe.vxctl
      | _ => s.vxe.vbstall
    s.vector [d] [] [] (s.vresult d 2 (vput 64 [v.toNat]) 0))

/-- VBC.WC writes VXCTL; a reserved bit that is set raises bounds. -/
def execVbcWc (h : Hdr) (r : VRegs) (_o : VArith) (s : State) : Out :=
  .next (s.issue h fun s =>
    let a := (s.renamed r).va
    let v := vget (s.vreg a) 64 0
    s.vector [] [a] [] <|
      if 32 ≤ v then .fault 4 5 0 else .done (s.onVxe fun x => { x with vxctl := BitVec.ofNat 64 v }) 1)

/-- VBC.CLR clears bits of VXST. -/
def execVbcClr (h : Hdr) (_r : VRegs) (o : VArith) (s : State) : Out :=
  .next (s.issue h fun s =>
    .done (s.onVxe fun x => { x with vxst := x.vxst &&& ~~~(BitVec.ofNat 64 o.imm) }) 1)

/-- VIOTA numbers the elements from IMM up. -/
def execViota (h : Hdr) (r : VRegs) (o : VArith) (s : State) : Out :=
  .next (s.issue h fun s =>
    s.velem r o 2 r.size 0 false false false fun i _ _ _ => ((i + vimm o r.size) % 2 ^ r.size, 0))

/-! ## Spill bank (R311) -/

/-- VSPILL writes a register to a spill slot. -/
def execVspill (h : Hdr) (r : VRegs) (s : State) : Out :=
  .next (s.issue h fun s =>
    let a := s.vxe.name r.va
    s.vector [] [a] [] <|
      if !(s.hdrOf s.cur.core).spillbank then .fault 5 6 0
      else .done (s.onVxe fun x => { x with spill := x.spill.set 0 r.vb (s.vreg a) }) 1)

/-- VFILL reads a spill slot. -/
def execVfill (h : Hdr) (r : VRegs) (s : State) : Out :=
  .next (s.issue h fun s =>
    let d := s.vxe.name r.vd
    s.vector [d] [] [] <|
      if !(s.hdrOf s.cur.core).spillbank then .fault 5 6 0
      else s.vresult d 3 (s.vxe.spill.get 0 r.vb) 0)

/-! ## VLOOP (R337) -/

/-- Whether a VLOOP with body words `first` to `e` may open: no VLOOP is active, the ring fits, the
body ends with an instruction of the stream and inside the innermost LOOP. -/
def State.vloopLegal (s : State) (rb rl first e : Nat) : Bool :=
  let t := s.myStream
  s.vxe.vloop.isNone && decide (rb + rl ≤ 32) && decide (e < t.len)
    && s.bodyReaches (e + 1) (e + 2 - first) first
    && (match t.loops with
        | [] => true
        | l :: _ => decide (e ≤ l.stop))

/-- VLOOP opens the vector loop, or skips its body for a count of zero or less. -/
def execVloop (h : Hdr) (rb rlm1 rs body : Nat) (count : LoopCount) (s : State) : Out :=
  .next (s.issue h fun s =>
    let first := s.myStream.pc + h.n
    let e := first + body - 1
    if !s.vloopLegal rb (rlm1 + 1) first e then .fault 1 0 0
    else if (s.hdrOf s.cur.core).valloc < rb + rlm1 + 1 then .fault 5 6 0
    else
      let n := s.loopCount count
      if n ≤ 0 then .jump s 1 (e + 1) 1
      else
        .done (s.onVxe fun x => { x with
          vloop := some { count := n.toNat, iter := 0, start := first, stop := e, rb := rb, rlm1 := rlm1
                          rs := rs } }) 1)

/-! ## Permutations (R315 to R317) -/

/-- VPERM picks elements of VA by the indices in VB. -/
def execVperm (h : Hdr) (r : VRegs) (o : VArith) (s : State) : Out :=
  .next (s.issue h fun s =>
    let va := s.vreg (s.renamed r).va
    s.velem r o 3 r.size (vimm o r.size) true true false fun _ _ k _ =>
      (if k < vcount r.size then vget va r.size k else 0, 0))

/-- The amount of a VSLIDE. -/
def State.slideBy (s : State) (o : VArith) : Int :=
  if bit o.sub 1 then (s.coord (bits o.imm 5 2)).int (bits o.imm 1 0) else o.imm

/-- VSLIDE moves elements down or up, and fills. -/
def execVslide (h : Hdr) (r : VRegs) (o : VArith) (s : State) : Out :=
  .next (s.issue h fun s =>
    let q := s.renamed r
    let va := s.vreg q.va
    let n := vcount r.size
    let fill := bit o.sub 2
    s.vector [q.vd] (vsources o q true fill false) [o.msk] <|
      if s.slideBy o < 0 then .fault 4 3 0
      else
        let d := (s.slideBy o).toNat
        s.velem r o 3 r.size 0 true fill false fun i _ b _ =>
          let other := if fill then b else 0
          (if bit o.sub 0 then (if i < d then other else vget va r.size (i - d))
           else if i + d < n then vget va r.size (i + d) else other, 0))

/-- VCOMP packs the selected elements of VA; the rest is zero or from VB. -/
def execVcomp (h : Hdr) (r : VRegs) (o : VArith) (s : State) : Out :=
  .next (s.issue h fun s =>
    let q := s.renamed r
    let n := vcount r.size
    s.vector [q.vd] (q.va :: if o.sub = 1 then [q.vb] else []) [o.msk] <|
      let k := s.vxe.mask o.msk
      let es := ((List.range n).filter fun i => k.getLsbD i).map fun i => vget (s.vreg q.va) r.size i
      let fill := (List.range n).map fun i => if o.sub = 1 then vget (s.vreg q.vb) r.size i else 0
      s.vresult q.vd 3 (vput r.size (es ++ fill.drop es.length)) 0)

/-! ## Masks (R318, R319) -/

/-- The result of VMSK. -/
def maskOp (sub imm : Nat) (a b : BitVec 512) : BitVec 512 :=
  match sub with
  | 0 => a &&& b
  | 1 => a ||| b
  | 2 => a ^^^ b
  | 3 => a &&& ~~~b
  | 4 => ~~~a
  | 5 => BitVec.ofNat 512 (2 ^ imm - 1)
  | 6 => a <<< imm
  | _ => a

/-- VMSK works on whole masks. -/
def execVmsk (h : Hdr) (r : VRegs) (o : VArith) (s : State) : Out :=
  .next (s.issue h fun s =>
    let ms := (if o.sub = 5 then [] else [r.va]) ++ if o.sub < 4 then [r.vb] else []
    s.vector [] [] ms (s.mresult r.vd 2 (maskOp o.sub o.imm (s.vxe.mask r.va) (s.vxe.mask r.vb)) 0))

/-- What VMPOP counts over `n` bits of a mask: the set bits, or the place of the first. -/
def maskCount (first : Bool) (n : Nat) (k : BitVec 512) : Int :=
  let set := (List.range n).filter fun i => k.getLsbD i
  if first then (match set with | [] => -1 | i :: _ => (i : Int)) else (set.length : Int)

/-- VMPOP writes a component of a coordinate register, visible to the next instruction (R305). -/
def execVmpop (h : Hdr) (r : VRegs) (o : VArith) (s : State) : Out :=
  .next (s.issue h fun s =>
    s.vector [] [] [r.va] <|
      let v := maskCount (o.sub == 1) (vcount r.size) (s.vxe.mask r.va)
      let cr := bits o.imm 5 2
      .done (s.setCoord cr ((s.coord cr).update (2 ^ bits o.imm 1 0) fun _ => BitVec.ofInt 24 v)) 1)

/-! ## Integer arithmetic (R320, R321) -/

/-- One element of an integer family: the operands read signed or unsigned, the exact result of
`f`, clamped with SAT, and the flag IS. -/
def intElem (sz : Nat) (u sat' : Bool) (f : Int → Int → Int → Int) (a b d : Nat) : Nat × Nat :=
  let rd (x : Nat) : Int := if u then x else sext sz x
  let r := f (rd a) (rd b) (rd d)
  let lo : Int := if u then 0 else -(2 ^ (sz - 1))
  let hi : Int := if u then 2 ^ sz - 1 else 2 ^ (sz - 1) - 1
  if sat' && (decide (r < lo) || decide (hi < r)) then (trunc sz (sat r lo hi), flagIs) else (trunc sz r, 0)

/-- An integer instruction with operands VA and VB or the immediate. -/
def State.vint (s : State) (r : VRegs) (o : VArith) (lat : Nat) (useD : Bool) (f : Int → Int → Int → Int) : Eff :=
  s.velem r o lat r.size (vimm o r.size) true true useD fun _ a b d =>
    intElem r.size (decide (8 ≤ o.sub)) o.sat f a b d

/-- VIADD: sum, difference, rounded mean, distance. -/
def execViadd (h : Hdr) (r : VRegs) (o : VArith) (s : State) : Out :=
  .next (s.issue h fun s => s.vint r o 2 false fun a b _ =>
    match o.sub % 8 with
    | 0 => a + b
    | 1 => a - b
    | 2 => (a + b + 1) / 2
    | _ => ((a - b).natAbs : Int))

/-- VIMUL: the product, or its high half. -/
def execVimul (h : Hdr) (r : VRegs) (o : VArith) (s : State) : Out :=
  .next (s.issue h fun s => s.vint r o 4 false fun a b _ =>
    if o.sub % 8 = 0 then a * b else a * b / 2 ^ r.size)

/-- VMAC adds a product to VD. -/
def execVmac (h : Hdr) (r : VRegs) (o : VArith) (s : State) : Out :=
  .next (s.issue h fun s => s.vint r o 4 true fun a b d => d + a * b)

/-- Byte `k` of a lane, signed or not. -/
def laneByte (signed' : Bool) (x k : Nat) : Int :=
  let v := x / 2 ^ (8 * k) % 256
  if signed' then sext 8 v else v

/-- The four products of VDOT4 (Table 12.8). -/
def dot4 (sub a b : Nat) : Int :=
  let sa := sub == 0 || sub == 3
  let sb := sub == 0 || sub == 2
  ((List.range 4).map fun k => laneByte sa a k * laneByte sb b k).sum

/-- VDOT4 adds four byte products to each lane of VD. -/
def execVdot4 (h : Hdr) (r : VRegs) (o : VArith) (s : State) : Out :=
  .next (s.issue h fun s =>
    s.velem r o 4 32 (vimm o 32) true true true fun _ a b d =>
      intElem 32 false o.sat (fun _ _ d => d + dot4 o.sub a b) 0 0 d)

/-- VMINMAX. -/
def execVminmax (h : Hdr) (r : VRegs) (o : VArith) (s : State) : Out :=
  .next (s.issue h fun s => s.vint r o 2 false fun a b _ =>
    if o.sub % 8 = 0 then (if b < a then b else a) else if a < b then b else a)

/-- VLOGIC: its immediate is zero-extended (R303). -/
def execVlogic (h : Hdr) (r : VRegs) (o : VArith) (s : State) : Out :=
  .next (s.issue h fun s =>
    let all := 2 ^ r.size - 1
    s.velem r o 2 r.size (o.imm % 2 ^ r.size) true (o.sub != 4) false fun _ a b _ =>
      (match o.sub with
        | 0 => Nat.land a b
        | 1 => Nat.lor a b
        | 2 => Nat.xor a b
        | 3 => Nat.land a (all - b)
        | _ => all - a, 0))

/-- VSHIFT by an amount modulo the element size. -/
def execVshift (h : Hdr) (r : VRegs) (o : VArith) (s : State) : Out :=
  .next (s.issue h fun s =>
    s.velem r o 2 r.size (o.imm % 2 ^ r.size) true true false fun _ a b _ =>
      let d := b % r.size
      (match o.sub with
        | 0 => a * 2 ^ d % 2 ^ r.size
        | 1 => a / 2 ^ d
        | _ => trunc r.size (sext r.size a / 2 ^ d), 0))

/-- VRSH shifts right and rounds, ties toward +∞. -/
def execVrsh (h : Hdr) (r : VRegs) (o : VArith) (s : State) : Out :=
  .next (s.issue h fun s =>
    s.velem r o 4 r.size (o.imm % 2 ^ r.size) true true false fun _ a b _ =>
      let d := b % r.size
      let x : Int := if 8 ≤ o.sub then a else sext r.size a
      (trunc r.size (if d = 0 then x else (x + 2 ^ (d - 1)) / 2 ^ d), 0))

/-- Leading zero bits of an element. -/
def leadZeros (sz a : Nat) : Nat := if a = 0 then sz else sz - 1 - a.log2

/-- Set bits of an element. -/
def popBits (sz a : Nat) : Nat := ((List.range sz).filter fun i => bit a i).length

/-- The operation of VUNARY on the signed value `x` of the bits `a`. -/
def unaryOp (sub sz a : Nat) (x : Int) : Int :=
  match sub with
  | 0 => (x.natAbs : Int)
  | 1 => -x
  | 2 => leadZeros sz a
  | 3 => popBits sz a
  | _ => x.sign

/-- VUNARY. -/
def execVunary (h : Hdr) (r : VRegs) (o : VArith) (s : State) : Out :=
  .next (s.issue h fun s =>
    s.velem r o 2 r.size 0 true false false fun _ a _ _ =>
      intElem r.size false o.sat (fun x _ _ => unaryOp o.sub r.size a x) a 0 0)

/-- VCLAMP clamps signed elements to a range of IMM bits (R474). -/
def execVclamp (h : Hdr) (r : VRegs) (o : VArith) (s : State) : Out :=
  .next (s.issue h fun s =>
    let lo : Int := if o.sub = 1 then 0 else -(2 ^ (o.imm - 1))
    let hi : Int := if o.sub = 1 then 2 ^ o.imm - 1 else 2 ^ (o.imm - 1) - 1
    s.velem r o 2 r.size 0 true false false fun _ a _ _ =>
      let x := sext r.size a
      let y := sat x lo hi
      (trunc r.size y, if x = y then 0 else flagIs))

/-! ## Comparison, selection, requantisation (R322 to R324) -/

/-- Whether a condition of Table 8.7 holds between two elements. -/
def elemCond (cond sz a b : Nat) : Bool :=
  let x := sext sz a
  let y := sext sz b
  match cond with
  | 0 => a == b
  | 1 => a != b
  | 2 => decide (x < y)
  | 3 => decide (y ≤ x)
  | 4 => decide (a < b)
  | 5 => decide (b ≤ a)
  | 6 => decide (y < x)
  | 7 => decide (x ≤ y)
  | 8 => decide (b < a)
  | _ => decide (a ≤ b)

/-- VCMP writes a mask. -/
def execVcmp (h : Hdr) (r : VRegs) (o : VArith) (s : State) : Out :=
  .next (s.issue h fun s =>
    s.vcompare r o 2 r.size (vimm o r.size) fun a b => (elemCond o.sub r.size a b, 0))

/-- VSEL takes VB, or the immediate, where the mask is set, and VA elsewhere. -/
def execVsel (h : Hdr) (r : VRegs) (o : VArith) (s : State) : Out :=
  .next (s.issue h fun s =>
    let q := s.renamed r
    s.vector [q.vd] (q.va :: if o.i then [] else [q.vb]) [o.msk] <|
      s.vresult q.vd 2 (vput r.size ((List.range (vcount r.size)).map fun i =>
        if (s.vxe.mask o.msk).getLsbD i then
          (if o.i then vimm o r.size else vget (s.vreg q.vb) r.size i)
        else vget (s.vreg q.va) r.size i)) 0)

/-- The output format of a VRQ. -/
def vrqFmt (sub : Nat) : Nat :=
  match sub with
  | 0 => fmtInt8
  | 1 => fmtUint8
  | 2 => fmtInt16
  | 3 => fmtInt32
  | _ => fmtInt4

/-- VRQ requantises with the formula of R54. -/
def execVrq (h : Hdr) (r : VRegs) (o : VArith) (sh vz : Nat) (z0 : Bool) (s : State) : Out :=
  .next (s.issue h fun s =>
    let q := s.renamed r
    let z := s.vxe.name vz
    let f := vrqFmt o.sub
    let w := esize f
    s.vector [q.vd] (vsources o q true true false ++ if z0 then [] else [z]) [o.msk] <|
      let one (i : Nat) : Nat × Nat :=
        let m := if o.i then sext 16 o.imm else sext 32 (vget (s.vreg q.vb) r.size i)
        let zp := if z0 then 0 else sext 32 (vget (s.vreg z) r.size i)
        let (v, c) := rq (sext r.size (vget (s.vreg q.va) r.size i)) m sh zp f
        (trunc w v, if c then flagIs else 0)
      let es := vselect (vcount r.size) (s.vxe.mask o.msk) o.z (vget (s.vreg q.vd) w) one
      s.vresult q.vd 4 (vput w (es.map Prod.fst)) (orFlags (es.map Prod.snd)))

/-! ## Reductions (R332, R334) -/

/-- The lower, or the greater, of two integers. -/
def pick (lower : Bool) (x y : Int) : Int := if lower then (if y < x then y else x) else if x < y then y else x

/-- The identities of the reductions at a size (Table 8.12, R332). -/
def redIdentity (sub sz : Nat) : Int :=
  match sub with
  | 1 => 2 ^ (sz - 1) - 1
  | 2 => -(2 ^ (sz - 1))
  | 3 => 2 ^ sz - 1
  | 5 => 2 ^ sz - 1
  | _ => 0

/-- One step of VRED on integers. -/
def redOp (sub : Nat) (x y : Int) : Int :=
  match sub with
  | 0 => x + y
  | 1 => pick true x y
  | 2 => pick false x y
  | 3 => pick true x y
  | 4 => pick false x y
  | 5 => (Nat.land x.toNat y.toNat : Nat)
  | 6 => (Nat.lor x.toNat y.toNat : Nat)
  | _ => (Nat.xor x.toNat y.toNat : Nat)

/-- An element as VRED reads it: signed for ADD, MIN and MAX. -/
def redVal (sub sz a : Nat) : Int := if sub ≤ 2 then sext sz a else a

/-- VRED reduces the selected elements to one value in element 0. -/
def execVred (h : Hdr) (r : VRegs) (o : VArith) (s : State) : Out :=
  .next (s.issue h fun s => s.vreduce r o 6 r.size fun es =>
    let x := es.foldl (fun x e => redOp o.sub x (if e.1 then redVal o.sub r.size e.2 else redIdentity o.sub r.size))
      (redIdentity o.sub r.size)
    let y := if o.sat then sat x (-(2 ^ (r.size - 1))) (2 ^ (r.size - 1) - 1) else x
    ([trunc r.size y], if x = y then 0 else flagIs))

/-- VREDI finds the least or the greatest selected element and its lowest index. -/
def execVredi (h : Hdr) (r : VRegs) (o : VArith) (s : State) : Out :=
  .next (s.issue h fun s => s.vreduce r o 6 r.size fun es =>
    let lower := o.sub % 2 == 0
    let val (a : Nat) : Int := if o.sub < 2 then sext r.size a else a
    let ident := redIdentity (o.sub + 1) r.size
    let x := es.foldl (fun x e => if e.1 then pick lower x (val e.2) else x) ident
    let at' := es.findIdx? fun e => e.1 && decide (val e.2 = x)
    ([at'.getD (2 ^ r.size - 1), trunc r.size x], 0))

end Sys2Proof.Machine
end

