-- ==== Sys2Proof/Machine/VxeMem.lean ====
section
/-!
DEFINITION. The vector engine's loads and stores, its reads of the accumulator store, and the hash
lookup (12, R306 to R310, R312, R335, R336; 04, R86).
-/

namespace Sys2Proof.Machine

/-! ## Formats (R308) -/

/-- How elements pass between a tensor and a register. -/
inductive VMode where
  /-- The bytes, unchanged. -/
  | same
  /-- Stored bytes of a 4-bit format, two elements to a byte. -/
  | packed
  /-- Sign-extended, zero-extended, or converted exactly to FP32. -/
  | signed | unsigned | float
deriving DecidableEq, Repr

/-- The mode for a format and an element size, if the combination is one of R308. -/
def vmode (fmt sz : Nat) (pk store : Bool) : Option VMode :=
  let t := esize fmt
  if pk then (if fmt = fmtInt4 ∨ fmt = fmtQX4 then some .packed else none)
  else if fmt = fmtACC ∨ fmt = fmtQX4 ∨ (fmt = fmtE8M0 ∧ sz ≠ 8) then none
  else if t = sz then some .same
  else if store ∨ sz < t then none
  else if fmt = fmtInt4 ∨ fmt = fmtInt8 ∨ fmt = fmtInt16 then some .signed
  else if fmt = fmtUint8 then some .unsigned
  else if sz = 32 ∧ (fmt = fmtE4M3 ∨ fmt = fmtE5M2 ∨ fmt = fmtBF16) then some .float
  else none

/-- A loaded element at the register's size. -/
def widen (mode : VMode) (fmt sz c : Nat) : Nat :=
  match mode with
  | .signed => trunc sz (sext (esize fmt) c)
  | .float => (cvt (fpDecode fmt c) fmtFP32 .rne false).1
  | _ => c

/-! ## Accesses (R307) -/

/-- The access of a memory-layout instruction: the block at the origin in CR. -/
def State.vaccess (s : State) (m : VMem) (ext : Option Ext) : Access :=
  let d := s.me.desc m.tid
  { d := d, slot := if d.layout = 2 then (s.me.cursor 3 m.tid + m.soff) % (d.nsm1 + 1) else 0
    origin := (s.coord m.cr).origin
    ext := match ext with
      | none => d.tile
      | some e => [e.e0, e.e1, nth d.tile 2, nth d.tile 3] }

/-- The conditions of R307 on a descriptor: the space, and the ends of a circular tensor. -/
def vdescOk (d : Desc) (soff : Nat) (write : Bool) : Bool :=
  (d.space == 0 || (d.space == 2 && !write))
    && (if d.layout = 2 then (if write then d.prod == 3 else d.cons == 3) else soff == 0)

/-- The latency of a load by its space (Table 12.7). -/
def vlat (d : Desc) (base : Nat) : Nat := if d.space = 2 then base + 8 else if d.qwin then base + 4 else base

/-- The flat addresses of an access and of the scales read with it. -/
def State.vaddrs (s : State) (p : Nat) (a : Access) : List Nat :=
  if a.empty then []
  else s.addrs p a ++ match (s.core p).scaleAccess a with
    | none => []
    | some sa => s.addrs p sa

/-- How long a read waits for banks that earlier accesses hold, for the refresh of the Cellar, and for
arbitration or the retry of a corrected error (R305, R306, R232). -/
def State.vwait (s : State) (as : List Nat) : Nat := s.bankWait as + s.readWait as

/-- A register loaded element by element: a listed element where it is selected, else zero or the
old one (R307). -/
def vloaded (sz : Nat) (k : BitVec 512) (z : Bool) (old : VReg) (vs : List Nat) : VReg :=
  vput sz ((List.range (vcount sz)).map fun j =>
    if j < vs.length ∧ k.getLsbD j then vs.getD j 0 else if z then 0 else vget old sz j)

/-- A loaded result issues: the block read enters the segment, its banks are held, and a delayed read
freezes the engine. -/
def State.vload (s : State) (d lat : Nat) (as : List Nat) (im : Image) (v : VReg) : Eff :=
  .late ((((s.holdBanks as).segBlock im).onVxe fun x => x.produce (s.gtc + lat) false d v).unstall) lat (s.vwait as)

/-- VLD loads a block (R307, R308). -/
def execVld (h : Hdr) (r : VRegs) (m : VMem) (ext : Option Ext) (s : State) : Out :=
  .next (s.issue h fun s =>
    let p := s.cur.core
    let d := s.vxe.name r.vd
    let a := s.vaccess m ext
    s.vector [d] (if m.z then [] else [d]) [m.msk] <|
      match s.checkAccess p 3 m.tid false a with
      | .bad _ cause => .fault cause 1 0
      | .ok =>
        match vmode a.d.fmt r.size m.pk false with
        | none => .fault 4 2 0
        | some mode =>
          let n := if mode = .packed then (a.count + 1) / 2 else a.count
          if !vdescOk a.d m.soff false || decide (vcount r.size < n) then .fault 4 1 0
          else if s.accessBad p a then .fault 10 9 0
          else
            let es := if a.empty then [] else s.elems p a
            let vs := if mode = .packed then (packElems a.d.fmt es).map BitVec.toNat
              else es.map (widen mode a.d.fmt r.size)
            let im := s.imageOf p 0 a
            (s.cacheTile p m.tid (s.coord m.cr) a).vload d (vlat a.d 8) (s.vaddrs p a) im
              (vloaded r.size (s.vxe.mask m.msk) m.z (s.vreg d) vs))

/-- A store issues: the elements, by their bit offsets, are written in order, and the segment closes
with their digest (R307, R309, R339). -/
def State.vstore (s : State) (d : Desc) (es : List (Nat × Nat)) : Eff :=
  let p := s.cur.core
  if s.myStream.formFull then .device
  else
    let cells := storeElems d (s.locate p d) s.byte es []
    let as := es.flatMap fun e => s.elemAddrs p d e.1
    let res : Image := { role := 3, fmt := d.fmt, blk := 0, ext := [es.length, 1, 1, 1]
                         bytes := packElems d.fmt (es.map Prod.snd) }
    let wait := s.bankWait as
    .late (((s.write cells).holdBanks as).closeSegment res false d.fmt) 1 wait

/-- VST stores a block (R307, R308). -/
def execVst (h : Hdr) (r : VRegs) (m : VMem) (ext : Option Ext) (s : State) : Out :=
  .next (s.issue h fun s =>
    let p := s.cur.core
    let va := s.vxe.name r.va
    let a := s.vaccess m ext
    s.vector [] [va] [m.msk] <|
      match s.checkAccess p 3 m.tid true a with
      | .bad _ cause => .fault cause 1 0
      | .ok =>
        match vmode a.d.fmt r.size m.pk true with
        | none => .fault 4 2 0
        | some mode =>
          let n := if mode = .packed then (a.count + 1) / 2 else a.count
          if !vdescOk a.d m.soff true || decide (vcount r.size < n) then .fault 4 1 0
          else
            let k := s.vxe.mask m.msk
            let x := s.vreg va
            let es := if a.empty then [] else a.bitOffs.mapIdx fun i b =>
              if mode = .packed then (k.getLsbD (i / 2), b, vget x 4 i) else (k.getLsbD i, b, vget x r.size i)
            s.vstore a.d ((es.filter fun e => e.1).map fun e => e.2))

/-- The single-element access of a lane (R309). -/
def laneAccess (a : Access) (k : Int) : Access :=
  { a with origin := (a.origin.getD 0 0 + k) :: a.origin.drop 1, ext := [1, 1, 1, 1] }

/-- The lanes of a gather or a scatter that touch memory: selected ones with an index of 0 or more,
with their accesses. -/
def vlanes (a : Access) (k : BitVec 512) (idx : VReg) (n : Nat) : List (Nat × Access) :=
  (List.range (min n 128)).filterMap fun i =>
    let j := sext 32 (vget idx 32 i)
    if k.getLsbD i ∧ 0 ≤ j then some (i, laneAccess a j) else none

/-- The checks of a gather or a scatter before any access (R309): the answer is a fault, or the
mode. -/
def State.vxCheck (s : State) (m : VMem) (sz : Nat) (a : Access) (write : Bool) (ls : List (Nat × Access)) :
    VMode ⊕ (Nat × Nat) :=
  let p := s.cur.core
  match s.me.checkRights 3 m.tid write with
  | .bad _ cause => .inr (cause, 1)
  | .ok =>
    match vmode a.d.fmt sz false write with
    | none => .inr (4, 2)
    | some mode =>
      if !vdescOk a.d m.soff write then .inr (4, 1)
      else if ls.any fun l => decide ((nth a.d.dim 0 : Int) ≤ l.2.origin.getD 0 0) then .inr (4, 3)
      else match ls.findSome? fun l => match s.checkAccess p 3 m.tid write l.2 with
          | .bad _ c => some c
          | .ok => none with
        | some c => .inr (c, 1)
        | none => .inl mode

/-- VLDX gathers along dimension 0 (R309). -/
def execVldx (h : Hdr) (r : VRegs) (m : VMem) (s : State) : Out :=
  .next (s.issue h fun s =>
    let p := s.cur.core
    let q := s.renamed r
    let a := s.vaccess m none
    let k := s.vxe.mask m.msk
    s.vector [q.vd] (q.vb :: if m.z then [] else [q.vd]) [m.msk] <|
      let n := vcount r.size
      let ls := vlanes a k (s.vreg q.vb) n
      match s.vxCheck m r.size a false ls with
      | .inr (cause, code) => .fault cause code 0
      | .inl mode =>
        if ls.any fun l => s.accessBad p l.2 then .fault 10 9 0
        else
          let got := ls.map fun l => (l.1, (s.elems p l.2).headD 0)
          let scales := ls.flatMap fun l => s.scaleBytes p l.2
          let bytes := packElems a.d.fmt (got.map Prod.snd) ++ scales.map (BitVec.ofNat 8 ·)
          let v := vput r.size ((List.range n).map fun i =>
            if i < 128 ∧ k.getLsbD i then
              (match got.find? fun g => g.1 == i with
                | none => 0
                | some g => widen mode a.d.fmt r.size g.2)
            else if m.z then 0 else vget (s.vreg q.vd) r.size i)
          let im : Image := { role := 0, fmt := a.d.fmt, blk := a.d.blk, ext := [got.length, 1, 1, 1], bytes := bytes }
          s.vload q.vd (vlat a.d 8) (ls.flatMap fun l => s.vaddrs p l.2) im v)

/-- VSTX scatters along dimension 0, in ascending lanes (R309). -/
def execVstx (h : Hdr) (r : VRegs) (m : VMem) (s : State) : Out :=
  .next (s.issue h fun s =>
    let q := s.renamed r
    let a := s.vaccess m none
    s.vector [] [q.va, q.vb] [m.msk] <|
      let ls := vlanes a (s.vxe.mask m.msk) (s.vreg q.vb) (vcount r.size)
      match s.vxCheck m r.size a true ls with
      | .inr (cause, code) => .fault cause code 0
      | .inl _ =>
        s.vstore a.d (ls.map fun l => (l.2.bitOffs.headD 0, vget (s.vreg q.va) r.size l.1)))

/-! ## The accumulator store (R310) -/

/-- An accumulator element as VLDA reads it. -/
def vldaElem (val : Bool) (x : Elem) : Nat :=
  if val then
    match x.cls with
    | .finite => trunc 64 x.v
    | .posInf => 2 ^ 63 - 1
    | .negInf => 2 ^ 63
    | .nan => 0
  else x.raw

/-- The image of the row exponents of a tile. -/
def MxeState.exponents (m : MxeState) (an : Nat) : Image :=
  { role := 0, fmt := fmtACC, blk := 0, ext := [128, 1, 1, 1]
    bytes := (List.range 128).flatMap fun r => leBytes 2 (trunc 16 (m.exp an r)) }

/-- What VLDA reads: the register's value and the image that its segment digests. -/
def MxeState.vlda (m : MxeState) (an r : Nat) (half xe val : Bool) : VReg × Image :=
  if xe then (vput 16 ((List.range 128).map fun i => trunc 16 (m.exp an i)), m.exponents an)
  else (vput 64 ((List.range 64).map fun j => vldaElem val (m.at' an r (64 * b2n half + j))), m.rows 0 an r 1)

/-- Whether a read of a tile is early (R86): its last writer has issued, and the VXE has consumed no
token that covers it. -/
def State.tileEarly (s : State) (h : Hdr) (an : Nat) : Bool :=
  decide ((s.consume h).myStream.clk.idx.getD 2 0 < s.me.mxeS.writer.get 0 an)

/-- VLDA reads a row of a tile, or its exponents; what an early read writes is unpredictable. -/
def execVlda (h : Hdr) (r : VRegs) (an cr : Nat) (half xe val : Bool) (s : State) : Out :=
  .next (s.issue h fun s =>
    let d := s.vxe.name r.vd
    let row := (s.coord cr).int 1
    if (s.hdrOf s.cur.core).acct ≤ an then .fault 5 6 0
    else s.vector [d] [] [] <|
      if !xe && (decide (row < 0) || decide (127 < row)) then .fault 4 1 0
      else if s.tileEarly h an && (s.hdrOf s.cur.core).check then .fault 2 7 0
      else
        let (v, im) := s.me.mxeS.vlda an row.toNat half xe val
        if s.tileEarly h an then s.free.2.vload d 6 [] im (BitVec.ofNat 4096 s.free.1)
        else s.vload d 6 [] im v)

/-! ## Hash lookup (R335, R336) -/

/-- Whether a descriptor is that of a table. -/
def hashTable (d : Desc) : Bool :=
  d.v && d.fmt == fmtInt64 && d.rank == 1 && d.layout == 0 && nth d.dim 0 == nth d.tile 0
    && decide (nth d.dim 0 = 2 ^ (nth d.dim 0).log2) && decide (nth d.dim 0 ≤ 2 ^ 16)
    && (d.space == 0 || d.space == 2) && bit d.rd 3

/-- Entries from `h` up, at most `n` of them, until the key or an empty one is met. -/
def probe (entry : Nat → Nat) (size key : Nat) : Nat → Nat → Nat
  | 0, _ => 0xFFFFFFFF
  | n + 1, h =>
    let e := entry (h % size)
    if e % 2 ^ 32 = key then e / 2 ^ 32
    else if e % 2 ^ 32 = 0xFFFFFFFF then 0xFFFFFFFF
    else probe entry size key n (h + 1)

/-- The value of a key in a table of `size` entries. -/
def hashLookup (entry : Nat → Nat) (size key : Nat) : Nat :=
  if key = 0xFFFFFFFF then 0xFFFFFFFF
  else probe entry size key (min 8 size) (Nat.xor key (key / 2 ^ 16) % size)

/-- The entries that a lookup's lanes read: the window of each selected key (R336). -/
def hashWindows (size : Nat) (keys : List Nat) : List Nat :=
  ((keys.filter fun k => k != 0xFFFFFFFF).flatMap fun k =>
    (List.range (min 8 size)).map fun i => (Nat.xor k (k / 2 ^ 16) + i) % size).eraseDups

/-- VHASH looks up every selected lane. -/
def execVhash (h : Hdr) (r : VRegs) (m : VMem) (s : State) : Out :=
  .next (s.issue h fun s =>
    let p := s.cur.core
    let q := s.renamed r
    let d := s.me.desc m.tid
    let a : Access := { d := d, slot := 0, origin := [0, 0, 0, 0], ext := d.tile }
    s.vector [q.vd] (q.va :: if m.msk ≠ 0 ∧ !m.z then [q.vd] else []) [m.msk] <|
      if !hashTable d then .fault 4 4 0
      else match s.checkAccess p 3 m.tid false a with
        | .bad _ cause => .fault cause 1 0
        | .ok =>
          if s.accessBad p a then .fault 10 9 0
          else
            let size := nth d.dim 0
            let addrs (e : Nat) : List Nat := s.elemAddrs p d (d.bitOff 0 [e, 0, 0, 0])
            let entry (e : Nat) : Nat := leNat ((addrs e).map s.byte)
            let k := s.vxe.mask m.msk
            let lanes := (List.range 128).filter fun i => k.getLsbD i
            let read := (hashWindows size (lanes.map (vget (s.vreg q.va) 32))).flatMap addrs
            let v := vput 32 ((List.range 128).map fun i =>
              if k.getLsbD i then hashLookup entry size (vget (s.vreg q.va) 32 i)
              else if m.z then 0 else vget (s.vreg q.vd) 32 i)
            let im := s.imageOf p 0 a
            (s.cacheTile p m.tid Coord.zero a).vload q.vd (vlat d 12) read im v)

end Sys2Proof.Machine
end

