-- ==== Sys2Proof/Machine/Replay.lean ====
section
/-!
DEFINITION. What a Taster forms: the result of a leaf's operation from the images that the operation read
(14, R371, R382, R384).
-/

namespace Sys2Proof.Machine

/-- What a Taster forms: the result digest, if the kind has one, the extra field, and the engine's
occupancy where its chapter gives one. -/
structure Formed where
  res   : Option Digest
  extra : Nat
  occ   : Option Nat
deriving DecidableEq, Repr

/-! ## Images -/

/-- The elements of an image. -/
def Image.elems (im : Image) : List Nat := unpackElems im.fmt (product im.ext) im.bytes

/-- The scale bytes behind the elements of an image (R351). -/
def Image.scales (im : Image) : List Byte := im.bytes.drop ((esize im.fmt * product im.ext + 7) / 8)

/-- The image of a role. -/
def roleOf (ims : List Image) (role : Nat) : Image := (ims.find? fun im => im.role == role).getD (Image.start role fmtInt8)

/-- The AUX images, in order. -/
def auxOf (ims : List Image) : List Image := ims.filter fun im => decide (4 ≤ im.role)

/-- The start of the rows of an image in their scale blocks. -/
def Image.start' (im : Image) (pick : Nat) : Nat :=
  let rows := product (im.ext.drop 1)
  if im.blk = 0 ∨ rows = 0 then 0 else scaleStart (blkSize im.blk) (im.scales.length / rows) (nth im.ext 0) pick

/-! ## MATRIX -/

/-- A core whose engine `e` can issue one instruction, whatever it waits for. -/
def tasterCore (e : Engine) : Core :=
  let iq := (List.range 10).foldl (fun (m : SMap (List Clock)) q => m.set [] q (List.replicate 63 Clock.zero)) []
  { Core.idle with task := some 0, iq := iq }.setStream e false { Stream.empty with len := 2 ^ 32, ended := false }

/-- The state in which a Taster runs an instruction of engine `e` with its words. -/
def tasterState (e : Engine) (ws : List Nat) (free : Nat) : State :=
  let s := (State.reset.setTask 0 (some (wordTask e))).setCore 0 (tasterCore e)
  { s with freeCtr := free, cur := { core := 0, eng := e, fw := false, words := ws, port := 0, queue := 0 } }

/-- An operand block from its image. -/
def Block.ofImage (im : Image) (pick : Nat) : Block :=
  { fmt := im.fmt, blk := im.blk, rows := nth im.ext 1, k := nth im.ext 0, elems := im.elems
    scales := im.scales.map BitVec.toNat, start := im.start' pick, digest := im.digest }

/-- A weight slot that holds a block. -/
def WSlot.ofBlock (b : Block) : WSlot := { block := b, ts := 0, origin := Coord.zero, e0 := b.k, e1 := b.rows, cel := false }

/-- The rows of a tile from `r0` up set from their image. -/
def MxeState.loadRows (m : MxeState) (an r0 : Nat) (im : Image) : MxeState :=
  let n := nth im.ext 1
  let es := (pieces 8 (128 * n) im.bytes).map leNat
  let xs := (pieces 2 n (im.bytes.drop (1024 * n))).map fun b => sext 16 (leNat b)
  m.puts ((List.range n).flatMap fun i =>
    MxeWrite.rowExp (128 * an + r0 + i) (xs.getD i 0)
      :: (List.range 128).map fun j => MxeWrite.elem (16384 * an + 128 * (r0 + i) + j) (Elem.ofRaw (es.getD (128 * i + j) 0)))

/-- A field of 32 bytes of a leaf record that is absent when zero. -/
def optAt (record : List Byte) (off : Nat) : Option Digest := if digAt record off = 0 then none else some (digAt record off)

/-- What the last matrix instruction issued in a state forms. -/
def formedBy (o : Out) : Option Formed :=
  match o with
  | .next s =>
    s.me.mxeS.flight.getLast?.bind fun k => k.record.map fun r =>
      { res := optAt r 0x88, extra := numAt r 0xA8 8, occ := some (k.free - s.gtc) }
  | _ => none

/-- The slots and the group counts of an MMAG from its AUX images (R382). -/
def groupSlots (m : MxeState) (aux : List Image) (free : Nat) : MxeState :=
  { m with slots := (aux.mapIdx fun g im => (g, im)).foldl (fun t e =>
      t.set none e.1 (if e.2.role = 5 then none else some (WSlot.ofBlock (Block.ofImage e.2 (Config.freeValue (free + 1 + e.1)))))) [] }

/-- The coordinate register of four INT32 words. -/
def countCoord (im : Image) : Coord := coordAt im.bytes 0

/-- A MATRIX leaf formed anew (R291). The row range's start, which no image holds, is that of the
record's extra field; the extents of a retired block are those of its image. -/
def replayMatrix (i : Instr) (ws : List Nat) (nmode extra : Nat) (ims : List Image) (free : Nat) : Option Formed :=
  let s0 := tasterState .mxe ws free
  let s0 := s0.onMe fun c => { c with mxeS := { c.mxeS with ovt := bit nmode 0 } }
  let on (f : MxeState → MxeState) : State := s0.onMe fun c => { c with mxeS := f c.mxeS }
  let x0 := roleOf ims 0
  let x1 := roleOf ims 1
  let x2 := roleOf ims 2
  let r0 := bits extra 10 3
  let n := nth x0.ext 1
  let at' (s : State) (r : Rows) (r0 n : Nat) : State :=
    s.setCoord r.cr { Coord.zero with x := BitVec.ofNat 24 r0, y := BitVec.ofNat 24 n }
  match i with
  | .mrd _ q _ _ _ => some { res := none, extra := q, occ := some (ticks x0.bytes.length 2048) }
  | .wld _ w _ _ _ => some { res := none, extra := w, occ := none }
  | .mma h an q w pop =>
    formedBy (execMma h an q w pop (on fun m =>
      let m := { m with bufs := m.bufs.set none (bufOf q 0) (some (Block.ofImage x0 (Config.freeValue free))), wr := m.wr.set 0 q 1
                        slots := m.slots.set none w (some (WSlot.ofBlock (Block.ofImage x1 (Config.freeValue (free + 1))))) }
      m.loadRows an 0 x2))
  | .mmag h an q pop cg ngm1 =>
    let aux := auxOf ims
    let s := on fun m =>
      let m := { m with bufs := m.bufs.set none (bufOf q 0) (some (Block.ofImage x0 (Config.freeValue free))), wr := m.wr.set 0 q 1 }
      (groupSlots m (aux.take (ngm1 + 1)) free).loadRows an 0 x2
    formedBy (execMmag h an q pop cg ngm1 (s.setCoord cg (countCoord ((aux.drop (ngm1 + 1)).headD (Image.start 4 fmtInt32)))))
  | .aset h an r exp => formedBy (execAset h an r exp (at' (on fun m => m.loadRows an r0 x0) r r0 n))
  | .aclr h an r => formedBy (execAclr h an r (at' (on fun m => m.loadRows an r0 x0) r r0 n))
  | .anorm h an r k => formedBy (execAnorm h an r k (at' (on fun m => m.loadRows an r0 x0) r r0 n))
  | .aadd h an r as =>
    let r0 := bits extra 13 6
    formedBy (execAadd h an r as (at' (on fun m => (m.loadRows as r0 x1).loadRows an r0 x0) r r0 n))
  | .aret _ an _ fr sh _ _ _ _ rm =>
    let m := MxeState.zero.loadRows an r0 x0
    let f := bits nmode 31 24
    let (vs, _) := m.retire an r0 n (nth (roleOf ims 3).ext 0) f rm sh x1.elems
    some { res := some (imageDigest f (packElems f vs))
           extra := an + r0 * 2 ^ 3 + n * 2 ^ 11 + b2n fr * 2 ^ 19 + rm * 2 ^ 20 + sh * 2 ^ 22, occ := some (ticks n 2) }
  | .awr _ an _ xe _ _ =>
    let m := MxeState.zero.loadRows an r0 x1
    let after := (m.puts (awrWrites an r0 n xe x0.elems)).rows 3 an r0 n
    some { res := some after.digest, extra := an + r0 * 2 ^ 3 + n * 2 ^ 11 + b2n xe * 2 ^ 19, occ := some (max 1 n) }
  | _ => none

/-! ## LOAD and STORE -/

/-- The rows of an image of elements. -/
def rowsBy (e0 : Nat) (es : List Nat) : List (List Nat) := pieces e0 es.length es

/-- The rows of a CPIG: a negative index gives a row of zeros (R223). -/
def gatherRows (e0 : Nat) : List Int → List (List Nat) → List Nat
  | [], _ => []
  | k :: ks, rows =>
    if k < 0 then List.replicate e0 0 ++ gatherRows e0 ks rows
    else rows.headD [] ++ gatherRows e0 ks (rows.drop 1)

/-- The rows that a CPOS sends: a negative index omits its row (R249). -/
def scatterRows : List Int → List (List Nat) → List Nat
  | k :: ks, r :: rows => if k < 0 then scatterRows ks rows else r ++ scatterRows ks rows
  | _, _ => []

/-- The indices of an index image. -/
def indicesOf (im : Image) : List Int := (pieces 4 im.bytes.length im.bytes).map fun b => sext 32 (leNat b)

/-- The elements that a converting copy of the LCE writes (R224, R225). -/
def convertAll (a : LceArgs) (im : Image) (dfmt pick : Nat) : List Nat :=
  let d := { Desc.of 0 with fmt := im.fmt, blk := im.blk }
  let src : Access := { d := d, slot := 0, origin := [(im.start' pick : Int), 0, 0, 0], ext := im.ext }
  let bs := cellsAt 0 im.bytes
  (List.range (product im.ext)).map fun i =>
    (lceValue id a src dfmt im.scales bs { i := i, src := some (i * esize im.fmt), dst := none }).1

/-- A LOAD leaf formed anew (Table 9.6). What no image holds of the extra field is the record's. -/
def replayLoad (i : Instr) (extra : Nat) (ims : List Image) (free : Nat) : Option Formed :=
  let x0 := roleOf ims 0
  let x3 := roleOf ims 3
  (lceArgs i).map fun a =>
    match a.op with
    | .cpig =>
      let e0 := nth x3.ext 0
      let es := gatherRows e0 (indicesOf (roleOf ims 1)) (rowsBy e0 x0.elems)
      { res := some (imageDigest x3.fmt (packElems x3.fmt es)), extra := 0, occ := none }
    | .cpa =>
      let vs := convertAll a x0 fmtACC (Config.freeValue free)
      let exps := (List.range (nth x0.ext 1 * nth x0.ext 2 * nth x0.ext 3)).flatMap fun _ => leBytes 2 (trunc 16 a.exp)
      { res := some (imageDigest fmtACC (packElems fmtACC vs ++ exps)), extra := 0, occ := none }
    | .cpq =>
      { res := some (imageDigest x3.fmt (packElems x3.fmt (convertAll a x0 x3.fmt (Config.freeValue free)))), extra := 0, occ := none }
    | .cpic => { res := some (imageDigest x3.fmt (packElems x3.fmt x0.elems)), extra := extra % 16, occ := none }
    | _ => { res := some (imageDigest x3.fmt (packElems x3.fmt x0.elems)), extra := 0, occ := none }

/-- A STORE leaf formed anew (Table 10.9). What no image holds of the extra field is the record's. -/
def replayStore (i : Instr) (extra : Nat) (ims : List Image) : Option Formed :=
  let x0 := roleOf ims 0
  let x3 := roleOf ims 3
  let plain (extra : Nat) : Formed := { res := some (imageDigest x3.fmt (packElems x3.fmt x0.elems)), extra := extra, occ := none }
  (sceArgs i).bind fun a =>
    match a.op with
    | .cpo | .cpf => some (plain 0)
    | .cpoc => some (plain (extra % 2 ^ 12 / 2 ^ 8 * 2 ^ 8))
    | .cpos =>
      let es := scatterRows (indicesOf (roleOf ims 1)) (rowsBy (nth x0.ext 0) x0.elems)
      some { res := some (imageDigest x3.fmt (packElems x3.fmt es)), extra := 0, occ := none }
    | .cpm =>
      let members := (membersOf (leNat (roleOf ims 1).bytes)).length
      let naks := (membersOf (leNat (roleOf ims 2).bytes)).length
      some (plain (extra % 2 ^ 8 + b2n (decide (naks ≠ 0)) * 2 ^ 8 + a.num * 2 ^ 16 + (members - naks) * 2 ^ 24 + naks * 2 ^ 34))
    | _ => none

/-! ## VSEG -/

/-- The state after a step. -/
def ran (o : Out) (s : State) : State :=
  match o with
  | .next t => t
  | _ => s

/-- An instruction of the VXE that reads no block and changes no loop, run. -/
def vexec (i : Instr) (s : State) : State :=
  match i with
  | .csetImm h cd mask imm => ran (execCsetImm h cd mask imm s) s
  | .csetReg h cd mask ca => ran (execCsetReg h cd mask ca s) s
  | .caddImm h cd mask imm => ran (execCaddImm h cd mask imm s) s
  | .caddReg h cd mask ca => ran (execCaddReg h cd mask ca s) s
  | .cmodImm h cd mask imm => ran (execCmodImm h cd mask imm s) s
  | .cmodReg h cd mask ca => ran (execCmodReg h cd mask ca s) s
  | .vbcE h r o => ran (execVbcE h r o s) s
  | .vbcI h r o => ran (execVbcI h r o s) s
  | .vbcC h r o => ran (execVbcC h r o s) s
  | .vbcSt h r o => ran (execVbcSt h r o s) s
  | .vbcWc h r o => ran (execVbcWc h r o s) s
  | .vbcClr h r o => ran (execVbcClr h r o s) s
  | .vspill h r => ran (execVspill h r s) s
  | .vfill h r => ran (execVfill h r s) s
  | .viota h r o => ran (execViota h r o s) s
  | .vperm h r o => ran (execVperm h r o s) s
  | .vslide h r o => ran (execVslide h r o s) s
  | .vcomp h r o => ran (execVcomp h r o s) s
  | .vmsk h r o => ran (execVmsk h r o s) s
  | .vmpop h r o => ran (execVmpop h r o s) s
  | .viadd h r o => ran (execViadd h r o s) s
  | .vimul h r o => ran (execVimul h r o s) s
  | .vmac h r o => ran (execVmac h r o s) s
  | .vdot4 h r o => ran (execVdot4 h r o s) s
  | .vminmax h r o => ran (execVminmax h r o s) s
  | .vlogic h r o => ran (execVlogic h r o s) s
  | .vshift h r o => ran (execVshift h r o s) s
  | .vrsh h r o => ran (execVrsh h r o s) s
  | .vrq h r o sh vz z0 => ran (execVrq h r o sh vz z0 s) s
  | .vcmp h r o => ran (execVcmp h r o s) s
  | .vsel h r o => ran (execVsel h r o s) s
  | .vunary h r o => ran (execVunary h r o s) s
  | .vclamp h r o => ran (execVclamp h r o s) s
  | .vfadd h r o => ran (execVfadd h r o s) s
  | .vfmul h r o => ran (execVfmul h r o s) s
  | .vfma h r o => ran (execVfma h r o s) s
  | .vfminmax h r o => ran (execVfminmax h r o s) s
  | .vfun h r o => ran (execVfun h r o s) s
  | .vfcmp h r o => ran (execVfcmp h r o s) s
  | .vcvt h r o => ran (execVcvt h r o s) s
  | .vqx4Enc h r o => ran (execVqx4Enc h r o s) s
  | .vqx4Dec h r o => ran (execVqx4Dec h r o s) s
  | .vscale h r o => ran (execVscale h r o s) s
  | .vscaleBlk h r o => ran (execVscaleBlk h r o s) s
  | .vred h r o => ran (execVred h r o s) s
  | .vfred h r o => ran (execVfred h r o s) s
  | .vredi h r o => ran (execVredi h r o s) s
  | _ => s

/-- The levels in a stream entry from byte 16 on, innermost first; a level that counts nothing is none. -/
def levelsOf (bs : List Byte) : List LoopLevel :=
  (((List.range 4).map fun l =>
    ({ start := numAt bs (16 * l) 4, stop := numAt bs (16 * l + 4) 4, count := numAt bs (16 * l + 8) 8 } : LoopLevel)).filter
      fun l => l.count != 0).reverse

/-- The VLOOP state behind those levels. -/
def snapVloop (bs : List Byte) : Option VLoop :=
  let v := numAt bs 64 8
  if bits v 23 0 = 0 then none
  else some { count := bits v 23 0, iter := bits v 47 24, rb := bits v 52 48, rlm1 := bits v 57 53, rs := bits v 62 58
              start := numAt bs 72 4, stop := numAt bs 76 4 }

/-- A Taster's VXE as a snapshot gives it (R340), its program counter at `pc`. -/
def ofSnapshot (bs : List Byte) (pc free : Nat) : State :=
  let k := (bs.length - 800) / 512
  let spill := decide (32 < k)
  let nv := if spill then k - 32 else k
  let o := 512 * nv
  let s := tasterState .vxe [] free
  let t := wordTask .vxe
  let s := s.setTask 0 (some { t with hdr := { t.hdr with vregs := nv, spillbank := spill } })
  let regs := (List.range nv).foldl (fun (m : SMap (BitVec 4096)) r => m.set 0 r (BitVec.ofNat 4096 (numAt bs (512 * r) 512))) []
  let masks := (List.range 7).foldl (fun (m : SMap (BitVec 512)) j => m.set 0 (j + 1) (BitVec.ofNat 512 (numAt bs (o + 64 * j) 64))) []
  let cs := (List.range 16).foldl (fun (m : SMap Coord) j => m.set Coord.zero (48 + j) (coordAt bs (o + 448 + 16 * j))) []
  let entry := cutAt bs (o + 720) 80
  let bank := (List.range (if spill then 32 else 0)).foldl (fun (m : SMap (BitVec 4096)) j =>
    m.set 0 j (BitVec.ofNat 4096 (numAt bs (o + 800 + 512 * j) 512))) []
  s.onMe fun c => { c with
    coords := cs
    vxe := { c.vxe with pc := pc, loops := levelsOf entry }
    vxeS := { VxeState.zero with
      v := regs, m := masks, spill := bank, vxst := BitVec.ofNat 64 (numAt bs (o + 704) 8)
      vxctl := BitVec.ofNat 64 (numAt bs (o + 712) 8), vloop := snapVloop entry } }

/-- The stream moves to a word offset, past the end of an active VLOOP body included. -/
def State.vgoto (s : State) (pc : Nat) : State :=
  s.onMe fun c =>
    let (c, pc) := c.wrapVloop pc
    { c with vxe := { c.vxe with pc := pc } }

/-- An instruction run when nothing pends: its results land before the next one, and it finds its
tokens. -/
def State.vrun (s : State) (i : Instr) : State :=
  let s := { s with gtc := max s.gtc s.me.vxe.ready }
  let s := s.onMe fun c => { c with iq := (tasterCore .vxe).iq, vxe := { c.vxe with gives := [], form := [] } }
  (vexec i s).onMe fun c => { c with vxeS := { c.vxeS.landed with traps := [], banks := [], seg := Segment.empty } }

/-- A register written at once. -/
def State.vput' (s : State) (d : Nat) (v : VReg) : State := s.onVxe fun x => { x with v := x.v.set 0 d v }

/-- What a load makes of the elements of its block (R307, R308). -/
def State.vfilled (s : State) (r : VRegs) (m : VMem) (im : Image) : VReg :=
  let es := im.elems
  let mode := (vmode im.fmt r.size m.pk false).getD .same
  let vs := if mode = .packed then (packElems im.fmt es).map BitVec.toNat else es.map (widen mode im.fmt r.size)
  vloaded r.size (s.vxe.mask m.msk) m.z (s.vreg (s.vxe.name r.vd)) vs

/-- What a gather makes of the elements it has read (R309). -/
def State.vgathered (s : State) (r : VRegs) (m : VMem) (im : Image) : VReg :=
  let q := s.renamed r
  let k := s.vxe.mask m.msk
  let n := vcount r.size
  let mode := (vmode im.fmt r.size false false).getD .same
  let lanes := (List.range (min n 128)).filter fun i => k.getLsbD i && decide (0 ≤ sext 32 (vget (s.vreg q.vb) 32 i))
  let got := lanes.zip im.elems
  vput r.size ((List.range n).map fun i =>
    if i < 128 ∧ k.getLsbD i then
      (match got.find? fun g => g.1 == i with
        | none => 0
        | some g => widen mode im.fmt r.size g.2)
    else if m.z then 0 else vget (s.vreg q.vd) r.size i)

/-- What a hash lookup makes of its table (R335, R336). -/
def State.vhashed (s : State) (r : VRegs) (m : VMem) (im : Image) : VReg :=
  let q := s.renamed r
  let es := im.elems
  let k := s.vxe.mask m.msk
  vput 32 ((List.range 128).map fun i =>
    if k.getLsbD i then hashLookup (es.getD · 0) (nth im.ext 0) (vget (s.vreg q.va) 32 i)
    else if m.z then 0 else vget (s.vreg q.vd) 32 i)

/-- What a read of the accumulator store makes of its image (R310). -/
def vldaOf (half xe val : Bool) (im : Image) : VReg :=
  if xe then vput 16 ((pieces 2 128 im.bytes).map leNat)
  else
    let es := (pieces 8 128 im.bytes).map fun b => Elem.ofRaw (leNat b)
    vput 64 ((List.range 64).map fun j => vldaElem val (es.getD (64 * b2n half + j) Elem.zero))

/-- A block read: its image is the next AUX. -/
def State.vblock (s : State) (h : Hdr) (d : Nat) (f : Image → VReg) (aux : List Image) : List Image × State :=
  let im := aux.headD (Image.start 4 fmtInt8)
  (aux.drop 1, (s.vput' d (f im)).vgoto (s.me.vxe.pc + h.n))

/-- One instruction of a segment. Of a CLDP the images hold no argument: its components are free
values. -/
def State.vstep (s : State) (i : Instr) (aux : List Image) : List Image × State :=
  let pc := s.me.vxe.pc
  match i with
  | .nop h | .mark h | .fence h _ | .atStamp h _ | .atLax h _ => (aux, s.vgoto (pc + h.n))
  | .loop h body count =>
    let n := s.loopCount count
    let first := pc + h.n
    if n ≤ 0 then (aux, s.vgoto (first + body))
    else (aux, (s.onMe fun c => { c with vxe := { c.vxe with
      loops := { start := first, stop := first + body - 1, count := n.toNat } :: c.vxe.loops } }).vgoto first)
  | .endl h =>
    match s.me.vxe.loops with
    | [] => (aux, s.vgoto (pc + h.n))
    | l :: ls =>
      if 1 < l.count then
        (aux, (s.onMe fun c => { c with vxe := { c.vxe with loops := { l with count := l.count - 1 } :: ls } }).vgoto l.start)
      else (aux, (s.onMe fun c => { c with vxe := { c.vxe with loops := ls } }).vgoto (pc + h.n))
  | .vloop h rb rlm1 rs body count =>
    let n := s.loopCount count
    let first := pc + h.n
    if n ≤ 0 then (aux, s.vgoto (first + body))
    else
      let v : VLoop := { count := n.toNat, iter := 0, start := first, stop := first + body - 1, rb := rb, rlm1 := rlm1, rs := rs }
      (aux, (s.onVxe fun x => { x with vloop := some v }).vgoto first)
  | .cldp h cd mask _ =>
    let c := s.coord cd
    let s := s.setCoord cd (c.update mask fun k => BitVec.ofNat 24 (Config.freeValue (s.freeCtr + k)))
    let s := { s with freeCtr := s.freeCtr + 4 }
    (aux, s.vgoto (pc + h.n))
  | .vld h r m _ => s.vblock h (s.vxe.name r.vd) (s.vfilled r m) aux
  | .vldx h r m => s.vblock h (s.vxe.name r.vd) (s.vgathered r m) aux
  | .vhash h r m => s.vblock h (s.vxe.name r.vd) (s.vhashed r m) aux
  | .vlda h r _ _ half xe val => s.vblock h (s.vxe.name r.vd) (vldaOf half xe val) aux
  | i => (aux, s.vrun i)

/-- The elements that the store that closes a segment writes, `n` of them (R307, R309, R339). -/
def State.vstored (s : State) (i : Instr) (n : Nat) : List Nat :=
  match i with
  | .vst _ r m _ =>
    let x := s.vreg (s.vxe.name r.va)
    let k := s.vxe.mask m.msk
    let sz := if m.pk then 4 else r.size
    (((List.range (4096 / sz)).filter fun j => k.getLsbD (if m.pk then j / 2 else j)).take n).map (vget x sz)
  | .vstx _ r m =>
    let q := s.renamed r
    let k := s.vxe.mask m.msk
    ((List.range (min (vcount r.size) 128)).filter fun j =>
      k.getLsbD j && decide (0 ≤ sext 32 (vget (s.vreg q.vb) 32 j))).map (vget (s.vreg q.va) r.size)
  | _ => []

/-- The words of a segment run; what its last instruction forms, and how many instructions it has. -/
def vsegRun (res : Image) (blocks : Nat) : Nat → Nat → List Nat → List Image → State → Option Formed
  | 0, _, _, _, _ => none
  | fuel + 1, n, ws, aux, s =>
    let k := lenOf (ws.getD 0 0)
    match Sys2Proof.decode .vxe (ws.take k) with
    | .error _ => none
    | .ok i =>
      let issues := match i with
        | .atStamp _ _ | .atLax _ _ => n
        | _ => n + 1
      let close (d : Digest) (atEnd : Bool) : Option Formed :=
        some { res := some d, extra := issues % 2 ^ 32 + blocks % 2 ^ 16 * 2 ^ 32 + b2n atEnd * 2 ^ 48, occ := none }
      match i with
      | .endStream _ => close (imageDigest 0x01 (s.snapshot 0)) true
      | .vst _ _ _ _ | .vstx _ _ _ => close (imageDigest res.fmt (packElems res.fmt (s.vstored i (nth res.ext 0)))) false
      | i =>
        let (aux, s) := s.vstep i aux
        vsegRun res blocks fuel issues (ws.drop k) aux s

/-- A VSEG leaf formed anew (R339, R340). Where the segment does not begin the stream, no image holds its
first word offset: it is a free value. -/
def replaySegment (sidx : Nat) (ims : List Image) (free : Nat) : Option Formed :=
  let ws := (pieces 4 (roleOf ims 1).bytes.length (roleOf ims 1).bytes).map leNat
  let aux := auxOf ims
  let run (pc : Nat) : Option Formed :=
    vsegRun (roleOf ims 3) aux.length (ws.length + 1) 0 ws aux (ofSnapshot (roleOf ims 2).bytes pc (free + 1))
  match run 0 with
  | none => none
  | some f => if f.extra % 2 ^ 32 = sidx + 1 then some f else run (Config.freeValue free % 2 ^ 32)

/-! ## Any leaf -/

/-- Whether a leaf of a kind can be re-executed (Table 14.7). -/
def replayable (kind : Nat) (i : Option Instr) : Bool :=
  match kind with
  | 1 | 5 | 6 => true
  | 3 => (match i.bind sceArgs with
      | some a => a.op != .fat
      | none => true)
  | _ => false

/-- The instruction of a leaf record. -/
def recordInstr (record : List Byte) : Option Instr :=
  let ws := ((pieces 4 4 (cutAt record 0x10 16)).map leNat).take (numAt record 3 1)
  match Sys2Proof.decode (engOf (numAt record 2 1)) ws with
  | .ok i => some i
  | .error _ => none

/-- A leaf formed anew from its record and images (R384): none where the images let nothing be formed. The
result of a copy that its record gives as failed lies outside what its images hold: it is free. -/
def replay (record : List Byte) (ims : List Image) (free : Nat) : Option Formed :=
  let kind := numAt record 1 1
  let extra := numAt record 0xA8 8
  let failed := (kind == 1 || kind == 3) && digAt record 0x88 == 0
  let ws := ((pieces 4 4 (cutAt record 0x10 16)).map leNat).take (numAt record 3 1)
  if failed then
    some { res := some (BitVec.ofNat 256 (Config.freeValue free)), extra := Config.freeValue (free + 1) % 2 ^ 64, occ := none }
  else match kind, recordInstr record with
    | 1, some i => replayLoad i extra ims free
    | 3, some i => replayStore i extra ims
    | 5, some i => replayMatrix i ws (numAt record 0x20 4) extra ims free
    | 6, _ => replaySegment (numAt record 8 8 % 2 ^ 40) ims free
    | _, _ => none

end Sys2Proof.Machine
end

