-- ==== Sys2Proof/Machine/Tasks.lean ====
section
/-!
DEFINITION. The life of a task: readiness, the ready pools, reservations and pre-emption, its start and
its placement, its retirement, CELLAR tasks and speculations (02, R19, R21, R28, R35; 13, R354, R364;
15, R404, R408 to R417).
-/

namespace Sys2Proof.Machine

/-! ## Free cores and placement shapes (R19, R176) -/

/-- Whether core `p` is in service. -/
def State.inService (s : State) (p : Nat) : Bool :=
  (s.die (p / 32)).present && !(s.die (p / 32)).leaving && (s.die (p / 32)).positions.contains (p % 32)

/-- Whether a task may be placed on core `p`: it is in service, holds no task, and its firmware context
has not been halted by a fault. -/
def State.isFree (s : State) (p : Nat) : Bool :=
  s.inService p && (s.core p).task.isNone && !(s.core p).fwDead

/-- The cores of die `d` that pass a test, lowest first. -/
def State.dieCores (s : State) (ok : Nat → Bool) (d : Nat) : List Nat :=
  if (s.die d).present then ((s.die d).positions.map (32 * d + ·)).filter ok else []

/-- The first `r` quad positions of a quad, where all of them pass a test. -/
def State.quadAt (s : State) (ok : Nat → Bool) (d k r : Nat) : Option (List Nat) :=
  let x := s.die d
  let ps := (List.range r).map fun i => 32 * d + x.physPos (4 * k + i)
  if ps.all fun p => s.inService p && ok p then some ps else none

/-- Groups of four in whole quads, and a last partial group in the low positions of its quad
(Table 2.2). -/
def State.fitQuads (s : State) (ok : Nat → Bool) (n : Nat) (ds : List Nat) : Option (List Nat) :=
  let sites := ds.flatMap fun d => (List.range 4).map fun k => (d, k)
  let whole := sites.filterMap fun e => (s.quadAt ok e.1 e.2 4).map fun ps => (e, ps)
  let take := whole.take (n / 4)
  let body := take.flatMap fun (e : (Nat × Nat) × List Nat) => e.2
  if whole.length < n / 4 then none
  else if n % 4 = 0 then some body
  else
    let rest := sites.filter fun e => !take.any fun t => t.1 == e
    (rest.findSome? fun e => s.quadAt ok e.1 e.2 (n % 4)).map fun ps => body ++ ps

/-- An element put in its place in a list that is in order. -/
def insertBy {α : Type} (le : α → α → Bool) (x : α) : List α → List α
  | [] => [x]
  | y :: ys => if le x y then x :: y :: ys else y :: insertBy le x ys

/-- A list in order; equals stay as they stood. -/
def sortBy {α : Type} (le : α → α → Bool) (xs : List α) : List α := xs.foldr (insertBy le) []

/-- The dies by the number of their cores that pass a test, then by number (R411). -/
def State.diesBy (s : State) (ok : Nat → Bool) : List Nat :=
  let n (d : Nat) : Nat := (s.dieCores ok d).length
  sortBy (fun a b => decide (n b ≤ n a)) ((List.range 32).filter fun d => n d != 0)

/-- Cores that pass a test for `n` virtual cores under a shape: core `v` of the list is for virtual core
`v` (R19, R411). -/
def State.fit (s : State) (ok : Nat → Bool) (shape n : Nat) : Option (List Nat) :=
  let ds := s.diesBy ok
  match shape with
  | 0 =>
    let ps := ds.flatMap (s.dieCores ok)
    if n ≤ ps.length then some (ps.take n) else none
  | 1 => s.fitQuads ok n ds
  | _ => ds.findSome? fun d => s.fitQuads ok n [d]

/-! ## Readiness (R408, R409) -/

/-- Whether two regions overlap; `same` tells whether their tasks share an address space (R408). -/
def overlaps (same : Bool) (a b : Region) : Bool :=
  a.cel == b.cel && (a.cel || same) && decide (a.start < b.start + b.len) && decide (b.start < a.start + a.len)

/-- Whether two tasks declare regions that clash (R409). -/
def Task.clashes (x y : Task) : Bool :=
  x.regions.any fun a => y.regions.any fun b => (a.w || b.w) && overlaps (x.asid == y.asid) a b

/-- Whether task `x` waits for the earlier task `y` (R409). A speculation is no accepted task. -/
def Task.waitsFor (x y : Task) : Bool :=
  y.spec.isNone && decide (y.order < x.order)
    && (x.clashes y || (x.ordered && y.queue == x.queue) || x.preds.contains y.order)

/-- Whether nothing that task `x` waits for is left (R409, Table 15.3). -/
def State.readyNow (s : State) (x : Task) : Bool :=
  (s.tasks.all fun e => match e.2 with
    | some y => !x.waitsFor y
    | none => true)
    && (!x.ordered || !(s.queue x.queue).opens.any fun o => decide (o.seq < x.pseq))

/-! ## Reservations and pools (R411) -/

/-- CLASS of a task. -/
def State.clsOf (s : State) (t : Task) : Nat := (s.queue t.queue).entry.cls

/-- Whether a task could be placed with cores of die `d`, were all of them free. -/
def State.capable (s : State) (t : Task) (d : Nat) : Bool :=
  let all (_ : Nat) : Bool := true
  if t.pins ≠ [] then t.pins.any fun p => p / 32 == d
  else match t.shape with
  | 0 => !(s.dieCores all d).isEmpty
  | 1 => (List.range 4).any fun k => (s.quadAt all d k (min 4 t.n)).isSome
  | _ => (s.fitQuads all t.n [d]).isSome

/-- Whether one ready task is older than another. -/
def Task.older (a b : Task) : Bool :=
  decide (a.readyAt < b.readyAt) || (a.readyAt == b.readyAt && decide (a.order < b.order))

/-- Whether a core is reserved against task `t`: a reserving task of its class, or of a lower-numbered
one, holds what frees on that die, unless `t` reserves first (R411). -/
def State.barred (s : State) (t : Task) (p : Nat) : Bool :=
  s.tasks.any fun e => match e.2 with
    | some r => r.reserving && r.order != t.order && decide (s.clsOf r ≤ s.clsOf t)
        && !(t.reserving && t.older r) && s.capable r (p / 32)
    | none => false

/-- Cores that pass a test for a task: those of its shape, or the ones it is pinned to (R19, R380). -/
def State.fitTask (s : State) (ok : Nat → Bool) (t : Task) : Option (List Nat) :=
  if t.pins = [] then s.fit ok t.shape t.n else if t.pins.all ok then some t.pins else none

/-- Where a task can be placed now. -/
def State.placeFor (s : State) (t : Task) : Option (List Nat) :=
  s.fitTask (fun p => s.isFree p && !s.barred t p) t

/-- Whether a task is ready and has no cores yet. -/
def Task.waitsCores (t : Task) : Bool :=
  (match t.phase with | .ready _ _ => true | _ => false) && t.cores.isEmpty && t.cutReq.isNone

/-- The pool that holds a task. -/
def Task.pool (t : Task) : Option Nat :=
  match t.phase with
  | .ready _ d => if t.cores.isEmpty then d else none
  | _ => none

/-- Tasks in the pool of die `d`. -/
def State.poolCount (s : State) (d : Nat) : Nat :=
  (s.tasks.filter fun e => (e.2.bind Task.pool) == some d).length

/-- The pool that the front end chooses for a task: that of the first die by free cores that can hold
its shape, else of the next in ascending number with room (R411). A task that no die in service can hold waits
in a pool too (R19): for it every die counts (log entry 145). -/
def State.choosePool (s : State) (t : Task) : Option Nat :=
  let able := (List.range 32).filter (s.capable t)
  let ds := if able = [] then List.range 32 else able
  let n (d : Nat) : Nat := (s.dieCores s.isFree d).length
  match sortBy (fun a b => decide (n b ≤ n a)) ds with
  | [] => none
  | d :: _ =>
    (d :: (ds.filter (decide <| d < ·) ++ ds.filter (decide <| · < d))).find? fun k => decide (s.poolCount k < 64)

/-! ## Pre-emption (R413, R414) -/

/-- A running task that may be selected to yield, with its rank (R413). -/
def State.yieldRank (s : State) (t x : Task) : Option Nat :=
  match x.phase with
  | .running =>
    if x.spec.isSome then some 0
    else if x.cutReq.isSome then none
    else if s.clsOf t < s.clsOf x then some 1
    else if s.clsOf x = s.clsOf t ∧ x.expired then some 2
    else none
  | _ => none

/-- The tasks that may be selected for `t`, in the order of R413. -/
def State.yieldOrder (s : State) (t : Task) : List (Nat × Task) :=
  let xs := s.tasks.filterMap fun e => e.2.bind fun x => (s.yieldRank t x).map fun r => (r, e.1, x)
  (sortBy (fun (a b : Nat × Nat × Task) => decide (a.1 < b.1)
    || (a.1 == b.1 && decide (a.2.2.started ≤ b.2.2.started))) xs).map Prod.snd

/-- The shortest beginning of a list of tasks whose cores, with those already free or promised, let `t`
be placed. -/
def State.selectFor (s : State) (t : Task) : List Nat → List (Nat × Task) → List (Nat × Task) → Option (List (Nat × Task))
  | got, sel, xs =>
    if (s.fitTask (fun p => !s.barred t p && (s.isFree p || got.contains p)) t).isSome then some sel
    else match xs with
      | [] => none
      | x :: rest => s.selectFor t (got ++ x.2.cores) (sel ++ [x]) rest

/-- A yield request for a task, sent now for the tick 300 ticks on (R414). -/
def Task.askYield (t : Task) (now : Nat) : Task :=
  { t with cutReq := some { at? := none, kind := 4, ends := false, detail := 0, fwFault := false, stops := []
                            saves := [], yield := true, ty := now + 300 } }

/-- The tasks selected for task `id`: speculations are discarded, the others asked to yield. -/
def State.selectAll (s : State) (id : Nat) (xs : List (Nat × Task)) : State :=
  xs.foldl (fun s e =>
    if e.2.spec.isSome then s.discard e.2.queue .cores
    else s.setTask e.1 (some { e.2.askYield s.gtc with after := some id })) s

/-- A ready task that cannot be placed selects running tasks to yield, or none (R413). What it has
selected before counts. -/
def State.preempt (s : State) (id : Nat) (t : Task) : State :=
  if !t.waitsCores || t.pool.isNone || (s.placeFor t).isSome then s
  else
    let promised := s.tasks.flatMap fun (e : Nat × Option Task) => match e.2 with
      | some x => if x.after == some id && x.phase == .running then x.cores else []
      | none => []
    match s.selectFor t promised [] (s.yieldOrder t) with
    | some xs => s.selectAll id xs
    | none => s

/-- The ready tasks without cores that stand in a pool, in the order in which the front end starts
them: the lowest CLASS, then the oldest (R411). -/
def State.startOrder (s : State) : List (Nat × Task) :=
  let xs := s.tasks.filterMap fun e => e.2.bind fun t =>
    if t.waitsCores && t.pool.isSome then some (e.1, t) else none
  sortBy (fun (a b : Nat × Task) => decide (s.clsOf a.2 < s.clsOf b.2)
    || (s.clsOf a.2 == s.clsOf b.2 && !b.2.older a.2)) xs

/-- TASK_READY: a task for which nothing is left to wait becomes ready; a ready task enters a pool, the
oldest first; and one that cannot be placed may select tasks to yield (R409, R411, R413). -/
def execTaskReady (task : Nat) (s : State) : Out :=
  .next (
    match s.task? task with
    | none => s
    | some t =>
      let t := if t.phase = .waiting ∧ t.kind = .kernel ∧ t.cutReq = none ∧ s.readyNow t then
          { t with phase := .ready s.gtc none, readyAt := s.gtc }
        else t
      let s := s.setTask task (some t)
      let first := s.tasks.all fun e => match e.2 with
        | some x => !(x.waitsCores && x.pool.isNone && x.older t)
        | none => true
      let t := match t.phase with
        | .ready n none => if t.cores.isEmpty && first then { t with phase := .ready n (s.choosePool t) } else t
        | _ => t
      (s.setTask task (some t)).preempt task t)

/-- RESERVATION_START: a task that has waited 2^20 ticks without fitting begins to reserve cores
(R411). -/
def execReservationStart (task : Nat) (s : State) : Out :=
  .next (
    match s.task? task with
    | none => s
    | some t =>
      if t.waitsCores ∧ t.readyAt + 2 ^ 20 ≤ s.gtc ∧ s.placeFor t = none then
        s.setTask task (some { t with reserving := true })
      else s)

/-- SLICE_EXPIRY: the slice of a running task has run out; a task of its class that waits for cores may
now select it (R412, R413). -/
def execSliceExpiry (task : Nat) (s : State) : Out :=
  .next (
    match s.task? task with
    | none => s
    | some t =>
      if t.phase ≠ .running ∨ t.slice = 0 ∨ s.gtc < t.started + t.slice then s
      else
        let s := s.setTask task (some { t with expired := true })
        match s.startOrder.find? fun e => (s.placeFor e.2).isNone with
        | some e => s.preempt e.1 e.2
        | none => s)

/-! ## Start and placement (R411, R21) -/

/-- Whether a task that yielded its cores may start again: the task it yielded to has started, or is no
longer held (R413). -/
def State.turn (s : State) (t : Task) : Bool :=
  match t.after.bind s.task? with
  | none => true
  | some k => !k.waitsCores

/-- TASK_START: the oldest task of the lowest CLASS that fits takes its cores, all together (R411). -/
def execTaskStart (s : State) : Out :=
  .next (
    match s.startOrder.find? fun e => s.turn e.2 && (s.placeFor e.2).isSome with
    | none => s
    | some (id, t) =>
      let ps := (s.placeFor t).getD []
      let s := s.setTask id (some { t with cores := ps, reserving := false, after := none, started := s.gtc })
      ps.foldl (fun s p => s.onCore p fun c => { c.vacate with task := some id }) s)

/-- A range of the flat memory zeroed, every byte of it being written. -/
def State.zeroRange (s : State) (a n : Nat) : State :=
  { s with mem := s.mem.clear a (a + n)
           bad := s.bad.filter fun e => !(decide (a ≤ 32 * e.1) && decide (32 * e.1 + 32 ≤ a + n))
           released := s.released.filter fun e => !(decide (a ≤ e.1) && decide (e.1 < a + n))
           dcache := s.dcache.map fun e => (e.1, e.2.filter fun k =>
             !k.cells.any fun l => decide (a < 64 * l + 64) && decide (64 * l < a + n)) }

/-- A stream at its start (R21). -/
def freshStream (h : KHeader) (e now : Nat) : Stream :=
  { Stream.empty with off := nth h.soff e, len := nth h.slen e, ended := nth h.slen e == 0, ready := now }

/-- The state of core `p` as virtual core `v` of a task at its start (Table 2.3, R28): counts folded,
`s14` and `s15`, `c15` of each engine but the SCU, and the descriptors. -/
def startedCore (c : Core) (id v now : Nat) (t : Task) : Core :=
  let iq := (lenCore t.hdr.slen).folded t.hdr.ilinit
  let here : Coord := { Coord.zero with x := BitVec.ofNat 24 v, y := BitVec.ofNat 24 t.n }
  let c := { c.vacate with
    task := some id, vcore := v, descs := t.descs
    user := { ScuCtx.zero with named := (SMap.set 0 [] 14 (BitVec.ofNat 64 t.n)).set 0 15 (BitVec.ofNat 64 v) }
    iq := (iq.mapIdx fun k n => (k, n)).foldl (fun (m : SMap (List Clock)) (e : Nat × Nat) => SMap.set [] m e.1 (List.replicate e.2 Clock.zero)) []
    coords := (List.range 4).foldl (fun m e => m.set Coord.zero (16 * (e + 1) + 15) here) [] }
  let incs := t.pendInc.filter fun i => i.1 == v
  let rc := incs.foldl (fun (m : SMap Word) i => m.set 0 i.2.1 (m.get 0 i.2.1 + i.2.2)) []
  (List.range 5).foldl (fun c e => c.setStream (engOf e) false (freshStream t.hdr e now))
    { c with lceS := { c.lceS with rc := rc } }

/-- The cores of a task placed anew; the flag is false where a slot that a save area gives by reference
does not match, and then comes the virtual core (R21, R295, R440). -/
def State.placeCores (s : State) (id : Nat) (t : Task) (area : Option Csl) (start : Nat) : Option Nat × State :=
  (t.cores.mapIdx fun v p => (v, p)).foldl (fun (acc : Option Nat × State) e =>
    let (v, p) := e
    let s := (acc.2.zeroRange (spdBase p) (65536 * t.hdr.spd))
    let s := { s with dcache := s.dcache.set [] p [] }
    match area with
    | none => (acc.1, s.setCore p (startedCore (s.core p) id v start t))
    | some a =>
      let (ok, s) := s.restoreCore p id v t.hdr (a.cores.getD v []) a.viewt start
      (if acc.1.isNone && !ok then some v else acc.1, s)) (none, s)

/-- The slice of a task of queue `q` (R412). -/
def State.sliceOf (s : State) (q : Nat) : Nat :=
  let x := s.queue q
  if x.entry.slice = 0 then 0 else max (1024 * x.entry.slice) x.floor

/-- CLAMPS counts a slice that the floor raises (R412). -/
def State.clampSlice (s : State) (q : Nat) : State :=
  let x := s.queue q
  if x.entry.slice = 0 ∨ x.floor ≤ 1024 * x.entry.slice then s
  else
    let n := (x.clamps + 1) % 2 ^ 16
    (s.setQueue q { x with clamps := n }).paWrite (s.qEntryAt q + 0x38) 2 n

/-- FLOOR follows from the save time and the restore time last measured (R412). -/
def State.measure (s : State) (q save restore : Nat) : State :=
  let n := save + restore + 70000
  (s.onQueue q fun x => { x with tsave := save, trest := restore, floor := n }).paWrite (s.qEntryAt q + 0x3C) 4 n

/-- A task that is no longer held: its cores are free, and those who waited for it may go on (R35,
R380). -/
def State.dropTask (s : State) (id : Nat) (t : Task) : State :=
  let s := (s.freeCores t.cores).setTask id none
  { s with retired := if t.kind = .kernel then ((id, t.cores) :: s.retired).take 64 else s.retired
           queues := s.queues.map fun e => (e.1, { e.2 with specDue := e.2.specKept }) }

/-- The packets that wait for the cut of a task that is no longer there, completed. -/
def State.closeCut (s : State) (t : Task) (stop : Nat → Verdict) : State :=
  match t.cutReq with
  | none => s
  | some r =>
    let s := r.stops.foldl (fun s k => (s.completePart k.1 k.2.1 0 (stop k.2.2)).settleDisable k.1) s
    r.saves.foldl (fun s k => (s.completePart k.q k.seq 0
      (if k.spoilt then { status := 11, tag := 0, detail := 0x22 } else { status := 1, tag := 0x8003, detail := k.utid })).settleDisable k.q) s

/-- A task given up at its placement, with a status (R295). -/
def State.failPlacement (s : State) (id : Nat) (t : Task) (v : Verdict) : State :=
  match s.taster.captures.find? fun c => c.task == id with
  | some c => s.endCapture c t
  | none => ((s.dropTask id t).completePart t.queue t.pseq (t.node.getD 0) v).settleDisable t.queue

/-- TASK_PLACEMENT: the cores of a started task take the start state of R21, or the state that its save
area gives (R440, R441), and its streams run. -/
def execTaskPlacement (task : Nat) (s : State) : Out :=
  .next (
    match s.task? task with
    | none => s
    | some t =>
      match t.phase with
      | .ready _ _ =>
        if t.cores = [] then s
        else
          let area := t.restore.bind fun bs => parseArea bs.length bs
          let start := if area.isNone then s.gtc
            else if t.startAt = 0 ∨ t.startAt < s.gtc then s.gtc + 1 else t.startAt
          match s.placeCores task t area start with
          | (some v, s) => s.failPlacement task t { status := 9, tag := 0, detail := v }
          | (none, s) =>
            let clock : Word := match area with
              | none => t.clock
              | some a => BitVec.ofNat 64 a.viewt - BitVec.ofNat 64 start
            let s := if area.isSome then s.measure t.queue (s.queue t.queue).tsave (s.gtc - t.started) else s
            let s := s.clampSlice t.queue
            s.setTask task (some { t with
              phase := .running, startAt := start, started := s.gtc, slice := s.sliceOf t.queue, expired := false
              clock := clock, pendInc := [], restore := none })
      | _ => s)

/-! ## Retirement (R35, R354, R363, R364) -/

/-- Whether everything core `p` has issued is settled, its leaves appended and its gives performed, up
to bytes in the fabric cache (R35). -/
def Core.settled (c : Core) : Bool :=
  (List.range 5).all (fun e => (c.userStream e).gives.isEmpty && (c.userStream e).form.isEmpty)
    && !(c.lceS.slots ++ c.sceS.slots).any (fun x => x.phase != .done || !x.pend.isEmpty)
    && c.lceS.reads.isEmpty && c.sceS.ack.isEmpty && c.mxeS.flight.isEmpty && c.vxeS.pend.isEmpty
    && c.vxeS.traps.isEmpty && c.stores.isEmpty && c.fault.isNone

/-- Whether core `p` is finished but for its bytes in the fabric cache (R35). -/
def Core.finished (c : Core) : Bool :=
  !c.halted && c.cut.isNone && (List.range 5).all (fun e => (c.userStream e).ended) && c.settled

/-- Write-backs begun for the bytes of core `p` in its die's fabric cache (R72, R82). -/
def State.writeBackDirt (s : State) (p : Nat) : State :=
  ((s.core p).sceS.dirt.filter fun d => !d.away).foldl (fun s d =>
    if s.wbOpen (p / 32) d.line then s else s.startWb (p / 32) d.line none false) s

/-- The core records of the context that a task without cores is restored from (R414, R440). -/
def Task.savedCores (t : Task) : List (List (Nat × List Byte)) :=
  match t.restore.bind fun bs => parseArea bs.length bs with
  | some a => a.cores
  | none => []

/-- The ranges of the five streams of each virtual core of a task: on its cores, in the context that it is
restored from, or empty where it was never placed (R35, R442). -/
def State.taskRanges (s : State) (t : Task) : List (List Range) :=
  if t.cores ≠ [] then t.cores.map fun p => (List.range 5).map fun e => ((s.core p).userStream e).range
  else match t.savedCores with
    | [] => List.replicate t.n (List.replicate 5 Range.empty)
    | cs => cs.map fun xs => ((parseTrees 5 (bodyOfType 9 xs)).getD []).map fun x => x.1

/-- The core roots of a task, in virtual-core order. -/
def State.coreRoots (s : State) (t : Task) : List Digest :=
  (s.taskRanges t).map fun rs => coreRoot (rs.map Range.root)

/-- What the cores of a task have sent, those of its saved context among them (R359). -/
def State.sendTable (s : State) (t : Task) : SMap Commit :=
  (t.cores.map (fun p => (s.core p).sceS.commitments)
    ++ (if t.cores = [] then t.savedCores else []).map fun xs =>
      let b := bodyOfType 6 xs
      tableAt b 136 (numAt b 128 8)).foldl addCommits []

/-- The audit records of a task's stream and core roots (R364). -/
def State.rootRecords (s : State) (t : Task) : List (List Byte) :=
  ((s.taskRanges t).mapIdx fun v rs =>
    (rs.mapIdx fun k r => auditRecord 3 k v 0 r.count r.root) ++ [auditRecord 4 0 v 0 0 (coreRoot (rs.map Range.root))]).flatten

/-- A task with the records of its roots among those to be written, once (R364); a capture run writes
none (R380). -/
def State.makeRoots (s : State) (id : Nat) (t : Task) : Task :=
  if t.rooted then t
  else if t.audit?.isNone || s.isCapture id then { t with rooted := true }
  else { t with rooted := true, audWait := t.audWait ++ s.rootRecords t }

/-- The TASK record of a task (Table 13.6). -/
def State.taskRecord (s : State) (id : Nat) (t : Task) : List Byte :=
  let send := s.sendTable t
  leBytes 8 t.pseq ++ leBytes 8 s.gtc ++ digBytes (taskRoot id t.n (s.coreRoots t) send t.recv)
    ++ digBytes (imageDigest 0x01 (commitTable send)) ++ digBytes (imageDigest 0x01 (commitTable t.recv))

/-- A task whose cores have stopped leaves the module (R35, R442): its root records are written, its
root is logged, and its part of its packet completes; all of it waits while the audit ring or the root
log has no room. A capture run leaves its image instead (R380). -/
def State.closeTask (s : State) (id : Nat) (v : Verdict) (stop : Nat → Verdict) : State :=
  match s.task? id with
  | none => s
  | some t =>
    let t := s.makeRoots id t
    let s := (s.setTask id (some t)).auditDrain id t.audWait.length
    match s.task? id with
    | none => s
    | some t =>
      match s.taster.captures.find? fun c => c.task == id with
      | some c => (s.endCapture c t).closeCut t stop
      | none =>
        if !t.audWait.isEmpty || s.logFull then s
        else
          let s := s.logAppend 1 (id % 2 ^ 32) (s.taskRecord id t)
          let s := (s.dropTask id t).completePart t.queue t.pseq (t.node.getD 0) v
          (s.closeCut t stop).settleDisable t.queue

/-- A STOP or a SAVE that names a task which is not held (R431). -/
def notHeld (unit : Nat) : Verdict := { status := 1, tag := 0x8003, detail := unit }

/-- TASK_RETIREMENT: a task whose last virtual core is finished retires; a speculation is FINISHED
(R35, Table 15.10). A STOP whose tick has not come finds no task (R444). -/
def execTaskRetirement (task : Nat) (s : State) : Out :=
  .next (
    match s.task? task with
    | none => s
    | some t =>
      if t.phase ≠ .running ∨ !t.cores.all fun p => (s.core p).finished then s
      else
        let s := t.cores.foldl (fun s p => s.writeBackDirt p) s
        if t.cores.any fun p => !(s.core p).sceS.dirt.isEmpty then s
        else match t.spec with
          | some k => s.onShadow k fun x => { x with done := true }
          | none => s.closeTask task Verdict.ok notHeld)

/-! ## CELLAR (R404) -/

/-- Bytes that the front end reads at an address of its own; uncorrectable ones are free. -/
def State.fedBytes (s : State) (a : FedAddr) (n : Nat) : List Byte × State :=
  let at' := s.fedAt a
  ((List.range n).map fun i =>
    if s.isBad (at' + i) 1 then BitVec.ofNat 8 (Config.freeValue (s.freeCtr + i)) else s.under 0 (at' + i)
  , { s with freeCtr := if s.isBad at' n then s.freeCtr + n else s.freeCtr })

/-- CELLAR_COPY: once no earlier clashing task is left, the bytes are copied to every die of the mask in
service, and the packet completes (R404). -/
def execCellarCopy (task : Nat) (s : State) : Out :=
  .next (
    match s.task? task with
    | none => s
    | some t =>
      match t.kind with
      | .kernel => s
      | .cellar src off mask len =>
        if t.phase ≠ .waiting ∨ !s.readyNow t then s
        else
          let (bs, s) := s.fedBytes src len
          let s := ((List.range 32).filter fun d => bit mask d && (s.die d).present).foldl
            (fun s d => s.writeAt (celBase d + off) bs) s
          ((s.dropTask task t).completePart t.queue t.pseq 0 Verdict.ok).settleDisable t.queue)

/-! ## Speculations (R417, R419) -/

/-- The watched ranges that the read regions of a speculation give: what of a region lies in each page
that translates to this module, and Cellar ranges on every die (R419). -/
def State.watchRegion (s : State) (asid : Nat) (r : Region) : List (Nat × Nat) × State :=
  if r.cel then ((List.range 32).map fun d => (celBase d + r.start, r.len), s)
  else (pagesOver r.start r.len).foldl (fun (acc : List (Nat × Nat) × State) g =>
    match acc.2.translateHere asid (g * 2 ^ 16) false 0 with
    | (.go t, s) =>
      if t.mode ≠ 0 then (acc.1, s)
      else
        let lo := max r.start (g * 2 ^ 16)
        let hi := min (r.start + r.len) ((g + 1) * 2 ^ 16)
        (acc.1 ++ [(s.paFlat t.base + lo % 2 ^ 16, hi - lo)], s)
    | (_, s) => (acc.1, s)) ([], s)

/-- The read set of a speculation at its start: its read regions and the pages of its image (R419). -/
def State.watchAll (s : State) (asid : Nat) (t : Task) : List (Nat × Nat) × State :=
  let image := t.pages.map fun e => (e.2.1, 2 ^ 16)
  (t.regions.filter fun r => !r.w).foldl (fun (acc : List (Nat × Nat) × State) r =>
    let (ws, s) := acc.2.watchRegion asid r
    (acc.1 ++ ws, s)) (image, s)

/-- A free shadow context, of 64. -/
def State.freeShadow (s : State) : Option Nat := (List.range 64).find? fun k => (s.shadows.get none k).isNone

/-- The key of a speculation's task among the tasks: its task id, and which shadow context it has. -/
def specKey (k id : Nat) : Nat := 2 ^ 32 * (k + 1) + id

/-- The LAUNCH packet that a prediction makes. -/
def predicted (body : List Nat) : List Nat := packetOfBody (1 + (1 + body.length / 2) * 2 ^ 24) body

/-- Whether a queue's prediction may start a speculation as far as queue, predictions and pools tell
(R417). -/
def State.mayStart (s : State) (q : Nat) (π : Prediction) : Bool :=
  let x := s.queue q
  x.v && x.slotted && x.entry.spec && x.specDue && ((x.ttEntry π.after).any fun e => decide (2 ≤ e.conf))
    && x.opens.isEmpty && x.spawn.isEmpty && (s.specOf q).isNone
    && !s.tasks.any fun e => (e.2.bind Task.pool).isSome

/-- A speculation started on cores that hold no task (R417). -/
def State.startSpec (s : State) (q k : Nat) (t : Task) (id : Nat) (ps : List Nat) (body : List Nat) : State :=
  let (ws, s) := s.watchAll t.asid t
  let key := specKey k id
  let t := { t with spec := some k, cores := ps, phase := .running, started := s.gtc, startAt := s.gtc
                    slice := s.sliceOf q, rooted := false }
  let (_, s) := (s.setTask key (some t)).placeCores key t none s.gtc
  let x : Shadow := { queue := q, task := key, body := body, frames := [], watch := ws, parked := false, done := false
                      hit := false, isOver := false, audit := [] }
  (({ s with shadows := s.shadows.set none k (some x) }).countTt 0).onQueue q fun x => { x with
    specKept := false, specDue := false }

/-- SPECULATION_START: the prediction of the queue of the step starts a speculation when every condition
of R417 holds; else it is kept until a task of the module completes. -/
def execSpeculationStart (s : State) : Out :=
  .next (
    let q := s.cur.queue
    match (s.queue q).pred with
    | none => s
    | some π =>
      if !s.mayStart q π then s
      else
        let wait (s : State) : State := s.onQueue q fun x => { x with specDue := false }
        let h := pktHdr q false (predicted π.body)
        match checkPacket h false with
        | .error _ => wait s
        | .ok fs =>
          let f := launchOf fs
          if (badField f).isSome then wait s
          else match s.prepare (s.queue q).entry.asid f [], s.freeShadow with
            | (.ok k, s), some n =>
              let t := taskOf' q (s.queue q).pseq s.order (s.queue q).entry.asid false none [] f k h.raw
              match s.placeFor t with
              | some ps => if k.hdr.speculable && s.readyNow t then s.startSpec q n t f.taskId ps π.body else wait s
              | none => wait s
            | (_, s), _ => wait s)

end Sys2Proof.Machine
end

