-- ==== Sys2Proof/Machine/Stop.lean ====
section
/-!
DEFINITION. Cuts, saves, migration and the ends of tasks: STOP, SAVE, RESUME, yields, and signals to a
task wherever it is (16, R431 to R444; 11, R292, R293; 15, R412 to R414; 09, R228).
-/

namespace Sys2Proof.Machine

/-- The state with a task changed. -/
def State.onTask (s : State) (id : Nat) (f : Task → Task) : State :=
  match s.task? id with
  | none => s
  | some t => s.setTask id (some (f t))

/-! ## The cut of a core (R432, Table 16.5) -/

/-- Core `p` halts issue for a cut of a kind, if it has not yet. -/
def State.cutCore (s : State) (kind p : Nat) : State :=
  s.onCore p fun c => if c.cut.isSome then c else { c with cut := some s.gtc, cutBy := kind, yreq := false }

/-- Whether every fabric write of other cores that a stream of core `p` covers has been acknowledged (R69, R87). -/
def State.farSettled (s : State) (p : Nat) : Bool :=
  (List.range 5).all fun e => s.farAcked ((s.core p).userStream e).clk

/-- Whether everything in flight on core `p` at its cut is settled, tokens in passage and the segments of copy
commands among it (R27, R432). A leaf waits only behind a command
that has not completed, whose record carries its state. -/
def State.cutSettled (s : State) (p : Nat) : Bool :=
  let c := s.core p
  c.cut.isSome && c.pass.isEmpty && c.stores.isEmpty && c.fault.isNone && s.farSettled p
    && c.mxeS.flight.isEmpty && c.vxeS.pend.isEmpty && c.vxeS.traps.isEmpty && c.user.pend.isEmpty
    && c.lceS.reads.isEmpty && c.sceS.ack.isEmpty && c.sceS.dirt.isEmpty
    && c.sceS.slots.all (fun x => x.pend.isEmpty) && c.lceS.slots.all (fun x => x.pre.isNone)
    && (List.range 5).all (fun e => match (c.userStream e).form with
      | [] => true
      | f :: _ => f.record.isNone && !f.drop)
    && !(s.die (p / 32)).wb.any (fun w => w.for'.any fun k => k.1 == p)

/-- The cut tick of a task: the largest of its cores' (R434). -/
def State.cutTick (s : State) (t : Task) : Nat := (t.cores.map fun p => (s.core p).cut.getD 0).foldl max 0

/-- CUTK of a task (Table 16.6): 1 where a STOP has cut a core, 5 for a SAVE, else the kind of the
core cut last. -/
def State.cutKind (s : State) (t : Task) : Nat :=
  if t.cores.any fun p => (s.core p).cutBy == 1 then 1
  else if t.cutReq.any fun r => !r.saves.isEmpty then 5
  else (((t.cores.filter fun p => (s.core p).cut == some (s.cutTick t)).head?.map fun p => (s.core p).cutBy).getD 4 : Nat)

/-! ## Saving (R435) -/

/-- Bytes 0 to 3 of an area set to 0: MAGIC does not check. -/
def unmagic (bs : List Byte) : List Byte := zeros 4 ++ bs.drop 4

/-- The LAUNCH of a task completes because its id stops being held by its saved context (R394, R435). -/
def State.completeLaunch (s : State) (t : Task) : State :=
  (s.completePart t.queue t.pseq (t.node.getD 0) { status := 11, tag := 0, detail := 0x23 }).settleDisable t.queue

/-- A SAVE writes an area and completes; the task's cores and regions are released, and its id stays
held by the area or is released (R435). -/
def State.storeArea (s : State) (id : Nat) (t : Task) (sv : SaveReq) (bs : List Byte) : State :=
  if sv.area.addr % 64 ≠ 0 ∨ sv.avail < bs.length then
    (s.completePart sv.q sv.seq 0 { status := 1, tag := 0x8042, detail := sv.uarea }).settleDisable sv.q
  else
    let s := (s.fedWrite sv.area 0 bs).freeCores t.cores
    let s := if sv.detach then (s.setTask id none).completeLaunch t
      else s.setTask id (some { t with
        phase := .kept sv.area bs.length, cores := [], regions := [], cutReq := none, restore := some bs
        reserving := false, after := none })
    (s.completePart sv.q sv.seq 0 Verdict.ok).settleDisable sv.q

/-- STOP packets that waited for a cut complete (R433). -/
def State.completeStops (s : State) (r : CutReq) : State :=
  r.stops.foldl (fun s k => (s.completePart k.1 k.2.1 0 Verdict.ok).settleDisable k.1) s

/-- The task is held by its cut, or by the tick of a STOP that found it unplaced (R431, R433). -/
def Task.hold (t : Task) (placed : Bool) : Task :=
  { t with phase := if placed then .held else .heldUnplaced, cutReq := if placed then none else
      t.cutReq.map fun r => { r with stops := [], saves := [] } }

/-- The saves asked for, one after another: the first releases the cores, and the next ones find the
context that it kept, or no task (R435). -/
def State.saveAll (s : State) (id kind cutt : Nat) : List SaveReq → State
  | [] => s
  | sv :: rest =>
    match s.task? id with
    | none =>
      ((s.completePart sv.q sv.seq 0 (notHeld sv.utid)).settleDisable sv.q).saveAll id kind cutt rest
    | some t =>
      match t.phase, t.restore with
      | .kept _ _, some bs => (s.storeArea id t sv bs).saveAll id kind cutt rest
      | _, bs? =>
        let bs := bs?.getD (s.saveArea id t kind cutt)
        (s.storeArea id t sv bs).saveAll id kind cutt rest

/-- The request that ends a task whose save has met uncorrectable data (R435, R442): its area's header
has MAGIC 0. -/
def State.spoilSave (s : State) (id kind cutt : Nat) (t : Task) (r : CutReq) : State :=
  let s := match r.saves with
    | [] => s
    | sv :: _ =>
      if sv.area.addr % 64 ≠ 0 ∨ sv.avail < 256 then s
      else s.fedWrite sv.area 0 (unmagic ((s.saveArea id t kind cutt).take 256))
  let saves := r.saves.mapIdx fun i k => if i = 0 then { k with spoilt := true } else k
  s.setTask id (some { t with cutReq := some { r with
    at? := some s.gtc, kind := 1, ends := true, detail := 0x22, fwFault := false, saves := saves } })

/-- The status with which an ended task's packet completes (R442). -/
def CutReq.verdict (r : CutReq) : Verdict :=
  { status := if r.fwFault then 10 else 11, tag := 0, detail := r.detail }

/-- A task that has yielded its cores: its context waits for cores again, ahead of every task of its
class that became ready after it (R414). A STOP that is still to come holds it unplaced. -/
def State.yieldSave (s : State) (id : Nat) (t : Task) (r : CutReq) : State :=
  let cutt := s.cutTick t
  let bs := s.saveArea id t (s.cutKind t) cutt
  let s := s.freeCores t.cores
  let s := s.setTask id (some { t with
    phase := .ready t.readyAt none, cores := [], restore := some bs, startAt := 0, expired := false
    cutReq := if r.at?.isSome then some { r with yield := false } else none })
  s.measure t.queue (s.gtc - cutt) (s.queue t.queue).trest

/-- What follows the cut of task `id` once every core of it is cut and settled: it is ended, saved,
held, or has yielded (R414, R433, R435, R442). Until then the bytes its cores left in the fabric cache
are written back. -/
def State.finishCut (s : State) (id : Nat) : State :=
  match s.task? id with
  | none => s
  | some t =>
    match t.phase, t.cutReq with
    | .running, some r =>
      let s := (t.cores.filter fun p => (s.core p).cut.isSome).foldl (fun s p => s.writeBackDirt p) s
      if !t.cores.all s.cutSettled then s
      else if r.ends then
        if r.at?.all fun a => decide (a ≤ s.gtc) then s.closeTask id r.verdict fun _ => Verdict.ok else s
      else
        let kind := s.cutKind t
        let cutt := s.cutTick t
        let stopped := t.cores.any fun p => (s.core p).cutBy == 1
        if r.saves ≠ [] then
          if s.saveBad t then s.spoilSave id kind cutt t r
          else
            let s := t.cores.foldl (fun s p => s.onCore p fun c => { c with cutBy := kind }) s
            let s := s.setTask id (some (t.hold true))
            (s.saveAll id kind cutt r.saves).completeStops r
        else if stopped then (s.setTask id (some (t.hold true))).completeStops r
        else if s.saveBad t then s.spoilSave id kind cutt t r
        else s.yieldSave id t r
    | _, _ => s

/-! ## STOP (R431 to R433) -/

/-- A task that a STOP, a SAVE or a RESUME names: a kernel's, not only a saved context. -/
def State.namedTask (s : State) (id : Nat) : Option Task :=
  match s.task? id with
  | none => none
  | some t => match t.phase with
    | .kept _ _ => none
    | _ => some t

/-- The request of a task with a STOP for tick `t` added. -/
def addStop (old : Option CutReq) (t : Nat) (ends : Bool) (k : Nat × Nat × Nat) : CutReq :=
  match old with
  | none => { at? := some t, kind := 4, ends := ends, detail := 0x20, fwFault := false, stops := [k], saves := []
              yield := false, ty := 0 }
  | some r => { r with
      at? := some (match r.at? with | none => t | some a => min a t)
      detail := if r.ends then r.detail else 0x20, ends := r.ends || ends, stops := r.stops ++ [k] }

/-- STOP (R431): a task that is held is stopped on tick `t`, or ended then; one that is already held by a
cut has had it. A capture run is ended at the cut (R385). -/
def execStop (h : PktHdr) (task t mode : Nat) (s : State) : Out :=
  .next (s.packet h true fun n s =>
    let s := s.discard h.q .queue
    let t := s.tickOf t
    let done (v : Verdict) (s : State) : State := s.completePart h.q n 0 v
    if 1 < mode then done { status := 1, tag := 0x8041, detail := unitOf h.raw 0x8041 0 } s
    else match s.namedTask task with
      | none => done (notHeld (unitOf h.raw 0x8003 0)) s
      | some k =>
        if t < s.gtc + (if k.podbar.isSome then 16384 else 2048) then
          done { status := 1, tag := 0x8040, detail := unitOf h.raw 0x8040 0 } s
        else if mode = 0 ∧ (k.phase = .held ∨ k.phase = .heldUnplaced ∧ k.cutReq.all fun r => !r.ends) then
          done Verdict.ok s
        else
          let old := if k.phase = .heldUnplaced then none else k.cutReq
          let r := addStop old t (mode == 1 || s.isCapture task) (h.q, n, unitOf h.raw 0x8003 0)
          s.setTask task (some { k with cutReq := some r }))

/-- Cores that a task has taken and not begun to run on, given back. -/
def State.unplace (s : State) (id : Nat) (t : Task) : State :=
  match t.phase with
  | .ready _ _ => (s.freeCores t.cores).setTask id (some { t with cores := [] })
  | _ => s

/-- A task on the tick of its cut (R431, R432): every core not yet cut halts; a task without cores is
held unplaced, and one that is being ended ends. -/
def State.cutTask (s : State) (id : Nat) : State :=
  match s.task? id with
  | none => s
  | some t =>
    match t.cutReq with
    | none => s
    | some r =>
      if r.at?.all fun a => decide (s.gtc < a) then s
      else
        match t.phase with
        | .running =>
          let s := s.setTask id (some { t with cutReq := some { r with kind := 1 } })
          (t.cores.foldl (fun s p => s.cutCore 1 p) s).finishCut id
        | .held => if r.ends then s.closeTask id r.verdict fun _ => Verdict.ok else s
        | .kept _ _ => s
        | _ =>
          let s := s.unplace id t
          if r.ends then s.closeTask id r.verdict fun _ => Verdict.ok
          else (s.onTask id fun t => t.hold false).completeStops r

/-- STOP_CUT: on tick T every core of the task not yet cut halts, and once the cut is complete the task is
held or ended (R432, R433). -/
def execStopCut (task : Nat) (s : State) : Out := .next (s.cutTask task)

/-- TASK_END: a task being ended is cut, its root is logged, and its packet completes (R442). -/
def execTaskEnd (task : Nat) (s : State) : Out :=
  .next (
    match (s.task? task).bind (·.cutReq) with
    | none => s
    | some r => if r.ends then s.cutTask task else s)

/-! ## Yields (R292, R293, R414) -/

/-- YIELD_REQUEST: from the request tick every core of the task that is not cut reads YREQ = 1 (R292). -/
def execYieldRequest (task : Nat) (s : State) : Out :=
  .next (
    match s.task? task with
    | none => s
    | some t =>
      match t.cutReq with
      | none => s
      | some r =>
        if r.yield ∧ r.ty ≤ s.gtc then
          t.cores.foldl (fun s p => s.onCore p fun c => if c.cut.isSome then c else { c with yreq := true }) s
        else s)

/-- YIELD_HALT: the core of the step, which has taken a yield point, halts issue on its tick (R207,
R293); once the cut of its task is complete, the task is saved. -/
def execYieldHalt (s : State) : Out :=
  .next (
    let p := s.cur.core
    let s := if s.me.cutAt.any fun a => decide (a ≤ s.gtc) then s.cutCore s.me.cutBy p else s
    match s.me.task with
    | none => s
    | some id => s.finishCut id)

/-- FORCED_CUT: the core of the step halts issue at the forced tick t_y + MAXRED, whatever its tiles
hold (R293). -/
def execForcedCut (s : State) : Out :=
  .next (
    let p := s.cur.core
    match s.me.task, (s.taskOf p).bind Task.forcedTick with
    | some id, some f =>
      if f ≤ s.gtc then (s.cutCore (if s.me.cutAt.isSome then s.me.cutBy else 4) p).finishCut id else s
    | _, _ => s)

/-! ## SAVE (R435) -/

/-- A yield request that a SAVE makes for a running task: t_y is the decode tick plus 300 (Table 16.6). -/
def addSave (old : Option CutReq) (now : Nat) (sv : SaveReq) : CutReq :=
  match old with
  | none => { at? := none, kind := 5, ends := false, detail := 0, fwFault := false, stops := [], saves := [sv]
              yield := true, ty := now + 300 }
  | some r => { r with saves := r.saves ++ [sv], ty := if r.yield then r.ty else now + 300, yield := true }

/-- SAVE (R435): a running task is cut first; a held one, one that is unplaced and a saved context are
written at once. Nothing is saved of a capture run (R380). -/
def execSave (h : PktHdr) (task : Nat) (area : FedAddr) (avail mode : Nat) (s : State) : Out :=
  .next (s.packet h true fun n s =>
    let s := s.discard h.q .queue
    let done (v : Verdict) (s : State) : State := s.completePart h.q n 0 v
    let utid := unitOf h.raw 0x8003 0
    let sv : SaveReq := { q := h.q, seq := n, area := area, avail := avail, detach := mode == 1, utid := utid
                          uarea := unitOf h.raw 0x8042 0, spoilt := false }
    if 1 < mode then done { status := 1, tag := 0x8043, detail := unitOf h.raw 0x8043 0 } s
    else match s.task? task with
      | none => done (notHeld utid) s
      | some t =>
        if t.cutReq.any (·.ends) || s.isCapture task then done (notHeld utid) s
        else match t.phase with
          | .running => s.setTask task (some { t with cutReq := some (addSave t.cutReq s.gtc sv) })
          | .held =>
            if s.saveBad t then
              s.spoilSave task (s.cutKind t) (s.cutTick t) t (addSave none s.gtc sv) |>.cutTask task
            else s.storeArea task t sv (s.saveArea task t (s.cutKind t) (s.cutTick t))
          | .kept _ _ => s.storeArea task t sv (t.restore.getD [])
          | _ =>
            let s := s.unplace task t
            let t := { t with cores := [] }
            let cutt := ((t.cutReq.bind (·.at?)).getD s.gtc : Nat)
            match t.restore with
            | some bs => s.storeArea task t sv bs
            | none => s.storeArea task t sv (s.saveArea task t 6 cutt))

/-! ## RESUME (R440) -/

/-- What the checks of a RESUME give. -/
inductive Resumed where
  | hold (va : Nat)
  | bad (v : Verdict)
  | ok (f : LaunchFields) (k : Kernel)
deriving DecidableEq, Repr

/-- The fields of the LAUNCH copy of an area, where it is a LAUNCH that checks. -/
def Csl.fields (a : Csl) : Option LaunchFields :=
  let h := pktHdr 0 false a.launch
  if pktType h ≠ 1 then none
  else match checkPacket h false with
    | .error _ => none
    | .ok fs => let f := launchOf fs
                if (badField f).isSome || f.cores != a.n then none else some f

/-- The first descriptor of a table that fails R116. -/
def badDesc (m : SMap (BitVec 512)) : Option Nat :=
  (m.find? fun e => !Desc.valid e.2 (m.get 0 (Desc.of e.2).stid)).map Prod.fst

/-- The kernel image that the LAUNCH copy names, in the address space of the queue that resumes, and
the descriptors (R440, checks 3 and 4). -/
def State.resumeKernel (s : State) (asid : Nat) (a : Csl) (f : LaunchFields) : Resumed × State :=
  match s.mapPages asid f.kva [] (pagesOver f.kva 128) with
  | (.absent va, s) => (.hold va, s)
  | (.fails, s) => (.bad (kernelInvalid 9), s)
  | (.all ps, s) =>
    match s.readImage ps f.kva 128 with
    | none => (.bad (kernelInvalid 9), s)
    | some bs =>
      if bs ≠ a.khdr then (.bad (kernelInvalid 11), s)
      else
        let h := KHeader.parse bs
        let table := if a.kind = 6 then pagesOver (f.kva + h.descoff) (64 * h.ndesc) else []
        let more := table ++ (List.range 5).flatMap fun e => pagesOver (f.kva + nth h.soff e) (4 * nth h.slen e)
        match s.mapPages asid f.kva ps more with
        | (.absent va, s) => (.hold va, s)
        | (.fails, s) => (.bad (kernelInvalid 9), s)
        | (.all ps, s) =>
          match (if a.kind = 6 then s.readImage ps (f.kva + h.descoff) (64 * h.ndesc) else some []) with
          | none => (.bad (kernelInvalid 9), s)
          | some tpl =>
            let descs := if a.kind = 6 then descTable tpl f else []
            let tables := if a.kind = 6 then [descs] else a.cores.map fun xs => descsOf (bodyOfType 10 xs)
            match tables.findSome? badDesc with
            | some i => (.bad { status := 7, tag := 0, detail := i }, s)
            | none => (.ok f { hdr := h, pages := ps, descs := descs }, s)

/-- The area that a RESUME names, where it checks (R440, check 1). -/
def State.areaAt (s : State) (a : FedAddr) (avail : Nat) : Option Csl :=
  let at' := s.fedAt a
  let len := leNat ((List.range 8).map fun i => s.under 0 (at' + 8 + i))
  if a.addr % 64 ≠ 0 ∨ avail < len ∨ avail < 256 ∨ s.isBad at' len then none
  else parseArea avail ((List.range len).map fun i => s.under 0 (at' + i))

/-- A task restored from an area, accepted as part of the RESUME: the id passes to it from the context
that this module keeps, whose LAUNCH completes (R394, R435, R440). -/
def State.acceptResume (s : State) (h : PktHdr) (task : Nat) (a : Csl) (f : LaunchFields) (k : Kernel) (start : Nat)
    (bs : List Byte) : State :=
  let asid := (s.queue h.q).entry.asid
  let (seq, s) := s.accept h 1
  let (recv, s) : SMap Commit × State := match s.task? task with
    | none => (a.recv, s)
    | some t => (t.recv, (s.setTask task none).completeLaunch t)
  let audN := match f.audring with
    | some r => s.num (s.fedAt r.base + 8) 8
    | none => 0
  let t := taskOf' h.q seq s.order asid h.ordered none [] f k a.launch
  (s.addTask task { t with
    recv := recv, podGen := a.podGen, audN := audN, pendInc := a.pend, startAt := if a.kind = 6 then 0 else s.tickOf start
    restore := if a.kind = 6 then none else some bs }).settleDisable h.q

/-- RESUME (R440): the first check that fails settles the packet; a page of the kernel image that is not
present holds the queue. Slots saved by reference are checked at the placement. -/
def execResume (h : PktHdr) (task : Nat) (area : FedAddr) (avail start : Nat) (s : State) : Out :=
  .next (
    if !s.nextIs h then s
    else if h.spawned || !(s.queue h.q).entry.priv then s.settlePkt h { status := 4, tag := 0, detail := pktType h }
    else
      let s := s.discard h.q .queue
      let bad : Verdict := { status := 1, tag := 0x8042, detail := unitOf h.raw 0x8042 0 }
      match s.areaAt area avail with
      | none => s.settlePkt h bad
      | some a =>
        let own := match s.task? task with
          | none => true
          | some t => (match t.phase with | .kept _ _ => true | _ => false)
        if a.taskId ≠ task ∨ !own then s.settlePkt h { status := 8, tag := 0, detail := task }
        else match a.fields with
          | none => s.settlePkt h bad
          | some f =>
            let at' := s.fedAt area
            let bs := (List.range (leNat ((List.range 8).map fun i => s.under 0 (at' + 8 + i)))).map fun i =>
              s.under 0 (at' + i)
            match s.resumeKernel (s.queue h.q).entry.asid a f with
            | (.hold va, s) => s.holdFed h.q va
            | (.bad v, s) => s.settlePkt h v
            | (.ok f k, s) => s.acceptResume h task a f k start bs)

/-! ## Signals (R228, R254) -/

/-- Where receive counter 0 of virtual core `v` stands in an area: in its core record, section 5. -/
def counterAt (bs : List Byte) (v : Nat) : Nat :=
  let off := numAt bs (0x100 + 16 * v) 8
  let before := match parseSections 16 (cutAt bs off (numAt bs (0x108 + 16 * v) 8)) with
    | none => []
    | some xs => xs.takeWhile fun (e : Nat × List Byte) => e.1 != 5
  off + 16 + (before.map fun (e : Nat × List Byte) => 16 + upTo 16 e.2.length).sum

/-- An area with a receive counter increased and its digest rewritten (R435). -/
def bumpArea (bs : List Byte) (v ctr : Nat) (inc : Word) : List Byte :=
  let at' := counterAt bs v + 8 * ctr
  let n := BitVec.ofNat 64 (numAt bs at' 8) + inc
  sealArea (bs.take at' ++ leBytes 8 n.toNat ++ bs.drop (at' + 8))

/-- An increment for virtual core `v` of task `id` (R228): a placed core's counter; the counters of the
context that the task is restored from, or of the area that holds it, whose digest is rewritten; or
what is held for a task without cores. -/
def State.increment (s : State) (id : Nat) (t : Task) (v ctr : Nat) (inc : Word) : State :=
  match t.phase with
  | .running | .held =>
    let p := t.cores.getD v 0
    s.onCore p fun c => { c with lceS := { c.lceS with incs := c.lceS.incs ++ [(s.gtc, ctr, inc)] } }
  | .kept area _ =>
    let old := t.restore.getD []
    let kind := numAt old 0x30 4 % 16
    let t := if kind = 6 then { t with pendInc := t.pendInc ++ [(v, ctr, inc)] } else t
    let bs := if kind = 6 then s.saveArea id t 6 (numAt old 0x20 8) else bumpArea old v ctr inc
    (s.setTask id (some { t with phase := .kept area bs.length, restore := some bs })).fedWrite area 0 bs
  | _ =>
    match t.restore with
    | some bs => s.setTask id (some { t with restore := some (bumpArea bs v ctr inc) })
    | none => s.setTask id (some { t with pendInc := t.pendInc ++ [(v, ctr, inc)] })

/-- SIG (R228, R254): its increment is performed at the task it names and answered OK; a task that is
not held, of another address space, or with no such virtual core, answers ACCESS. -/
def execSigPacket (p : Packet) (s : State) : Out :=
  .next (
    if !s.arrived p then s
    else
      let id := bits p.va 44 13
      let v := bits p.va 12 4
      let s := (s.takePacket p).countRecv p
      match (if s.isCapture id then none else s.task? id) with
      | none => s.inject (answerOf p s.peerId 7 0 [])
      | some t =>
        if t.n ≤ v ∨ t.asid ≠ p.asid then s.inject (answerOf p s.peerId 7 0 [])
        else (s.increment id t v (bits p.va 3 0) (BitVec.ofNat 64 p.opa)).inject (answerOf p s.peerId 0 0 []))

end Sys2Proof.Machine
end

