-- ==== Sys2Proof/Machine/Bisect.lean ====
section
/-!
DEFINITION. BISECT and TASTE: the Tasters, the index of audit records, the walk of two trees over AUDN
packets, and the verdict on two capture images (14, R371 to R378, R383 to R385).
-/

namespace Sys2Proof.Machine

/-! ## The Tasters (R372, R373) -/

/-- The idle Taster that takes the next command: that of the lowest die in service (R372). -/
def State.freeTaster (s : State) : Option Nat :=
  (List.range 32).find? fun d => (s.die d).present && !s.taster.bisects.any fun b => b.die == d

/-- Bytes of host memory. -/
def State.hostBytes (s : State) (a n : Nat) : List Byte := (List.range n).map fun i => s.under 0 (hostBase + a + i)

/-- The packet of an audit command completes with its status (R373). -/
def State.auditDone (s : State) (q seq status : Nat) : State :=
  (s.completePart q seq 0 (auditVerdict status)).settleDisable q

/-! ## The index (R375) -/

/-- The content of an audit record (Table 13.7). -/
def nodeOfRecord (bs : List Byte) : AudNode :=
  { type := numAt bs 0 1, vcore := numAt bs 2 2, eng := numAt bs 1 1, ht := numAt bs 4 1, pos := numAt bs 8 8
    dig := digAt bs 0x20 }

/-- Whether two records have the same key. -/
def AudNode.same (a b : AudNode) : Bool :=
  a.type == b.type && a.vcore == b.vcore && a.eng == b.eng && a.ht == b.ht && a.pos == b.pos

/-- Whether a key appears twice. -/
def doubled : List AudNode → Bool
  | [] => false
  | x :: xs => xs.any x.same || doubled xs

/-- The core root of a virtual core. -/
def Bisect.coreAt (b : Bisect) (v : Nat) : Option Digest :=
  (b.index.find? fun n => n.type == 4 && n.vcore == v).map (·.dig)

/-- The root and the leaf count of a stream. -/
def Bisect.streamAt (b : Bisect) (v e : Nat) : Option (Digest × Nat) :=
  (b.index.find? fun n => n.type == 3 && n.vcore == v && n.eng == e).map fun n => (n.dig, n.pos)

/-- A node, or a leaf where its height is 0. -/
def Bisect.nodeAt (b : Bisect) (v e h pos : Nat) : Option Digest :=
  (b.index.find? fun n => n.type == (if h = 0 then 1 else 2) && n.vcore == v && n.eng == e && n.ht == h && n.pos == pos).map (·.dig)

/-- The first check that an index fails (R375). -/
def Bisect.badIndex (b : Bisect) : Option Nat :=
  let cores := (List.range b.ncore).map b.coreAt
  if doubled b.index then some 3
  else if cores.any (·.isNone) then some 2
  else if rootOver b.taskId b.ncore (cores.filterMap id) b.fc ≠ b.troot then some 4
  else none

/-! ## Parameter blocks (Table 14.1) -/

/-- A BISECT as its block gives it, with the address and the number of its audit records and its index
area, unless the block is bad (R372). -/
def bisectOf (q seq : Nat) (bs : List Byte) : Option (Bisect × Nat × Nat × Nat) :=
  let w := numAt bs 0 4
  let peer := numAt bs 0x0C 4
  let ncore := numAt bs 0x1C 4
  let work := numAt bs 0x20 8
  let audb := numAt bs 0x10 8
  let audc := numAt bs 0x18 4
  if bs.length ≠ 144 ∨ 1 < w ∨ 2 ^ 9 ≤ peer ∨ 512 < ncore ∨ ncore = 0 ∨ 2 ^ 44 ≤ work ∨ audb % 64 ≠ 0
      ∨ work % 65536 ≠ 0 ∨ audc = 0 ∨ 2 ^ 28 < audc then none
  else
    some ({ q := q, pseq := seq, die := 0, lead := w == 0, session := numAt bs 4 4, taskId := numAt bs 8 4, peer := peer
            ncore := ncore, resb := numAt bs 0x28 8, troot := digAt bs 0x30, fc := cutAt bs 0x50 64, pfc := [], index := []
            walk := .troot, tag := 0, since := 0, reqs := 0, nloc := 0, npeer := 0, result := [] }, audb, audc, work)

/-! ## AUDN packets (R376, Table 14.2a) -/

/-- An AUDN packet without payload. -/
def audnOf (src dst die session tag sel v e h pos : Nat) : Packet :=
  { type := 0x13, urg := false, sid := false, det := false, npay := 0, hops := 0, src := src, dst := dst, via := dst
    score := 32 * die + 30, asid := 0, va := 0, task := session, tag := tag, colmask := 0, group := 0, aop := 0
    rel := false, lenm1 := 0, opa := v * 2 ^ 32 + h * 2 ^ 16 + e * 2 ^ 8 + sel, opb := pos, status := 0, aux := 0
    payload := [] }

/-- The reply to a request: the request's fields, from this module. -/
def replyTo (p : Packet) (me die status : Nat) (data : Option (List Byte)) : Packet :=
  { p with det := false, hops := 0, sid := false, src := me, dst := p.src, via := p.src, score := 32 * die + 30
           status := status, npay := b2n data.isSome
           payload := (data.map fun bs => leNat ((bs ++ zeros 64).take 64)).toList }

/-- What an ANSWER side replies to a request: nothing of an END, none where no record has the key, else 64
bytes (Table 14.2a). -/
def Bisect.answer (b : Bisect) (p : Packet) : Option (List Byte) :=
  let v := bits p.opa 47 32
  let h := bits p.opa 21 16
  let e := bits p.opa 10 8
  let pos := bits p.opb 39 0
  match bits p.opa 2 0 with
  | 0 => some (digBytes b.troot)
  | 1 => some b.fc
  | 2 => (b.coreAt v).map digBytes
  | 3 => (b.streamAt v e).map fun x => digBytes x.1 ++ leBytes 8 x.2
  | 4 => (b.nodeAt v e h pos).map digBytes
  | 5 =>
    if h = 0 then none
    else match b.nodeAt v e (h - 1) pos, b.nodeAt v e (h - 1) (pos + 2 ^ (h - 1)) with
      | some l, some r => some (digBytes l ++ digBytes r)
      | _, _ => none
  | _ => none

/-- A BISECT replaced, by its queue and sequence number. -/
def State.putBisect (s : State) (b : Bisect) : State :=
  { s with taster := { s.taster with bisects := s.taster.bisects.map fun x => if x.q = b.q ∧ x.pseq = b.pseq then b else x } }

/-- A BISECT over: its Taster is idle, and its packet completes. -/
def State.endBisect (s : State) (b : Bisect) (status : Nat) : State :=
  ({ s with taster := { s.taster with bisects := s.taster.bisects.filter fun x => !(x.q == b.q && x.pseq == b.pseq) } }).auditDone
    b.q b.pseq status

/-- The result record (Table 14.3). -/
def Bisect.record (b : Bisect) (status v e leaf nloc npeer depth toph toppos path : Nat) (l r : List Byte) : List Byte :=
  leBytes 4 (0x100 + status) ++ leBytes 4 (e * 2 ^ 16 + v) ++ leBytes 8 leaf ++ leBytes 8 nloc ++ leBytes 8 npeer
    ++ leBytes 4 (b.reqs % 2 ^ 16 * 2 ^ 16 + depth * 2 ^ 8 + toph) ++ zeros 4 ++ leBytes 8 toppos ++ leBytes 8 path
    ++ zeros 8 ++ (l ++ zeros 32).take 32 ++ (r ++ zeros 32).take 32

/-- A result record that gives no leaf. -/
def Bisect.plain (b : Bisect) (status : Nat) : List Byte := b.record status 0 0 0 0 0 0 0 0 0 [] []

/-- A LEAD that ends with no END sent: its result record is written (R377, R378). -/
def State.leadEnd (s : State) (b : Bisect) (status : Nat) : State :=
  let s := if b.lead then s.writeAt (hostBase + b.resb) (b.plain status) else s
  s.endBisect b status

/-- The LEAD sends a request and waits (R377). -/
def State.ask (s : State) (b : Bisect) (w : Walking) (sel v e h pos : Nat) : State :=
  let tag := s.taster.nextTag % 2 ^ 16
  let s := { s with taster := { s.taster with nextTag := s.taster.nextTag + 1 } }
  (s.putBisect { b with walk := w, tag := tag, since := s.gtc, reqs := b.reqs + 1 }).inject
    (audnOf s.peerId b.peer b.die b.session tag sel v e h pos)

/-- The walk has its status: END is sent, and the record is kept for its reply (R377). -/
def State.leadFin (s : State) (b : Bisect) (result : Bisect → List Byte) : State :=
  s.ask { b with result := result { b with reqs := b.reqs + 1 } } .fin 7 0 0 0 0

/-- The largest height of an aligned block that begins at `pos` and ends by `m`. -/
def topHeight (pos m : Nat) : Nat → Nat
  | 0 => 0
  | h + 1 => if pos % 2 ^ (h + 1) = 0 ∧ pos + 2 ^ (h + 1) ≤ m then h + 1 else topHeight pos m h

/-- The next top node of the common prefix of stream `e` of virtual core `v`, or the end of the walk
(R377). -/
def State.askNode (s : State) (b : Bisect) (v e pos : Nat) : State :=
  let m := min b.nloc b.npeer
  if pos < m then
    let h := topHeight pos m 40
    s.ask b (.node v e h pos m) 4 v e h pos
  else if b.nloc = b.npeer then s.leadFin b fun b => b.plain 3
  else s.leadFin b fun b => b.record 8 v e m b.nloc b.npeer 0 0 0 0 (((b.nodeAt v e 0 m).map digBytes).getD []) []

/-- The descent stands at node (h, pos): its children are asked for, or the leaf is reported (R377). -/
def State.descend (s : State) (b : Bisect) (v e h pos toph toppos path depth : Nat) (pd : Digest) : State :=
  if h = 0 then
    s.leadFin b fun b => b.record 0 v e pos b.nloc b.npeer depth toph toppos path
      (((b.nodeAt v e 0 pos).map digBytes).getD []) (digBytes pd)
  else s.ask b (.kids v e h pos toph toppos path depth pd) 5 v e h pos

/-- The LEAD has the data of a reply (R377). -/
def State.walkOn (s : State) (b : Bisect) (data : List Byte) : State :=
  let d := digAt data 0
  match b.walk with
  | .troot => if b.troot = d then s.leadFin b fun b => b.plain 7 else s.ask b .fc 1 0 0 0 0
  | .fc => s.ask { b with pfc := data.take 64 } (.core 0) 2 0 0 0 0
  | .core v =>
    match b.coreAt v with
    | none => s.leadFin b fun b => b.plain 2
    | some l =>
      if l ≠ d then s.ask b (.stream v 0) 3 v 0 0 0
      else if v + 1 < b.ncore then s.ask b (.core (v + 1)) 2 (v + 1) 0 0 0
      else s.leadFin b fun b => b.record 9 0 0 0 0 0 0 0 0 0 (b.fc.take 32) (b.pfc.take 32)
  | .stream v e =>
    match b.streamAt v e with
    | none => s.leadFin b fun b => b.plain 2
    | some (l, n) =>
      if l ≠ d then s.askNode { b with nloc := n, npeer := numAt data 32 8 } v e 0
      else if e < 4 then s.ask b (.stream v (e + 1)) 3 v (e + 1) 0 0
      else s.leadFin b fun b => b.plain 3
  | .node v e h pos _ =>
    match b.nodeAt v e h pos with
    | none => s.leadFin b fun b => b.plain 2
    | some l => if l = d then s.askNode b v e (pos + 2 ^ h) else s.descend b v e h pos h pos 0 0 d
  | .kids v e h pos toph toppos path depth pd =>
    let pr := digAt data 32
    if nodeDigest d pr ≠ pd then s.leadFin b fun b => b.plain 6
    else match b.nodeAt v e h pos, b.nodeAt v e (h - 1) pos, b.nodeAt v e (h - 1) (pos + 2 ^ (h - 1)) with
      | some x, some l, some r =>
        if nodeDigest l r ≠ x then s.leadFin b fun b => b.plain 3
        else if l = d then s.descend b v e (h - 1) (pos + 2 ^ (h - 1)) toph toppos (2 * path + 1) (depth + 1) pr
        else s.descend b v e (h - 1) pos toph toppos (2 * path) (depth + 1) d
      | _, _, _ => s.leadFin b fun b => b.plain 2
  | .fin => (s.writeAt (hostBase + b.resb) b.result).endBisect b (numAt b.result 0 1)

/-- A reply reaches the LEAD that awaits it: BOUNDS tells of a record that is absent, ACCESS of a peer that
does not answer (R376, R377). -/
def State.leadReply (s : State) (b : Bisect) (p : Packet) : State :=
  if p.status = 0 then s.walkOn b (p.payload.flatMap (leBytes 64))
  else if p.status = 2 then s.leadFin b fun b => b.plain 2
  else s.leadEnd b 5

/-! ## Serving (R375, R376) -/

/-- Whether a BISECT is the ANSWER side that a request is for. -/
def Bisect.serves (b : Bisect) (p : Packet) : Bool := !b.lead && b.session == p.task && b.peer == p.src

/-- Whether a waiting BISECT will be the ANSWER side that a request is for. -/
def State.awaitsIndex (s : State) (p : Packet) : Bool :=
  s.taster.waiting.any fun w => pktType w.1 == 0x21 &&
    ((bisectOf 0 0 (w.2.2.map (BitVec.ofNat 8))).any fun e => e.1.serves p)

/-- A request served: it is held until the index is built, answered from the index, or answered ACCESS
(R375, R376, R385). -/
def State.serve (s : State) (p : Packet) : State :=
  match s.taster.bisects.find? fun b => b.serves p with
  | some b =>
    let s := s.putBisect { b with since := s.gtc }
    if bits p.opa 2 0 = 7 then (s.inject (replyTo p s.peerId b.die 0 none)).endBisect b 0
    else match b.answer p with
      | some bs => s.inject (replyTo p s.peerId b.die 0 (some bs))
      | none => s.inject (replyTo p s.peerId b.die 2 (some []))
  | none =>
    if s.awaitsIndex p then { s with taster := { s.taster with early := s.taster.early ++ [p] } }
    else s.inject (replyTo p s.peerId 0 7 (some []))

/-! ## TASTE (R383, R384) -/

/-- A capture image as a Taster reads it (Tables 14.5, 14.6): its status, whether it is usable, its REPRO
bit, PSIDX, the leaf record, and the images with their DIG fields. -/
structure Captured where
  good   : Bool
  repro  : Nat
  psidx  : Nat
  record : List Byte
  images : List (Image × Digest)
deriving DecidableEq, Repr

/-- An image from its descriptor; an AUX of no bytes is the block of an empty group (R382). -/
def State.capturedImage (s : State) (base : Nat) (d : List Byte) : Image × Digest :=
  let role := min 4 (numAt d 0 1)
  let len := numAt d 0x10 4
  let dig := digAt d 0x20
  ({ role := if role = 4 ∧ len = 0 ∧ dig = 0 then 5 else role, fmt := numAt d 1 1, blk := numAt d 2 1
     ext := (List.range 4).map fun k => numAt d (4 + 3 * k) 3, bytes := s.hostBytes (base + numAt d 0x14 4) len }, dig)

/-- The capture image at a host address. -/
def State.captured (s : State) (a : Nat) : Captured :=
  let h := s.hostBytes a 0x80
  let ni := numAt h 0x20 4
  { good := numAt h 0 4 == 0x4D494343 && numAt h 4 1 == 0 && !bit (numAt h 8 4) 2
    repro := numAt h 8 4 % 2, psidx := numAt h 0x18 8 % 2 ^ 40, record := s.hostBytes (a + 0x80) 192
    images := (List.range ni).map fun i => s.capturedImage a (s.hostBytes (a + 0x140 + 64 * i) 64) }

/-- The field of a leaf record for the image of a role (Table 13.2). -/
def fieldOfRole (record : List Byte) (role : Nat) : Digest := digAt record (0x28 + 32 * role)

/-- The field that the AUX images recompose, and what they give for it (R290, R339). -/
def auxField (record : List Byte) (aux : List (Image × Digest)) : Nat × Digest :=
  if numAt record 1 1 = 6 then
    (0, if aux.isEmpty then 0 else imageDigest 0x01 (aux.flatMap fun x => digBytes x.2))
  else
    (1, imageDigest 0x01 (aux.dropLast.flatMap (fun x => digBytes x.2) ++ ((aux.getLast?.map (·.1.bytes)).getD [])))

/-- The roles whose images do not agree with their digests and the leaf record (R384). -/
def Captured.badRoles (c : Captured) : List Nat :=
  let ok (x : Image × Digest) : Bool := x.1.role == 5 || x.1.digest == x.2
  let plain := (c.images.filter fun x => decide (x.1.role < 4)).filterMap fun x =>
    if ok x ∧ x.2 = fieldOfRole c.record x.1.role then none else some x.1.role
  let aux := c.images.filter fun x => decide (4 ≤ x.1.role)
  let (role, d) := auxField c.record aux
  plain ++ (if aux.isEmpty ∨ (aux.all ok ∧ d = fieldOfRole c.record role) then [] else [role])

/-- Bits for the roles of a list. -/
def roleBits (rs : List Nat) : Nat := ((List.range 4).map fun k => b2n (rs.contains k) * 2 ^ k).sum

/-- Keccak permutations of the digest of an image (R352). -/
def permutations (n : Nat) : Nat :=
  let chunks := (List.range ((n + 1023) / 1024)).map fun i => (6 + min 1024 (n - 1024 * i)) / 136 + 1
  chunks.sum + (5 + 32 * ((n + 1023) / 1024)) / 136 + 1

/-- A verdict (Table 14.9). -/
structure Tasted where
  verdict : Nat
  opsel   : Nat
  side    : Nat
  ifirst  : Nat
  formed  : Option Formed
deriving DecidableEq, Repr

/-- A verdict reached before anything is formed. -/
def Tasted.early (verdict opsel side ifirst : Nat) : Tasted :=
  { verdict := verdict, opsel := opsel, side := side, ifirst := ifirst, formed := none }

/-- The verdict on two images: the first test that holds decides (R384). -/
def taste (a b : Captured) (free : Nat) : Tasted :=
  let same (c d : Captured) : Bool :=
    c.record.take 0x28 == d.record.take 0x28 && c.record.drop 0xB0 == d.record.drop 0xB0
  let res (c : Captured) : Digest × Nat := (digAt c.record 0x88, numAt c.record 0xA8 8)
  let diff := (List.range 3).filter fun k => fieldOfRole a.record k != fieldOfRole b.record k
  let kind := numAt a.record 1 1
  if !same a b then .early 5 0 0 0
  else if a.badRoles ≠ [] then .early 3 (roleBits a.badRoles) 0 0
  else if b.badRoles ≠ [] then .early 3 (roleBits b.badRoles) 1 0
  else if diff ≠ [] then .early 4 (roleBits diff) 0 (if a.psidx = 2 ^ 40 - 1 then 0 else a.psidx + 1)
  else if !replayable kind (recordInstr a.record) then .early (if res a = res b then 6 else 7) 0 0 0
  else match replay a.record (a.images.map (·.1)) free with
    | none => .early 2 0 0 0
    | some f =>
      let r := (f.res.getD 0, f.extra)
      { verdict := if r = res a then (if r = res b then 6 else 0) else if r = res b then 1 else 2
        opsel := 0, side := 0, ifirst := 0, formed := some f }

/-- The verdict record (Table 14.9); `ticks` are the Taster's busy ticks. -/
def tasteRecord (bs : List Byte) (a b : Captured) (x : Tasted) (ticks : Nat) : List Byte :=
  leBytes 4 (x.opsel * 2 ^ 20 + x.side * 2 ^ 16 + x.verdict)
    ++ leBytes 4 ((a.repro + 2 * b.repro) * 2 ^ 16 + numAt a.record 2 1 * 2 ^ 8 + numAt a.record 1 1)
    ++ leBytes 8 (numAt a.record 8 8 % 2 ^ 40) ++ leBytes 8 x.ifirst ++ leBytes 8 ticks
    ++ digBytes ((x.formed.bind (·.res)).getD 0) ++ leBytes 8 ((x.formed.map (·.extra)).getD 0 : Nat)
    ++ leBytes 8 (numAt bs 0x18 8) ++ zeros 48

/-- The busy ticks of a Taster where its chapters give them all, else a free value (R371). -/
def tasteTicks (a : Captured) (x : Tasted) (free : Nat) : Nat :=
  match x.formed.bind (·.occ) with
  | some occ => 64 * occ + (a.images.map fun i => permutations i.1.bytes.length).sum
  | none => Config.freeValue free % 2 ^ 64

/-- Whether the block of a TASTE is bad (Table 14.8, R372). -/
def tasteBad (bs : List Byte) : Bool :=
  let w := numAt bs 0x18 8
  bs.length != 32 || numAt bs 0 8 % 64 != 0 || numAt bs 8 8 % 64 != 0 || bits w 63 25 != 0 || bits w 15 9 != 0

/-- A Taster judges two images and writes its verdict (R384). -/
def State.tasteNow (s : State) (q seq : Nat) (bs : List Byte) : State :=
  let a := s.captured (numAt bs 0 8)
  let b := s.captured (numAt bs 8 8)
  let out := hostBase + numAt bs 0x10 8
  if !a.good || !b.good then (s.writeAt out (leBytes 4 0x100 ++ zeros 124)).auditDone q seq 1
  else
    let x := taste a b (s.freeCtr + 1)
    let s' := s.writeAt out (tasteRecord bs a b x (tasteTicks a x s.freeCtr))
    ({ s' with freeCtr := s'.freeCtr + 2 ^ 32 }).auditDone q seq 0

/-! ## Starting commands -/

/-- A Taster builds the index of a BISECT in its work area, whose bytes the spec does not give, checks it,
and leads or serves (R375). -/
def State.startBisect (s : State) (die q seq : Nat) (bs : List Byte) : State :=
  match bisectOf q seq bs with
  | none => s.auditDone q seq 1
  | some (b, audb, audc, work) =>
    let index := (List.range audc).map fun i => nodeOfRecord (s.hostBytes (audb + 64 * i) 64)
    let junk := (List.range (64 * audc)).map fun i => BitVec.ofNat 8 (Config.freeValue (s.freeCtr + i))
    let s := { s with freeCtr := s.freeCtr + 64 * audc }
    let s := s.writeUnder 0 (cellsAt (s.paFlat work) junk)
    let b := { b with die := die, index := index, since := s.gtc, walk := if b.lead then .troot else .fin }
    let s := { s with taster := { s.taster with bisects := s.taster.bisects ++ [b] } }
    match b.badIndex with
    | some status => s.leadEnd b status
    | none => if b.lead then s.ask b .troot 0 0 0 0 0 else s

/-- A Taster takes a command. -/
def State.startTaster (s : State) (die : Nat) (w : PktHdr × Nat × List Nat) : State :=
  let bs := w.2.2.map (BitVec.ofNat 8)
  if pktType w.1 = 0x21 then s.startBisect die w.1.q w.2.1 bs else s.tasteNow w.1.q w.2.1 bs

/-- Idle Tasters take waiting commands in order, and requests that waited for an index are served. -/
def State.runTasters : Nat → State → State
  | 0, s => s
  | fuel + 1, s =>
    match s.taster.early.find? fun p => !s.awaitsIndex p with
    | some p =>
      State.runTasters fuel (({ s with taster := { s.taster with early := s.taster.early.erase p } }).serve p)
    | none =>
      match s.taster.waiting, s.freeTaster with
      | w :: ws, some d => State.runTasters fuel (({ s with taster := { s.taster with waiting := ws } }).startTaster d w)
      | _, _ => s

/-- The Tasters after a change. -/
def State.settleTasters (s : State) : State := State.runTasters (s.taster.early.length + s.taster.waiting.length) s

/-- A command for a Taster: a bad block completes it at once; else it waits for an idle Taster (R372). -/
def State.hand (s : State) (h : PktHdr) (n : Nat) (args : List Nat) (bad : Bool) : State :=
  if bad then s.auditDone h.q n 1
  else ({ s with taster := { s.taster with waiting := s.taster.waiting ++ [(h, n, args)] } }).settleTasters

/-- BISECT (R374 to R378). -/
def execBisect (h : PktHdr) (args : List Nat) (s : State) : Out :=
  .next (s.packet h true fun n s => s.hand h n args (bisectOf 0 0 (args.map (BitVec.ofNat 8))).isNone)

/-- TASTE (R383, R384). -/
def execTaste (h : PktHdr) (args : List Nat) (s : State) : Out :=
  .next (s.packet h true fun n s => s.hand h n args (tasteBad (args.map (BitVec.ofNat 8))))

/-- AUDN (R376): a reply goes to the LEAD that awaits its tag, or is counted as late; a request is served. -/
def execAudnPacket (p : Packet) (s : State) : Out :=
  .next (
    if !s.arrived p then s
    else
      let mine (b : Bisect) : Bool := b.lead && b.peer == p.src && b.session == p.task && b.tag == p.tag
        && (p.npay == 1) != (b.walk == .fin)
      match s.taster.bisects.find? mine with
      | some b => ((s.takePacket p).leadReply b p).settleTasters
      | none =>
        if p.npay ≠ 0 then (s.lateResponse p).takePacket p
        else ((s.takePacket p).serve p).settleTasters)

/-- BISECT_ANSWER_TIMEOUT: an ANSWER side of a session that has had no request for 2^30 ticks completes
with UNREACH (R375). -/
def execBisectAnswerTimeout (session : Nat) (s : State) : Out :=
  .next (
    let late := s.taster.bisects.filter fun b => !b.lead && b.session == session && decide (b.since + 2 ^ 30 ≤ s.gtc)
    (late.foldl (fun s b => s.endBisect b 5) s).settleTasters)

/-- The requests of the Taster of a die that have awaited a reply for D_FAB ticks: their BISECT completes
with UNREACH (R160, R376). -/
def State.audnLost (s : State) (die tag : Nat) : State :=
  let late := s.taster.bisects.filter fun b => b.lead && b.die == die && b.tag == tag && !s.inTime b.since
  (late.foldl (fun s b => s.leadEnd b 5) s).settleTasters

/-- The Taster of a die that leaves service: its command completes with UNREACH (R385). -/
def State.tasterLost (s : State) (die : Nat) : State :=
  ((s.taster.bisects.filter fun b => b.die == die).foldl (fun s b => s.leadEnd b 5) s).settleTasters

/-- A packet that has awaited its response for D_FAB ticks settles as UNREACH, or as LINK for a
multicast copy (R160, R165, R376). -/
def execResponseTimeout (phys tag : Nat) (s : State) : Out :=
  .next (
    let s := s.relayLost phys tag
    if phys % 32 = 30 then s.audnLost (phys / 32) tag else s.responseLost phys tag)

end Sys2Proof.Machine
end

