-- ==== Sys2Proof/Machine/CaptureRun.lean ====
section
/-!
DEFINITION. CAPTURE: the launch of a capture run, and its cut when it is decided (14, R379, R380).
-/

namespace Sys2Proof.Machine

/-- A capture run as its block asks for it (Table 14.4). -/
def captureOf (q seq : Nat) (bs : List Byte) (pinned : Bool) : Capture :=
  { q := q, pseq := seq, task := numAt bs 0 4, eng := bits (numAt bs 4 4) 18 16, vcore := numAt bs 4 2, leafPos := numAt bs 8 8
    expect := digAt bs 0x10, imgb := numAt bs 0x38 8, imgMax := numAt bs 0x40 8, pinned := pinned, record := [], images := []
    psidx := none, status := 11, fcause := 0, ovcore := 0, osidx := 0, decided := none }

/-- Whether the block of a CAPTURE is bad (R372, Table 14.4). -/
def captureBad (bs : List Byte) : Bool :=
  bs.length != 80 || bits (numAt bs 4 4) 31 19 != 0 || numAt bs 0x30 8 % 8 != 0 || numAt bs 0x38 8 % 64 != 0
    || decide (1 < numAt bs 0x48 8)

/-- The packet at a host address, by the length of its header. -/
def State.hostPacket (s : State) (a : Nat) : List Nat :=
  let w := s.num (hostBase + a) 8
  (List.range (bits w 36 24)).map fun i => s.num (hostBase + a + 8 * i) 8

/-- The LAUNCH copy of a CAPTURE, where it is a LAUNCH of the task named that passes the checks of its
fields (R379, R393). -/
def launchCopy (h : PktHdr) (task : Nat) : Option LaunchFields :=
  if h.raw = [] ∨ pktType h ≠ 1 ∨ headerBad (h.raw.headD 0) then none
  else match checkPacket h false with
    | .error _ => none
    | .ok fs => let f := launchOf fs
                if (badField f).isSome || f.taskId != task then none else some f

/-- The cores of the original run, where the history holds it and it had as many (R380). -/
def State.pinsOf (s : State) (task n : Nat) : List Nat :=
  match s.retired.find? fun e => e.1 == task with
  | some e => if e.2.length = n then e.2 else []
  | none => []

/-- A CAPTURE accepted, with what its launch runs (R380): no audit ring, and its pins where it asks for them. -/
def State.acceptCapture (s : State) (h : PktHdr) (bs : List Byte) (k : PktHdr) (f : LaunchFields) (x : Kernel) : State :=
  let (n, s) := s.accept h 1
  let pins := if numAt bs 0x48 8 = 1 then s.pinsOf f.taskId f.cores else []
  let c := captureOf h.q n bs (!pins.isEmpty)
  let t := taskOf' h.q n s.order (s.queue h.q).entry.asid h.ordered none [] f x k.raw
  let s := s.addTask f.taskId { t with audring := none, pins := pins }
  { s with taster := { s.taster with captures := s.taster.captures ++ [c] } }

/-- A CAPTURE of a task id that is held: its image says BUSY (R373, R379). -/
def State.captureBusy (s : State) (h : PktHdr) (bs : List Byte) : State :=
  let (n, s) := s.accept h 1
  let c := captureOf h.q n bs false
  (s.captureWrite c 0 (c.header 13 0 false 0)).auditDone h.q n 13

/-- CAPTURE (R379, R380). -/
def execCapture (h : PktHdr) (args : List Nat) (s : State) : Out :=
  .next (
    let bs := args.map (BitVec.ofNat 8)
    let task := numAt bs 0 4
    if !s.nextIs h then s
    else if h.spawned || !(s.queue h.q).entry.priv then
      s.settlePkt h { status := 4, tag := 0, detail := pktType h }
    else if captureBad bs then s.settlePkt h (auditVerdict 1)
    else if (s.task? task).isSome then (s.captureBusy h bs).settleDisable h.q
    else
      let k := Sys2Proof.Machine.pktHdr h.q false (s.hostPacket (numAt bs 0x30 8))
      match launchCopy k task with
      | none => s.settlePkt h (auditVerdict 1)
      | some f =>
        match s.prepare (s.queue h.q).entry.asid f [] with
        | (.hold va, s) => s.holdFed h.q va
        | (.bad _, s) => s.settlePkt h (auditVerdict 1)
        | (.ok x, s) => s.acceptCapture h bs k f x)

/-- A capture run decided by tick `now` whose task has not been asked to end. -/
def State.decidedRun (s : State) : Option Nat :=
  s.taster.captures.findSome? fun c =>
    match c.decided, s.task? c.task with
    | some a, some t => if a + 1 ≤ s.gtc ∧ !t.cutReq.any (·.ends) then some c.task else none
    | _, _ => none

/-- A request that ends a task now, with the cause that its packet gives (Table 16.9). -/
def addEnd (old : Option CutReq) (now detail : Nat) : CutReq :=
  match old with
  | none => { at? := some now, kind := 1, ends := true, detail := detail, fwFault := false, stops := [], saves := []
              yield := false, ty := 0 }
  | some r => { r with at? := some now, kind := 1, ends := true, detail := if r.ends then r.detail else detail }

/-- CAPTURE_TARGET_REACHED: on the tick after the target leaf has been appended, or the run has met what
ends it, every stream of its task halts issue; the run ends once the cut is complete (R380). -/
def execCaptureTargetReached (s : State) : Out :=
  .next (
    match s.decidedRun with
    | none => s
    | some id =>
      (s.onTask id fun t => { t with cutReq := some (addEnd t.cutReq s.gtc 0) }).cutTask id)

end Sys2Proof.Machine
end

