-- ==== Sys2Proof/Machine/Trust.lean ====
section
/-!
DEFINITION. The trust chiplet: SPDM, sessions and certificates, memory keys, IDE and TDISP, and host accesses
to device memory (17, R446 to R463).
-/

namespace Sys2Proof.Machine

/-! ## Digests of SPDM (R448) -/

/-- The padded message of SHA3-384: the suffix 01, then 10*1, to blocks of 104 bytes. -/
def sha3Pad (m : List Byte) : List Byte :=
  let k := 104 - m.length % 104
  if k = 1 then m ++ [0x86] else m ++ [0x06] ++ zeros (k - 2) ++ [0x80]

/-- SHA3-384 of FIPS 202. -/
def sha384 (m : List Byte) : List Byte :=
  let p := sha3Pad m
  let a := (pieces 104 (p.length / 104) p).foldl absorb (List.replicate 25 0)
  (List.range 6).flatMap fun i => leBytes 8 (lane a i).toNat

/-- SHA3-384 of bytes given as numbers. -/
def sha384Nat (m : List Nat) : List Nat := (sha384 (m.map (BitVec.ofNat 8))).map BitVec.toNat

/-! ## Answers (Table 17.3) -/

/-- An answer leaves a responder. -/
def State.reply (s : State) (ep : SpdmEnd) (a : SpdmAnswer) : State := { s with out := s.out ++ [.spdm ep a] }

/-- An ERROR answer. -/
def State.replyError (s : State) (ep : SpdmEnd) (e : SpdmError) : State := s.reply ep (.error e)

/-- An answer that carries `n` bytes: a large one is held for CHUNK_GET. -/
def State.replyLong (s : State) (ep : SpdmEnd) (a : SpdmAnswer) (n : Nat) : State :=
  if n ≤ Config.transferSize then s.reply ep a
  else
    let k : ChunkOut :=
      { ep := ep, handle := s.trust.nextHandle, answer := a, next := 0, parts := n / max 1 Config.transferSize + 1 }
    ({ s with trust := { s.trust with gets := s.trust.gets ++ [k], nextHandle := s.trust.nextHandle + 1 } }).replyError ep
      (.largeResponse k.handle)

/-- Whether a responder is the trust chiplet, not a die's security engine (Table 17.2). -/
def atTrust : SpdmEnd → Bool
  | .dse _ => false
  | _ => true

/-- The number under which Config knows a responder. -/
def responderNo : SpdmEnd → Nat
  | .dse d => d
  | _ => 32

/-- The open session in which a request came. -/
def State.sessionOf (s : State) (r : SpdmReq) : Option Session :=
  r.session.bind fun n => s.trust.sessions.find? fun x => x.id == n && x.ep == r.ep && x.open'

/-- GET_VERSION (R447). -/
def execGetVersion (r : SpdmReq) (s : State) : Out := .next (s.reply r.ep .version)

/-- GET_CAPABILITIES (R447). -/
def execGetCapabilities (r : SpdmReq) (s : State) : Out := .next (s.reply r.ep .capabilities)

/-- NEGOTIATE_ALGORITHMS: a requester that offers none of ours is refused (R448). -/
def execNegotiateAlgorithms (r : SpdmReq) (offersOurs : Bool) (s : State) : Out :=
  .next (if offersOurs then s.reply r.ep .algorithms else s.replyError r.ep .invalidRequest)

/-- A request outside Table 17.3 (R447). -/
def execSpdmUnsupportedRequest (r : SpdmReq) (_code : Nat) (s : State) : Out :=
  .next (s.replyError r.ep .unsupportedRequest)

/-! ## Certificates (R449, R450) -/

/-- The chain in a slot of a responder; none where the slot is empty or does not exist. -/
def State.chainOf (s : State) (ep : SpdmEnd) (slot : Nat) : List Nat :=
  if slot = 0 then Config.vendorChain (responderNo ep)
  else if atTrust ep ∧ slot < 8 then s.trust.chains.get [] slot
  else []

/-- GET_DIGESTS: the slots that hold a chain, with its SHA3-384. -/
def execGetDigests (r : SpdmReq) (s : State) : Out :=
  .next (s.reply r.ep (.digests (((List.range 8).filter fun k => k == 0 || !(s.chainOf r.ep k).isEmpty).map fun k =>
    (k, sha384Nat (s.chainOf r.ep k)))))

/-- GET_CERTIFICATE: a portion of a chain. A chain read in portions stays in use until its end has been read
(R450). -/
def execGetCertificate (r : SpdmReq) (slot off len : Nat) (s : State) : Out :=
  .next (
    let held := s.trust.uses.find? fun u => u.ep == r.ep && u.slot == slot
    let chain := match held with
      | some u => if off = 0 then s.chainOf r.ep slot else u.chain
      | none => s.chainOf r.ep slot
    if 8 ≤ slot ∨ (slot ≠ 0 ∧ chain = []) ∨ (chain.length ≤ off ∧ off ≠ 0) then s.replyError r.ep .invalidRequest
    else
      let part := (chain.drop off).take len
      let left := chain.length - off - part.length
      let others := s.trust.uses.filter fun u => !(u.ep == r.ep && u.slot == slot)
      let uses := if left = 0 then others else others ++ [{ ep := r.ep, slot := slot, chain := chain }]
      ({ s with trust := { s.trust with uses := uses } }).replyLong r.ep (.certificate slot part left) part.length)

/-- SET_CERTIFICATE: in a session of the trust chiplet, to slots 1 to 7 that are not in use, a chain that
ends in a certificate of the identity key (R447, R449, R450). -/
def execSetCertificate (r : SpdmReq) (slot : Nat) (chain : List Nat) (endsInIdentity : Bool) (s : State) : Out :=
  .next (
    if !atTrust r.ep then s.replyError r.ep .unsupportedRequest
    else if (s.sessionOf r).isNone then s.replyError r.ep .sessionRequired
    else if slot = 0 ∨ 8 ≤ slot ∨ !endsInIdentity then s.replyError r.ep .invalidRequest
    else if s.trust.uses.any fun u => atTrust u.ep && u.slot == slot then s.replyError r.ep .busy
    else ({ s with trust := { s.trust with chains := s.trust.chains.set [] slot chain } }).reply r.ep (.setCertificateRsp slot))

/-! ## Signatures (R445, R446, R367) -/

/-- The one-time index of the next signature of a responder: the identity key's, with its block reserved, or
one of the block that a die's security engine was given, if one is left. -/
def State.signIndex (s : State) (ep : SpdmEnd) : Option (Nat × State) :=
  match ep with
  | .dse d =>
    let (i, e) := s.trust.dieIdx.get (0, 0) d
    if i < e then some (i, { s with trust := { s.trust with dieIdx := s.trust.dieIdx.set (0, 0) d (i + 1, e) } }) else none
  | _ => some (s.trust.idxNext, { s with trust := s.trust.nextIndex })

/-- Bytes of a signature of a responder (Table 17.1). -/
def signatureSize (ep : SpdmEnd) : Nat := if atTrust ep then 8392 else 9893

/-- CHALLENGE: signed over the chain that stands in the slot when it arrives (R450); a security engine whose
block has run out answers Unspecified (R446). -/
def execChallenge (r : SpdmReq) (slot nonce : Nat) (s : State) : Out :=
  .next (
    let chain := s.chainOf r.ep slot
    if 8 ≤ slot ∨ (slot ≠ 0 ∧ chain = []) then s.replyError r.ep .invalidRequest
    else match s.signIndex r.ep with
      | none => s.replyError r.ep .unspecified
      | some (i, s) => s.replyLong r.ep (.challengeAuth slot (sha384Nat chain) nonce i) (signatureSize r.ep))

/-! ## Measurements (R451) -/

/-- Blocks 1 to 4 of a part, one after another. -/
def blocksOf (part : Nat) : List Nat := (List.range 4).flatMap fun k => Config.measurement part (k + 1)

/-- A measurement block that a responder reports; none where it has no such block. -/
def State.blockAt (s : State) (ep : SpdmEnd) (k : Nat) : Option (List Nat) :=
  if 1 ≤ k ∧ k ≤ 4 then some (Config.measurement (responderNo ep) k)
  else if atTrust ep ∧ 16 ≤ k ∧ k < 48 then
    some (if (s.die (k - 16)).present then sha384Nat (s.trust.measured.get [] (k - 16)) else List.replicate 48 0)
  else none

/-- GET_MEASUREMENTS of one block, or of all of them (index 255). A die that the trust chiplet asks for all
its blocks has been measured anew. -/
def execGetMeasurements (r : SpdmReq) (index : Nat) (s : State) : Out :=
  .next (
    let bs : Option (List Nat) :=
      if index = 255 then some ((List.range 48).flatMap fun k => (s.blockAt r.ep k).getD []) else s.blockAt r.ep index
    let s := match r.ep, index with
      | .dse d, 255 => { s with trust := { s.trust with measured := s.trust.measured.set [] d (blocksOf d) } }
      | _, _ => s
    match bs with
    | none => s.replyError r.ep .invalidRequest
    | some bs => s.replyLong r.ep (.measurements index bs) bs.length)

/-! ## Chunks -/

/-- CHUNK_SEND: the parts of a large request arrive in order; the request itself is the step that follows
its last part. -/
def execChunkSend (r : SpdmReq) (handle seq : Nat) (last : Bool) (data : List Nat) (s : State) : Out :=
  .next (
    let mine (c : ChunkIn) : Bool := c.ep == r.ep && c.handle == handle
    let old := s.trust.sends.find? mine
    let rest := s.trust.sends.filter fun c => !mine c
    let want := (old.map fun c => c.seq).getD 0
    let c : ChunkIn := { ep := r.ep, handle := handle, seq := seq + 1, data := (old.map (·.data)).getD [] ++ data }
    if seq ≠ want then ({ s with trust := { s.trust with sends := rest } }).replyError r.ep .invalidRequest
    else ({ s with trust := { s.trust with sends := if last then rest else rest ++ [c] } }).reply r.ep
      (.chunkSendAck handle seq))

/-- CHUNK_GET: the next part of a large answer; the answer is complete with its last part. -/
def execChunkGet (r : SpdmReq) (handle seq : Nat) (s : State) : Out :=
  .next (
    let mine (c : ChunkOut) : Bool := c.ep == r.ep && c.handle == handle
    match s.trust.gets.find? mine with
    | none => s.replyError r.ep .invalidRequest
    | some c =>
      if seq ≠ c.next then s.replyError r.ep .invalidRequest
      else
        let last := decide (c.parts ≤ seq + 1)
        let gets := if last then s.trust.gets.filter fun x => !mine x
          else s.trust.gets.map fun x => if mine x then { x with next := seq + 1 } else x
        let s := ({ s with trust := { s.trust with gets := gets } }).reply r.ep (.chunkResponse handle seq last)
        if last then s.reply r.ep c.answer else s)

/-! ## Sessions (R447, R454, R456) -/

/-- KEY_EXCHANGE: the trust chiplet signs, and a session awaits its FINISH. -/
def execKeyExchange (r : SpdmReq) (slot : Nat) (s : State) : Out :=
  .next (
    if !atTrust r.ep then s.replyError r.ep .unsupportedRequest
    else if 8 ≤ slot ∨ (slot ≠ 0 ∧ s.chainOf r.ep slot = []) then s.replyError r.ep .invalidRequest
    else match s.signIndex r.ep with
      | none => s.replyError r.ep .unspecified
      | some (i, s) =>
        let n := s.trust.nextSession
        let x : Session := { id := n, ep := r.ep, open' := false, keys := 0 }
        let s := { s with trust := { s.trust with sessions := s.trust.sessions ++ [x], nextSession := n + 1 } }
        s.replyLong r.ep (.keyExchangeRsp n slot i) (signatureSize r.ep))

/-- FINISH: a session whose requester verifies is open; one that does not is gone. -/
def execFinish (r : SpdmReq) (verified : Bool) (s : State) : Out :=
  .next (
    let mine (x : Session) : Bool := r.session == some x.id && x.ep == r.ep && !x.open'
    if !atTrust r.ep then s.replyError r.ep .unsupportedRequest
    else match s.trust.sessions.find? mine with
      | none => s.replyError r.ep .sessionRequired
      | some x =>
        if verified then
          let opened (y : Session) : Session := if mine y then { y with open' := true } else y
          ({ s with trust := { s.trust with sessions := s.trust.sessions.map opened } }).reply r.ep (.finishRsp x.id)
        else
          let rest := s.trust.sessions.filter fun y => !mine y
          ({ s with trust := { s.trust with sessions := rest } }).replyError r.ep .invalidRequest)

/-- A request of an open session of the trust chiplet, done by `f`. -/
def State.inSession (s : State) (r : SpdmReq) (f : Session → State → State) : State :=
  if !atTrust r.ep then s.replyError r.ep .unsupportedRequest
  else match s.sessionOf r with
    | none => s.replyError r.ep .sessionRequired
    | some x => f x s

/-- KEY_UPDATE: the session takes new keys; that of a link names its switch counter (R454). -/
def execKeyUpdate (r : SpdmReq) (switchAt : Nat) (s : State) : Out :=
  .next (s.inSession r fun x s =>
    let next (y : Session) : Session := if y.id = x.id then { y with keys := y.keys + 1 } else y
    let s := { s with trust := { s.trust with sessions := s.trust.sessions.map next } }
    let s := match r.ep with
      | .link q => s.onPort q fun p => { p with switchAt := some switchAt }
      | _ => s
    s.reply r.ep (.keyUpdateAck x.id))

/-- HEARTBEAT. -/
def execHeartbeat (r : SpdmReq) (s : State) : Out :=
  .next (s.inSession r fun x s => s.reply r.ep (.heartbeatAck x.id))

/-- Whether a TDI is locked or runs. -/
def Tdi.held (x : Tdi) : Bool := x.phase == .locked || x.phase == .run

/-- END_SESSION: a TDI that the session has locked falls into ERROR (Table 17.5). -/
def execEndSession (r : SpdmReq) (s : State) : Out :=
  .next (s.inSession r fun x s =>
    let drop (t : Tdi) : Tdi := if t.held && r.ep == .host && t.bound == some x.id then { t with phase := .error } else t
    let rest := s.trust.sessions.filter fun y => y.id != x.id
    let tdis := s.trust.tdis.map fun (e : Nat × Tdi) => (e.1, drop e.2)
    ({ s with trust := { s.trust with sessions := rest, tdis := tdis } }).reply r.ep (.endSessionAck x.id))

/-! ## Memory keys (R458, R459) -/

/-- A request of an open session with the host (Table 17.3). -/
def State.inHostSession (s : State) (r : SpdmReq) (f : State → State) : State :=
  if r.ep = .host then s.inSession r fun _ s => f s else s.replyError r.ep .unsupportedRequest

/-- KEY_SET writes keys into an EMPTY slot (R458). -/
def execKeySet (r : SpdmReq) (slot asid : Nat) (s : State) : Out :=
  .next (s.inHostSession r fun s =>
    if 256 ≤ slot ∨ 4096 ≤ asid ∨ (s.trust.keySlots.get none slot).isSome then s.replyError r.ep .invalidRequest
    else
      let k : KeySlot := { asid := asid, gen := s.trust.keyGen + 1 }
      ({ s with trust := { s.trust with
          keySlots := s.trust.keySlots.set none slot (some k), keyGen := s.trust.keyGen + 1 } }).reply r.ep (.keySetRsp slot))

/-- KEY_CLEAR empties a slot. Every access of this model is performed at its step, so none is left between
its translation and its performance (R459, log entry 5). -/
def execKeyClear (r : SpdmReq) (slot : Nat) (s : State) : Out :=
  .next (s.inHostSession r fun s =>
    ({ s with trust := { s.trust with keySlots := s.trust.keySlots.set none slot none } }).reply r.ep (.keyClearRsp slot))

/-- IDE_KM: keys for one of the five streams of the host link, over the host's session (R455). -/
def execIdeKmKeyProgramming (r : SpdmReq) (stream : Nat) (s : State) : Out :=
  .next (s.inHostSession r fun s =>
    if 5 ≤ stream then s.replyError r.ep .invalidRequest
    else
      let ide := s.trust.ide.filter (· != stream) ++ [stream]
      ({ s with trust := { s.trust with ide := ide } }).reply r.ep (.ideKmAck stream))

/-! ## TDISP (R455 to R457) -/

/-- TDI `n`. -/
def State.tdi (s : State) (n : Nat) : Tdi := s.trust.tdis.get Tdi.unlocked n

/-- The state with TDI `n` at `x`. -/
def State.setTdi (s : State) (n : Nat) (x : Tdi) : State :=
  { s with trust := { s.trust with tdis := s.trust.tdis.set Tdi.unlocked n x } }

/-- A TDISP answer. -/
def State.tdisp (s : State) (n session : Nat) (q : TdispReq) (a : TdispAnswer) : State :=
  { s with out := s.out ++ [.tdisp n session q a] }

/-- Whether TDI `n` owns queue `q`: queues 32(n − 1) to 32n − 1 (R455). -/
def ownsQueue (n q : Nat) : Bool := q / 32 + 1 == n

/-- The address spaces that the queues of TDI `n` name. -/
def State.tdiAsids (s : State) (n : Nat) : List Nat :=
  (s.queues.filter fun e => ownsQueue n e.1 && e.2.v).map fun e => e.2.entry.asid

/-- The kernel tasks of the queues of TDI `n`. -/
def State.tdiTasks (s : State) (n : Nat) : List (Nat × Task) :=
  s.tasks.filterMap fun e => e.2.bind fun t => if ownsQueue n t.queue && t.spec.isNone then some (e.1, t) else none

/-- A task of a TDI that is being scrubbed ends as by a STOP that ends it; a saved context is released (R435,
R442, R457). -/
def State.scrubTask (s : State) (id : Nat) : State :=
  match s.task? id with
  | none => s
  | some t =>
    if t.kind ≠ .kernel then s
    else match t.phase with
      | .kept _ _ => (s.setTask id none).completeLaunch t
      | _ => (s.setTask id (some { t with cutReq := some (addEnd t.cutReq s.gtc 0x20) })).cutTask id

/-- A scrub begins: the queues are disabled and their tasks ended (R457). -/
def State.startScrub (s : State) (n session : Nat) : State :=
  let asids := s.tdiAsids n
  let s := s.setTdi n { s.tdi n with scrub := some (session, asids) }
  let s := (s.queues.map Prod.fst).foldl (fun s q => if ownsQueue n q then s.disableQueue q else s) s
  ((s.tdiTasks n).map Prod.fst).foldl (fun s id => s.scrubTask id) s

/-- Whether the queues of TDI `n` are disabled and their tasks have ended. -/
def State.scrubbed (s : State) (n : Nat) : Bool :=
  (s.tdiTasks n).isEmpty && s.queues.all fun e => !(ownsQueue n e.1 && e.2.v)

/-- A scrub ends: the key slots are cleared and the session is unbound (R457). -/
def State.endScrub (s : State) (n session : Nat) (asids : List Nat) : State :=
  let slots := s.trust.keySlots.filter fun e => !(e.2.any fun k => asids.contains k.asid)
  let s := { s with trust := { s.trust with keySlots := slots } }
  (s.setTdi n { s.tdi n with phase := .unlocked, bound := none, scrub := none }).tdisp n session .stop .done

/-- A request to a TDI that is not being scrubbed (R456, Table 17.5). -/
def State.tdispDo (s : State) (n session : Nat) (q : TdispReq) : State :=
  let x := s.tdi n
  let wrong : TdispAnswer := .invalidInterfaceState x.phase
  let other := x.bound.any (· != session)
  match q with
  | .lock =>
    if x.phase = .unlocked then (s.setTdi n { x with phase := .locked, bound := some session }).tdisp n session q .done
    else s.tdisp n session q wrong
  | .start =>
    if other then s.tdisp n session q .invalidRequest
    else if x.phase = .locked then (s.setTdi n { x with phase := .run }).tdisp n session q .done
    else s.tdisp n session q wrong
  | .stop =>
    if x.phase = .error then s.startScrub n session
    else if other then s.tdisp n session q .invalidRequest
    else if x.held then s.startScrub n session
    else s.tdisp n session q wrong
  | .report =>
    if other then s.tdisp n session q .invalidRequest
    else if x.held then s.tdisp n session q .report
    else s.tdisp n session q wrong

/-- Requests that waited for a scrub, served in order until another scrub begins. -/
def State.tdispNext (n : Nat) : Nat → State → State
  | 0, s => s
  | fuel + 1, s =>
    let x := s.tdi n
    match x.scrub, x.waits with
    | none, (q, session) :: rest => State.tdispNext n fuel ((s.setTdi n { x with waits := rest }).tdispDo n session q)
    | _, _ => s

/-- A scrub that can end, ended; then the requests that waited behind it are served. -/
def State.settleScrub (s : State) (n : Nat) : State :=
  match (s.tdi n).scrub with
  | none => s
  | some (session, asids) =>
    if s.scrubbed n then
      let s := s.endScrub n session asids
      State.tdispNext n (s.tdi n).waits.length s
    else s

/-- A TDISP request: it comes in an open session with the host, and names one of the 32 TDIs; requests of one
TDI are served one at a time in order (R455, R456). -/
def State.tdispReq (s : State) (n session : Nat) (q : TdispReq) : State :=
  if (s.sessionOf { ep := .host, session := some session }).isNone then s.replyError .host .sessionRequired
  else if n = 0 ∨ 32 < n then s.tdisp n session q .invalidRequest
  else
    let x := s.tdi n
    if x.scrub.isSome then s.setTdi n { x with waits := x.waits ++ [(q, session)] } else (s.tdispDo n session q).settleScrub n

/-- LOCK_INTERFACE_REQUEST (R456). -/
def execLockInterface (tdi session : Nat) (s : State) : Out := .next (s.tdispReq tdi session .lock)

/-- START_INTERFACE_REQUEST (R456). -/
def execStartInterface (tdi session : Nat) (s : State) : Out := .next (s.tdispReq tdi session .start)

/-- STOP_INTERFACE_REQUEST (R456, R457): a scrub that has come to its end completes first. -/
def execStopInterface (tdi session : Nat) (s : State) : Out :=
  .next (if (s.tdi tdi).scrub.isSome && s.scrubbed tdi then s.settleScrub tdi else s.tdispReq tdi session .stop)

/-- GET_DEVICE_INTERFACE_REPORT (R456). -/
def execGetInterfaceReport (tdi session : Nat) (s : State) : Out := .next (s.tdispReq tdi session .report)

/-- A function-level reset of a VF whose TDI is locked or runs puts it in ERROR (Table 17.5). -/
def execFunctionLevelReset (vf : Nat) (s : State) : Out :=
  .next (if (s.tdi vf).held then s.setTdi vf { s.tdi vf with phase := .error } else s)

/-! ## Host accesses to device memory (R455, R456, R462) -/

/-- Whether a host access may reach the frame of a physical address (R462). -/
def State.hostMay (s : State) (a : HostAccess) (pa : Nat) : Bool :=
  let t := s.tags.get 0 (pa / 2 ^ 16)
  s.populated pa && (decide (t ≤ 1) || (a.tee && !s.trust.ide.isEmpty && (s.tdi a.tdi).phase == .run
    && (s.tdiAsids a.tdi).contains ((t - 1) / 4)))

/-- The key under which a host access reaches the frame of a physical address; none where its slot is
EMPTY. -/
def State.hostKey (s : State) (pa : Nat) : Option Nat :=
  let t := s.tags.get 0 (pa / 2 ^ 16)
  if t ≤ 1 then some 0 else (s.ast ((t - 1) / 4)).bind fun e => s.keyFor e.slot ((t - 1) % 4)

/-- Whether a write of PF0 to a physical address is ignored: the entry of a queue, or of an address space,
of a TDI that is locked or runs (R456). -/
def State.pfIgnored (s : State) (pa : Nat) : Bool :=
  let held := (List.range 33).filter fun n => (s.tdi n).held
  let inQueue := decide (s.regs.qtb ≤ pa) && decide (pa < s.regs.qtb + 64 * 1024)
    && held.any fun n => ownsQueue n ((pa - s.regs.qtb) / 64)
  let inSpace := decide (s.regs.astb ≤ pa) && decide (pa < s.regs.astb + 64 * 4096)
    && held.any fun n => (s.tdiAsids n).contains ((pa - s.regs.astb) / 64)
  inQueue || inSpace

/-- HOST_MEMORY_ACCESS: it is served, or reads all ones and its write is dropped (R462); a write of PF0 to
what a locked TDI owns is ignored (R456). -/
def execHostMemoryAccess (a : HostAccess) (s : State) : Out :=
  .next (
    let pas := span a.addr a.len
    let served := pas.all fun pa => s.hostMay a pa && (s.hostKey pa).isSome
    let key (pa : Nat) : Nat := ((s.hostKey pa).getD 0 : Nat)
    match a.write with
    | none =>
      let byte (i pa : Nat) : Byte :=
        if s.sealBad (key pa) (s.paFlat pa) then BitVec.ofNat 8 (Config.freeValue (s.freeCtr + i)) else s.under (key pa) (s.paFlat pa)
      let bs := if served then pas.mapIdx byte else pas.map fun _ => 0xFF
      { s with out := s.out ++ [.read a.addr bs], freeCtr := s.freeCtr + a.len }
    | some bs =>
      if !served || pas.any (fun pa => !a.tee && s.pfIgnored pa) || pas.any fun pa => s.counterFull (key pa) (s.paFlat pa) then s
      else
        let cells := (pas.zip bs).map fun (e : Nat × Nat) => (key e.1, s.paFlat e.1, BitVec.ofNat 8 e.2)
        ((cells.map Prod.fst).eraseDups).foldl (fun s k => s.writeUnder k ((cells.filter fun c => c.1 == k).map Prod.snd)) s)

end Sys2Proof.Machine
end

