-- ==== Sys2Proof/Machine/Platform.lean ====
section
/-!
DEFINITION. Power and throttling, bring-up, errors and retirement, and what the registers of BAR0 read (01,
R11, R15, R16; 13, R367; 17, R452, R453; 18, R464 to R473).
-/

namespace Sys2Proof.Machine

/-! ## Power (R11, R464) -/

/-- Milliwatts of the die-to-die cap, and of an edge held at one eighth of its full rate (R11): a fully loaded
edge draws 48 TB/s at 260 fJ per bit. -/
def d2dCap : Nat := 2400000
def edgeFloor : Nat := 48 * 8 * 260 / 8

/-- The cap divided equally among edges; what an edge leaves of its share goes to the others (R11). -/
def shareCap : Nat → Nat → List EdgeLoad → List (Nat × Nat)
  | 0, _, _ => []
  | _, _, [] => []
  | fuel + 1, cap, xs =>
    let share := cap / xs.length
    let small := xs.filter fun x => decide (x.draw ≤ share)
    let big := xs.filter fun x => decide (share < x.draw)
    if small = [] then big.map fun x => (x.edge, share)
    else small.map (fun x => (x.edge, x.draw)) ++ shareCap fuel (cap - (small.map (·.draw)).sum) big

/-- D2D_THROTTLE_WINDOW, at the end of a window of 1024 ticks: where the measured total would pass the cap, the edges with queued traffic share it,
none below one eighth of its full rate; else no edge is held (R11). -/
def execD2dThrottleWindow (loads : List EdgeLoad) (s : State) : Out :=
  .next (if s.gtc % 1024 ≠ 0 then s else
    let queued := loads.filter (·.queued)
    let caps : List (Nat × Nat) :=
      if (loads.map (·.draw)).sum ≤ d2dCap then [] else shareCap queued.length d2dCap queued
    let put (m : SMap Nat) (e : Nat × Nat) : SMap Nat := m.set 0 e.1 (max edgeFloor e.2)
    { s with plat := { s.plat with edgeCap := caps.foldl put [] } })

/-- POWER_WINDOW, at the end of a window of 1024 ticks: above 16 kW or 105 °C MXE issue is withheld on one tick in four, until the draw is below
15 kW and every die below 100 °C (R464). -/
def execPowerWindow (drawMw : Nat) (junctions : List (Nat × Nat)) (s : State) : Out :=
  .next (if s.gtc % 1024 ≠ 0 then s else
    let hot := decide (16000000 < drawMw) || junctions.any fun j => decide (105 < j.2)
    let cool := decide (drawMw < 15000000) && junctions.all fun j => decide (j.2 < 100)
    { s with plat := { s.plat with withhold := hot || (s.plat.withhold && !cool) } })

/-- THERMAL_SHUTDOWN: every die is held in reset, with the ports it carries, and every task is lost with no
completion written (R464). -/
def execThermalShutdown (s : State) : Out :=
  .next { s with
    dies := [], cores := [], dcache := [], walks := [], tasks := [], shadows := [], pods := [], released := []
    fabric := { Fabric.zero with wire := s.fabric.wire, present := s.fabric.present }
    taster := TasterState.zero, plat := { s.plat with dark := true } }

/-! ## Edges between dies (R453) -/

/-- The die on a side of a die: 0 north, 1 east, 2 south, 3 west (R12, Table 18.3). -/
def neighbour (d side : Nat) : Option Nat :=
  match side with
  | 0 => if 8 ≤ d then some (d - 8) else none
  | 1 => if d % 8 < 7 then some (d + 1) else none
  | 2 => if d + 8 < 32 then some (d + 8) else none
  | 3 => if 0 < d % 8 then some (d - 1) else none
  | _ => none

/-- EDGE_OK with the bit of a side set or cleared: north is the highest of the four (Table 1.6). -/
def setEdge (edges side : Nat) (on : Bool) : Nat :=
  let k := 3 - side
  edges - b2n (bit edges k) * 2 ^ k + b2n on * 2 ^ k

/-- An edge of a die and its neighbour brought into use, or taken out of it. -/
def State.putEdge (s : State) (d side : Nat) (on : Bool) : State :=
  match neighbour d side with
  | none => s
  | some e =>
    let x := s.die d
    let y := s.die e
    if on && !(x.present && y.present) then s
    else
      let s := if x.present then s.setDie d { x with edgeOk := setEdge x.edgeOk side on } else s
      if y.present then s.setDie e { y with edgeOk := setEdge y.edgeOk ((side + 2) % 4) on } else s

/-- UCIE_EDGE_TRAINING: an edge between released dies is in use once each end's KMAC checks, else untrained
(R453). -/
def execUcieEdgeTraining (die side : Nat) (macOk : Bool) (s : State) : Out := .next (s.putEdge die side macOk)

/-! ## Bring-up (R452, R466) -/

/-- A die as it is released: 16 working cores, the spare where the board ships it in use (R15). -/
def releasedDie (b : Board) (d : Nat) (stackOk : Bool) : Die :=
  let spare := (b.spares.find? fun e => e.1 == d).map Prod.snd
  { Die.held with
    present := true, hbmOk := stackOk, coreOk := 0xFFFF, spareUsed := spare.isSome, sparePos := spare.getD 0
    retired := spare.toList }

/-- The firmware image loaded into the firmware RAM of a core, whose firmware starts at word 0 (R174, R175). -/
def State.loadFirmware (s : State) (p : Nat) (image : List Byte) : State := s.writeAt (fwBase p) (image.take 0xF000)

/-- What outlasts a reset: what the board decides, host memory, the non-volatile store, and the records of
this model. Indices reserved and not used are skipped (R367, R446). -/
def State.cold (s : State) : State :=
  let t := s.trust
  { State.reset with
    agenda := s.agenda, cur := s.cur, freeCtr := s.freeCtr, board := s.board, out := s.out
    mem := s.mem.filter fun e => decide (hostBase ≤ e.1) && decide (e.1 < 2 * hostBase)
    trust := { Trust.zero with
      chains := t.chains, idxNext := t.idxEnd, idxEnd := t.idxEnd, dieStore := t.dieStore, bootEpoch := t.bootEpoch } }

/-- A die challenged: the next block of its key is noted before it is given to the die (R446); a die that does
not answer leaves its challenge open (R452). -/
def State.challengeDie (s : State) (b : BringUp) (d : Nat) : State :=
  let block := s.trust.dieStore.get 0 d
  let passed := b.dies.contains d
  let s := { s with trust := { s.trust with
    dieStore := s.trust.dieStore.set 0 d (block + 1)
    dieIdx := s.trust.dieIdx.set (0, 0) d (1024 * block + b2n passed, 1024 * block + 1024)
    measured := if passed then s.trust.measured.set [] d (blocksOf d) else s.trust.measured } }
  if passed then
    let s := s.setDie d (releasedDie s.board d (b.hbms.contains d))
    (List.range 17).foldl (fun s k => s.loadFirmware (32 * d + k) s.board.fwImage) s
  else s.setDie d { Die.held with challenge := some s.gtc }

/-- A port of the router at bring-up: it trains on a die that is released, by the peer id that its neighbour
reports, or is failed; its delay is measured (R13, R142, R166, R466). -/
def State.trainPort (s : State) (b : BringUp) (q : Nat) : State :=
  match b.ports.find? fun e => e.1 == q && (s.die (portDie q)).present with
  | some e => s.free.2.trained q e.2 s.free.1 true
  | none => s.failPort q

/-- MODULE_RESET: the bring-up of R466 in its order. -/
def execModuleReset (b : BringUp) (s : State) : Out :=
  .next (
    let s := s.cold
    let s := { s with peerId := b.strap, board := { s.board with strap := b.strap }
                      trust := { s.trust with bootEpoch := (s.trust.bootEpoch + 1) % 2 ^ 32 } }
    let s := (List.range 32).foldl (fun s d => s.challengeDie b d) s
    let s := b.edges.foldl (fun s e => s.putEdge e.1 e.2 true) s
    let s := if s.board.single then s else (List.range 46).foldl (fun s q => s.trainPort b q) s
    { s with up := true })

/-- DIE_CHALLENGE_TIMEOUT: a die silent for 700,000,000 ticks fails and stays in reset (R452). -/
def execDieChallengeTimeout (die : Nat) (s : State) : Out :=
  .next (
    match (s.die die).challenge with
    | some t => if t + 700000000 ≤ s.gtc then s.setDie die Die.held else s
    | none => s)

/-- POWER_LOSS: volatile state and every task are lost; the module waits for its next bring-up (R367). -/
def execPowerLoss (s : State) : Out := .next s.cold

/-! ## Retirement (R15, R468, R469) -/

/-- A task asked to yield with whatever else it has been asked for (R414, R468). -/
def Task.yieldAlso (t : Task) (now : Nat) : Task :=
  match t.cutReq with
  | none => t.askYield now
  | some r => { t with cutReq := some { r with yield := true, ty := if r.yield then r.ty else now + 300 } }

/-- A task with a core among some cores yields: a speculation is discarded, and cores not yet run on are given
back (R468). -/
def State.yieldFrom (s : State) (ps : List Nat) (id : Nat) : State :=
  match s.task? id with
  | none => s
  | some t =>
    if !t.cores.any ps.contains then s
    else if t.spec.isSome then s.discard t.queue .cores
    else match t.phase with
      | .running => s.setTask id (some (t.yieldAlso s.gtc))
      | _ => s.unplace id t

/-- Every task with a core among some cores yields. -/
def State.yieldCores (s : State) (ps : List Nat) : State :=
  (s.tasks.map Prod.fst).foldl (fun s id => s.yieldFrom ps id) s

/-- A die without a core at a physical position: the spare takes its place, or its quad position is out
(R15). -/
def Die.without (x : Die) (pos : Nat) : Die :=
  let out (q : Nat) : Nat := x.coreOk - b2n (bit x.coreOk q) * 2 ^ q
  if pos = 16 then
    if x.spareUsed then { x with coreOk := out x.sparePos, spareUsed := false, retired := 16 :: x.retired }
    else { x with retired := 16 :: x.retired }
  else if !x.spareUsed && !x.retired.contains 16 then
    { x with spareUsed := true, sparePos := pos, retired := pos :: x.retired }
  else { x with coreOk := out pos, retired := pos :: x.retired }

/-- A core retired: its task yields and is placed again without it (R468). -/
def State.retireCore (s : State) (d pos : Nat) : State :=
  let x := s.die d
  if !x.present ∨ x.retired.contains pos then s
  else (s.setDie d (x.without pos)).yieldCores [32 * d + pos]

/-- A retired die without tasks is held in reset, with its stack and its Taster; its neighbours' edges toward
it are out of use, and the ports that it carries are failed (R385, R468, log entry 135). -/
def State.holdDie (s : State) (d : Nat) : State :=
  if s.cores.any fun e => e.1 / 32 == d && e.2.task.isSome then s
  else
    let s := (List.range 4).foldl (fun s k => s.putEdge d k false) s
    let s := { s.setDie d { Die.held with retired := (s.die d).retired } with
      cores := s.cores.filter fun e => e.1 / 32 != d
      dcache := s.dcache.filter fun e => e.1 / 32 != d }
    (((diePorts d).filter s.fabric.live).foldl State.failPort s).tasterLost d

/-- A die retired: its tasks yield, and then it is held in reset (R468). -/
def State.retireDie (s : State) (d : Nat) : State :=
  let x := s.die d
  if !x.present then s
  else if x.leaving then s.holdDie d
  else ((s.setDie d { x with leaving := true }).yieldCores ((List.range 17).map (32 * d + ·))).holdDie d

/-- A stack retired: its range is unpopulated from then on (R468). -/
def State.retireStack (s : State) (k : Nat) : State :=
  if s.stackOk k then s.setDie k { s.die k with hbmOk := false } else s

/-- RETIRE with KIND 0 (R469). -/
def execRetireCore (die pos : Nat) (s : State) : Out := .next (s.retireCore die pos)

/-- RETIRE with KIND 1 (R469); a die that waits for its tasks is held once they have left. -/
def execRetireDie (die : Nat) (s : State) : Out := .next (s.retireDie die)

/-- RETIRE with KIND 2 (R469). -/
def execRetireStack (stack : Nat) (s : State) : Out := .next (s.retireStack stack)

/-- RETIRE with KIND 3 (R469). -/
def execRetireEdge (die side : Nat) (s : State) : Out := .next (s.putEdge die side false)

/-! ## Errors (R467, R473, Table 18.2) -/

/-- The number of a resource among the counts. -/
def resourceKey : Resource → Nat
  | .sramBank p b => 5 * (p + 1024 * b)
  | .cellarBank d b => 5 * (d + 32 * b) + 1
  | .hbmChannel k c => 5 * (k + 32 * c) + 2
  | .ucieLane d e l => 5 * (d + 32 * (e + 4 * l)) + 3
  | .azpinLane q l => 5 * (q + 64 * l) + 4

/-- Corrected errors that a resource may have in a window (Table 18.2). -/
def threshold : Resource → Nat
  | .sramBank _ _ => 64
  | .cellarBank _ _ => 256
  | .hbmChannel _ _ => 1024
  | .ucieLane _ _ _ => 4096
  | .azpinLane _ _ => 4096

/-- The counts of the window that holds this tick: they start at zero with each window (R467, R472). -/
def State.window (s : State) : State :=
  let w := s.gtc / 2 ^ 30
  if s.plat.errWin = w then s else { s with plat := { s.plat with errWin := w, counts := [], events := [] } }

/-- A resource found lasting-faulty. -/
def Platform.found (x : Platform) (r : Resource) : Platform :=
  if x.lasting.contains r then x else { x with lasting := x.lasting ++ [r] }

/-- ERROR_CORRECTED: counted; a count above its threshold makes the resource lasting-faulty (R467). -/
def execErrorCorrected (r : Resource) (s : State) : Out :=
  .next (
    let s := s.window
    let k := resourceKey r
    let n := s.plat.counts.get 0 k + 1
    let x := { s.plat with counts := s.plat.counts.set 0 k n }
    { s with plat := if threshold r < n then x.found r else x })

/-- The 32-byte sectors of the correction unit that holds a sector: all four of a line that is sealed
(R473). -/
def State.unitSectors (s : State) (sector : Nat) : List Nat :=
  if s.trust.seals.get none (sector / 4) = none then [sector] else (List.range 4).map (sector / 4 * 4 + ·)

/-- Whether the units of a resource are places in memory. -/
def holdsData : Resource → Bool
  | .sramBank _ _ | .cellarBank _ _ | .hbmChannel _ _ => true
  | _ => false

/-- ERROR_UNCORRECTABLE: the first detection in a unit marks it and is an event; two events in a window make
the resource lasting-faulty (R467, R473). -/
def execErrorUncorrectable (r : Resource) (unit : Nat) (s : State) : Out :=
  .next (
    let s := s.window
    if holdsData r && s.bad.get false unit then s
    else
      let s := if holdsData r then
          { s with bad := (s.unitSectors unit).foldl (fun (m : SMap Bool) k => m.set false k true) s.bad }
        else s
      let k := resourceKey r
      let n := s.plat.events.get 0 k + 1
      let x := { s.plat with events := s.plat.events.set 0 k n }
      { s with plat := if 2 ≤ n then x.found r else x })

/-- ERROR_WINDOW: at a window boundary the counts restart (R467). -/
def execErrorWindow (s : State) : Out := .next s.window

/-- The retirement of a resource (Table 18.2). -/
def State.retire (s : State) (r : Resource) : State :=
  match r with
  | .sramBank p _ => s.retireCore (p / 32) (p % 32)
  | .cellarBank d _ => s.retireDie d
  | .hbmChannel k _ => s.retireStack k
  | .ucieLane d e _ => s.putEdge d e false
  | .azpinLane q _ => s.failPort q

/-- RESOURCE_RETIRE: a lasting-faulty resource is retired (R467, R468). -/
def execResourceRetire (r : Resource) (s : State) : Out :=
  .next (
    if s.plat.lasting.contains r then
      ({ s with plat := { s.plat with lasting := s.plat.lasting.filter (· != r) } }).retire r
    else s)

/-! ## Firmware (R469) -/

/-- A core whose halted firmware context is reloaded (R175, R176). -/
def State.reloadCore (s : State) (image : List Byte) (p : Nat) : State :=
  if (s.core p).fwDead then
    (s.loadFirmware p image).onCore p fun c => { c with fwDead := false, fwBusy := false, fwvec := 0 }
  else s

/-- FWLOAD: every core of a die whose firmware context is halted takes the image at a host address, once the
trust chiplet has checked it (R469). -/
def execFwload (die addr : Nat) (imageOk : Bool) (s : State) : Out :=
  .next (
    let image := s.hostBytes addr 0xF000
    let s := if imageOk ∧ (s.die die).present then
        ((List.range 17).map (32 * die + ·)).foldl (fun s p => s.reloadCore image p) s
      else s
    { s with regs := { s.regs with fwldone := (s.regs.fwldone + 1) % 2 ^ 32 } })

end Sys2Proof.Machine
end

