-- ==== Sys2Proof/Machine/Ring.lean ====
section
/-!
DEFINITION. The fixed-time steps of a core: arriving tokens, landing results, gives held by
overflow (02; 05; 08, R173, R179; 12, R305, R342), and scratchpad arbitration (18, R471).
-/

namespace Sys2Proof.Machine

/-- The tokens whose tick has come on the core of the step move into their queues (R25, R27). -/
def execTokenPassThrough (s : State) : Out := .next (s.onMe fun c => c.passTokens s.gtc)

/-- The VXE with the results that are due landed, in issue order (R305). -/
def VxeState.land (x : VxeState) (now : Nat) : VxeState :=
  let due := x.pend.filter fun l => decide (l.due ≤ now)
  due.foldl VxeState.land1 { x with pend := x.pend.filter fun l => !decide (l.due ≤ now) }

/-- The VXE floating-point traps that are due on core `p`: the first is raised (R342, R428). -/
def State.dueTraps (s : State) (p : Nat) : State :=
  let ts := (s.core p).vxeS.traps.filter fun t => decide (t.due ≤ s.gtc)
  let s := s.onCore p fun c => { c with vxeS := { c.vxeS with
    traps := c.vxeS.traps.filter fun t => !decide (t.due ≤ s.gtc) } }
  match ts with
  | [] => s
  | t :: _ => s.engineFault p 3 8 8 0 t.foff

/-- Due results of the core of the step land, stores that waited for their release are performed, and due gives
are performed (R24, R94, R173, R193). -/
def execResultLand (s : State) : Out :=
  .next (
    let p := s.cur.core
    let s := s.performStores p s.me.stores.length
    let s := s.onMe fun c => { c with user := c.user.land s.gtc, fw := c.fw.land s.gtc
                                      vxeS := c.vxeS.land s.gtc }
    (s.dueTraps p).settleCore p)

/-- Gives that were held are performed once their queues have room (R23, R26). -/
def execGiveOverflowRelease (s : State) : Out := .next (s.settleCore s.cur.core)

/-- A scratchpad request at the head of a bank that has waited 32 ticks is promoted (R471). An
access of this model is performed at its step (log entry 5): only requests that stand in the
state as waiting are promoted. -/
def execArbitrationPromote (s : State) : Out :=
  .next { s with plat := { s.plat with arbAge := s.plat.arbAge.map fun e => (e.1, true) } }

end Sys2Proof.Machine
end

