-- ==== Sys2Proof/Machine/ScuFed.lean ====
section
/-!
DEFINITION. What the SCU asks of the front end and of the digest aggregator: SPAWN, NOTIFY and DGSEAL
(08, R202, R203, R205; 13, R362, R363; 15, R406, R407).
-/

namespace Sys2Proof.Machine

/-! ## SPAWN (R202, R407) -/

/-- What a SPAWN finds at its byte offset: no packet in the tensor's span, a packet that is turned away
with a status, or the units of one. -/
inductive Spawned where
  | bounds
  | uncorrectable
  | turned (status : Int)
  | pkt (raw : List Nat)
deriving DecidableEq, Repr

/-- The packet at byte offset `o` of scratchpad tensor `t`. -/
def State.spawnAt (s : State) (t o : Nat) : Spawned :=
  if (s.me.desc t).space ≠ 0 then .bounds
  else match s.scuTensor t o 8 true false (1, 1, 1) with
    | .mem as _ =>
      if s.anyBad as then .uncorrectable
      else
        let w := leNat (as.map s.byte)
        let len := bits w 36 24
        if len = 0 ∨ 512 < len ∨ headerBad w then .turned (-1)
        else match s.scuTensor t o (8 * len) true false (1, 1, 1) with
          | .mem as _ =>
            if s.anyBad as then .uncorrectable
            else if bits w 15 0 = 0 ∨ 4 < bits w 15 0 then .turned (-2)
            else .pkt (unitsOf (as.map s.byte))
          | _ => .bounds
    | _ => .bounds

/-- A packet put into the spawn buffer of queue `q`: it takes the next packet sequence number (R407). -/
def State.spawnInto (s : State) (q : Nat) (raw : List Nat) : State :=
  let h := pktHdr q true raw
  (s.onQueue q fun x =>
    let o : OpenPkt := { seq := x.pseq, irq := h.irq, stop := h.stopOnError, left := 1, worst := [] }
    { x with spawn := x.spawn ++ [raw], pseq := x.pseq + 1, opens := x.opens ++ [o] }).settleSlot q

/-- SPAWN hands the front end a packet for the queue that launched the task, and pushes its sequence
number or a negative status; a speculation parks (R202, R420). -/
def execSpawn (h : Hdr) (d a tid : Nat) (s : State) : Out :=
  .next (s.issue h fun s =>
    s.reading [a] <|
      match s.spawnAt tid (s.operand a).toNat with
      | .bounds => .fault 4 0 0
      | .uncorrectable => .fault 10 0 0
      | .turned k =>
        if (s.shadowOf s.cur.core).isSome then .raw (s.park s.cur.core)
        else if s.capturing s.cur.core then .raw s.outsideMe
        else .done (s.push d 1 (BitVec.ofInt 64 k)) 1
      | .pkt raw =>
        match s.taskOf s.cur.core with
        | none => .fault 4 0 0
        | some t =>
          if t.spec.isSome then .raw (s.park s.cur.core)
          else if s.capturing s.cur.core then .raw s.outsideMe
          else if 8 ≤ (s.queue t.queue).spawn.length then .hold s
          else
            let seq := (s.queue t.queue).pseq
            .done ((s.spawnInto t.queue raw).push d 1 (BitVec.ofNat 64 seq)) 1)

/-! ## NOTIFY (R203, R406) -/

/-- A notification record of queue `q` (R406), and the interrupt it raises (R396). -/
def State.noteRecord (s : State) (q code v task : Nat) (value : Word) : State :=
  let x := s.queue q
  let n := x.notN
  let body := leBytes 8 (code + v * 2 ^ 16 + task % 2 ^ 32 * 2 ^ 32) ++ leBytes 8 value.toNat ++ leBytes 8 s.gtc
    ++ leBytes 8 ((n + 1) % 2 ^ 32)
  ((s.fedWrite x.entry.nrb (32 * (n % 2 ^ x.entry.nlog)) body).setQueue q { x with notN := n + 1 }).irq q

/-- NOTIFY appends a notification record to the ring of the queue that launched the task, and holds
while that ring is full; it retires when it is accepted; a speculation parks (R179, R203, R420). Where no task occupies the core there is no
such queue, and no record. -/
def execNotify (h : Hdr) (b code : Nat) (s : State) : Out :=
  .next (s.issue h fun s =>
    s.reading [b] <|
      match s.taskOf s.cur.core with
      | none => .done s 0
      | some t =>
        if t.spec.isSome then .raw (s.park s.cur.core)
        else if s.capturing s.cur.core then .raw s.outsideMe
        else if !(s.queue t.queue).noteRoom then .hold s
        else .done (s.noteRecord t.queue code s.me.vcore (s.me.task.getD 0) (s.operand b)) 0)

/-! ## DGSEAL (R205, R362) -/

/-- The range over the leaves of a stream's instructions before stream index `k`. -/
def Stream.prefixRange (t : Stream) (k : Nat) : Range :=
  (t.past.filter fun l => decide (l.1 < k)).foldl (fun r l => (r.append l.2).1) t.base

/-- Up to which stream index a DGSEAL covers each stream (R205): the whole of the SCU's before it, and
of another engine's what the gives in its covered set cover. -/
def State.sealed (s : State) (h : Hdr) : List Nat :=
  let t := (s.consume h).myStream
  (List.range 5).map fun e => if e = 0 then s.myStream.sidx else t.clk.idx.getD e 0

/-- Whether every covered leaf has been appended. -/
def Core.leavesDone (c : Core) (ks : List Nat) : Bool :=
  (List.range 5).all fun e => !(c.userStream e).form.any fun f => decide (f.sidx < ks.getD e 0) && !f.drop

/-- DGSEAL forms the interim root of its core, appends a SEAL record to the root log, and pushes its
sequence number; it holds while a covered leaf has not been appended or the log is full, and a
speculation parks (R205, R362, R363). Table 13.6 gives bytes 0x60 to 0x67 of the record twice: they are
free. -/
def execDgseal (h : Hdr) (d : Nat) (s : State) : Out :=
  .next (s.issue h fun s =>
    if s.cur.fw then .fault 1 0 0
    else if (s.shadowOf s.cur.core).isSome then .raw (s.park s.cur.core)
    else if s.capturing s.cur.core then .raw s.outsideMe
    else
      let c := s.me
      let ks := s.sealed h
      if !c.leavesDone ks || s.logFull then .hold (s.onMe fun c => { c with sealWait := true })
      else
        let rs := (List.range 5).map fun e => (c.userStream e).prefixRange (ks.getD e 0)
        let task := c.task.getD 0
        let root := sealRoot task c.vcore (rs.map Range.root)
        let seq := s.regs.rlhead
        let (twice, s) := s.free
        let body := leBytes 8 (s.myStream.sidx % 2 ^ 40) ++ leBytes 8 s.gtc ++ digBytes root
          ++ (rs.take 4).flatMap (fun r => leBytes 8 r.count) ++ leBytes 8 twice ++ zeros 24
        .done ((s.logAppend 2 task body).push d 1 (BitVec.ofNat 64 seq)) 1)

end Sys2Proof.Machine
end

