-- ==== Sys2Proof/Machine/Dispatch.lean ====
section
/-!
DEFINITION. The meaning of each step of the part: one arm for each row of the opcode table.
-/

namespace Sys2Proof.Machine

/-- What one step does (Tables 5.3, 8.2, 9.1, 10.2, 11.2, 12.2 and the events of the chapters). -/
def exec (i : Instr) (s : State) : Host.Outcome State Fault Refusal :=
  match i with
  | .d2dThrottleWindow loads => Sys2Proof.Machine.execD2dThrottleWindow loads s
  | .powerWindow drawMw junctions => Sys2Proof.Machine.execPowerWindow drawMw junctions s
  | .moduleReset b => Sys2Proof.Machine.execModuleReset b s
  | .dieChallengeTimeout die => Sys2Proof.Machine.execDieChallengeTimeout die s
  | .ucieEdgeTraining die side macOk => Sys2Proof.Machine.execUcieEdgeTraining die side macOk s
  | .linkTraining port reported delay keyed => Sys2Proof.Machine.execLinkTraining port reported delay keyed s
  | .frameReceive port f => Sys2Proof.Machine.execFrameReceive port f s
  | .frameReplay port fctr => Sys2Proof.Machine.execFrameReplay port fctr s
  | .wrPacket p => Sys2Proof.Machine.execWrPacket p s
  | .rdPacket p => Sys2Proof.Machine.execRdPacket p s
  | .rdrPacket p => Sys2Proof.Machine.execRdrPacket p s
  | .atmPacket p => Sys2Proof.Machine.execAtmPacket p s
  | .atrPacket p => Sys2Proof.Machine.execAtrPacket p s
  | .sigPacket p => Sys2Proof.Machine.execSigPacket p s
  | .mcwPacket p => Sys2Proof.Machine.execMcwPacket p s
  | .ackPacket p => Sys2Proof.Machine.execAckPacket p s
  | .mcaPacket p => Sys2Proof.Machine.execMcaPacket p s
  | .barPacket p => Sys2Proof.Machine.execBarPacket p s
  | .timePacket port tgtc tph phase => Sys2Proof.Machine.execTimePacket port tgtc tph phase s
  | .staffPacket epoch => Sys2Proof.Machine.execStaffPacket epoch s
  | .responseTimeout phys tag => Sys2Proof.Machine.execResponseTimeout phys tag s
  | .translationWalk phys asid va => Sys2Proof.Machine.execTranslationWalk phys asid va s
  | .acntWriteback phys asid va => Sys2Proof.Machine.execAcntWriteback phys asid va s
  | .xinvPage64k asid va => Sys2Proof.Machine.execXinvPage64k asid va s
  | .xinvPage2m asid va => Sys2Proof.Machine.execXinvPage2m asid va s
  | .xinvAsid asid => Sys2Proof.Machine.execXinvAsid asid s
  | .dlkick asid => Sys2Proof.Machine.execDlkick asid s
  | .fttclr first count => Sys2Proof.Machine.execFttclr first count s
  | .encirWrite stack value => Sys2Proof.Machine.execEncirWrite stack value s
  | .registerWrite off width value => Sys2Proof.Machine.execRegisterWrite off width value s
  | .taskPlacement task => Sys2Proof.Machine.execTaskPlacement task s
  | .lceCommandCompletion phys sidx => Sys2Proof.Machine.execLceCommandCompletion phys sidx s
  | .sceCommandCompletion phys sidx => Sys2Proof.Machine.execSceCommandCompletion phys sidx s
  | .packetSettlement phys tag status => Sys2Proof.Machine.execPacketSettlement phys tag status s
  | .fabricCacheEviction die line => Sys2Proof.Machine.execFabricCacheEviction die line s
  | .cellarRefresh die => Sys2Proof.Machine.execCellarRefresh die s
  | .engineFault phys e cause ecode foff => Sys2Proof.Machine.execEngineFault phys e cause ecode foff s
  | .yieldRequest task => Sys2Proof.Machine.execYieldRequest task s
  | .taskRetirement task => Sys2Proof.Machine.execTaskRetirement task s
  | .notifyWrite q tail => Sys2Proof.Machine.execNotifyWrite q tail s
  | .launch h f => Sys2Proof.Machine.execLaunch h f s
  | .graph h nodes edges => Sys2Proof.Machine.execGraph h nodes edges s
  | .dep h queue seq => Sys2Proof.Machine.execDep h queue seq s
  | .signal h a value => Sys2Proof.Machine.execSignal h a value s
  | .mapGroup h group valid asid members => Sys2Proof.Machine.execMapGroup h group valid asid members s
  | .cellarLoad h src off mask len => Sys2Proof.Machine.execCellarLoad h src off mask len s
  | .cellarCopy task => Sys2Proof.Machine.execCellarCopy task s
  | .seal h => Sys2Proof.Machine.execSeal h s
  | .taskReady task => Sys2Proof.Machine.execTaskReady task s
  | .reservationStart task => Sys2Proof.Machine.execReservationStart task s
  | .speculationDiscard q why => Sys2Proof.Machine.execSpeculationDiscard q why s
  | .stop h task t mode => Sys2Proof.Machine.execStop h task t mode s
  | .stopCut task => Sys2Proof.Machine.execStopCut task s
  | .save h task area avail mode => Sys2Proof.Machine.execSave h task area avail mode s
  | .resume h task area avail start => Sys2Proof.Machine.execResume h task area avail start s
  | .taskEnd task => Sys2Proof.Machine.execTaskEnd task s
  | .bisect h args => Sys2Proof.Machine.execBisect h args s
  | .audnPacket p => Sys2Proof.Machine.execAudnPacket p s
  | .bisectAnswerTimeout session => Sys2Proof.Machine.execBisectAnswerTimeout session s
  | .capture h args => Sys2Proof.Machine.execCapture h args s
  | .taste h args => Sys2Proof.Machine.execTaste h args s
  | .errorCorrected r => Sys2Proof.Machine.execErrorCorrected r s
  | .errorUncorrectable r unit => Sys2Proof.Machine.execErrorUncorrectable r unit s
  | .resourceRetire r => Sys2Proof.Machine.execResourceRetire r s
  | .retireCore die pos => Sys2Proof.Machine.execRetireCore die pos s
  | .retireDie die => Sys2Proof.Machine.execRetireDie die s
  | .retireStack stack => Sys2Proof.Machine.execRetireStack stack s
  | .retireEdge die side => Sys2Proof.Machine.execRetireEdge die side s
  | .fwload die addr imageOk => Sys2Proof.Machine.execFwload die addr imageOk s
  | .hostMemoryAccess a => Sys2Proof.Machine.execHostMemoryAccess a s
  | .getVersion r => Sys2Proof.Machine.execGetVersion r s
  | .getCapabilities r => Sys2Proof.Machine.execGetCapabilities r s
  | .negotiateAlgorithms r offersOurs => Sys2Proof.Machine.execNegotiateAlgorithms r offersOurs s
  | .getDigests r => Sys2Proof.Machine.execGetDigests r s
  | .getCertificate r slot off len => Sys2Proof.Machine.execGetCertificate r slot off len s
  | .challenge r slot nonce => Sys2Proof.Machine.execChallenge r slot nonce s
  | .getMeasurements r index => Sys2Proof.Machine.execGetMeasurements r index s
  | .chunkSend r handle seq last data => Sys2Proof.Machine.execChunkSend r handle seq last data s
  | .chunkGet r handle seq => Sys2Proof.Machine.execChunkGet r handle seq s
  | .keyExchange r slot => Sys2Proof.Machine.execKeyExchange r slot s
  | .finish r verified => Sys2Proof.Machine.execFinish r verified s
  | .keyUpdate r switchAt => Sys2Proof.Machine.execKeyUpdate r switchAt s
  | .heartbeat r => Sys2Proof.Machine.execHeartbeat r s
  | .endSession r => Sys2Proof.Machine.execEndSession r s
  | .setCertificate r slot chain endsInIdentity => Sys2Proof.Machine.execSetCertificate r slot chain endsInIdentity s
  | .keySet r slot asid => Sys2Proof.Machine.execKeySet r slot asid s
  | .keyClear r slot => Sys2Proof.Machine.execKeyClear r slot s
  | .spdmUnsupportedRequest r code => Sys2Proof.Machine.execSpdmUnsupportedRequest r code s
  | .lockInterface tdi session => Sys2Proof.Machine.execLockInterface tdi session s
  | .startInterface tdi session => Sys2Proof.Machine.execStartInterface tdi session s
  | .stopInterface tdi session => Sys2Proof.Machine.execStopInterface tdi session s
  | .getInterfaceReport tdi session => Sys2Proof.Machine.execGetInterfaceReport tdi session s
  | .functionLevelReset vf => Sys2Proof.Machine.execFunctionLevelReset vf s
  | .nop h => Sys2Proof.Machine.execNop h s
  | .atStamp h stamp => Sys2Proof.Machine.execAtStamp h stamp s
  | .atLax h stamp => Sys2Proof.Machine.execAtLax h stamp s
  | .endStream h => Sys2Proof.Machine.execEndStream h s
  | .loop h body count => Sys2Proof.Machine.execLoop h body count s
  | .endl h => Sys2Proof.Machine.execEndl h s
  | .csetImm h cd mask imm => Sys2Proof.Machine.execCsetImm h cd mask imm s
  | .csetReg h cd mask ca => Sys2Proof.Machine.execCsetReg h cd mask ca s
  | .caddImm h cd mask imm => Sys2Proof.Machine.execCaddImm h cd mask imm s
  | .caddReg h cd mask ca => Sys2Proof.Machine.execCaddReg h cd mask ca s
  | .cmodImm h cd mask imm => Sys2Proof.Machine.execCmodImm h cd mask imm s
  | .cmodReg h cd mask ca => Sys2Proof.Machine.execCmodReg h cd mask ca s
  | .cldp h cd mask off => Sys2Proof.Machine.execCldp h cd mask off s
  | .mark h => Sys2Proof.Machine.execMark h s
  | .fence h scope => Sys2Proof.Machine.execFence h scope s
  | .trap h code => Sys2Proof.Machine.execTrap h code s
  | .bar h scope => Sys2Proof.Machine.execBar h scope s
  | .barred h d a rop scope => Sys2Proof.Machine.execBarred h d a rop scope s
  | .waitt h a rel => Sys2Proof.Machine.execWaitt h a rel s
  | .gtc h d => Sys2Proof.Machine.execGtc h d s
  | .getc h d creg => Sys2Proof.Machine.execGetc h d creg s
  | .setc h creg b => Sys2Proof.Machine.execSetc h creg b s
  | .spawn h d a tid => Sys2Proof.Machine.execSpawn h d a tid s
  | .notify h b code => Sys2Proof.Machine.execNotify h b code s
  | .add h d a b => Sys2Proof.Machine.execAdd h d a b s
  | .sub h d a b => Sys2Proof.Machine.execSub h d a b s
  | .andReg h d a b => Sys2Proof.Machine.execAndReg h d a b s
  | .orReg h d a b => Sys2Proof.Machine.execOrReg h d a b s
  | .xorReg h d a b => Sys2Proof.Machine.execXorReg h d a b s
  | .andn h d a b => Sys2Proof.Machine.execAndn h d a b s
  | .shl h d a b => Sys2Proof.Machine.execShl h d a b s
  | .shr h d a b => Sys2Proof.Machine.execShr h d a b s
  | .sra h d a b => Sys2Proof.Machine.execSra h d a b s
  | .mul h d a b => Sys2Proof.Machine.execMul h d a b s
  | .mulh h d a b u => Sys2Proof.Machine.execMulh h d a b u s
  | .div h d a b u => Sys2Proof.Machine.execDiv h d a b u s
  | .rem h d a b u => Sys2Proof.Machine.execRem h d a b u s
  | .minReg h d a b u => Sys2Proof.Machine.execMinReg h d a b u s
  | .maxReg h d a b u => Sys2Proof.Machine.execMaxReg h d a b u s
  | .cmp h d a b cond => Sys2Proof.Machine.execCmp h d a b cond s
  | .sel h d a b c => Sys2Proof.Machine.execSel h d a b c s
  | .clz h d a trailing => Sys2Proof.Machine.execClz h d a trailing s
  | .popc h d a => Sys2Proof.Machine.execPopc h d a s
  | .addi h d a imm => Sys2Proof.Machine.execAddi h d a imm s
  | .andi h d a imm => Sys2Proof.Machine.execAndi h d a imm s
  | .ori h d a imm => Sys2Proof.Machine.execOri h d a imm s
  | .xori h d a imm => Sys2Proof.Machine.execXori h d a imm s
  | .shi h d a kind cnt => Sys2Proof.Machine.execShi h d a kind cnt s
  | .li h d value => Sys2Proof.Machine.execLi h d value s
  | .cmpi h d a cond imm => Sys2Proof.Machine.execCmpi h d a cond imm s
  | .br h cond a b off => Sys2Proof.Machine.execBr h cond a b off s
  | .jump h off => Sys2Proof.Machine.execJump h off s
  | .jumpReg h a => Sys2Proof.Machine.execJumpReg h a s
  | .call h d off => Sys2Proof.Machine.execCall h d off s
  | .callReg h d a => Sys2Proof.Machine.execCallReg h d a s
  | .ret h a => Sys2Proof.Machine.execRet h a s
  | .ld h d a f m => Sys2Proof.Machine.execLd h d a f m s
  | .st h a b m => Sys2Proof.Machine.execSt h a b m s
  | .atm h d a b u m z => Sys2Proof.Machine.execAtm h d a b u m z s
  | .dgleaf h a b tag tid => Sys2Proof.Machine.execDgleaf h a b tag tid s
  | .dgseal h d => Sys2Proof.Machine.execDgseal h d s
  | .retf h f => Sys2Proof.Machine.execRetf h f s
  | .yield h => Sys2Proof.Machine.execYield h s
  | .cpi h td cd cs ts ext => Sys2Proof.Machine.execCpi h td cd cs ts ext s
  | .cpic h td cd cs ts ext => Sys2Proof.Machine.execCpic h td cd cs ts ext s
  | .cpig h td cd cs ts ti ci ext => Sys2Proof.Machine.execCpig h td cd cs ts ti ci ext s
  | .cpib h td cd cs ts ext => Sys2Proof.Machine.execCpib h td cd cs ts ext s
  | .cpw h td cd cs ts ext => Sys2Proof.Machine.execCpw h td cd cs ts ext s
  | .cpa h td cd cs ts cvt exp ext => Sys2Proof.Machine.execCpa h td cd cs ts cvt exp ext s
  | .pref h cs ts ext => Sys2Proof.Machine.execPref h cs ts ext s
  | .cpq h td cd cs ts rm sm ext => Sys2Proof.Machine.execCpq h td cd cs ts rm sm ext s
  | .lstat h td cd clr => Sys2Proof.Machine.execLstat h td cd clr s
  | .rwait h ctr sub target => Sys2Proof.Machine.execRwait h ctr sub target s
  | .cpo h td cd cs ts ackw ext => Sys2Proof.Machine.execCpo h td cd cs ts ackw ext s
  | .cpoc h td cd cs ts ackw ext => Sys2Proof.Machine.execCpoc h td cd cs ts ackw ext s
  | .cpos h td cd cs ts ti ci ackw ext => Sys2Proof.Machine.execCpos h td cd cs ts ti ci ackw ext s
  | .cpf h td cd cs ts ackw ext => Sys2Proof.Machine.execCpf h td cd cs ts ackw ext s
  | .cpm h td cd cs ts group ext => Sys2Proof.Machine.execCpm h td cd cs ts group ext s
  | .fat h td cd cs ts res tr cr aop => Sys2Proof.Machine.execFat h td cd cs ts res tr cr aop s
  | .fsig h cs ts rel ackw inc => Sys2Proof.Machine.execFsig h cs ts rel ackw inc s
  | .flush h td cd inv ext => Sys2Proof.Machine.execFlush h td cd inv ext s
  | .flushAll h inv => Sys2Proof.Machine.execFlushAll h inv s
  | .sstat h td cd setl agg clr => Sys2Proof.Machine.execSstat h td cd setl agg clr s
  | .mrd h q ts cs ext => Sys2Proof.Machine.execMrd h q ts cs ext s
  | .wld h w ts cs ext => Sys2Proof.Machine.execWld h w ts cs ext s
  | .mma h an q w pop => Sys2Proof.Machine.execMma h an q w pop s
  | .mmag h an q pop cg ngm1 => Sys2Proof.Machine.execMmag h an q pop cg ngm1 s
  | .aset h an r exp => Sys2Proof.Machine.execAset h an r exp s
  | .anorm h an r k => Sys2Proof.Machine.execAnorm h an r k s
  | .aclr h an r => Sys2Proof.Machine.execAclr h an r s
  | .aadd h an r as => Sys2Proof.Machine.execAadd h an r as s
  | .aret h an r free sh td cd tq cq rm => Sys2Proof.Machine.execAret h an r free sh td cd tq cq rm s
  | .ard h an r xe td cd => Sys2Proof.Machine.execArd h an r xe td cd s
  | .awr h an r xe ts cs => Sys2Proof.Machine.execAwr h an r xe ts cs s
  | .amax h an r td cd => Sys2Proof.Machine.execAmax h an r td cd s
  | .mxmode h ovt => Sys2Proof.Machine.execMxmode h ovt s
  | .mstat h clr td cd => Sys2Proof.Machine.execMstat h clr td cd s
  | .vld h r m ext => Sys2Proof.Machine.execVld h r m ext s
  | .vst h r m ext => Sys2Proof.Machine.execVst h r m ext s
  | .vldx h r m => Sys2Proof.Machine.execVldx h r m s
  | .vstx h r m => Sys2Proof.Machine.execVstx h r m s
  | .vlda h r an cr half xe val => Sys2Proof.Machine.execVlda h r an cr half xe val s
  | .vbcE h r o => Sys2Proof.Machine.execVbcE h r o s
  | .vbcI h r o => Sys2Proof.Machine.execVbcI h r o s
  | .vbcC h r o => Sys2Proof.Machine.execVbcC h r o s
  | .vbcSt h r o => Sys2Proof.Machine.execVbcSt h r o s
  | .vbcWc h r o => Sys2Proof.Machine.execVbcWc h r o s
  | .vbcClr h r o => Sys2Proof.Machine.execVbcClr h r o s
  | .vspill h r => Sys2Proof.Machine.execVspill h r s
  | .vfill h r => Sys2Proof.Machine.execVfill h r s
  | .vloop h rb rlm1 rs body count => Sys2Proof.Machine.execVloop h rb rlm1 rs body count s
  | .viota h r o => Sys2Proof.Machine.execViota h r o s
  | .vhash h r m => Sys2Proof.Machine.execVhash h r m s
  | .vperm h r o => Sys2Proof.Machine.execVperm h r o s
  | .vslide h r o => Sys2Proof.Machine.execVslide h r o s
  | .vcomp h r o => Sys2Proof.Machine.execVcomp h r o s
  | .vmsk h r o => Sys2Proof.Machine.execVmsk h r o s
  | .vmpop h r o => Sys2Proof.Machine.execVmpop h r o s
  | .viadd h r o => Sys2Proof.Machine.execViadd h r o s
  | .vimul h r o => Sys2Proof.Machine.execVimul h r o s
  | .vmac h r o => Sys2Proof.Machine.execVmac h r o s
  | .vdot4 h r o => Sys2Proof.Machine.execVdot4 h r o s
  | .vminmax h r o => Sys2Proof.Machine.execVminmax h r o s
  | .vlogic h r o => Sys2Proof.Machine.execVlogic h r o s
  | .vshift h r o => Sys2Proof.Machine.execVshift h r o s
  | .vrsh h r o => Sys2Proof.Machine.execVrsh h r o s
  | .vrq h r o sh vz z0 => Sys2Proof.Machine.execVrq h r o sh vz z0 s
  | .vcmp h r o => Sys2Proof.Machine.execVcmp h r o s
  | .vsel h r o => Sys2Proof.Machine.execVsel h r o s
  | .vunary h r o => Sys2Proof.Machine.execVunary h r o s
  | .vclamp h r o => Sys2Proof.Machine.execVclamp h r o s
  | .vfadd h r o => Sys2Proof.Machine.execVfadd h r o s
  | .vfmul h r o => Sys2Proof.Machine.execVfmul h r o s
  | .vfma h r o => Sys2Proof.Machine.execVfma h r o s
  | .vfminmax h r o => Sys2Proof.Machine.execVfminmax h r o s
  | .vfun h r o => Sys2Proof.Machine.execVfun h r o s
  | .vfcmp h r o => Sys2Proof.Machine.execVfcmp h r o s
  | .vcvt h r o => Sys2Proof.Machine.execVcvt h r o s
  | .vqx4Enc h r o => Sys2Proof.Machine.execVqx4Enc h r o s
  | .vqx4Dec h r o => Sys2Proof.Machine.execVqx4Dec h r o s
  | .vscale h r o => Sys2Proof.Machine.execVscale h r o s
  | .vscaleBlk h r o => Sys2Proof.Machine.execVscaleBlk h r o s
  | .vred h r o => Sys2Proof.Machine.execVred h r o s
  | .vfred h r o => Sys2Proof.Machine.execVfred h r o s
  | .vredi h r o => Sys2Proof.Machine.execVredi h r o s
  | .sliceExpiry task => Sys2Proof.Machine.execSliceExpiry task s
  | .unsupportedTypePacket h type => Sys2Proof.Machine.execUnsupportedTypePacket h type s
  | .ideKmKeyProgramming r stream => Sys2Proof.Machine.execIdeKmKeyProgramming r stream s
  | .tokenPassThrough => Sys2Proof.Machine.execTokenPassThrough s
  | .resultLand => Sys2Proof.Machine.execResultLand s
  | .giveOverflowRelease => Sys2Proof.Machine.execGiveOverflowRelease s
  | .mxeCompletion => Sys2Proof.Machine.execMxeCompletion s
  | .barrierDepart => Sys2Proof.Machine.execBarrierDepart s
  | .firmwareEventStart => Sys2Proof.Machine.execFirmwareEventStart s
  | .firmwareContextFault => Sys2Proof.Machine.execFirmwareContextFault s
  | .yieldHalt => Sys2Proof.Machine.execYieldHalt s
  | .forcedCut => Sys2Proof.Machine.execForcedCut s
  | .flowReportTimer => Sys2Proof.Machine.execFlowReportTimer s
  | .bulkAgePromote => Sys2Proof.Machine.execBulkAgePromote s
  | .detectorFire => Sys2Proof.Machine.execDetectorFire s
  | .keyUpdateStart => Sys2Proof.Machine.execKeyUpdateStart s
  | .keySwitch => Sys2Proof.Machine.execKeySwitch s
  | .linkFail => Sys2Proof.Machine.execLinkFail s
  | .pstatRetrain => Sys2Proof.Machine.execPstatRetrain s
  | .slotGrant => Sys2Proof.Machine.execSlotGrant s
  | .slotEvict => Sys2Proof.Machine.execSlotEvict s
  | .queueEnable => Sys2Proof.Machine.execQueueEnable s
  | .queueDisable => Sys2Proof.Machine.execQueueDisable s
  | .queueRestart => Sys2Proof.Machine.execQueueRestart s
  | .stackReread => Sys2Proof.Machine.execStackReread s
  | .nackReread => Sys2Proof.Machine.execNackReread s
  | .interruptCoalesceTimer => Sys2Proof.Machine.execInterruptCoalesceTimer s
  | .depSatisfied => Sys2Proof.Machine.execDepSatisfied s
  | .signalWrite => Sys2Proof.Machine.execSignalWrite s
  | .speculationStart => Sys2Proof.Machine.execSpeculationStart s
  | .thermalShutdown => Sys2Proof.Machine.execThermalShutdown s
  | .packetRoute => Sys2Proof.Machine.execPacketRoute s
  | .timeSend => Sys2Proof.Machine.execTimeSend s
  | .timeLostTimeout => Sys2Proof.Machine.execTimeLostTimeout s
  | .sidingDrain => Sys2Proof.Machine.execSidingDrain s
  | .staffHoldTimeout => Sys2Proof.Machine.execStaffHoldTimeout s
  | .staffRegenerate => Sys2Proof.Machine.execStaffRegenerate s
  | .xinvAll => Sys2Proof.Machine.execXinvAll s
  | .xinvComplete => Sys2Proof.Machine.execXinvComplete s
  | .arbitrationPromote => Sys2Proof.Machine.execArbitrationPromote s
  | .batchSign => Sys2Proof.Machine.execBatchSign s
  | .fedWakeup => Sys2Proof.Machine.execFedWakeup s
  | .taskStart => Sys2Proof.Machine.execTaskStart s
  | .captureTargetReached => Sys2Proof.Machine.execCaptureTargetReached s
  | .errorWindow => Sys2Proof.Machine.execErrorWindow s
  | .powerLoss => Sys2Proof.Machine.execPowerLoss s

end Sys2Proof.Machine
end

