-- ==== Sys2Proof/Machine/Bar0.lean ====
section
/-!
DEFINITION. What the host reads from the registers of BAR0 (01, R16; 06, R127, R137; 07, R170; 13, R358, R363,
R366; 15, R386 to R388, R424; 17, R461; 18, R469). A read changes nothing.
-/

namespace Sys2Proof.Machine

/-- Whether a die carries Azpin ports (R13). -/
def hasAzpin (d : Nat) : Bool := !(diePorts d).isEmpty

/-- The inventory word of a die (Table 1.6). -/
def State.inventory (s : State) (d : Nat) : Nat :=
  let x := s.die d
  if x.present then
    b2n (hasAzpin d) * 2 ^ 28 + x.edgeOk * 2 ^ 24 + b2n x.hbmOk * 2 ^ 23 + (if x.spareUsed then x.sparePos else 0) * 2 ^ 19 + b2n x.spareUsed * 2 ^ 18
      + x.coreOk * 2 ^ 2 + 1
  else 0

/-- The status of a port (Table 7.7). -/
def State.pstat (s : State) (q : Nat) : Nat :=
  let x := s.fabric.port q
  let first := ((List.range 46).find? fun k => s.fabric.live k) == some q
  if s.board.single then 0
  else x.drains * 2 ^ 48 + x.detf * 2 ^ 32 + x.lerr * 2 ^ 16 + portPeer s.peerId q * 2 ^ 7
    + b2n (first && s.fabric.tlost) * 2 ^ 4 + b2n x.keyed * 2 ^ 3 + x.st

/-- What a 4-byte read at a register's offset gives, where the manual gives the register a value. Of an 8-byte
register it is the value whole. -/
def State.bar0Read (s : State) (off : Nat) : Option Nat :=
  let r := s.regs
  if 0x1000 ≤ off ∧ off < 0x1080 ∧ off % 4 = 0 then some (s.inventory ((off - 0x1000) / 4))
  else if 0x3000 ≤ off ∧ off < 0x3000 + 8 * 46 ∧ off % 8 = 0 then some (s.pstat ((off - 0x3000) / 8))
  else if 0x5040 ≤ off ∧ off < 0x5080 ∧ off % 8 = 0 then some (r.ttcnt.getD ((off - 0x5040) / 8) 0)
  else if 0x6000 ≤ off ∧ off < 0x6100 ∧ off % 8 = 0 then some (s.trust.encir.get 0 ((off - 0x6000) / 8))
  else match off with
    | 0x2000 => some r.xinvVa
    | 0x2010 => some r.xinvDone
    | 0x2040 => some r.astb
    | 0x2048 => some r.hwbase
    | 0x4000 => some r.rlb
    | 0x4008 => some r.rln
    | 0x400C => some (r.rlhead % 2 ^ 32)
    | 0x4010 => some r.rltail
    | 0x4018 => some r.sgb
    | 0x4020 => some r.sgn
    | 0x4024 => some (r.sghead % 2 ^ 32)
    | 0x4028 => some r.sgtail
    | 0x4030 => some r.rxorph
    | 0x5000 => some r.qtb
    | 0x5010 => some r.qctlDone
    | 0x5018 => some r.spoolb
    | 0x5020 => some r.spooln
    | 0x5080 => some r.ndrop
    | 0x7010 => some r.fwldone
    | 0x7018 => some (s.gtc / 2 ^ 30)
    | _ => none

end Sys2Proof.Machine
end

