-- ==== Sys2Proof/Machine/Due.lean ====
section
/-!
DEFINITION. The steps that the module takes by itself because their tick has come, or because nothing stands
in their way (log entry 1): cuts and yields, timers, and the ends of retirements and scrubs.
-/

namespace Sys2Proof.Machine

/-- For whom a step of the module itself acts. -/
def Cur.own (core queue : Nat) : Cur := { core := core, eng := .scu, fw := false, words := [], port := 0, queue := queue }

/-- Whether a core of a running task has not been cut yet, and passes a test. -/
def State.uncut (s : State) (t : Task) (ok : Core → Bool) : Bool :=
  t.phase == .running && t.cores.any fun p => (s.core p).cut.isNone && ok (s.core p)

/-- The due step of a request to cut or to yield (R292, R293, R431, R432). -/
def State.dueCut (s : State) (id : Nat) (t : Task) (r : CutReq) : Option (Cur × Instr) :=
  let now (a : Option Nat) : Bool := a.any fun a => decide (a ≤ s.gtc)
  let open' : Bool := (match t.phase with
    | .waiting => t.kind == .kernel
    | .ready _ _ => true
    | _ => false)
  if now r.at? && (s.uncut t (fun _ => true) || (open' && !r.ends)) then some (Cur.own 0 0, .stopCut id)
  else if r.yield && decide (r.ty ≤ s.gtc) && s.uncut t (fun c => !c.yreq) then some (Cur.own 0 0, .yieldRequest id)
  else if now t.forcedTick then
    if t.phase = .running then
      (t.cores.find? fun p => (s.core p).cut.isNone).map fun p => (Cur.own p 0, .forcedCut)
    else none
  else none

/-- The due step of a task (R292, R411, R412). -/
def State.dueTask (s : State) (id : Nat) (t : Task) : Option (Cur × Instr) :=
  match t.cutReq.bind (s.dueCut id t) with
  | some x => some x
  | none =>
    if t.phase == .running && t.slice != 0 && !t.expired && decide (t.started + t.slice ≤ s.gtc) then
      some (Cur.own 0 0, .sliceExpiry id)
    else if t.waitsCores && !t.reserving && decide (t.readyAt + 2 ^ 20 ≤ s.gtc) && s.placeFor t == none then
      some (Cur.own 0 0, .reservationStart id)
    else none

/-- The due step of a queue (R390, R396). -/
def dueQueue (now q : Nat) (x : Queue) : Option (Cur × Instr) :=
  if x.irqDue && x.lastIrq.all fun l => decide (l + 256 ≤ now) then some (Cur.own 0 q, .interruptCoalesceTimer)
  else if x.slotted && x.idle.any fun t => decide (t + 65536 ≤ now) then some (Cur.own 0 q, .slotEvict)
  else none

/-- The TDI whose scrub can end, with its session. -/
def State.dueScrub (s : State) : Option (Nat × Nat) :=
  s.trust.tdis.findSome? fun e => e.2.scrub.bind fun k => if s.scrubbed e.1 then some (e.1, k.1) else none

/-- A die in service whose Cellar has a bank in the refresh window that is not noted yet (R232). -/
def State.dueRefresh (s : State) : Option Nat :=
  if 64 ≤ s.gtc % 256 then none
  else (s.dies.find? fun e => e.2.present
    && decide (s.plat.cellarUntil.get 0 e.1 ≠ s.gtc / 256 * 256 + 64)).map Prod.fst

/-- The due step of the module (R232, R375, R380, R389, R457, R467, R468). -/
def State.dueModule (s : State) : Option (Cur × Instr) :=
  let me := Cur.own 0 0
  if let some d := s.dueRefresh then some (me, .cellarRefresh d)
  else if s.plat.errWin ≠ s.gtc / 2 ^ 30 then some (me, .errorWindow)
  else if s.fedWake.any fun t => decide (t ≤ s.gtc) then some (me, .fedWakeup)
  else match s.plat.lasting with
    | r :: _ => some (me, .resourceRetire r)
    | [] =>
      if s.decidedRun.isSome then some (me, .captureTargetReached)
      else match s.taster.bisects.find? fun b => !b.lead && decide (b.since + 2 ^ 30 ≤ s.gtc) with
        | some b => some (me, .bisectAnswerTimeout b.session)
        | none =>
          match s.dies.find? fun e => e.2.leaving && e.2.present && !s.cores.any fun c => c.1 / 32 == e.1 && c.2.task.isSome with
          | some e => some (me, .retireDie e.1)
          | none => s.dueScrub.map fun k => (me, .stopInterface k.1 k.2)

/-- The cores whose oldest waiting release has everything it covers acknowledged (R193). -/
def State.dueStore (s : State) : Option (Cur × Instr) :=
  (s.cores.find? fun e => s.storeReady e.1).map fun e => (Cur.own e.1 0, .resultLand)

/-- The cores whose yield point halts them now (R207, R293). -/
def State.dueHalt (s : State) : Option (Cur × Instr) :=
  (s.cores.find? fun e => e.2.cut.isNone && e.2.cutAt.any fun a => decide (a ≤ s.gtc)).map fun e => (Cur.own e.1 0, .yieldHalt)

/-- The due step of a port (R147, R152, R153, R168, R454). -/
def State.duePort (s : State) : Option (Cur × Instr) :=
  s.fabric.ports.findSome? fun e =>
    let me := { Cur.own 0 0 with port := e.1 }
    let x := e.2
    if x.switchDue then some (me, .keySwitch)
    else if x.updateDue then some (me, .keyUpdateStart)
    else if x.stuckSince s.gtc then some (me, .detectorFire)
    else if x.bulkAged s.gtc then some (me, .bulkAgePromote)
    else if x.reportDue s.gtc then some (me, .flowReportTimer)
    else none

/-- The source and the tag of a packet whose response has not come in time (R160, R165, R376). -/
def State.overdue (s : State) : Option (Nat × Nat) :=
  let late (t : Nat) : Bool := !s.inTime t
  (s.cores.findSome? fun e =>
      ((e.2.sceS.ack.find? fun a => late a.tick).map fun a => (e.1, a.tag))
        <|> (e.2.lceS.reads.find? fun r => late r.tick).map fun r => (e.1, r.tag))
    <|> (s.dies.findSome? fun e =>
      (e.2.wb.find? fun w => w.sent && late w.tick).bind fun w => w.pkts.head?.map fun k => (32 * e.1 + 31, k.tag))
    <|> ((s.fabric.relays.find? fun r => late r.tick).map fun r => (r.score, r.tag))
    <|> (s.taster.bisects.find? fun b => b.lead && late b.since).map fun b => (32 * b.die + 30, b.tag)

/-- The due step of the fabric (R154, R156, R160, R166, R167). -/
def State.dueFabric (s : State) : Option (Cur × Instr) :=
  let me := Cur.own 0 0
  match s.duePort, s.overdue with
  | some x, _ => some x
  | none, some (p, tag) => some (me, .responseTimeout p tag)
  | none, none =>
    if s.timeDue then some (me, .timeSend)
    else if s.timeGone && s.up then some (me, .timeLostTimeout)
    else if s.staffOver then some (me, .staffHoldTimeout)
    else if s.staffGone && !s.board.single && s.up then some (me, .staffRegenerate)
    else none

/-- The step that has fallen due, and for whom it acts: of a core, of a task, of a queue, of the fabric, of the
module. -/
def State.dueStep (s : State) : Option (Cur × Instr) :=
  match s.due with
  | some (p, i) => some ({ s.cur with core := p }, i)
  | none =>
    match (s.dueStore <|> s.dueHalt), s.tasks.findSome? fun e => e.2.bind (s.dueTask e.1) with
    | some x, _ => some x
    | none, some x => some x
    | none, none =>
      match s.queues.findSome? fun e => dueQueue s.gtc e.1 e.2 with
      | some x => some x
      | none => s.dueFabric <|> s.dueModule

end Sys2Proof.Machine
end

