-- ==== Sys2Proof/Machine/Moves.lean ====
section
/-!
DEFINITION. Which step of the opcode table a write to a register of the module is (Tables 6.9,
7.7, 13.5, 15.2, 17.6, 18.3).
-/

namespace Sys2Proof.Machine

/-- The step that a BAR0 write is, with the port or queue it names. -/
def bar0Instr (s : State) (off width v : Nat) : Cur × Instr :=
  let cur := s.cur
  if off = 0x2008 then
    let asid := bits v 11 0
    (cur, match bits v 13 12 with
      | 0 => .xinvPage64k asid s.regs.xinvVa
      | 1 => .xinvPage2m asid s.regs.xinvVa
      | 2 => .xinvAsid asid
      | _ => .xinvAll)
  else if off = 0x2018 then (cur, .dlkick (bits v 11 0))
  else if off = 0x2020 then (cur, .fttclr (bits v 27 0) (bits v 55 32))
  else if 0x3000 ≤ off ∧ off < 0x3000 + 8 * 46 ∧ off % 8 = 0 ∧ bits v 1 0 = 1 then
    ({ cur with port := (off - 0x3000) / 8 }, .pstatRetrain)
  else if off = 0x5008 ∧ bits v 13 12 < 3 then
    ({ cur with queue := bits v 9 0 }, match bits v 13 12 with
      | 0 => .queueEnable
      | 1 => .queueDisable
      | _ => .queueRestart)
  else if 0x6000 ≤ off ∧ off < 0x6100 ∧ off % 8 = 0 then (cur, .encirWrite ((off - 0x6000) / 8) v)
  else if off = 0x7000 then
    (cur, match bits v 31 30 with
      | 0 => if bits v 4 0 < 17 then .retireCore (bits v 9 5) (bits v 4 0) else .registerWrite off width v
      | 1 => .retireDie (bits v 9 5)
      | 2 => .retireStack (bits v 9 5)
      | _ => if bits v 4 0 < 4 then .retireEdge (bits v 9 5) (bits v 4 0) else .registerWrite off width v)
  else if off = 0x7008 ∧ bits v 5 0 < 32 then (cur, .fwload (bits v 5 0) (v / 64 * 64) true)
  else (cur, .registerWrite off width v)

/-- The step that a write to BAR2 is: page `q` holds the notify register of queue `q`; writes to other
offsets, and of other widths, are ignored (R388). -/
def bar2Instr (off width v : Nat) : Option Instr :=
  if off % 4096 = 0 ∧ (width = 4 ∨ width = 8) then some (.notifyWrite (off / 4096) (v % 2 ^ 32)) else none

/-- Whether a step can come from outside the streams and the rings: neither an engine's instruction
nor a packet of a queue, which only its ring or its spawn buffer holds. -/
def outside (i : Instr) : Bool :=
  match i with
  | .launch _ _ | .graph _ _ _ | .dep _ _ _ | .signal _ _ _ | .mapGroup _ _ _ _ _ | .cellarLoad _ _ _ _ _
  | .seal _ | .stop _ _ _ _ | .save _ _ _ _ _ | .resume _ _ _ _ _ | .bisect _ _ | .capture _ _ | .taste _ _
  | .unsupportedTypePacket _ _ => false
  | i => i.wf && i.engines.isEmpty

end Sys2Proof.Machine
end

