-- ==== Sys2Proof/Machine/Step.lean ====
section
/-!
DEFINITION. One step of the module (log entry 1): a step that has fallen due, else the
next move of the schedule, else the end of the tick, on which every stream that still can issue is tried.
-/

namespace Sys2Proof.Machine

/-- The step an engine takes when it may issue. -/
def stepIssue (p : Nat) (e : Engine) (fw : Bool) (s : State) : Out :=
  let s := { s with cur := { core := p, eng := e, fw := fw, words := [], port := 0, queue := 0 } }
  match s.next with
  | (.run i, s) => exec i s
  | (.fault c, s) => .next (s.raiseFetch c)
  | (.idle, s) => .next s

/-- The end of a tick: a stream that could still issue on it is tried once more, and when none is left the station
clock ticks, so that an instruction issues on the first tick on which R94 lets it. `s` is the state whose
schedule goes on, `s'` the one in which it asks again. -/
def stepTick (s s' : State) : Out :=
  match s.unswept s.sweep (6 * s.cores.length + 1 - s.sweep) with
  | some (k, cur) => stepIssue cur.core cur.eng cur.fw { s' with sweep := k + 1 }
  | none => .next s.tick

/-- A step from outside, taken if there is such a step. -/
def stepOutside (i : Instr) (s : State) : Out := if outside i then exec i s else .fault .badMove

/-- One move of the schedule. Until bring-up has ended the host reaches no register (R466). -/
def stepMove (m : Move) (s : State) : Out :=
  match m with
  | .issue p e fw =>
    if p < 1024 ∧ p % 32 ≤ 16 ∧ (fw = false ∨ e = .scu) then stepIssue p e fw s else .fault .badMove
  | .fed q =>
    if q < 1024 then
      match s.fedTake q with
      | (s, some i) => exec i s
      | (s, none) => .next s
    else .fault .badMove
  | .gate power => .next (s.gateFed power)
  | .bar0 off width v =>
    if !s.up then .next s
    else
      let (cur, i) := bar0Instr s off width v
      if (width = 4 ∨ width = 8) ∧ i.wf then exec i { s with cur := cur } else .fault .badMove
  | .bar2 off width v =>
    if !s.up then .next s
    else if off < 2 ^ 22 then
      match bar2Instr off width v with
      | some i => exec i s
      | none => .next s
    else .fault .badMove
  | .event i => stepOutside i s
  | .coreEvent p i =>
    if p < 1024 ∧ p % 32 ≤ 16 then stepOutside i { s with cur := { s.cur with core := p } } else .fault .badMove
  | .portEvent p i => if p < 46 then stepOutside i { s with cur := { s.cur with port := p } } else .fault .badMove
  | .queueEvent q i => if q < 1024 then stepOutside i { s with cur := { s.cur with queue := q } } else .fault .badMove
  | .hostWrite a bs =>
    if hostBase ≤ a ∧ a + bs.length ≤ 2 * hostBase then .next (s.writeAt a bs) else .fault .badMove
  | .readDelay p e k =>
    if p < 1024 ∧ p % 32 ≤ 16 then .next (s.onCore p fun c => { c with stalls := c.stalls.set 0 (engIdx e) k })
    else .fault .badMove
  | .podGroup g ps =>
    if g < 2 ^ 32 then .next { s with podPeers := s.podPeers.set [] g (ps.filter fun q => q != s.peerId) }
    else .fault .badMove
  | .present ps => .next { s with fabric := { s.fabric with present := ps.filter fun q => decide (q < 512) } }
  | .frameAck q k => if q < 46 then .next (s.ackFrames q k) else .fault .badMove
  | .tick => stepTick s { s with agenda := .tick :: s.agenda }

/-- One step. -/
def step (s : State) : Host.Outcome State Fault Refusal :=
  match s.dueStep with
  | some (cur, i) => exec i { s with cur := cur }
  | none =>
    match s.agenda with
    | m :: ms => stepMove m { s with agenda := ms }
    | [] => stepTick s s

/-- The state with an instruction stored where the next step fetches it (log entry 13). -/
def State.withFetchWord (s : State) (nbits w : Nat) : State := s.placeTableWord nbits w

end Sys2Proof.Machine
end

