-- ==== Sys2Proof/Safety.lean ====
section
/-!
DEFINITION. The terms of the claims: a step that answers a next state, when an instruction may issue, what
every issue does to its stream, and what a step leaves as it was.
-/

namespace Sys2Proof

/-- The step from `s` answers a next state: it neither stops with a fault nor is refused. -/
def Safe (s : Machine.State) : Prop := ∃ t, Machine.step s = .next t

namespace Machine

/-- The instruction, executed in `s`, answers a next state of which `P` holds. -/
def Answers (i : Instr) (s : State) (P : State → Prop) : Prop := ∃ t, exec i s = .next t ∧ P t

/-! ## Issue (R23, R94, R98) -/

/-- The stream of the step may issue `h` on this tick: the core runs a task and is neither halted nor cut,
its spacing is over, its AT is satisfied, no device delay withholds it, and its waits are met. -/
def State.mayIssue (s : State) (h : Hdr) : Prop :=
  s.canIssue = true ∧ (s.atSays = .free ∨ s.atSays = .strict) ∧ s.delayed = false ∧ s.waitsMet h = true

/-- The step is one of the user context of engine `e`. -/
def State.at' (s : State) (e : Engine) : Prop := s.cur.eng = e ∧ s.cur.fw = false

/-- How many tokens an issue takes from interlock queue `q`: WP from the queue of forward tokens, WN from
that of backward tokens, those of an AT included; the firmware context takes none (R23, R98, R177). -/
def State.taken (s : State) (h : Hdr) (q : Nat) : Nat :=
  let w := s.myStream.tokens h
  if s.cur.fw then 0
  else if q = fwdIn (engIdx s.cur.eng) then w.1
  else if q = backIn (engIdx s.cur.eng) then w.2.1
  else 0

/-- The gives that an issue leaves to be performed when they fall due (R24). -/
def State.promised (s : State) (h : Hdr) (due : GiveDue) (clk : Clock) : List Give :=
  let w := s.myStream.tokens h
  if w.2.2.1 + w.2.2.2 = 0 ∨ s.cur.fw = true then []
  else [{ sidx := s.myStream.sidx, gp := w.2.2.1, gn := w.2.2.2, due := due, clk := clk }]

/-- The instruction has issued: its stream stands at `pc`, has counted it, may issue again after `gap` ticks
and its STL, and carries no prefix and no hold; its waits are consumed and its gives promised. -/
structure Issued (s t : State) (h : Hdr) (due : GiveDue) (pc gap : Nat) : Prop where
  pc     : t.myStream.pc = pc
  index  : t.myStream.sidx = s.myStream.sidx + 1
  ready  : t.myStream.ready = s.gtc + max gap (max 1 h.stl)
  clear  : t.myStream.at? = none ∧ t.myStream.atd = false ∧ t.myStream.hold = .none
  waits  : ∀ q, t.me.count q = s.me.count q - s.taken h q
  gives  : t.myStream.gives = s.myStream.gives ++ s.promised h due t.myStream.clk
  code   : t.myStream.off = s.myStream.off ∧ t.myStream.len = s.myStream.len

/-- The stream has neither ended nor changed its loop levels, and its leaves are as they were. -/
structure StreamKept (s t : State) : Prop where
  loops  : t.myStream.loops = s.myStream.loops
  ended  : t.myStream.ended = s.myStream.ended
  leaves : t.myStream.form = s.myStream.form ∧ t.myStream.range = s.myStream.range
    ∧ t.myStream.base = s.myStream.base ∧ t.myStream.past = s.myStream.past

/-- Where a stream that goes on at word `pc` goes on: in the vector engine, at the first word of the body where
the last word of an active VLOOP iteration has been passed (R337). -/
def State.passed (s : State) (pc : Nat) : Nat := if s.cur.eng = .vxe then (s.me.wrapVloop pc).2 else pc

/-- The word after the instruction of the step. -/
def State.after (s : State) (h : Hdr) : Nat := s.passed (s.myStream.pc + h.n)

/-! ## What stays as it was -/

/-- Every byte of memory reads as before. -/
def SameBytes (s t : State) : Prop := ∀ a, t.byte a = s.byte a

/-- Nothing outside the core of the step has changed: memory, the other cores, the queues and tasks, the
clock, the registers of the module and everything else; `back` puts into the core after the step what it
held before in the parts that may change, and then it is the core before the step. -/
structure OnlyCore (s t : State) (back : Core → Core → Core) : Prop where
  rest   : { t with cores := s.cores } = s
  others : ∀ q, q ≠ s.cur.core → t.core q = s.core q
  own    : back s.me t.me = s.me
  bytes  : SameBytes s t

/-- What an issue of the step's stream may change in its core: the stream, the interlock counts and what has been
consumed on this tick, the cursors of circular tensors, the VLOOP state, and the record of which context took
the SCU's slot. -/
def State.issueParts (s : State) (c t : Core) : Core :=
  { t.setStream s.cur.eng s.cur.fw (c.stream s.cur.eng s.cur.fw) with
    iq := c.iq, spent := c.spent, cursors := c.cursors, fwSlot := c.fwSlot, usrSlot := c.usrSlot
    vxeS := { t.vxeS with vloop := c.vxeS.vloop } }

/-- Those, and the registers of the SCU context of the step. -/
def State.scuParts (s : State) (c t : Core) : Core := s.issueParts c (t.setCtx s.cur.fw (c.ctx s.cur.fw))

/-! ## Results of the SCU (R171 to R173) -/

/-- A result `v` has been pushed for destination `d` that lands `lat` ticks on; nothing that can be read
has changed yet but the place of the belt's head. -/
structure Pushed (s t : State) (d lat : Nat) (v : Word) : Prop where
  head  : t.scu.head = (s.scu.head + 1) % 16
  pend  : t.scu.pend = s.scu.pend ++
    [{ due := s.gtc + lat, slot := t.scu.head, named := if 16 ≤ d then some (d - 16) else none
       seq := s.scu.seq, value := v }]
  slots : t.scu.slots = s.scu.slots
  named : t.scu.named = s.scu.named
  order : t.scu.seq = s.scu.seq + 1 ∧ t.scu.seqs = s.scu.seqs

/-- The operand codes can be read: no result is pending for them, or the early read is one that R95 lets
read the old values. -/
def State.readable (s : State) (cs : List Nat) : Prop :=
  cs.any s.scu.pending = false ∨ (s.cur.fw = false ∧ (s.hdrOf s.cur.core).check = false)

/-- An SCU instruction of one result completes on this tick: it has issued, its result is pushed, and
nothing else has changed. -/
def Computes (s t : State) (h : Hdr) (d lat : Nat) (v : Word) : Prop :=
  Issued s t h (.tick (s.gtc + lat)) (s.myStream.pc + h.n) 1 ∧ StreamKept s t ∧ Pushed s t d lat v
    ∧ OnlyCore s t s.scuParts

/-- The parts of `issueParts`, and in the vector engine the open segment, which every issue enters (R339). -/
def State.enterParts (s : State) (c t : Core) : Core :=
  s.issueParts c (if s.cur.eng = .vxe then { t with vxeS := { t.vxeS with seg := c.vxeS.seg } } else t)

/-- An instruction without a result completes: it retires one tick on, its stream goes on at `pc` after `gap`
ticks with the loop levels `ls`, and nothing has changed but what `back` puts back. -/
structure Goes (s t : State) (h : Hdr) (pc gap : Nat) (ls : List LoopLevel) (back : Core → Core → Core) : Prop where
  issued : Issued s t h (.tick (s.gtc + 1)) pc gap
  loops  : t.myStream.loops = ls
  kept   : t.myStream.ended = s.myStream.ended ∧ t.myStream.form = s.myStream.form
    ∧ t.myStream.range = s.myStream.range ∧ t.myStream.base = s.myStream.base ∧ t.myStream.past = s.myStream.past
  frame  : OnlyCore s t back

/-- An instruction holds issue: it stands where it stood and changes nothing but its hold and what `back` puts
back. -/
structure HoldsAnd (s t : State) (back : Core → Core → Core) : Prop where
  stands : t.myStream.pc = s.myStream.pc ∧ t.myStream.sidx = s.myStream.sidx ∧ t.myStream.gives = s.myStream.gives
  counts : ∀ q, t.me.count q = s.me.count q
  frame  : OnlyCore s t fun c C => s.enterParts c (back c C)

/-- An instruction holds issue: it stands where it stood and has no effect but its hold. -/
def Holds (s t : State) : Prop := HoldsAnd s t fun _ C => C

/-- An instruction whose read is delayed has issued: what its engine waits for moves on by the `k` ticks of the
delay (R180, R305). -/
structure Late (s t : State) (h : Hdr) (k : Nat) : Prop where
  pc    : t.myStream.pc = s.after h
  index : t.myStream.sidx = s.myStream.sidx + 1
  ready : t.myStream.ready = s.gtc + max 1 (max 1 h.stl) + k
  waits : ∀ q, t.me.count q = s.me.count q - s.taken h q
  kept  : StreamKept s t

/-- An SCU instruction of one result completes that also changes what `back` puts back. -/
def ComputesAnd (s t : State) (h : Hdr) (d lat : Nat) (v : Word) (back : Core → Core → Core) : Prop :=
  Issued s t h (.tick (s.gtc + lat)) (s.myStream.pc + h.n) 1 ∧ StreamKept s t ∧ Pushed s t d lat v
    ∧ OnlyCore s t fun c C => s.scuParts c (back c C)

/-- A store of the bytes `bs` at the addresses `as` is performed: memory elsewhere is unchanged, and outside
the core of the step nothing else has changed but what every write does to the sectors with uncorrectable
data, to the digest cache, to the watched ranges of speculations and to the releases that stand in bytes. -/
structure Stores (s t : State) (as : List Nat) (bs : List Byte) (back : Core → Core → Core) : Prop where
  rest   : { t with cores := s.cores, mem := s.mem, bad := s.bad, dcache := s.dcache, shadows := s.shadows, released := s.released } = s
  others : ∀ q, q ≠ s.cur.core → t.core q = s.core q
  own    : back s.me t.me = s.me
  bytes  : ∀ a, a ∉ as → t.byte a = s.byte a
  stored : as.Nodup → ∀ i (h : i < as.length) (h' : i < bs.length), t.byte as[i] = bs[i]

/-- A condition of Table 8.7 between two values. -/
def Cond (c : Nat) (x y : Word) : Prop :=
  match c with
  | 0 => x = y
  | 1 => x ≠ y
  | 2 => x.toInt < y.toInt
  | 3 => y.toInt ≤ x.toInt
  | 4 => x.toNat < y.toNat
  | 5 => y.toNat ≤ x.toNat
  | 6 => y.toInt < x.toInt
  | 7 => x.toInt ≤ y.toInt
  | 8 => y.toNat < x.toNat
  | _ => x.toNat ≤ y.toNat

/-- The word offset `p` that a branch at `pc` by a signed 28-bit offset reaches; a negative target names no
word of any code (R188). -/
def Reaches (pc off p : Nat) : Prop :=
  (0 ≤ (pc : Int) + sext 28 off → (p : Int) = pc + sext 28 off) ∧ ((pc : Int) + sext 28 off < 0 → 2 ^ 60 ≤ p)

/-- The loop levels that a branch to `p` leaves: levels are popped until the target lies inside the innermost
one (R104). -/
def levelsAt (p : Nat) (ls : List LoopLevel) : List LoopLevel :=
  ls.dropWhile fun l => !(decide (l.start ≤ p) && decide (p ≤ l.stop))

/-! ## Copy commands (R215, R242) -/

/-- No leaf of core `p` writes an audit record (R364). -/
def State.unaudited (s : State) (p : Nat) : Prop := (s.task? ((s.core p).task.getD 0)).bind Task.audit? = none

/-- The command that a copy instruction of the LCE places. -/
def State.lceNew (s : State) (i : Instr) (a : LceArgs) (cd cs : Nat) : Cmd :=
  Cmd.new s.myStream.sidx i s.cur.words (s.coord cd) (s.coord cs) (if a.op = .cpig then s.coord a.flg else Coord.zero)
    (if a.op = .cpic then s.me.cursor 1 a.td else 0) s.me.lceS.mark (s.me.lceStart a)

/-- The command that an instruction of the SCE places: it holds the slots of the circular tensors that it names
(R31), the group it names, and what it covers of other cores. -/
def State.sceNew (s : State) (h : Hdr) (i : Instr) (a : SceArgs) (cd cs ci : Nat) : Cmd :=
  let g := if a.op = .cpm then s.groups.get GroupEntry.empty a.num else GroupEntry.empty
  let slot := s.me.slotOf 4
  { Cmd.new s.myStream.sidx i s.cur.words (s.coord cd) (s.coord cs) (s.coord ci)
      (slot (if a.op = .cpos then a.t3 else if a.op = .flush then a.td else a.ts))
      (if a.op.leafy then s.me.sceS.mark else s.myStream.sidx) (s.me.sceStart a g.members) with
    gvalid := g.v, gasid := g.asid, gmap := g.members, far := (s.covers h).far
    slotD := if a.op = .fat then slot a.td else 0
    slotT := if a.op = .fat ∧ a.opt then slot a.t3 else 0 }

/-- A copy command has been placed: its instruction has issued, it stands as `x` behind the other commands
of its engine, and its leaf, where it emits one, is in formation behind the others. -/
structure CommandPlaced (s u : State) (h : Hdr) (x : Cmd) (leafy : Bool) : Prop where
  issued  : Issued s u h (.command s.myStream.sidx) (s.myStream.pc + h.n) 1
  kept    : u.myStream.loops = s.myStream.loops ∧ u.myStream.ended = s.myStream.ended
  forming : u.myStream.form.map (·.sidx) = s.myStream.form.map (·.sidx) ++ if leafy then [s.myStream.sidx] else []
  command : u.me.cmds (engIdx s.cur.eng) = s.me.cmds (engIdx s.cur.eng) ++ [x]
  frame   : OnlyCore s u fun c C => s.issueParts c { C with
    lceS := { C.lceS with slots := c.lceS.slots }
    sceS := { C.sceS with slots := c.sceS.slots, sends := c.sceS.sends }
    mxeS := { C.mxeS with live := c.mxeS.live } }

/-- What the LCE has counted after a command has completed with a status (R216). -/
def LceState.counts (l l' : LceState) (x : Cmd) (status foff : Nat) : Prop :=
  l'.done = l.done + 1 ∧ l'.errs = (if status = 0 then l.errs else l.errs + 1)
    ∧ l'.first = if status ≠ 0 ∧ l.errs = 0 then
        { fseq := x.sidx % 2 ^ 40, fcode := status, foff := foff, part := false, late := false } else l.first

/-- What the SCE has counted after a command has completed with a status (R243, R244). -/
def SceState.counts (l l' : SceState) (x : Cmd) (status foff : Nat) (part : Bool) : Prop :=
  l'.done = l.done + 1 ∧ l'.errs = (if status = 0 then l.errs else l.errs + 1)
    ∧ l'.first = if status ≠ 0 ∧ l.errs = 0 then
        { fseq := x.sidx % 2 ^ 40, fcode := status, foff := foff, part := part, late := false } else l.first

/-- The indices or the scales that command `x` of core `p` needs first, if any, have been read: it stands as
`y`, in state `v`. -/
def State.prepared (u : State) (p : Nat) (x : Cmd) (a : LceArgs) (v : State) (y : Cmd) : Prop :=
  (v = u ∧ y = x) ∨ ∃ role d as bs z, (u.core p).lcePrelude x a = some (role, d, as)
    ∧ u.lceBehind p x (as.map (u.name p d)) = false
    ∧ u.gather p x [(d, as)] = (.bytes bs, z, v)
    ∧ y = (let w := (u.core p).lceLearn (z.learn role (accessBytes (v.name p d) as bs)) a role
        if role = 17 then v.lceOrdinal p a w else w)

/-- The source bytes of command `y` of core `p`, one segment in all, can be read, with the scales of its blocks:
they are `bs`, and `w` is the state in which they have been read. No earlier command has yet to touch a sector
of them, or of what is written. -/
structure State.sourced (v : State) (p : Nat) (y : Cmd) (a : LceArgs) (bs : List (Nat × Byte)) (w : State) : Prop where
  prelude : (v.core p).lcePrelude y a = none
  inside  : ∀ k ∈ y.indices, k < nth ((v.core p).desc a.ts).dim 1
  start   : y.next = 0
  whole   :
    let all := (v.core p).lcePieces y a
    all ≠ [] ∧ v.lceSegment p y a = all
      ∧ v.lceBehind p y (all.flatMap (v.lceTouch p y a)) = false
      ∧ (a.op = .cpw → v.refreshing (all.filterMap fun z => z.dst.map fun b => celBase (p / 32) + b / 8) = false)
      ∧ ∃ z, v.gather p y ((v.core p).lceReads y a all) = (.bytes bs, z, w)

/-- The elements at some bit offsets lie apart: no two share a bit, no two of their bytes a place, and none lies in
the nibble that the last element of an INT4 tensor with an odd count fills with zero (R40). -/
structure Apart (d : Desc) (offs : List Nat) (at' : Nat → Nat) : Prop where
  bits   : offs.Pairwise fun b c => b + esize d.fmt ≤ c ∨ c + esize d.fmt ≤ b
  places : ∀ b ∈ offs.flatMap d.elemBytes, ∀ c ∈ offs.flatMap d.elemBytes, at' b = at' c → b = c
  tail   : ∀ b ∈ offs, d.oddEnd b = true → b + 4 ∉ offs

/-- A copy of the LCE has moved its elements from `bs`: into the scratchpads or the Cellar, element for element
and no other byte, or into accumulator rows with their exponents, and no other (R218 to R225). -/
structure LceMoves (v : State) (p : Nat) (y : Cmd) (a : LceArgs) (bs : List (Nat × Byte)) (w t : State) : Prop where
  memory  :
    let src := (v.core p).lceSource a y.cs
    let dst := (v.core p).lceDest a y
    let all := (v.core p).lcePieces y a
    let scales := ((v.core p).lceScaled (v.name p) y a all bs).scales
    let value (z : Piece) := (lceValue (v.name p src.d) a src dst.d.fmt scales bs z).1
    if a.op = .cpa then
      SameBytes w t
      ∧ ((dst.bitOffs.map (· / 64)).Nodup → ∀ z ∈ all, ∀ b, z.dst = some b →
          (t.core p).mxeS.acc.get Elem.zero (b / 64) = Elem.ofRaw (value z)
            ∧ (t.core p).mxeS.rexp.get 0 (b / 64 / 128) = a.exp)
      ∧ (∀ k, k ∉ dst.bitOffs.map (· / 64) → (t.core p).mxeS.acc.get Elem.zero k = (v.core p).mxeS.acc.get Elem.zero k)
      ∧ ∀ g, g ∉ dst.bitOffs.map (· / 64 / 128) → (t.core p).mxeS.rexp.get 0 g = (v.core p).mxeS.rexp.get 0 g
    else
      (t.core p).mxeS = (v.core p).mxeS
      ∧ (∀ c, (∀ q ∈ v.lceTargets p a, c ∉ v.addrs q dst) → t.byte c = w.byte c)
      ∧ ((v.hdrOf p).spd ≤ 32 → ∀ q ∈ v.lceTargets p a, Apart dst.d dst.bitOffs (v.locate q dst.d) →
          t.elems q dst = all.map fun z => value z % 2 ^ esize dst.d.fmt)
  others  : ∀ q, q ≠ p → t.core q = w.core q

/-- What a command of the LCE of core `p` does when it goes on in `u`, to `t` (R68, R216, R218): it waits for
the earlier commands that a MARK names; its checks end it with their status and it moves nothing; or, its
source readable in one segment, it moves its elements and completes with OK. -/
def LceGoesOn (u : State) (p : Nat) (x : Cmd) (a : LceArgs) (t : State) : Prop :=
  (u.cmdWaits p 1 x = true → t = u)
  ∧ (u.cmdWaits p 1 x = false → u.lceStatus p x a ≠ 0 → u.unaudited p →
      (u.core p).lceS.counts (t.core p).lceS x (u.lceStatus p x a) 0
      ∧ SameBytes u t ∧ ∀ q, q ≠ p → t.core q = u.core q)
  ∧ (u.cmdWaits p 1 x = false → u.lceStatus p x a = 0 → (u.core p).cut = none → u.unaudited p →
      ∀ v y bs w, u.prepared p x a v y → v.sourced p y a bs w →
        (u.core p).lceS.counts (t.core p).lceS x 0 0 ∧ LceMoves v p y a bs w t)

/-- The bytes of an access to translated memory all lie in this module's memory in plaintext: `at'` says
where. -/
structure State.reaches (v : State) (d : Desc) (ts : List (Nat × Target)) (bytes : List Nat) (at' : Nat → Nat) : Prop where
  here  : ∀ b ∈ bytes, v.destOf d ts b = .here (at' b) 0
  plain : ∀ l, v.trust.seals.get none l = none

/-- The destination of command `y` of core `p`, one segment in all, has been translated: its elements, their
codes, and the groups of bytes they become, in state `v`. No earlier command has yet to touch a sector that it
touches. -/
structure State.emptied (u : State) (p : Nat) (x y : Cmd) (a : SceArgs) (all : List Piece) (code : Piece → Nat)
    (ts : List (Nat × Target)) (v : State) : Prop where
  learn  : u.sceLearn p x a = (y, 0)
  pieces : all = (u.core p).scePieces a y ∧ all ≠ []
  whole  : nextSegment (u.sceTouch p y a) all = all
  ahead  : u.sceBehind p y (all.flatMap (u.sceTouch p y a)) = false
  index  : a.op = .cpos →
    u.sceBehind p x (((u.core p).sceIndex a x).bytesAt.map (u.name p ((u.core p).desc a.t3))) = false
  sound  : u.anyBad (all.flatMap fun z => (z.src.map (u.elemAddrs p ((u.core p).desc a.ts))).getD []) = false
  pages  : (if ((u.core p).desc a.td).translated then u.outPages p (all.flatMap ((u.core p).desc a.td).writes)
    else (.all [], u)) = (.all ts, v)
  code   : ∀ z, code z = elemOfBytes ((u.core p).desc a.ts).fmt (z.src.getD 0)
    (((z.src.map (v.elemAddrs p ((u.core p).desc a.ts))).getD []).map v.byte)

/-- Packet `k` of command `x` of core `p` is injected, with its tag, and waits for its settlement (R245, R357). -/
structure Injected (u t : State) (p : Nat) (x : Cmd) (k : Packet) : Prop where
  route : t.fabric.route = u.fabric.route ++ [{ pkt := k, at' := u.gtc, pool := none }]
  tag   : k.tag = 256 * (x.sidx % 256) + x.pkts % 256
  table : ∃ e, (t.core p).sceS.ack = (u.core p).sceS.ack ++ [e] ∧ e.tag = k.tag ∧ e.sidx = x.sidx ∧ e.dst = k.dst
    ∧ e.line = k.va / 256 ∧ e.tick = u.gtc
  names : k.src = u.peerId ∧ k.score = p ∧ k.task = (u.core p).task.getD 0 % 2 ^ 32
  bytes : SameBytes u t

/-- Nothing keeps core `p` from injecting packet `k` of command `x` (R62, R79, R245, R357, R380). -/
structure State.sends (u : State) (p : Nat) (x : Cmd) (k : Packet) (sig : Bool) : Prop where
  line : sig = false → (u.core p).lineHeld k.dst k.va k.phys = false
    ∧ ∀ y ∈ (u.core p).sceS.slots, y.sidx < x.sidx → y.pend = []
  room : (u.core p).sceS.ack.length < 256
  tag  : (u.core p).tagHeld (pktTag x.sidx x.pkts) = false
  live : u.capturing p = false

/-- A command of the SCE that has just been placed: nothing has been moved or sent for it. -/
structure Cmd.fresh (x : Cmd) : Prop where
  phase : x.phase = .running
  start : x.next = 0 ∧ x.pend = [] ∧ x.status = 0 ∧ x.got = []
  naks  : x.agg = Mcast.empty
  index : x.image? 17 = none

/-- What a copy, CPO, CPOC, CPOS, CPF or CPM, of core `p` does when it goes on in `u`, to `t` (R243, R247 to R252):
its checks end it, and so does a group that is not valid; where its destination lies in this module's memory in
plaintext, its elements are stored there and no other byte changes, and it completes with OK; where its bytes
go to one line of a peer, one packet carries them, and it completes or waits for the settlement. -/
def SceCopies (u : State) (p : Nat) (x : Cmd) (a : SceArgs) (t : State) : Prop :=
  let dd := (u.core p).desc a.td
  let invalid := a.op = .cpm ∧ (x.gvalid = false ∨ x.gasid ≠ (u.idsOf p).2)
  let done (st : Nat) := (u.core p).sceS.counts (t.core p).sceS x st 0 false
  (u.sceStatus p x a ≠ 0 → done (u.sceStatus p x a) ∧ SameBytes u t ∧ ∀ q, q ≠ p → t.core q = u.core q)
  ∧ (u.sceStatus p x a = 0 → invalid → done 7 ∧ SameBytes u t ∧ ∀ q, q ≠ p → t.core q = u.core q)
  ∧ (u.sceStatus p x a = 0 → ¬ invalid → (u.core p).cut = none → (u.core p).unsettled x.sidx = false →
      ∀ y all code ts v, u.emptied p x y a all code ts v →
        (∀ at', a.op ≠ .cpm → v.reaches dd ts (all.flatMap dd.writes) at' → Apart dd (all.filterMap (·.dst)) at' →
          done 0
          ∧ (∀ z ∈ all, ∀ b, z.dst = some b → elemOfBytes dd.fmt b ((dd.elemBytes b).map fun c => t.byte (at' c)) = code z)
          ∧ ∀ c, c ∉ (all.flatMap dd.writes).map at' → t.byte c = v.byte c)
        ∧ (∀ m r z w, segGroups a (nth ((u.core p).sceSource a y).ext 0) (esize ((u.core p).desc a.ts).fmt) dd
              (all.map fun z => (z, code z)) = [m] → dd.space = 5 → v.storeBytes p x.sidx dd ts m = ([r], w) →
            w.runsOut p y a 0 [r] = [z] → u.sends p x z.pkt false → (a.op = .cpm → u.board.single = false) →
            (a.op = .cpm → z.pkt.dst ≠ u.peerId ∧ ∀ q, (u.core p).lineHeld q z.pkt.va z.pkt.phys = false) →
            ∃ k, Injected u t p x k ∧ k.type = (if a.op = .cpm then 7 else 1) ∧ k.va = r.addr ∧ pktData k = r.bs
              ∧ (a.op ≠ .cpm → k.dst = dd.peer)
              ∧ (a.op = .cpm → k.group = a.num ∧ (k.dst / 32 = u.peerId / 32 ∨ k.dst % 32 = u.peerId % 32))
              ∧ (if a.ackw || a.op == .cpm then (t.core p).sceS.done = (u.core p).sceS.done else done 0)))

/-- The word of a FAT after it, by AOP (R253, Table 7.2). -/
def fatWord (aop : Nat) (old x y : Word) : Word :=
  match aop with
  | 0 => old + x
  | 1 => if old.toInt < x.toInt then old else x
  | 2 => if old.toInt < x.toInt then x else old
  | 3 => x
  | 4 => if old = x then y else old
  | 5 => if old.toNat < x.toNat then old else x
  | _ => if old.toNat < x.toNat then x else old

/-- What a FAT of core `p` does when it goes on in `u`, to `t` (R253): on a word of this module it replaces the
word, and with RES it stores the old value, and no other byte changes; on a word of a peer it sends one
packet and waits for the answer. -/
def SceAtomic (u : State) (p : Nat) (x : Cmd) (a : SceArgs) (t : State) : Prop :=
  let asid := (u.idsOf p).2
  let dst := (u.core p).sceDest a x
  let ops := u.elems p ((u.core p).sceSource a x)
  let res := (u.core p).sceResult a x
  let va := dst.firstBit / 8
  let done := (u.core p).sceS.counts (t.core p).sceS x 0 0 false
  u.sceStatus p x a = 0 → u.capturing p = false → a.num ≤ 6 → u.accessBad p ((u.core p).sceSource a x) = false →
    u.sceBehind p x (u.sceWords p x a) = false →
    ∀ pre u1, (if a.opt then u.outPages p res.bytesAt else (.all [], u)) = (.all pre, u1) →
      (dst.d.space = 5 → ∀ k, k = { u1.packetFrom p 0x04 false dst.d.peer va (pktTag x.sidx x.pkts) 7 false with
            aop := a.num, opa := ops.getD 0 0, opb := if a.num = 4 then ops.getD 1 0 else 0 } →
        u1.sends p x k false →
        t.fabric.route = u1.fabric.route ++ [{ pkt := k, at' := u.gtc, pool := none }] ∧ SameBytes u1 t
          ∧ (t.core p).sceS.done = (u.core p).sceS.done)
      ∧ ∀ rd u2 ts u3 at' key, dst.d.space ≠ 5 → u1.xlatePages p asid false [] [va / 2 ^ 16] = (.all rd, u2) →
          u2.xlatePages p asid true [va] [va / 2 ^ 16] = (.all ts, u3) → u3.destOf dst.d ts va = .here at' key → key = 0 →
          (∀ l, u3.trust.seals.get none l = none) → u3.isBad at' 8 = false →
          let old : Word := BitVec.ofNat 64 (u3.num at' 8)
          let u4 := u3.writeAt at' (leBytes 8 (fatWord a.num old (BitVec.ofNat 64 (ops.getD 0 0)) (BitVec.ofNat 64 (ops.getD 1 0))).toNat)
          (a.opt = false → done ∧ SameBytes u4 t)
          ∧ ∀ ts' u5 at'', a.opt = true → u4.outPages p res.bytesAt = (.all ts', u5) →
              u5.reaches res.d ts' res.bytesAt at'' → Apart res.d [res.firstBit] at'' →
              done ∧ (∀ i < 8, t.byte (at'' (res.firstBit / 8 + i)) = (leBytes 8 old.toNat).getD i 0)
                ∧ ∀ c, c ∉ res.bytesAt.map at'' → t.byte c = u5.byte c

/-- What an FSIG of core `p` does when it goes on in `u`, to `t` (R254, R255): FSIG.REL waits for all that it
covers; a signal word with reserved bits set is a bounds failure; else one packet carries the signal. -/
def SceSignals (u : State) (p : Nat) (x : Cmd) (a : SceArgs) (t : State) : Prop :=
  let w := (u.elems p ((u.core p).sceSource a x)).headD 0
  let covered := a.opt = false ∨ u.covered p x = true
  u.sceStatus p x a = 0 → u.sceBehind p x (u.sceWords p x a) = false →
    (¬ covered → SameBytes u t ∧ t.fabric.route = u.fabric.route ∧ (t.core p).sceS.done = (u.core p).sceS.done)
    ∧ (covered → u.accessBad p ((u.core p).sceSource a x) = false → bits w 63 54 ≠ 0 →
        (u.core p).sceS.counts (t.core p).sceS x 2 0 false ∧ t.fabric.route = u.fabric.route)
    ∧ (covered → u.accessBad p ((u.core p).sceSource a x) = false → bits w 63 54 = 0 →
        ∀ k, k = { u.packetFrom p 0x06 false (bits w 40 32) (bits w 31 0 * 2 ^ 13 + bits w 49 41 * 2 ^ 4 + bits w 53 50)
              (pktTag x.sidx x.pkts) 0 false with opa := a.num, rel := a.opt } →
          u.sends p x k true →
          Injected u t p x k
          ∧ if a.ackw then (t.core p).sceS.done = (u.core p).sceS.done
            else (u.core p).sceS.counts (t.core p).sceS x 0 0 false)

/-- What a FLUSH or FLUSH.ALL of core `p` does when it goes on in `u`, to `t`, with the lines `ls` of its range in
the fabric cache in state `v` (R256): it stores nothing, completes where none of them is dirty, with INV
without them, and else starts their write-backs and waits. -/
def SceFlushes (u : State) (p : Nat) (x : Cmd) (a : SceArgs) (ls : List Nat) (v t : State) : Prop :=
  let die := p / 32
  SameBytes v t
  ∧ ((∀ l ∈ ls, lineDirty (v.line die l) = 0) → (v.die die).wb = [] →
      (u.core p).sceS.counts (t.core p).sceS x 0 0 false
      ∧ ∀ l ∈ ls, t.line die l = if a.opt then 0 else v.line die l)
  ∧ ((∃ l ∈ ls, lineDirty (v.line die l) ≠ 0) →
      (t.core p).sceS.done = (u.core p).sceS.done ∧ ∃ w ∈ (t.die die).wb, w.for' = some (p, x.sidx))

/-- What a command of the SCE of core `p` does when it goes on in `u`, to `t` (R68, R243, R247, R256). -/
def SceGoesOn (u : State) (p : Nat) (x : Cmd) (a : SceArgs) (t : State) : Prop :=
  (u.cmdWaits p 4 x = true → t = u)
  ∧ (u.cmdWaits p 4 x = false → (u.core p).cut = none → u.unaudited p →
      if a.op.copies then SceCopies u p x a t
      else
        (u.sceStatus p x a ≠ 0 → (u.core p).sceS.counts (t.core p).sceS x (u.sceStatus p x a) 0 false ∧ SameBytes u t)
        ∧ (a.op = .fat → SceAtomic u p x a t)
        ∧ (a.op = .fsig → SceSignals u p x a t)
        ∧ (a.op = .flushAll → u.capturing p = false → SceFlushes u p x a
            (((u.die (p / 32)).cache.filter fun e => e.2 / 2 ^ 512 == (u.idsOf p).2).map Prod.fst) u t)
        ∧ ∀ ls v, a.op = .flush → u.capturing p = false → u.sceStatus p x a = 0 →
            u.flushLines p (u.idsOf p).2 ((u.core p).sceDest a x).bytesAt
              ((((u.core p).sceDest a x).bytesAt.map (· / 2 ^ 16)).eraseDups) = (0, ls, v) →
            SceFlushes u p x a ls v t)

/-! ## The matrix engine (R268, R270) -/

/-- An instruction of the MXE has issued: its own stream's bookkeeping is done, the engine stands at `m` but for
the operation `o`, which is in progress behind the others and completes `lat` ticks on, and nothing has
changed outside the core but the digest cache. -/
structure MxeIssued (s t : State) (h : Hdr) (m : MxeState) (unit occ lat : Nat) (reads writes : List Nat) (leafy : Bool)
    (P : MxeOp → Prop) : Prop where
  issued  : Issued s t h (.tick (s.gtc + lat)) (s.myStream.pc + h.n) 1
  kept    : t.myStream.loops = s.myStream.loops ∧ t.myStream.ended = s.myStream.ended
  forming : t.myStream.form.map (·.sidx) = s.myStream.form.map (·.sidx) ++ if leafy then [s.myStream.sidx] else []
  flight  : ∃ o, t.me.mxeS.flight = m.flight ++ [o] ∧ o.unit = unit ∧ o.sidx = s.myStream.sidx
    ∧ o.free = s.gtc + occ ∧ o.due = s.gtc + lat ∧ o.reads = reads ∧ o.writes = writes ∧ o.foff = s.myStream.pc
    ∧ o.record.isSome = leafy ∧ o.uncorr = false ∧ P o
  engine  : { t.me.mxeS with flight := m.flight, writer := m.writer, yield := m.yield } = m
  rest    : { t with cores := s.cores, dcache := s.dcache } = s
  others  : ∀ q, q ≠ s.cur.core → t.core q = s.core q
  own     : s.issueParts s.me { t.me with mxeS := s.me.mxeS, stalls := s.me.stalls } = s.me

/-- The completion of `o` gives the rows `r0` up to `r0 + n` of tile `an` these elements and exponents, and no
other row of any tile (R267). -/
structure RowsBecome (m : MxeState) (o : MxeOp) (an r0 n : Nat) (el : Nat → Nat → Elem) (ex : Nat → Int) : Prop where
  elems  : ∀ r j, r0 ≤ r → r < r0 + n → j < 128 → (m.puts o.effect).at' an r j = el r j
  exps   : ∀ r, r0 ≤ r → r < r0 + n → (m.puts o.effect).exp an r = ex r
  others : ∀ b r j, r < 128 → j < 128 → (b ≠ an ∨ r < r0 ∨ r0 + n ≤ r) →
    (m.puts o.effect).at' b r j = m.at' b r j ∧ (m.puts o.effect).exp b r = m.exp b r

/-- The completion of `o` stores the codes `vs` at the elements of an access, and no other byte. -/
structure MxeStores (s : State) (a : Access) (vs : List Nat) (o : MxeOp) : Prop where
  codes : Apart a.d a.bitOffs (s.locate s.cur.core a.d) → ∀ (u : State) (i b : Nat), a.bitOffs[i]? = some b →
    elemOfBytes a.d.fmt b ((s.elemAddrs s.cur.core a.d b).map (u.writeNibbles (o.effect.flatMap MxeWrite.stored)).byte)
      = vs.getD i 0 % 2 ^ esize a.d.fmt
  frame : ∀ (u : State) (c : Nat), c ∉ s.addrs s.cur.core a → (u.writeNibbles (o.effect.flatMap MxeWrite.stored)).byte c = u.byte c

/-- What row `r` holds in column `j` of a tile once it has accumulated the blocks `e` and `b` (R50, R275); with no K it
keeps its value (R276). -/
def MxeState.product (m : MxeState) (an : Nat) (e b : Block) (r j : Nat) : Elem :=
  if e.k = 0 then m.at' an r j
  else (accumulate (m.exp an r) (m.at' an r j) ((List.range e.k).map fun k => (e.val r k).mul (b.val j k))).1

/-! ## The vector engine (R299 to R306) -/

/-- The registers `ds` and `rs` are allocated, and those of `rs` and the masks `ms` can be read: no result is
pending for them, or the early read is one that R95 lets read the old values. -/
def State.vreadable (s : State) (ds rs ms : List Nat) : Prop :=
  (∀ r ∈ ds ++ rs, r < (s.hdrOf s.cur.core).valloc)
    ∧ ((rs.any (s.vxe.pending false) || ms.any (s.vxe.pending true)) = false ∨ (s.hdrOf s.cur.core).check = false)

/-- A register holds in its `n` elements of `sz` bits what `g` gives them, and zeros behind; the flags are those
that some element raises. -/
structure Lanes (n sz : Nat) (g : Nat → Nat × Nat) (v : BitVec 4096) (fl : Nat) : Prop where
  value : ∀ i < n, v.toNat / 2 ^ (sz * i) % 2 ^ sz = (g i).1 % 2 ^ sz
  rest  : ∀ j, n * sz ≤ j → v.getLsbD j = false
  flags : ∀ b, fl.testBit b = true ↔ ∃ i < n, (g i).2.testBit b = true

/-- A mask holds in its first `n` bits what `f` gives them, and zeros behind. -/
def MaskBits (n : Nat) (f : Nat → Bool) (v : BitVec 4096) : Prop := ∀ j, v.getLsbD j = (decide (j < n) && f j)

/-- A result of the VXE: value `v` for register `d`, or mask `d`, that lands `lat` ticks on, with its flags in VXST
and, where VXCTL asks for it, a trap on the tick of its completion; no register has changed yet. -/
structure VResult (s t : State) (h : Hdr) (lat : Nat) (mask : Bool) (d : Nat) (P : BitVec 4096 → Nat → Prop) : Prop where
  issued : Issued s t h (.tick (s.gtc + lat)) (s.after h) 1
  kept   : StreamKept s t
  result : ∃ v fl, P v fl
    ∧ t.me.vxeS.pend = s.me.vxeS.pend ++ [{ due := s.gtc + lat, mask := mask, reg := d, value := v }]
    ∧ t.me.vxeS.vxst = s.me.vxeS.vxst ||| BitVec.ofNat 64 (fl % 128)
    ∧ t.me.vxeS.traps = s.me.vxeS.traps ++ if Nat.land fl (s.me.vxeS.vxctl.toNat % 32) = 0 then []
        else [{ due := s.gtc + lat, foff := s.myStream.pc }]
  frame  : OnlyCore s t fun c C => s.enterParts c { C with vxeS := { C.vxeS with
    pend := c.vxeS.pend, vxst := c.vxeS.vxst, traps := c.vxeS.traps } }

/-- A load of the VXE: value `v` for register `d` lands `lat` ticks on; a read that banks, a refresh, arbitration or
the retry of an error delay freezes the engine for `k` ticks, and everything in it that waits for counted ticks moves on by them (R305, R306). -/
structure VLoads (s t : State) (h : Hdr) (lat k d : Nat) (P : BitVec 4096 → Prop) : Prop where
  late   : Late s t h k
  result : ∃ v, P v ∧ t.me.vxeS.pend =
    (s.me.vxeS.pend ++ [({ due := s.gtc + lat, mask := false, reg := d, value := v } : VLanding)]).map
      fun l => { l with due := l.due + k }
  block  : t.me.vxeS.seg.blocks = s.me.vxeS.seg.blocks + 1
  stall  : (t.me.vxeS.v, t.me.vxeS.m, t.me.vxeS.spill, t.me.vxeS.vxst, t.me.vxeS.vxctl)
    = (s.me.vxeS.v, s.me.vxeS.m, s.me.vxeS.spill, s.me.vxeS.vxst, s.me.vxeS.vxctl)
  rest   : { t with cores := s.cores, dcache := s.dcache } = s
  others : ∀ q, q ≠ s.cur.core → t.core q = s.core q
  own    : s.issueParts s.me { t.me with vxeS := s.me.vxeS, stalls := s.me.stalls } = s.me

/-- A store of the VXE: the selected elements, by their bit offsets, hold their codes in memory, no other byte
has changed, and the open segment has closed (R307, R309, R339). -/
structure VStores (s t : State) (h : Hdr) (d : Desc) (es : List (Nat × Nat)) : Prop where
  place  : t.myStream.pc = s.after h ∧ t.myStream.sidx = s.myStream.sidx + 1
  waits  : ∀ q, t.me.count q = s.me.count q - s.taken h q
  loops  : t.myStream.loops = s.myStream.loops ∧ t.myStream.ended = s.myStream.ended
  segment : t.me.vxeS.seg = Segment.empty
  stored : Apart d (es.map Prod.fst) (s.locate s.cur.core d) → ∀ e ∈ es,
    elemOfBytes d.fmt e.1 ((s.elemAddrs s.cur.core d e.1).map t.byte) = e.2 % 2 ^ esize d.fmt
  frame  : ∀ c, c ∉ es.flatMap (fun e => s.elemAddrs s.cur.core d e.1) → t.byte c = s.byte c
  others : ∀ q, q ≠ s.cur.core → t.core q = s.core q

/-! ## Steps of the module's own parties -/

/-- No leaf of the core is in formation, and no give of it waits. -/
def Core.calm (c : Core) : Prop := ∀ e < 5, (c.userStream e).form = [] ∧ (c.userStream e).gives = []

/-- Nothing has changed but the tasks with the keys `ks`. -/
def OnlyTasks (s t : State) (ks : List Nat) : Prop :=
  { t with tasks := s.tasks } = s ∧ ∀ k, k ∉ ks → t.task? k = s.task? k

/-- Nothing has changed but the queues `qs`. -/
def OnlyQueues (s t : State) (qs : List Nat) : Prop :=
  { t with queues := s.queues } = s ∧ ∀ q, q ∉ qs → t.queue q = s.queue q

/-- Nothing has changed but port `q`, what left on the links and what waits for a port; what `back` puts back
into the port makes it the port before the step. -/
structure OnlyPort (s t : State) (q : Nat) (back : Port → Port → Port) : Prop where
  rest   : { t with fabric := { t.fabric with ports := s.fabric.ports, wire := s.fabric.wire, route := s.fabric.route } } = s
  others : ∀ k, k ≠ q → t.fabric.port k = s.fabric.port k
  own    : back (s.fabric.port q) (t.fabric.port q) = s.fabric.port q

/-- A step leaves the links and the route list alone. -/
def LinksQuiet (s t : State) : Prop := t.fabric.wire = s.fabric.wire ∧ t.fabric.route = s.fabric.route

/-- Port `q` has failed and left routing: what it had sent without acknowledgement, and what waited for it, is
routed anew, with no route choice made and no hop taken on the link that failed; the receive pools hold what
they held (R159, R169). -/
structure PortFailed (s t : State) (q : Nat) : Prop where
  state  : (t.fabric.port q).st = 3 ∧ (t.fabric.port q).keyed = false ∧ (t.fabric.port q).queue = []
    ∧ (t.fabric.port q).replay = []
  again  : t.fabric.route = s.fabric.route
    ++ ((((s.fabric.port q).replay.flatMap (·.packets)).map fun k =>
        ({ pkt := { unrouted k with hops := k.hops - 1 }, at' := s.gtc, pool := none } : Held))
      ++ ((s.fabric.port q).queue.filter fun h => h.pool.isNone).map fun h => { h with pkt := unrouted h.pkt })
  pools  : ∀ k,
    let packets (hs : List Held) := hs.map fun h => (routed h.pkt, h.at', h.pool)
    packets (t.fabric.port k).pool = packets (s.fabric.port k).pool
      ∧ packets (t.fabric.port k).siding = packets (s.fabric.port k).siding
  others : ∀ k, k ≠ q →
    { t.fabric.port k with pool := (s.fabric.port k).pool, siding := (s.fabric.port k).siding } = s.fabric.port k
  own    :
    let c := s.fabric.port q
    { t.fabric.port q with
      st := c.st, keyed := c.keyed, replay := c.replay, queue := c.queue, promoted := c.promoted, report := c.report
      time := c.time, pool := c.pool, siding := c.siding } = c
  rest   : { t with fabric := { t.fabric with ports := s.fabric.ports, wire := s.fabric.wire, route := s.fabric.route } } = s

/-- A port that sends its next frame at once, and nothing waits for it: it is live, its key has frames left, and the
switch to the next key has not come (R152, R168, R454). -/
def Port.idle (x : Port) : Prop :=
  x.st = 2 ∧ x.queue = [] ∧ x.keyFrames + 1 < 2 ^ 40 ∧ ∀ c, x.switchAt = some c → x.txFctr < c

/-- A task has left the module with its root logged: its id and its cores are free (R35, R363). -/
structure TaskLeft (s t : State) (id : Nat) (x : Task) : Prop where
  gone   : t.task? id = none
  others : ∀ k, k ≠ id → t.task? k = s.task? k
  cores  : ∀ p, (p ∈ x.cores → (t.core p).task = none) ∧ (p ∉ x.cores → t.core p = s.core p)
  logged : t.regs.rlhead = s.regs.rlhead + 1
    ∧ ∃ r, t.trust.records = s.trust.records ++ [r] ∧ r.take 16 = logHead 1 (id % 2 ^ 32) s.regs.rlhead

/-- The root of task `id` can be logged at once: the root log has room, no audit record is to be written, and the
task is no capture run. -/
def State.loggable (s : State) (id : Nat) (x : Task) : Prop :=
  s.logFull = false ∧ x.audit? = none ∧ x.audWait = [] ∧ ∀ c ∈ s.taster.captures, c.task ≠ id

/-- No line of memory is sealed under a key. -/
def State.plain (s : State) : Prop := ∀ l, s.trust.seals.get none l = none

/-- Where queue `q` has its completion word, and its next status record (R394, R395). -/
def State.wordAt (s : State) (q : Nat) : Nat := s.fedAt (s.queue q).entry.cwa
def State.recordAt (s : State) (q : Nat) : Nat :=
  s.fedAt (s.queue q).entry.stb + 32 * ((s.queue q).statN % 2 ^ (s.queue q).entry.slog)

/-- No packet of a queue waits for the root log or for room to complete, and no queue is being disabled. -/
def State.restful (s : State) : Prop :=
  ∀ q, (s.queue q).seals = [] ∧ (∀ o ∈ (s.queue q).opens, o.left ≠ 0) ∧ (s.queue q).disabling = false

/-- Two ranges of memory lie apart. -/
def clear2 (a m b n : Nat) : Prop := a + m ≤ b ∨ b + n ≤ a

/-- Queue `q` has one packet open, `n`, with one part left and no flag, and the root log has room. -/
def State.lone (s : State) (q n : Nat) : Prop :=
  (s.queue q).opens = [{ seq := n, irq := false, stop := false, left := 1, worst := [] }] ∧ n < (s.queue q).pseq
    ∧ s.logFull = false
    ∧ (s.queue q).pseq ≤ 2 ^ 64 ∧ (s.queue q).disabling = false ∧ s.plain

/-- The one packet open in queue `q` has completed with OK: its completion word says so (R394). -/
def Completed (s t : State) (q : Nat) : Prop :=
  (t.queue q).opens = [] ∧ t.num (s.wordAt q) 8 = (s.queue q).pseq - 1 ∧ (t.queue q).statN = (s.queue q).statN

/-- Queue `h.q` has no packet open, is not being disabled, its records lie apart, and the root log has room; `h` is
no spawned packet. -/
def State.lonely (s : State) (h : PktHdr) : Prop :=
  h.spawned = false ∧ s.logFull = false ∧ (s.queue h.q).opens = [] ∧ (s.queue h.q).disabling = false ∧ (s.queue h.q).pseq + 1 < 2 ^ 64
    ∧ s.plain ∧ clear2 (s.recordAt h.q) 32 (s.wordAt h.q) 8

/-- The packet `h` of a ring has been accepted: the head has passed it, it has the next sequence number, and it
is open with `parts` parts (R392, R394). -/
structure Accepted (s t : State) (h : PktHdr) (parts : Nat) : Prop where
  seq   : (t.queue h.q).pseq = (s.queue h.q).pseq + 1
  head  : (t.queue h.q).head = ((s.queue h.q).head + h.len) % 2 ^ 32
  ring  : (t.queue h.q).ringSeq = ((s.queue h.q).ringSeq + 1) % 2 ^ 24
  opens : (t.queue h.q).opens = (s.queue h.q).opens
    ++ [{ seq := (s.queue h.q).pseq, irq := h.irq, stop := h.stopOnError, left := parts, worst := [] }]

/-- The packet `h` has been taken and completed with `v`, the one packet of its queue: its completion word
names it, a status other than OK has a record, and stops the queue where the packet asks for it (R393 to R396). -/
structure Settled (s t : State) (h : PktHdr) (v : Verdict) : Prop where
  taken  : (t.queue h.q).pseq = (s.queue h.q).pseq + 1 ∧ (t.queue h.q).head = ((s.queue h.q).head + h.len) % 2 ^ 32
    ∧ (t.queue h.q).opens = []
  word   : t.num (s.wordAt h.q) 8 = (s.queue h.q).pseq
  record : if v.status = 0 then (t.queue h.q).statN = (s.queue h.q).statN
    else (t.queue h.q).statN = (s.queue h.q).statN + 1 ∧ t.num (s.recordAt h.q) 8 = (s.queue h.q).pseq
      ∧ t.num (s.recordAt h.q + 8) 8 = (v.status + v.tag * 2 ^ 16 + v.detail % 2 ^ 32 * 2 ^ 32) % 2 ^ 64
  stops  : (t.queue h.q).err = (decide (v.status ≠ 0) && h.stopOnError)

end Machine
end Sys2Proof
end

