-- ==== Sys2Proof/Certificates/Slice0/Obligations.lean ====
section
/-!
DEFINITION. The statements for the provers: what the instructions and the other steps of the part do, each
with its frame, the invariants that every step keeps, and the encodings. An instruction's own effect stands
under the conditions on which it issues (`State.mayIssue`).
-/

open Sys2Proof Sys2Proof.Machine

/-! ## The scalar control unit -/

/-- R182 and R183: the register operations of Table 8.6 push their results and change nothing else; DIV and
REM set DZ with a zero divisor. F = 1 is an illegal encoding where the table reserves it. -/
def Obligations.RegisterOperations : Prop :=
  (∀ (s : State) (h : Hdr) (d a b : Nat) (u : Bool), s.cur.eng = .scu → s.mayIssue h → s.readable [a, b] →
    let x := s.operand a
    let y := s.operand b
    let n := y.toNat % 64
    let sets (t : State) : Prop := t.me.dz = (s.me.dz || y == 0)
    let divides (i : Instr) (v : Word) : Prop :=
      Answers i s fun t => ComputesAnd s t h d 14 v (fun c C => { C with dz := c.dz }) ∧ sets t
    Answers (.add h d a b) s (Computes s · h d 1 (x + y))
    ∧ Answers (.sub h d a b) s (Computes s · h d 1 (x - y))
    ∧ Answers (.andReg h d a b) s (Computes s · h d 1 (x &&& y))
    ∧ Answers (.orReg h d a b) s (Computes s · h d 1 (x ||| y))
    ∧ Answers (.xorReg h d a b) s (Computes s · h d 1 (x ^^^ y))
    ∧ Answers (.andn h d a b) s (Computes s · h d 1 (x &&& ~~~y))
    ∧ Answers (.shl h d a b) s (Computes s · h d 1 (x <<< n))
    ∧ Answers (.shr h d a b) s (Computes s · h d 1 (x >>> n))
    ∧ Answers (.sra h d a b) s (Computes s · h d 1 (x.sshiftRight n))
    ∧ Answers (.mul h d a b) s (Computes s · h d 3 (BitVec.ofNat 64 (x.toNat * y.toNat % 2 ^ 64)))
    ∧ Answers (.mulh h d a b u) s (Computes s · h d 3
        (if u then BitVec.ofNat 64 (x.toNat * y.toNat / 2 ^ 64) else BitVec.ofInt 64 (x.toInt * y.toInt / 2 ^ 64)))
    ∧ divides (.div h d a b u) (if y = 0 then -1 else if u then x / y else x.sdiv y)
    ∧ divides (.rem h d a b u) (if y = 0 then x else if u then x % y else x.srem y)
    ∧ Answers (.minReg h d a b u) s (Computes s · h d 1
        (if u then (if x < y then x else y) else if x.slt y then x else y))
    ∧ Answers (.maxReg h d a b u) s (Computes s · h d 1
        (if u then (if x < y then y else x) else if x.slt y then y else x)))
  ∧ ∀ ws : List Nat, 0x10 ≤ bits (ws.getD 0 0) 25 20 → bits (ws.getD 0 0) 25 20 ≤ 0x19 → bit (ws.getD 0 0) 0 = true →
      ∃ e, decode .scu ws = .error e

/-- R184 and R185: CMP, SEL, CLZ and POPC. -/
def Obligations.ComparesAndCounts : Prop :=
  ∀ (s : State) (h : Hdr) (d a b c : Nat), s.cur.eng = .scu → s.mayIssue h → s.readable [a, b, c] →
    let x := s.operand a
    let y := s.operand b
    (∀ k, ∃ v, Answers (.cmp h d a b k) s (Computes s · h d 1 v) ∧ (Cond k x y → v = 1) ∧ (¬ Cond k x y → v = 0))
    ∧ (∀ k imm, ∃ v, Answers (.cmpi h d a k imm) s (Computes s · h d 1 v)
        ∧ (Cond k x (BitVec.ofInt 64 (sext 28 imm)) → v = 1) ∧ (¬ Cond k x (BitVec.ofInt 64 (sext 28 imm)) → v = 0))
    ∧ Answers (.sel h d a b c) s (Computes s · h d 1 (if s.operand c ≠ 0 then x else y))
    ∧ Answers (.clz h d a false) s (Computes s · h d 1 x.clz)
    ∧ Answers (.clz h d a true) s (Computes s · h d 1 (x.reverse).clz)
    ∧ Answers (.popc h d a) s (Computes s · h d 1 (BitVec.ofNat 64 ((List.range 64).countP fun i => x.getLsbD i)))

/-- R186 and R187: the immediate forms, with a sign-extended immediate, the shifts by a constant, and LI. -/
def Obligations.ImmediateOperations : Prop :=
  ∀ (s : State) (h : Hdr) (d a imm : Nat), s.cur.eng = .scu → s.mayIssue h → s.readable [a] → imm < 2 ^ 28 →
    let x := s.operand a
    let y : Word := (BitVec.ofNat 28 imm).signExtend 64
    Answers (.addi h d a imm) s (Computes s · h d 1 (x + y))
    ∧ Answers (.andi h d a imm) s (Computes s · h d 1 (x &&& y))
    ∧ Answers (.ori h d a imm) s (Computes s · h d 1 (x ||| y))
    ∧ Answers (.xori h d a imm) s (Computes s · h d 1 (x ^^^ y))
    ∧ (∀ cnt, Answers (.shi h d a 0 cnt) s (Computes s · h d 1 (x <<< cnt))
      ∧ Answers (.shi h d a 1 cnt) s (Computes s · h d 1 (x >>> cnt))
      ∧ Answers (.shi h d a 2 cnt) s (Computes s · h d 1 (x.sshiftRight cnt)))
    ∧ (h.n = 2 → Answers (.li h d imm) s (Computes s · h d 1 y))
    ∧ ∀ v, h.n = 3 → Answers (.li h d v) s (Computes s · h d 1 ((BitVec.ofNat 56 v).signExtend 64))

/-- R171 to R173: a result that is pushed and lands, with no other result pending, is b0, every older entry has
risen by one number, and the named register of its destination holds it while the others stand. -/
def Obligations.BeltAndNamedRegisters : Prop :=
  ∀ (x : ScuCtx) (d now lat : Nat) (v : Word), x.head < 16 → x.pend = [] → d < 32 →
    (∀ r, x.seqs.get 0 r ≤ x.seq) →
    let y := (x.push d (now + lat) v).land (now + lat)
    y.operand 0 = v ∧ (∀ k < 15, y.operand (k + 1) = x.operand k)
      ∧ (∀ r < 16, y.operand (16 + r) = if d = 16 + r then v else x.operand (16 + r))

/-- R95 and R181: with CHECK set, an instruction of the user context that reads a register whose result is
pending raises the stall-undersized engine fault at its word, and has no other effect. -/
def Obligations.EarlyReadFaults : Prop :=
  ∀ (s : State) (h : Hdr) (d a b : Nat), s.cur.eng = .scu → s.cur.fw = false → s.mayIssue h →
    [a, b].any s.scu.pending = true → (s.hdrOf s.cur.core).check = true →
    ∀ i ∈ [Instr.add h d a b, .sub h d a b, .andReg h d a b, .orReg h d a b, .xorReg h d a b, .andn h d a b,
        .shl h d a b, .shr h d a b, .sra h d a b, .mul h d a b, .minReg h d a b false, .maxReg h d a b true,
        .div h d a b false, .rem h d a b true, .br h 0 a b 0],
      exec i s = .next (s.atDone.engineFault s.cur.core 0 2 0 0 s.myStream.pc)

/-- R188 and R104: BR, J and RET. A taken branch makes its target issue no earlier than max(STL, 3) ticks on
and leaves the loop levels whose bodies do not hold the target; one that is not taken goes on behind itself. -/
def Obligations.Branches : Prop :=
  ∀ (s : State) (h : Hdr) (a b off : Nat), s.cur.eng = .scu → s.mayIssue h → s.readable [a, b] →
    s.myStream.pc < 2 ^ 32 → off < 2 ^ 28 →
    let x := s.operand a
    let y := s.operand b
    let goes (t : State) (p : Nat) : Prop := Goes s t h p 3 (levelsAt p s.myStream.loops) s.issueParts
    (∀ k, (Cond k x y → Answers (.br h k a b off) s fun t => ∃ p, Reaches s.myStream.pc off p ∧ goes t p)
      ∧ (¬ Cond k x y → Answers (.br h k a b off) s fun t => Goes s t h (s.myStream.pc + h.n) 1 s.myStream.loops s.issueParts))
    ∧ Answers (.jump h off) s (fun t => ∃ p, Reaches s.myStream.pc off p ∧ goes t p)
    ∧ Answers (.jumpReg h a) s (goes · x.toNat)
    ∧ Answers (.ret h a) s (goes · x.toNat)

/-- R188 and R104: CALL pushes the offset of the word after itself and neither pushes nor pops a loop level. -/
def Obligations.Calls : Prop :=
  ∀ (s : State) (h : Hdr) (d a off : Nat), s.cur.eng = .scu → s.mayIssue h → s.readable [a] →
    s.myStream.pc < 2 ^ 32 → off < 2 ^ 28 →
    let calls (t : State) (p : Nat) : Prop :=
      Issued s t h (.tick (s.gtc + 1)) p 3 ∧ StreamKept s t
        ∧ Pushed s t d 1 (BitVec.ofNat 64 (s.myStream.pc + h.n)) ∧ OnlyCore s t s.scuParts
    Answers (.call h d off) s (fun t => ∃ p, Reaches s.myStream.pc off p ∧ calls t p)
    ∧ Answers (.callReg h d a) s (calls · (s.operand a).toNat)

/-- R194 and R195: GETC and GTC push, SETC writes, and the numbers from 16 up are privileged (R176). -/
def Obligations.ControlRegisters : Prop :=
  ∀ (s : State) (h : Hdr) (d a b : Nat), s.cur.eng = .scu → s.mayIssue h → s.readable [a, b] →
    let v := s.operand b
    let pushes (n : Nat) (x : Word) : Prop := Answers (.getc h d n) s (Computes s · h d 1 x)
    let writes (n : Nat) (back : Core → Core → Core) (P : State → Prop) : Prop :=
      Answers (.setc h n b) s fun t => Goes s t h (s.myStream.pc + h.n) 1 s.myStream.loops back ∧ P t
    Answers (.gtc h d) s (Computes s · h d 1 (BitVec.ofNat 64 s.myView))
    ∧ pushes 0 (BitVec.ofNat 64 (2 * b2n s.me.yreq + b2n s.me.dz))
    ∧ pushes 1 (BitVec.ofNat 64 (2 ^ 32 * s.peerId + 2 ^ 16 * ((s.taskOf s.cur.core).map Task.n).getD 0 + s.me.vcore))
    ∧ pushes 3 s.me.dgstall
    ∧ pushes 4 (BitVec.ofNat 64 (s.me.shown 0 + 2 ^ 6 * s.me.shown 1 + 2 ^ 12 * s.me.shown 8 + 2 ^ 18 * s.me.shown 9))
    ∧ writes 0 (fun c C => s.issueParts c { C with dz := c.dz }) (fun t => t.me.dz = v.getLsbD 0)
    ∧ (s.cur.fw = true → pushes 16 (BitVec.ofNat 64 s.me.fwvec) ∧ pushes 18 s.mth
        ∧ pushes 19 (BitVec.ofNat 64 s.me.fwq.length)
        ∧ writes 16 (fun c C => s.issueParts c { C with fwvec := c.fwvec }) (fun t => t.me.fwvec = v.toNat % 2 ^ 14))
    ∧ (s.cur.fw = false → ∀ n, 16 ≤ n →
        exec (.getc h d n) s = .next (s.engineFault s.cur.core 0 6 0 0 s.myStream.pc)
        ∧ exec (.setc h n b) s = .next (s.engineFault s.cur.core 0 6 0 0 s.myStream.pc))

/-- R196: a WAITT whose target the view reaches by the next tick completes; a WAITT whose target lies further
ahead holds issue, and keeps its target. -/
def Obligations.Waitt : Prop :=
  ∀ (s : State) (h : Hdr) (a : Nat) (rel : Bool), s.cur.eng = .scu → s.mayIssue h → s.readable [a] →
    s.myStream.hold = .none →
    let target := if rel then (s.myView + (s.operand a).toNat) % 2 ^ 64 else (s.operand a).toNat
    (target ≤ s.myView + 1 → Answers (.waitt h a rel) s fun t =>
      Goes s t h (s.myStream.pc + h.n) 1 s.myStream.loops s.issueParts)
    ∧ (s.myView + 1 < target → Answers (.waitt h a rel) s fun t =>
        Holds s t ∧ t.myStream.hold = .waitt target)

/-- R206 to R208: TRAP raises its engine fault; YIELD without a request, or with a live accumulator tile,
takes one tick, and with a request stops its core 16 ticks on; RETF ends the handling of an event, and the
next event that waits is started with its record in s0 to s3 and the belt clear. -/
def Obligations.TrapYieldRetf : Prop :=
  ∀ (s : State) (h : Hdr), s.cur.eng = .scu → s.mayIssue h →
    (s.cur.fw = false →
      (∀ code, exec (.trap h code) s = .next (s.atDone.engineFault s.cur.core 0 9 0 code s.myStream.pc))
      ∧ (∀ f, exec (.retf h f) s = .next (s.engineFault s.cur.core 0 6 0 0 s.myStream.pc))
      ∧ (s.me.yreq = false ∨ s.me.mxeS.live ≠ 0 → Answers (.yield h) s fun t =>
          Goes s t h (s.myStream.pc + h.n) 1 s.myStream.loops s.issueParts)
      ∧ (s.me.yreq = true → s.me.mxeS.live = 0 → s.me.cutAt = none → Answers (.yield h) s fun t =>
          Goes s t h (s.myStream.pc + h.n) 17 s.myStream.loops (fun c C => s.issueParts c
            { C with cutAt := c.cutAt, cutBy := c.cutBy })
          ∧ t.me.cutAt = some (s.gtc + 16)))
    ∧ (s.cur.fw = true →
      (Answers (.yield h) s fun t => Goes s t h (s.myStream.pc + h.n) 1 s.myStream.loops s.issueParts)
      ∧ ∀ f, f = false ∨ s.me.halted = false →
        Answers (.retf h f) s fun t =>
          (s.me.fwq = [] → t.me.fwBusy = false ∧ t.me.fws = s.me.fws)
          ∧ (∀ ev q, s.me.fwq = ev :: q → t.me.fwBusy = true ∧ t.me.fws.pc = s.me.fwvec
              ∧ t.me.fwq = q ++ s.me.fwWait.take 1 ∧ (∀ k < 16, t.me.fw.operand k = 0)
              ∧ t.me.fw.operand 16 = BitVec.ofNat 64 ev.kind ∧ t.me.fw.operand 17 = ev.s1
              ∧ t.me.fw.operand 18 = ev.s2 ∧ t.me.fw.operand 19 = ev.s3
              ∧ ∀ r, 20 ≤ r → r < 32 → t.me.fw.operand r = s.me.fw.operand r)
          ∧ OnlyCore s t fun c C => { C with fw := c.fw, fws := c.fws, fwBusy := c.fwBusy, fwq := c.fwq
                                             fwWait := c.fwWait, fwSlot := c.fwSlot })

/-- R190: LD reads its bytes, in little-endian order, and pushes them; LD.Q pushes twice. A read that a
refresh of its Cellar bank, arbitration or the retry of an error delays freezes the context until the data
arrives (R180). A load waits for the releasing stores before it that have not been performed (R193). -/
def Obligations.Loads : Prop :=
  ∀ (s : State) (h : Hdr) (d a : Nat) (f : Bool) (m : MemWord), s.cur.eng = .scu → s.mayIssue h →
    s.readable [a] → (m.sel = 2 → s.cur.fw = true) →
    let o := (s.operand a + BitVec.ofNat 64 m.off).toNat
    let due (lat : Nat) := s.gtc + lat
    let pushed (lat : Nat) (bs : List Byte) : ScuCtx :=
      match m.kind with
      | 0 => s.scu.push d (due lat) (if f then (BitVec.ofNat 32 (leNat bs)).signExtend 64 else BitVec.ofNat 64 (leNat bs))
      | 1 => s.scu.push d (due lat) (BitVec.ofNat 64 (leNat bs))
      | _ => (s.scu.push (if d = 0 then 0 else d + 1) (due lat) (BitVec.ofNat 64 (leNat (bs.drop 8)))).push d (due lat)
          (BitVec.ofNat 64 (leNat (bs.take 8)))
    let loads (t : State) (lat wait : Nat) (bs : List Byte) : Prop :=
      t.scu = (pushed lat bs).delay wait ∧ Late s t h wait ∧ t.me.stalls.get 0 0 = 0
        ∧ OnlyCore s t fun c C => s.scuParts c { C with stalls := c.stalls }
    (∀ as lat, s.ldPlace m o (4 * 2 ^ m.kind) = .mem as lat → s.anyBad as = false →
      (s.storeWaits = false → Answers (.ld h d a f m) s (loads · lat (s.readWait as) (as.map s.byte)))
      ∧ (s.storeWaits = true → Answers (.ld h d a f m) s (Holds s)))
    ∧ (∀ k, s.ldPlace m o (4 * 2 ^ m.kind) = .arg k → Answers (.ld h d a f m) s
        (loads · 4 (s.readWait []) ((List.range (4 * 2 ^ m.kind)).map fun i =>
          (((s.taskOf s.cur.core).map Task.args).getD []).getD (k + i) 0)))
    ∧ (s.cur.fw = false → s.ldPlace m o (4 * 2 ^ m.kind) = .bad →
        exec (.ld h d a f m) s = .next (s.atDone.engineFault s.cur.core 0 4 0 0 s.myStream.pc))

/-- R191 and R193: ST writes its bytes and no others, and pushes nothing. A release at POD scope whose covered
set has not been acknowledged leaves its store to wait in the write queue, and a store behind it waits for
it. -/
def Obligations.ScalarStores : Prop :=
  ∀ (s : State) (h : Hdr) (a b : Nat) (m : MemWord) (as : List Nat) (lat : Nat), s.cur.eng = .scu → s.mayIssue h →
    s.readable (a :: if m.kind = 2 then [b, b + 1] else [b]) → (m.sel = 2 → s.cur.fw = true) → m.kind < 3 →
    s.stPlace m (s.operand a + BitVec.ofNat 64 m.off).toNat (4 * 2 ^ m.kind) = .mem as lat →
    let data := match m.kind with
      | 0 => leBytes 4 (s.operand b).toNat
      | 1 => leBytes 8 (s.operand b).toNat
      | _ => leBytes 8 (s.operand b).toNat ++ leBytes 8 (s.operand (b + 1)).toNat
    (s.storeWaits = false → s.releaseWaits h m.ord m.scope = false → Answers (.st h a b m) s fun t =>
      Issued s t h (.tick (s.gtc + lat)) (s.myStream.pc + h.n) 1 ∧ StreamKept s t ∧ t.scu = s.scu
        ∧ Stores s t as data s.issueParts)
    ∧ (s.storeWaits = false → s.releaseWaits h m.ord m.scope = true → Answers (.st h a b m) s fun t =>
        Issued s t h (.command s.myStream.sidx) (s.myStream.pc + h.n) 1 ∧ StreamKept s t
        ∧ t.me.stores = s.me.stores
          ++ [{ sidx := s.myStream.sidx, cells := as.zip data, scope := m.scope, clk := s.covers h }]
        ∧ OnlyCore s t fun c C => s.issueParts c { C with stores := c.stores })
    ∧ (s.storeWaits = true → Answers (.st h a b m) s (Holds s))

/-- R192: ATM writes the new value of its word and pushes the old one. It waits for the releasing stores before
it, and as a release at POD scope for what it covers (R193). -/
def Obligations.Atomics : Prop :=
  ∀ (s : State) (h : Hdr) (d a b z : Nat) (u : Bool) (m : MemWord) (as : List Nat) (lat : Nat), s.cur.eng = .scu →
    s.mayIssue h → s.readable (a :: b :: if m.kind = 4 then [z] else []) → (m.sel = 2 → s.cur.fw = true) →
    m.kind < 5 →
    s.atmPlace m (s.operand a + BitVec.ofNat 64 m.off).toNat = .mem as lat → s.anyBad as = false →
    let old : Word := BitVec.ofNat 64 (leNat (as.map s.byte))
    let y := s.operand b
    let new : Word := match m.kind with
      | 0 => old + y
      | 1 => if u then (if old < y then old else y) else if old.slt y then old else y
      | 2 => if u then (if old < y then y else old) else if old.slt y then y else old
      | 3 => y
      | _ => if old = s.operand z then y else old
    let waits : Prop := s.storeWaits = true ∨ s.releaseWaits h m.ord m.scope = true
    (¬ waits → Answers (.atm h d a b u m z) s fun t =>
      Late s t h (s.readWait []) ∧ t.scu = (s.scu.push d (s.gtc + lat) old).delay (s.readWait [])
        ∧ Stores s t as (leBytes 8 new.toNat) fun c C => s.scuParts c { C with stalls := c.stalls })
    ∧ (waits → Answers (.atm h d a b u m z) s (Holds s))

/-- R189: outside the bounds, or without the rights, an access of the user context faults and nothing is
accessed; an access to the firmware RAM is privileged (R176). -/
def Obligations.ScalarAccessFaults : Prop :=
  ∀ (s : State) (h : Hdr) (d a b : Nat) (m : MemWord), s.cur.eng = .scu → s.cur.fw = false → s.mayIssue h →
    s.readable [a, b, b + 1] →
    let o := (s.operand a + BitVec.ofNat 64 m.off).toNat
    (m.sel = 2 → ∀ i ∈ [Instr.ld h d a false m, .st h a b m, .atm h d a b false m 0],
      exec i s = .next (s.engineFault s.cur.core 0 6 0 0 s.myStream.pc))
    ∧ (m.sel = 1 → exec (.st h a b m) s = .next (s.atDone.engineFault s.cur.core 0 4 0 0 s.myStream.pc))
    ∧ (m.sel = 0 → (s.me.desc m.tid).span < o + 4 * 2 ^ m.kind →
        exec (.ld h d a false m) s = .next (s.atDone.engineFault s.cur.core 0 4 0 0 s.myStream.pc)
        ∧ exec (.st h a b m) s = .next (s.atDone.engineFault s.cur.core 0 4 0 0 s.myStream.pc))
    ∧ (m.sel = 0 → m.kind < 4 → ((s.me.desc m.tid).base + o) % 8 ≠ 0 →
        exec (.atm h d a b false m 0) s = .next (s.atDone.engineFault s.cur.core 0 4 0 0 s.myStream.pc))

/-- R202 and R407: SPAWN hands the front end the packet it finds, and pushes the sequence number that the
packet takes; a malformed header or a type not permitted pushes a negative status and hands over nothing.
What it turns away before (LEN 0 or above 512) follows log entry 60. -/
def Obligations.Spawn : Prop :=
  ∀ (s : State) (h : Hdr) (d a tid : Nat), s.cur.eng = .scu → s.mayIssue h → s.readable [a] →
    (s.shadowOf s.cur.core).isSome = false → s.capturing s.cur.core = false →
    (∀ k, s.spawnAt tid (s.operand a).toNat = .turned k →
      Answers (.spawn h d a tid) s (Computes s · h d 1 (BitVec.ofInt 64 k)))
    ∧ (∀ raw task, s.spawnAt tid (s.operand a).toNat = .pkt raw → s.taskOf s.cur.core = some task →
        task.spec = none → (s.queue task.queue).spawn.length < 8 →
        let q := task.queue
        let seq := (s.queue q).pseq
        Answers (.spawn h d a tid) s fun t =>
          Issued s t h (.tick (s.gtc + 1)) (s.myStream.pc + h.n) 1 ∧ StreamKept s t
            ∧ Pushed s t d 1 (BitVec.ofNat 64 seq)
            ∧ (t.queue q).spawn = (s.queue q).spawn ++ [raw] ∧ (t.queue q).pseq = seq + 1
            ∧ (t.queue q).opens.map (·.seq) = (s.queue q).opens.map (·.seq) ++ [seq]
            ∧ (∀ r, r ≠ q → t.queue r = s.queue r) ∧ SameBytes s t
            ∧ { t with cores := s.cores, queues := s.queues } = s)

/-- R203 and R406: NOTIFY writes one 32-byte record at its place in the notification ring of the queue that
launched the task, and no other byte; it holds while the ring is full. -/
def Obligations.Notify : Prop :=
  ∀ (s : State) (h : Hdr) (b code : Nat) (task : Task), s.cur.eng = .scu → s.mayIssue h → s.readable [b] →
    s.taskOf s.cur.core = some task → task.spec = none → s.capturing s.cur.core = false →
    let q := task.queue
    let x := s.queue q
    let place := s.fedAt x.entry.nrb + 32 * (x.notN % 2 ^ x.entry.nlog)
    let record := leBytes 2 code ++ leBytes 2 s.me.vcore ++ leBytes 4 (s.me.task.getD 0) ++ leBytes 8 (s.operand b).toNat
      ++ leBytes 8 s.gtc ++ leBytes 8 ((x.notN + 1) % 2 ^ 32)
    ((x.notN % 2 ^ 32 + 2 ^ 32 - x.nack % 2 ^ 32) % 2 ^ 32 ≠ 2 ^ x.entry.nlog → code < 2 ^ 16 → s.me.vcore < 2 ^ 16 →
      Answers (.notify h b code) s fun t =>
        Issued s t h (.tick s.gtc) (s.myStream.pc + h.n) 1 ∧ StreamKept s t ∧ t.scu = s.scu
          ∧ (∀ i < 32, t.byte (place + i) = record.getD i 0) ∧ (t.queue q).notN = x.notN + 1
          ∧ ((∀ l, s.trust.seals.get none l = none) →
              ∀ c, c < place ∨ place + 32 ≤ c → t.byte c = s.byte c))
    ∧ ((x.notN % 2 ^ 32 + 2 ^ 32 - x.nack % 2 ^ 32) % 2 ^ 32 = 2 ^ x.entry.nlog →
      Answers (.notify h b code) s (Holds s))

/-- R204 and R361: DGLEAF forms an EXPLICIT leaf over the bytes. With no leaf of the stream in formation and
no audit ring it is appended at once, and no byte of memory changes. It waits for the releasing stores before
it (R193). -/
def Obligations.ExplicitLeaf : Prop :=
  ∀ (s : State) (h : Hdr) (a b tag tid : Nat) (as : List Nat) (lat : Nat), s.cur.eng = .scu → s.cur.fw = false →
    s.mayIssue h → s.readable [a, b] → 1 ≤ (s.operand b).toNat → (s.operand b).toNat ≤ 2 ^ 20 →
    s.scuTensor tid (s.operand a).toNat (s.operand b).toNat true false (1, 1, 1) = .mem as lat →
    s.anyBad as = false → s.refreshing as = false → s.myStream.form.length < 16 →
    let body : LeafBody := { kind := 8, nmode := 0, opd0 := some (imageDigest 0x01 (as.map s.byte)), opd1 := none
                             opd2 := none, res := none, extra := tag }
    let leaf := leafDigest (leafRecord 0 s.me.vcore s.myStream.sidx s.cur.words body)
    (s.storeWaits = true → Answers (.dgleaf h a b tag tid) s (Holds s))
    ∧ (s.storeWaits = false → Answers (.dgleaf h a b tag tid) s fun t =>
      Issued s t h (.tick (s.gtc + 1)) (s.myStream.pc + h.n) 1 ∧ t.scu = s.scu
        ∧ t.myStream.loops = s.myStream.loops ∧ t.myStream.ended = s.myStream.ended
        ∧ (s.myStream.form = [] → (s.taskOf s.cur.core).bind Task.audit? = none →
            t.myStream.form = [] ∧ t.myStream.range = (s.myStream.range.append leaf).1
              ∧ t.myStream.past = s.myStream.past ++ [(s.myStream.sidx, leaf)]
              ∧ { t with cores := s.cores, taster := s.taster } = s ∧ ∀ q, q ≠ s.cur.core → t.core q = s.core q))

/-- R205, R362 and R363: DGSEAL appends one 128-byte record to the root log and pushes its sequence number;
it writes no byte outside the record. A DGSEAL that waits marks the tick for DGSTALL (R365). -/
def Obligations.InterimRoot : Prop :=
  ∀ (s : State) (h : Hdr) (d : Nat), s.cur.eng = .scu → s.cur.fw = false → s.mayIssue h →
    (s.shadowOf s.cur.core).isSome = false → s.capturing s.cur.core = false →
    let covered := s.sealed h
    let place := hostBase + s.regs.rlb + 128 * (s.regs.rlhead % 2 ^ s.regs.rln)
    (s.me.leavesDone covered = true → s.logFull = false → Answers (.dgseal h d) s fun t =>
      Issued s t h (.tick (s.gtc + 1)) (s.myStream.pc + h.n) 1 ∧ StreamKept s t
        ∧ Pushed s t d 1 (BitVec.ofNat 64 s.regs.rlhead) ∧ t.regs.rlhead = s.regs.rlhead + 1
        ∧ t.byte place = 2 ∧ t.num (place + 4) 4 = s.me.task.getD 0 % 2 ^ 32
        ∧ t.num (place + 8) 8 = s.regs.rlhead % 2 ^ 64
        ∧ t.num (place + 0x20) 32 = (sealRoot (s.me.task.getD 0) s.me.vcore
            ((List.range 5).map fun e => ((s.me.userStream e).prefixRange (covered.getD e 0)).root)).toNat
        ∧ (∀ c, c < place ∨ place + 128 ≤ c → t.byte c = s.byte c) ∧ t.tasks = s.tasks ∧ t.queues = s.queues)
    ∧ (s.me.leavesDone covered = false ∨ s.logFull = true → Answers (.dgseal h d) s fun t =>
        HoldsAnd s t (fun c C => { C with sealWait := c.sealWait }) ∧ t.me.sealWait = true)

/-- R197, R198 and R77: a BAR that meets no other core takes one tick; else BAR and BARRED arrive, BARRED with
its contribution, and hold issue. An arrival waits for the releasing stores before it, and at POD scope for
the acknowledgements of its covered set; on EM-3216-S POD acts as MOD (R14). A BARRED of a core without a
task is its own reduction. Both contexts of the SCU. -/
def Obligations.BarrierArrivals : Prop :=
  ∀ (s : State) (h : Hdr) (d a rop scope : Nat), s.cur.eng = .scu → s.mayIssue h →
    s.readable [a] → s.myStream.hold = .none → (s.shadowOf s.cur.core).isSome = false →
    s.capturing s.cur.core = false →
    let waits : Prop := s.storeWaits = true ∨ (s.scopeHere scope = 4 ∧ s.acked h = false)
    let stays (t : State) : Prop := Holds s t ∧ t.myStream.hold = .none
    let arrives (t : State) (r : Option Nat) (v : Word) (dst : Nat) : Prop :=
      Holds s t ∧ ∃ b : BarHold, t.myStream.hold = .bar b ∧ b.scope = scope ∧ b.rop = r ∧ b.contrib = v ∧ b.dst = dst
        ∧ b.hdr = h
    (s.alone scope = true → Answers (.bar h scope) s fun t =>
      Goes s t h (s.myStream.pc + h.n) 1 s.myStream.loops s.issueParts)
    ∧ (s.alone scope = false → (waits → Answers (.bar h scope) s stays)
        ∧ (¬ waits → Answers (.bar h scope) s fun t => arrives t none 0 0))
    ∧ ((s.taskOf s.cur.core).isSome = true → s.myStream.form.length < 16 →
        (waits → Answers (.barred h d a rop scope) s stays)
        ∧ (¬ waits → Answers (.barred h d a rop scope) s fun t => arrives t (some rop) (s.operand a) d))
    ∧ (s.taskOf s.cur.core = none → Answers (.barred h d a rop scope) s (Computes s · h d 1 (s.operand a)))

/-- R17, R197 and R198: once every member of a barrier within the module has arrived, each departs: the hold ends,
the stream goes on behind the instruction, and a member of BARRED is pushed the reduction of every
contribution. The cores of other tasks and the members of no barrier are left alone. -/
def Obligations.BarrierDepartures : Prop :=
  ∀ (s : State) (task : Task) (b : BarHold), s.me.standsAt = some b → s.taskOf s.cur.core = some task →
    s.scopeHere b.scope < 4 ∨ task.podbar = none →
    let ms := s.members s.cur.core b.scope task
    (∀ q ∈ ms, (s.arrival q b.scope).isSome) → ms.Nodup →
    Answers .barrierDepart s fun t =>
      (∀ q ∈ ms, ∀ fw x, s.arrival q b.scope = some (fw, x) →
        let c := s.core q
        let d := t.core q
        (d.stream .scu fw).hold = .none ∧ (d.stream .scu fw).pc = (c.stream .scu fw).pc + x.hdr.n
          ∧ (d.stream .scu fw).sidx = (c.stream .scu fw).sidx + 1
          ∧ d.stream .scu (!fw) = c.stream .scu (!fw) ∧ d.ctx (!fw) = c.ctx (!fw)
          ∧ (x.rop = none → d.ctx fw = c.ctx fw)
          ∧ (∀ r, x.rop = some r → ∃ v l, (d.ctx fw).pend = (c.ctx fw).pend ++ [l] ∧ l.value = v
              ∧ l.due = s.gtc + 1 ∧ ((∀ p ∈ ms, ∀ y, s.arrival p b.scope = some y → y.2.rop = some r) →
                r = 0 → v = (ms.filterMap fun p => (s.arrival p b.scope).map (·.2.contrib)).sum)))
      ∧ (∀ q, q ∉ ms → t.core q = s.core q) ∧ t.cur = s.cur ∧ t.gtc = s.gtc

/-! ## The common stream group -/

/-- R97, R107 and R108: NOP and MARK take one tick, and MARK changes nothing but which commands of a copy
engine must complete before later ones; in the matrix engine it writes at once what earlier instructions have yet
to write (R67), and no other byte. FENCE completes once its covered set is performed and acknowledged, and
holds issue until then. Every engine. -/
def Obligations.NopMarkFence : Prop :=
  ∀ (s : State) (h : Hdr), s.mayIssue h →
    (Answers (.nop h) s fun t => Goes s t h (s.after h) 1 s.myStream.loops s.enterParts)
    ∧ (s.cur.eng ≠ .mxe → Answers (.mark h) s fun t =>
        Goes s t h (s.after h) 1 s.myStream.loops (fun c C => s.enterParts c
          { C with lceS := { C.lceS with mark := c.lceS.mark }, sceS := { C.sceS with mark := c.sceS.mark } })
        ∧ t.me.lceS.mark = (if s.cur.eng = .lce then s.myStream.sidx else s.me.lceS.mark)
        ∧ t.me.sceS.mark = (if s.cur.eng = .sce then s.myStream.sidx else s.me.sceS.mark))
    ∧ (s.cur.eng = .mxe → Answers (.mark h) s fun t =>
        let bytes (o : MxeOp) := o.effect.flatMap MxeWrite.stored
        Issued s t h (.tick (s.gtc + 1)) (s.after h) 1 ∧ StreamKept s t
        ∧ t.me.mxeS.flight.map (·.due) = s.me.mxeS.flight.map (·.due)
        ∧ (∀ o ∈ t.me.mxeS.flight, o.sidx < s.myStream.sidx → bytes o = [])
        ∧ (∀ o, s.me.mxeS.flight = [o] → o.sidx < s.myStream.sidx → ∀ a, t.byte a = (s.writeNibbles (bytes o)).byte a)
        ∧ (∀ a, a ∉ (s.me.mxeS.flight.flatMap bytes).map Prod.fst → t.byte a = s.byte a)
        ∧ ∀ q, q ≠ s.cur.core → t.core q = s.core q)
    ∧ ∀ scope, (s.quiet = true → (s.scopeHere scope = 4 → s.acked h = true) → scope ≤ 4 →
          Answers (.fence h scope) s fun t => Goes s t h (s.after h) 1 s.myStream.loops s.enterParts)
        ∧ (s.quiet = false ∨ (s.scopeHere scope = 4 ∧ s.acked h = false) → Answers (.fence h scope) s (Holds s))

/-- R98: AT and AT.LAX are prefixes: one that an instruction of the same loop body follows is taken up with
its stamp and its interlock counts, takes no issue tick and changes nothing else; one that no instruction may
follow, or whose instruction lies outside the innermost LOOP body or the VLOOP body, is an illegal encoding, and
changes nothing else either. -/
def Obligations.AtPrefixes : Prop :=
  ∀ (s : State) (h : Hdr) (stamp : Nat), s.canIssue = true →
    let next := s.myStream.pc + h.n
    let taken (t : State) (lax : Bool) : Prop :=
      t.myStream = { s.myStream with
          pc := next
          at? := some { pc := s.myStream.pc, stamp := stamp, lax := lax, wp := h.wp, wn := h.wn, gp := h.gp, gn := h.gn } }
        ∧ OnlyCore s t s.issueParts
    let body : Prop := (∃ l ∈ s.myStream.loops.head?, l.stop + 1 = next)
      ∨ (s.cur.eng = .vxe ∧ ∃ v ∈ s.me.vxeS.vloop, v.stop + 1 = next)
    (s.myStream.at? = none → next < s.myStream.len → ¬ body →
      Answers (.atStamp h stamp) s (taken · false) ∧ Answers (.atLax h stamp) s (taken · true))
    ∧ (s.myStream.at? ≠ none ∨ s.myStream.len ≤ next ∨ body →
      ∀ i ∈ [Instr.atStamp h stamp, .atLax h stamp],
        exec i s = .next (s.raise 1 0 0))

/-- R98 and R99: what an AT says when its governed instruction, a NOP here, meets conditions 1 and 2 of R94.
A stamp ahead holds it; a stamp that has passed, and a stamp of this tick whose tokens are not there, raise
schedule-miss at the AT unless a device delay has withheld issue since, and no token is consumed; AT.LAX
waits for the tokens. -/
def Obligations.AtStamps : Prop :=
  ∀ (s : State) (h : Hdr) (a : AtPrefix), s.canIssue = true → s.cur.fw = false → s.myStream.at? = some a →
    s.myStream.atd = false →
    let d := (s.myView % 2 ^ 40 + 2 ^ 40 - a.stamp) % 2 ^ 40
    let misses : Prop := exec (.nop h) s = .next (s.engineFault s.cur.core (engIdx s.cur.eng) 3 0 0 a.pc)
    (2 ^ 39 ≤ d → exec (.nop h) s = .next s)
    ∧ (0 < d → d < 2 ^ 39 → a.lax = false → s.myStream.withheld = false → s.myStream.frozen = none → misses)
    ∧ (d = 0 → a.lax = false → s.delayed = false → s.waitsMet h = false → misses)
    ∧ (d < 2 ^ 39 → a.lax = true → s.delayed = false → s.waitsMet h = false → exec (.nop h) s = .next s)
    ∧ (d = 0 ∨ (d < 2 ^ 39 ∧ a.lax = true) → s.delayed = false → s.waitsMet h = true →
        Answers (.nop h) s fun t => Goes s t h (s.after h) 1 s.myStream.loops s.enterParts)

/-- R101: END, once every earlier give has been performed and no store of the SCU waits, ends its stream and
discards its loop levels; the VXE's END closes the open segment. In the firmware context it is an illegal encoding. -/
def Obligations.StreamEnds : Prop :=
  ∀ (s : State) (h : Hdr), s.mayIssue h →
    (s.cur.fw = false → s.myStream.gives = [] → (s.cur.eng = .scu → s.me.stores = []) →
      (s.cur.eng = .vxe → s.myStream.form.length < 16) →
      Answers (.endStream h) s fun t =>
        t.myStream.ended = true ∧ t.myStream.loops = [] ∧ t.myStream.sidx = s.myStream.sidx + 1
          ∧ (∀ q, t.me.count q = s.me.count q - s.taken h q)
          ∧ t.myStream.gives = s.promised h (.tick s.gtc) t.myStream.clk
          ∧ (s.cur.eng = .vxe → t.me.vxeS.vloop = none ∧ t.me.vxeS.seg = Segment.empty)
          ∧ (s.cur.eng ≠ .vxe → OnlyCore s t s.issueParts))
    ∧ (s.cur.fw = false → s.myStream.gives ≠ [] ∨ (s.cur.eng = .scu ∧ s.me.stores ≠ []) →
        Answers (.endStream h) s (Holds s))
    ∧ (s.cur.fw = true → exec (.endStream h) s = .next (s.atDone.firmwareFault s.cur.core))

/-- R102: LOOP opens a level with its count, or skips its body for a count of zero or less; a count above
2^28 - 1 raises bounds, and a body that may not stand there is an illegal encoding. R103: ENDL goes
back to the start of the innermost body while its count lasts, and closes the level otherwise; one that is not the
end of that body is an illegal encoding. -/
def Obligations.Loops : Prop :=
  (∀ (s : State) (h : Hdr) (body : Nat) (c : LoopCount), s.mayIssue h → s.readable (LoopCount.codes c) →
      let first := s.myStream.pc + h.n
      let last := first + body - 1
      let n : Int := match c with
        | .imm n => n
        | .coord r k => ((s.coord r).get k).toInt
        | .operand code => (s.operand code).toInt
      let level : LoopLevel := { start := first, stop := last, count := n.toNat }
      (s.loopLegal first last = true → 0 < n → n < 2 ^ 28 → Answers (.loop h body c) s fun t =>
        Goes s t h (s.after h) 1 (level :: s.myStream.loops) s.enterParts)
      ∧ (s.loopLegal first last = true → n ≤ 0 → Answers (.loop h body c) s fun t =>
        Goes s t h (s.passed (last + 1)) 1 s.myStream.loops s.enterParts)
      ∧ (s.loopLegal first last = true → 2 ^ 28 ≤ n → exec (.loop h body c) s = .next (s.atDone.raise 4 0 0))
      ∧ (s.myStream.loops.length = 4 ∨ s.isEndl last = false → exec (.loop h body c) s = .next (s.atDone.raise 1 0 0)))
  ∧ ∀ (s : State) (h : Hdr), s.mayIssue h →
    (∀ l ls, s.myStream.loops = l :: ls → l.stop = s.myStream.pc →
      (1 < l.count → Answers (.endl h) s fun t =>
        Goes s t h (s.passed l.start) 1 ({ l with count := l.count - 1 } :: ls) s.enterParts)
      ∧ (l.count ≤ 1 → Answers (.endl h) s fun t => Goes s t h (s.after h) 1 ls s.enterParts))
    ∧ (s.myStream.loops = [] ∨ (∃ l ls, s.myStream.loops = l :: ls ∧ l.stop ≠ s.myStream.pc) →
      exec (.endl h) s = .next (s.atDone.raise 1 0 0))

/-- R105 and R106: the coordinate instructions write the selected components of one register, from operands
read before any is written, and nothing else; a modulus of zero or less raises bounds and writes nothing. -/
def Obligations.Coordinates : Prop :=
  ∀ (s : State) (h : Hdr) (cd mask imm ca off : Nat), s.mayIssue h → s.cur.fw = false →
    let e := engIdx s.cur.eng
    let old := s.me.coord e cd
    let arg := s.me.coord e ca
    let word (k : Nat) : Int := s.argWord (4 * (off + k))
    let sets (t : State) (f : Nat → BitVec 24) : Prop :=
      Goes s t h (s.after h) 1 s.myStream.loops (fun c C => s.enterParts c { C with coords := c.coords })
        ∧ (∀ k < 4, (t.me.coord e cd).get k = if bit mask k then f k else old.get k)
        ∧ (∀ e' < 5, ∀ r < 16, e' ≠ e ∨ r ≠ cd → t.me.coord e' r = s.me.coord e' r)
    cd < 16 →
    Answers (.csetImm h cd mask imm) s (sets · fun _ => BitVec.ofNat 24 imm)
    ∧ Answers (.csetReg h cd mask ca) s (sets · fun k => arg.get k)
    ∧ Answers (.caddImm h cd mask imm) s (sets · fun k => old.get k + BitVec.ofNat 24 imm)
    ∧ Answers (.caddReg h cd mask ca) s (sets · fun k => old.get k + arg.get k)
    ∧ Answers (.cmodImm h cd mask imm) s (sets · fun k => BitVec.ofInt 24 ((old.get k).toInt % (BitVec.ofNat 24 imm).toInt))
    ∧ ((∀ k < 4, bit mask k = true → 0 < (arg.get k).toInt) → Answers (.cmodReg h cd mask ca) s
        (sets · fun k => BitVec.ofInt 24 ((old.get k).toInt % (arg.get k).toInt)))
    ∧ ((∃ k < 4, bit mask k = true ∧ (arg.get k).toInt ≤ 0) → exec (.cmodReg h cd mask ca) s = .next (s.atDone.raise 4 0 0))
    ∧ ((∀ k < 4, bit mask k = true → 4 * (off + k) + 3 < (s.hdrOf s.cur.core).arglen
          ∧ -(2 ^ 23) ≤ word k ∧ word k < 2 ^ 23) →
        Answers (.cldp h cd mask off) s (sets · fun k => BitVec.ofInt 24 (word k)))
    ∧ ((∃ k < 4, bit mask k = true ∧ ((s.hdrOf s.cur.core).arglen ≤ 4 * (off + k) + 3
          ∨ word k < -(2 ^ 23) ∨ 2 ^ 23 ≤ word k)) → exec (.cldp h cd mask off) s = .next (s.atDone.raise 4 0 0))

/-! ## The copy engines -/

/-- R215, R216, R218 to R225: the copies of the load copy engine. With a slot free and a leaf to be had, each is
placed as a command at its issue, and goes on at once as far as it can; a running command that nothing has
been read for goes on in the same way. -/
def Obligations.LoadCopies : Prop :=
  (∀ (s : State) (h : Hdr) (td cd cs ts ti ci rm exp : Nat) (cvt sm : Bool) (ext : Option Ext), s.cur.eng = .lce →
    s.cur.fw = false → s.mayIssue h → s.me.slotFree 1 = true → s.myStream.form.length < 16 →
    (∀ y ∈ s.me.lceS.slots, y.sidx ≠ s.myStream.sidx) →
    ∀ i ∈ [Instr.cpi h td cd cs ts ext, .cpic h td cd cs ts ext, .cpig h td cd cs ts ti ci ext, .cpib h td cd cs ts ext,
        .cpw h td cd cs ts ext, .cpa h td cd cs ts cvt exp ext, .cpq h td cd cs ts rm sm ext],
      ∃ a, lceArgs i = some a ∧ Answers i s fun t =>
        let x := s.lceNew i a cd cs
        ∃ u, CommandPlaced s u h x true ∧ LceGoesOn u s.cur.core x a t)
  ∧ ∀ (s : State) (p sidx : Nat) (x : Cmd) (a : LceArgs), s.cmd? p 1 sidx = some x → lceArgs x.instr = some a →
      x.phase = .running → x.next = 0 → x.image? 16 = none → x.image? 17 = none →
      Answers (.lceCommandCompletion p sidx) s (LceGoesOn s p x a)

/-- R226, R227, R229, R230 and R246: PREF leaves translations and nothing else, LSTAT writes its record, RWAIT
waits for its counter, and an answer to a read brings its bytes to the command, or to its line of the fabric
cache (R82), or ends the command; one that nothing awaits is discarded (R160). -/
def Obligations.LoadCopyStatus : Prop :=
  (∀ (s : State) (h : Hdr), s.cur.eng = .lce → s.cur.fw = false → s.mayIssue h →
    let p := s.cur.core
    let completes (t : State) := Issued s t h (.tick (s.gtc + 1)) (s.myStream.pc + h.n) 1
    (∀ cs ts ext,
      let a := s.access ts cs ext
      (s.checkAccess p 1 ts false a ≠ .ok ∨ a.d.translated = false ∨ a.empty = true →
        Answers (.pref h cs ts ext) s fun t => Goes s t h (s.myStream.pc + h.n) 1 s.myStream.loops s.issueParts)
      ∧ (s.checkAccess p 1 ts false a = .ok → a.d.translated = true → a.empty = false →
        Answers (.pref h cs ts ext) s fun t => completes t ∧ t.me.lceS = s.me.lceS
          ∧ ∀ g, (a.bytesAt.map (· / 2 ^ 16)).eraseDups = [g] →
              (∃ x, (s.translate p (s.idsOf p).2 (g * 2 ^ 16) false 0).1 = .go x) →
              t.me.tlb.any (·.serves (s.idsOf p).2 (g * 2 ^ 16)) = true))
    ∧ (∀ td cd clr,
      let d := s.me.desc td
      let a : Access := { d := d, slot := 0, origin := (s.coord cd).origin, ext := [4, 1, 1, 1] }
      let l := s.me.lceS
      let record := leBytes 8 l.done.toNat ++ leBytes 8 l.errs.toNat
        ++ leBytes 8 (b2n l.satf * 2 ^ 49 + b2n l.qxm * 2 ^ 48 + l.first.fcode * 2 ^ 40 + l.first.fseq)
        ++ leBytes 8 l.first.foff
      let good := d.v = true ∧ d.fmt = fmtInt64 ∧ d.layout = 0 ∧ d.space = 0 ∧ d.qwin = false ∧ bit d.wr 1 = true
        ∧ s.checkBounds p a = .ok
      (s.quiet = true → good → Answers (.lstat h td cd clr) s fun t => completes t ∧ StreamKept s t
          ∧ Stores s t (s.addrs p a) record (fun c C => s.issueParts c { C with lceS := c.lceS })
          ∧ t.me.lceS = (if clr then { l with errs := 0, first := FirstError.none, qxm := false, satf := false } else l))
      ∧ (s.quiet = true → ¬ good → exec (.lstat h td cd clr) s = .next (s.atDone.raise 4 0 0)))
    ∧ ∀ ctr sub target,
      let v := s.me.lceS.counter s.gtc ctr
      (0 ≤ (v - BitVec.ofNat 64 target).toInt → s.myStream.form.length < 16 → s.unaudited p →
        Answers (.rwait h ctr sub target) s fun t => completes t ∧ SameBytes s t
          ∧ t.me.lceS.counter s.gtc ctr = (if sub then v - BitVec.ofNat 64 target else v)
          ∧ ∀ k, k ≠ ctr → t.me.lceS.counter s.gtc k = s.me.lceS.counter s.gtc k)
      ∧ ((v - BitVec.ofNat 64 target).toInt < 0 → s.capturing p = false →
        Answers (.rwait h ctr sub target) s fun t => Holds s t ∧ t.myStream.hold = .rwait target))
  ∧ ∀ (s : State) (k : Packet) (r : ReadWait) (x : Cmd) (a : LceArgs),
      let find := (s.core k.score).lceS.reads.find? fun r => r.tag == k.tag && s.inTime r.tick
      let die := k.score / 32
      (s.arrived k = false → exec (.rdrPacket k) s = .next s)
      ∧ (s.arrived k = true → find = none → Answers (.rdrPacket k) s fun t =>
          SameBytes s t ∧ t.cores = s.cores ∧ t.fabric.route = s.fabric.route.eraseP fun h => h.pkt == k)
      ∧ (s.arrived k = true → find = some r → s.cmd? k.score 1 r.sidx = some x → lceArgs x.instr = some a →
        s.unaudited k.score →
        (k.status ≠ 0 → Answers (.rdrPacket k) s fun t =>
          (s.core k.score).lceS.counts (t.core k.score).lceS x k.status x.off ∧ SameBytes s t
            ∧ ∀ q, q ≠ k.score → t.core q = s.core q)
        ∧ (k.status = 0 → Answers (.rdrPacket k) s fun t => ∃ u,
            exec (.lceCommandCompletion k.score x.sidx) u = .next t
            ∧ (u.core k.score).lceS.reads = (s.core k.score).lceS.reads.erase r
            ∧ (r.fill = none → SameBytes s u
                ∧ ∃ y, u.cmd? k.score 1 x.sidx = some y ∧ y.got = x.got ++ cellsAt r.va (pktData k))
            ∧ ∀ line, r.fill = some line →
                u.line die line % 2 ^ 256 = 2 ^ 256 - 1
                ∧ ∀ i < (pktData k).length, i < 256 → u.byte (cacheAt die line + i) =
                    if (s.line die line).testBit i then s.byte (cacheAt die line + i) else (pktData k).getD i 0))

/-- R242, R243 and R247 to R256: the commands of the store copy engine. With a slot free and a leaf to be had,
each is placed at its issue and goes on at once as far as it can; a running command that nothing has been
moved or sent for goes on in the same way. -/
def Obligations.StoreCopies : Prop :=
  (∀ (s : State) (h : Hdr) (td cd cs ts t3 ci num : Nat) (ackw opt : Bool) (ext : Option Ext), s.cur.eng = .sce →
    s.cur.fw = false → s.mayIssue h → s.me.slotFree 4 = true → s.myStream.form.length < 16 →
    (s.shadowOf s.cur.core).isSome = false → (∀ y ∈ s.me.sceS.slots, y.sidx ≠ s.myStream.sidx) →
    ∀ x ∈ [(Instr.cpo h td cd cs ts ackw ext, cd, cs, 0), (.cpoc h td cd cs ts ackw ext, cd, cs, 0)
        , (.cpos h td cd cs ts t3 ci ackw ext, cd, cs, ci), (.cpf h td cd cs ts ackw ext, cd, cs, 0)
        , (.cpm h td cd cs ts num ext, cd, cs, 0), (.fat h td cd cs ts opt t3 ci num, cd, cs, ci)
        , (.fsig h cs ts opt ackw num, 0, cs, 0), (.flush h td cd opt ext, cd, 0, 0), (.flushAll h opt, 0, 0, 0)],
      ∃ a, sceArgs x.1 = some a ∧ Answers x.1 s fun t =>
        let y := s.sceNew h x.1 a x.2.1 x.2.2.1 x.2.2.2
        ∃ u, CommandPlaced s u h y a.op.leafy ∧ SceGoesOn u s.cur.core y a t)
  ∧ ∀ (s : State) (p sidx : Nat) (x : Cmd) (a : SceArgs), s.cmd? p 4 sidx = some x → sceArgs x.instr = some a → x.fresh →
      Answers (.sceCommandCompletion p sidx) s (SceGoesOn s p x a)

/-- R232, R256 and R257: SSTAT stores its record, an eviction writes a dirty line back and drops a clean one, and
a refresh window makes one bank of the Cellar wait. -/
def Obligations.StoreStatus : Prop :=
  (∀ (s : State) (h : Hdr) (td cd : Nat) (setl agg clr : Bool) (ts : List (Nat × Target)) (v : State) (at' : Nat → Nat),
    s.cur.eng = .sce → s.cur.fw = false → s.mayIssue h → (s.shadowOf s.cur.core).isSome = false → s.quiet = true →
    (setl = true → s.me.sceS.ack = []) → s.statPaused s.cur.core = false →
    let d := s.me.desc td
    let l := s.me.sceS
    let words := if agg then l.last.record else
      [l.done.toNat, l.errs.toNat, b2n l.first.part * 2 ^ 49 + b2n l.first.late * 2 ^ 48 + l.first.fcode * 2 ^ 40 + l.first.fseq
      , l.first.foff]
    let a : Access := { d := d, slot := 0, origin := (s.coord cd).origin, ext := [words.length, 1, 1, 1] }
    let good := d.v = true ∧ d.fmt = fmtInt64 ∧ d.layout = 0 ∧ outSpace d.space = true ∧ bit d.wr 4 = true
      ∧ s.checkBounds s.cur.core a = .ok
    (¬ good → exec (.sstat h td cd setl agg clr) s = .next (s.atDone.raise 4 0 0))
    ∧ (good → s.outPages s.cur.core a.bytesAt = (.all ts, v) → v.reaches d ts a.bytesAt at' → Apart d a.bitOffs at' →
      Answers (.sstat h td cd setl agg clr) s fun t =>
        Issued s t h (.tick (s.gtc + 1)) (s.myStream.pc + h.n) 1
        ∧ (∀ i b, a.bitOffs[i]? = some b → ∀ j < 8, t.byte (at' (b / 8 + j)) = (leBytes 8 (words.getD i 0)).getD j 0)
        ∧ (∀ c, c ∉ a.bytesAt.map at' → t.byte c = v.byte c)
        ∧ t.me.sceS = if clr then { l with errs := 0, first := FirstError.none, last := Mcast.empty } else l))
  ∧ (∀ (s : State) (die line : Nat),
      (s.line die line = 0 → exec (.fabricCacheEviction die line) s = .next s)
      ∧ (s.line die line ≠ 0 → lineDirty (s.line die line) = 0 →
          Answers (.fabricCacheEviction die line) s fun t => t.line die line = 0 ∧ SameBytes s t ∧ t.cores = s.cores)
      ∧ (lineDirty (s.line die line) ≠ 0 → Answers (.fabricCacheEviction die line) s fun t =>
          (∃ w ∈ (t.die die).wb, w.line = line ∧ w.for' = none ∧ w.inv = true) ∧ lineDirty (t.line die line) = 0 ∧ SameBytes s t))
  ∧ ∀ (s : State) (die : Nat),
      (s.gtc % 256 < 64 → Answers (.cellarRefresh die) s fun t =>
        (∀ d, t.plat.cellarUntil.get 0 d = if d = die then s.gtc / 256 * 256 + 64 else s.plat.cellarUntil.get 0 d)
        ∧ (∀ a, celBase die ≤ a → a < celBase die + 2 ^ 27 → die < 32 →
            (t.refreshing [a] = true ↔ (a - celBase die) / 2048 % 64 = s.gtc % 16384 / 256))
        ∧ { t with plat := s.plat } = s)
      ∧ (64 ≤ s.gtc % 256 → exec (.cellarRefresh die) s = .next s)

/-- R146, R160, R165, R243 and R244: an answer that has arrived in time, a settlement and the lapse of D_FAB
each settle one packet: it leaves the acknowledgement table. A status that is not OK counts a late error of a command that has
completed; a copy that waits for its last packet completes with the status. So does a copy that
waits for all its packets, as the last of them settles. -/
def Obligations.StoreAnswers : Prop :=
  (∀ (s : State) (p : Nat) (a : AckEntry), p % 32 < 30 →
      (∀ x ∈ (s.core p).sceS.slots, x.phase ≠ .running) →
      let settles (t : State) := (t.core p).sceS.ack = (s.core p).sceS.ack.erase a ∧ (t.core p).sceS.done = (s.core p).sceS.done
        ∧ SameBytes s t ∧ ∀ q, q ≠ p → t.core q = s.core q
      let late (t : State) (st : Nat) := (t.core p).sceS.errs = (s.core p).sceS.errs
          + (if st = 0 ∨ (s.core p).sceS.late.contains a.sidx = true then 0 else 1)
        ∧ (st ≠ 0 → (s.core p).sceS.late.contains a.sidx = false → (s.core p).sceS.errs = 0 → (t.core p).sceS.first =
            { fseq := a.sidx % 2 ^ 40, fcode := st, foff := a.off, part := false, late := true })
      (∀ k : Packet, k.score = p → s.arrived k = true →
        ((s.core p).sceS.ack.find? (fun e => e.tag == k.tag && !e.atm && e.mask == 0 && k.opb == 0 && s.inTime e.tick) = some a →
          (∀ x, s.cmd? p 4 a.sidx = some x → x.phase = .done) →
          Answers (.ackPacket k) s fun t => settles t ∧ late t k.status)
        ∧ ((s.core p).sceS.ack.find? (fun e => e.tag == k.tag && e.atm && s.inTime e.tick) = some a →
          (∀ x, s.cmd? p 4 a.sidx = some x → x.phase = .done) →
          Answers (.atrPacket k) s fun t => settles t ∧ late t k.status)
        ∧ ((s.core p).sceS.ack.find? (fun e => e.tag == k.tag && e.mask != 0 && e.dst == k.src && s.inTime e.tick) = some a →
          Answers (.mcaPacket k) s settles))
      ∧ (∀ k : Packet, s.arrived k = false → ∀ i ∈ [Instr.ackPacket k, .atrPacket k, .mcaPacket k], exec i s = .next s)
      ∧ (∀ tag st, (s.core p).sceS.ack.find? (fun e => e.tag == tag) = some a → a.mask = 0 →
          (∀ x, s.cmd? p 4 a.sidx = some x → x.phase = .done) →
          Answers (.packetSettlement p tag st) s fun t => settles t ∧ late t st)
      ∧ (∀ tag, (s.core p).sceS.ack.find? (fun e => e.tag == tag && !s.inTime e.tick) = some a →
          a.mask = 0 → (∀ r ∈ s.fabric.relays, r.tag ≠ tag) → (∀ x, s.cmd? p 4 a.sidx = some x → x.phase = .done) →
          Answers (.responseTimeout p tag) s fun t => settles t ∧ late t 6)
      ∧ ∀ tag x b, s.unaudited p → (s.core p).sceS.ack.find? (fun e => e.tag == tag) = none → (∀ r ∈ s.fabric.relays, r.tag ≠ tag) →
          (s.core p).lceS.reads.find? (fun r => r.tag == tag && !s.inTime r.tick) = some b →
          s.cmd? p 1 b.sidx = some x → (lceArgs x.instr).isSome = true →
          Answers (.responseTimeout p tag) s fun t => (s.core p).lceS.counts (t.core p).lceS x 6 x.off ∧ SameBytes s t)
  ∧ ∀ (s : State) (k : Packet) (a : AckEntry) (x : Cmd) (f : SceArgs), k.score % 32 < 30 → s.arrived k = true →
    let p := k.score
    (s.core p).sceS.ack = [a] → a.tag = k.tag → a.atm = false → a.mask = 0 → k.opb = 0 → s.inTime a.tick = true → a.sidx = x.sidx →
    (s.core p).sceS.slots = [x] → x.phase = .running → x.mark ≤ x.sidx → sceArgs x.instr = some f → f.op = .cpf →
    f.ackw = true → x.status = 0 → x.pend = [] → x.next ≠ 0 → x.next = ((s.core p).scePieces f x).length →
    s.unaudited p →
    Answers (.ackPacket k) s fun t => (s.core p).sceS.counts (t.core p).sceS x k.status (if k.status = 0 then x.foff else a.seg) false
      ∧ (t.core p).sceS.ack = [] ∧ SameBytes s t

/-! ## The matrix engine -/

/-- R272 to R278, R287 and R288: MRD and WLD bring blocks, MMA and MMAG accumulate the head entry of a queue
against weight slots, MXMODE writes OVT, and MSTAT stores the status words. Each issues once its unit and what
it reads and writes are free, reads memory as earlier instructions leave it (R271), and has its effect when it
completes. A group of an MMAG without rows reads no slot. -/
def Obligations.MatrixProducts : Prop :=
  ∀ (s : State) (h : Hdr), s.cur.eng = .mxe → s.cur.fw = false → s.mayIssue h → s.myStream.form.length < 16 →
    let m := s.me.mxeS
    let p := s.cur.core
    let may (unit : Nat) (reads writes : List Nat) := m.ready s.gtc unit reads writes = true
      ∧ ∀ r ∈ reads, s.bad.get false (mxeUnit p r) = false
    let popped (q : Nat) (pop : Bool) := if pop then m.rd.set 0 q (m.rd.get 0 q + 1) else m.rd
    let live (an : Nat) := m.live ||| BitVec.ofNat 8 (2 ^ an)
    (∀ q ts cs ext,
      let a := s.blockAccess ts cs ext
      let buf := 2 * q + m.wr.get 0 q % 2
      let block := s.ahead.readBlock p a
      let lasts := blockTicks a.d block.2 (s.readWait [])
      s.checkAccess p 2 ts false a = .ok → s.me.blockOk a false = true → m.wr.get 0 q - m.rd.get 0 q < 2 →
      s.ahead.accessBad p a = false → may 0 [] [buf] →
      Answers (.mrd h q ts cs ext) s fun t =>
        MxeIssued s t h { m with wr := m.wr.set 0 q (m.wr.get 0 q + 1) } 0 lasts.1 lasts.2 [] [buf] true fun o =>
          m.puts o.effect = { m with bufs := m.bufs.set none buf (some block.1) })
    ∧ (∀ w ts cs ext,
      let a := s.blockAccess ts cs ext
      let block := s.ahead.readBlock p a
      let lasts := blockTicks a.d block.2 (s.readWait (if a.empty ∨ a.d.space ≠ 2 then [] else s.addrs p a))
      s.checkAccess p 2 ts false a = .ok → s.me.blockOk a true = true → s.ahead.accessBad p a = false → may 1 [] [8 + w] →
      Answers (.wld h w ts cs ext) s fun t =>
        MxeIssued s t h m 1 lasts.1 lasts.2 [] [8 + w] true fun o =>
          ((m.puts o.effect).slots.get none w).map (·.block) = some block.1
            ∧ { m.puts o.effect with slots := m.slots } = m)
    ∧ (∀ an q w pop e sl kr,
      let buf := 2 * q + m.rd.get 0 q % 2
      let b := sl.block
      an < (s.hdrOf p).acct → m.rd.get 0 q < m.wr.get 0 q → m.bufs.get none buf = some e → m.slots.get none w = some sl →
      pairing e.fmt b.fmt = some kr → e.k = b.k → e.rows ≤ 128 → b.rows ≤ 128 →
      may 2 ([buf, 8 + w] ++ rowRes an 0 e.rows) (rowRes an 0 e.rows) →
      Answers (.mma h an q w pop) s fun t =>
        MxeIssued s t h { m with live := live an, rd := popped q pop } 2 (ticks e.k kr) (ticks e.k kr + 12)
          ([buf, 8 + w] ++ rowRes an 0 e.rows) (rowRes an 0 e.rows) true fun o =>
            RowsBecome m o an 0 e.rows (fun r j => if j < b.rows then m.product an e b r j else m.at' an r j) (m.exp an))
    ∧ (∀ an q pop cg ngm1 e (slot : Nat → WSlot),
      let buf := 2 * q + m.rd.get 0 q % 2
      let n (g : Nat) : Nat := ((s.coord cg).int g).toNat
      let base (g : Nat) : Nat := ((List.range g).map n).sum
      let total := base (ngm1 + 1)
      let rows := rowRes an 0 (min total e.rows)
      let live' := (List.range (ngm1 + 1)).filter fun g => decide (base g < min (base (g + 1)) e.rows)
      let rate (g : Nat) : Nat := (pairing e.fmt (slot g).block.fmt).getD 1
      let occ := max 1 ((live'.map fun g => (e.k + rate g - 1) / rate g).sum)
      let reads := buf :: live'.map (8 + ·) ++ rows
      an < (s.hdrOf p).acct → m.rd.get 0 q < m.wr.get 0 q → m.bufs.get none buf = some e → e.rows ≤ 128 → ngm1 < 4 →
      (∀ g ≤ ngm1, 0 ≤ (s.coord cg).int g) →
      (∀ g ∈ live', m.slots.get none g = some (slot g) ∧ (pairing e.fmt (slot g).block.fmt).isSome = true
        ∧ (slot g).block.k = e.k ∧ (slot g).block.rows ≤ 128) →
      may 2 reads rows →
      Answers (.mmag h an q pop cg ngm1) s fun t =>
        MxeIssued s t h { m with live := live an, rd := popped q pop } 2 occ (occ + 12) reads rows true fun o =>
            (∀ g ≤ ngm1, ∀ r j, base g ≤ r → r < base (g + 1) → r < e.rows → j < 128 →
              (m.puts o.effect).at' an r j =
                if j < (slot g).block.rows then m.product an e (slot g).block r j else m.at' an r j)
            ∧ (∀ r j, min total e.rows ≤ r → r < 128 → j < 128 → (m.puts o.effect).at' an r j = m.at' an r j)
            ∧ o.mxst / 16 % 2 = b2n (decide (e.rows < total)))
    ∧ (∀ ovt, Answers (.mxmode h ovt) s fun t =>
        Goes s t h (s.myStream.pc + h.n) 1 s.myStream.loops (fun c C => s.issueParts c { C with mxeS := { C.mxeS with ovt := c.mxeS.ovt } })
          ∧ t.me.mxeS.ovt = ovt)
    ∧ ∀ clr td cd,
      let d := s.me.desc td
      let a : Access := { d := d, slot := s.me.slotOf 2 td, origin := (s.coord cd).origin, ext := [2, 1, 1, 1] }
      let words := [ m.mxst.toNat % 32
        , m.live.toNat + ((List.range 4).map fun q => (m.wr.get 0 q - m.rd.get 0 q) * 2 ^ (8 + 2 * q)).sum
          + ((List.range 4).map fun w => b2n (m.slots.get none w).isSome * 2 ^ (16 + w)).sum + b2n m.ovt * 2 ^ 20 ]
      m.flight = [] → s.me.checkRights 2 td true = .ok → d.fmt = fmtInt64 → d.space = 0 →
      s.checkBounds p a = .ok →
      Answers (.mstat h clr td cd) s fun t => MxeIssued s t h m 3 1 4 [] [] false fun o =>
        MxeStores s a words o ∧ m.puts o.effect = if clr then { m with mxst := 0 } else m

/-- R267 and R279 to R286: the accumulator operations on the rows that a row range names, and R266: a tile that
the kernel has not been allocated raises its fault. -/
def Obligations.AccumulatorRows : Prop :=
  ∀ (s : State) (h : Hdr) (an : Nat) (r : Rows), s.cur.eng = .mxe → s.cur.fw = false → s.mayIssue h →
    s.myStream.form.length < 16 →
    let m := s.me.mxeS
    let p := s.cur.core
    ((s.hdrOf p).acct ≤ an → ∀ exp k as td cd xe free sh tq cq rm,
      ∀ i ∈ [Instr.aset h an r exp, .anorm h an r k, .aclr h an r, .aadd h an r as, .aret h an r free sh td cd tq cq rm
          , .ard h an r xe td cd, .awr h an r xe td cd, .amax h an r td cd],
        exec i s = .next (s.raise 5 0 0))
    ∧ ∀ r0 n, an < (s.hdrOf p).acct → s.rowRange r = some (r0, n) →
      let marked : MxeState := { m with live := m.live ||| BitVec.ofNat 8 (2 ^ an) }
      let mine := rowRes an r0 n
      let may (reads writes : List Nat) := m.ready s.gtc 3 reads writes = true
        ∧ ∀ r ∈ reads, s.bad.get false (mxeUnit p r) = false
      let word (a : Access) (td : Nat) (write : Bool) := s.me.checkRights 2 td write = .ok ∧ a.d.fmt = fmtInt64 ∧ a.d.space = 0
        ∧ s.checkBounds p a = .ok
      (∀ exp, may [] mine → Answers (.aset h an r exp) s fun t => MxeIssued s t h marked 3 (ticks n 8) (ticks n 8 + 2) [] mine true
          fun o => RowsBecome m o an r0 n (fun _ _ => Elem.zero) fun _ => sext 16 exp)
      ∧ (may [] mine → Answers (.aclr h an r) s fun t => MxeIssued s t h m 3 (ticks n 8) (ticks n 8 + 2) [] mine true
          fun o => RowsBecome m o an r0 n (fun _ _ => Elem.zero) (fun _ => 0)
            ∧ (m.puts o.effect).live = if r.all then m.live &&& ~~~(BitVec.ofNat 8 (2 ^ an)) else m.live)
      ∧ (∀ k, may mine mine → Answers (.anorm h an r k) s fun t => MxeIssued s t h marked 3 (ticks n 4) (ticks n 4 + 4) mine mine true
          fun o => RowsBecome m o an r0 n
            (fun i j => if m.exp an i + k ≤ 32767 then (m.at' an i j).norm k else m.at' an i j)
            (fun i => if m.exp an i + k ≤ 32767 then m.exp an i + k else m.exp an i))
      ∧ (∀ as, as < (s.hdrOf p).acct → may (mine ++ rowRes as r0 n) mine → Answers (.aadd h an r as) s fun t =>
          MxeIssued s t h marked 3 (ticks n 4) (ticks n 4 + 4) (mine ++ rowRes as r0 n) mine true
            fun o => RowsBecome m o an r0 n (fun i j => ((m.at' an i j).add (m.exp as i - m.exp an i) (m.at' as i j)).1) (m.exp an))
      ∧ (∀ free sh td cd tq cq rm,
          let d := s.me.desc td
          let nc := nth d.tile 0
          let a : Access := { d := d, slot := s.me.slotOf 2 td, origin := (s.coord cd).origin, ext := [nc, n, 1, 1] }
          let qd := s.me.desc tq
          let qa : Access := { d := qd, slot := s.me.slotOf 2 tq, origin := (s.coord cq).origin, ext := [nc, 2, 1, 1] }
          let int := fmtIsInt d.fmt
          let freed := if free then rowRes an 0 128 else []
          let q := s.ahead.elems p qa
          let code (i j : Nat) : Nat := if int then
              trunc (esize d.fmt) (retireInt d.fmt (sext 32 (q.getD j 0)) sh (sext 32 (q.getD (nc + j) 0)) (m.at' an (r0 + i) j)).1
            else (retireFp d.fmt (Rm.of rm) (m.exp an (r0 + i)) (m.at' an (r0 + i) j)).1
          s.me.checkRights 2 td true = .ok → retireTarget d = true → s.checkBounds p a = .ok →
          (int = true → s.checkAccess p 2 tq false qa = .ok ∧ qd.fmt = fmtInt32 ∧ qd.space = 0
            ∧ s.ahead.accessBad p qa = false) → may mine freed →
          Answers (.aret h an r free sh td cd tq cq rm) s fun t => MxeIssued s t h m 3 (ticks n 2) (ticks n 2 + 6) mine freed true fun o =>
            MxeStores s a ((List.range n).flatMap fun i => (List.range nc).map (code i)) o
            ∧ (free = false → m.puts o.effect = m)
            ∧ (free = true → (m.puts o.effect).live = m.live &&& ~~~(BitVec.ofNat 8 (2 ^ an))
              ∧ ∀ i j, i < 128 → j < 128 → (m.puts o.effect).at' an i j = Elem.zero))
      ∧ (∀ xe td cd,
          let a : Access := { d := s.me.desc td, slot := 0, origin := (s.coord cd).origin, ext := [128 + b2n xe, n, 1, 1] }
          word a td true → a.d.layout = 0 → may mine [] → Answers (.ard h an r xe td cd) s fun t => MxeIssued s t h m 3 (max 1 n) (max 1 n + 6) mine [] false
            fun o => m.puts o.effect = m ∧ MxeStores s a ((List.range n).flatMap fun i =>
              (List.range 128).map (fun j => (m.at' an (r0 + i) j).raw) ++ if xe then [trunc 64 (m.exp an (r0 + i))] else []) o)
      ∧ (∀ xe ts cs,
          let a : Access := { d := s.me.desc ts, slot := s.me.slotOf 2 ts, origin := (s.coord cs).origin, ext := [128 + b2n xe, n, 1, 1] }
          let v (i j : Nat) := (s.ahead.elems p a).getD ((128 + b2n xe) * (i - r0) + j) 0
          word a ts false → s.ahead.accessBad p a = false → may [] mine →
          (xe = true → ∀ i, r0 ≤ i → i < r0 + n → -32768 ≤ sext 64 (v i 128) ∧ sext 64 (v i 128) ≤ 32767) →
          Answers (.awr h an r xe ts cs) s fun t => MxeIssued s t h marked 3 (max 1 n) (max 1 n + 6) [] mine true
            fun o => RowsBecome m o an r0 n (fun i j => Elem.ofRaw (v i j)) fun i => if xe then sext 64 (v i 128) else m.exp an i)
      ∧ ∀ td cd,
          let a : Access := { d := s.me.desc td, slot := s.me.slotOf 2 td, origin := (s.coord cd).origin, ext := [2, n, 1, 1] }
          word a td true → may mine [] → Answers (.amax h an r td cd) s fun t => MxeIssued s t h m 3 (ticks n 4) (ticks n 4 + 4) mine [] false
            fun o => m.puts o.effect = m ∧ MxeStores s a ((List.range n).flatMap fun i =>
              [m.summary an (r0 + i), trunc 64 (m.exp an (r0 + i))]) o

/-- R268, R270, R276, R277 and R290: what an instruction of the matrix engine does when it completes: its writes, its
flags and no other instruction's, and the accumulator-overflow fault that it asks for, or the fault of the
uncorrectable data that it met; nothing that is not due completes. -/
def Obligations.MatrixCompletion : Prop :=
  ∀ (s : State) (o : MxeOp) (rest : List MxeOp), s.me.mxeS.flight = o :: rest → (∀ x ∈ rest, o.sidx < x.sidx) →
    s.me.fault = none →
    let faults (t : State) (cause ecode : Nat) : Prop := t.me.halted = true
      ∧ t.me.fault = some { eng := 2, cause := cause, ecode := ecode, tcode := 0, foff := o.foff, tick := s.gtc }
    (s.gtc < o.due → (∀ x ∈ rest, s.gtc < x.due) → exec .mxeCompletion s = .next s)
    ∧ (o.due ≤ s.gtc → (∀ x ∈ rest, s.gtc < x.due) → o.uncorr = false → s.unaudited s.cur.core →
      Answers .mxeCompletion s fun t =>
        let m := s.me.mxeS.puts o.effect
        { t.me.mxeS with flight := m.flight, doneAt := m.doneAt, done := m.done, mxst := m.mxst } = m
        ∧ (∀ c, t.byte c = (s.writeNibbles (o.effect.flatMap MxeWrite.stored)).byte c)
        ∧ t.me.mxeS.flight = rest ∧ t.me.mxeS.mxst = m.mxst ||| BitVec.ofNat 64 o.mxst
        ∧ (o.trap = false → t.me.halted = s.me.halted ∧ t.me.fault = none)
        ∧ (o.trap = true → s.me.halted = false → s.me.task.isSome = true → faults t 7 10)
        ∧ ∀ q, q ≠ s.cur.core → t.core q = s.core q)
    ∧ (o.due ≤ s.gtc → (∀ x ∈ rest, s.gtc < x.due) → o.uncorr = true → o.effect = [] → s.unaudited s.cur.core →
      s.me.halted = false → s.me.task.isSome = true →
      Answers .mxeCompletion s fun t => faults t 10 11 ∧ t.me.mxeS.flight = rest ∧ t.me.mxeS.broken = false ∧ SameBytes s t)

/-! ## The vector engine -/

/-- R313 to R324 and R474: the integer, permutation, broadcast and mask instructions: each selected element of
the result, the others kept or zero, and the flag IS of those that saturate. -/
def Obligations.VectorIntegers : Prop :=
  ∀ (s : State) (h : Hdr) (r : VRegs) (o : VArith), s.cur.eng = .vxe → s.cur.fw = false → s.mayIssue h →
    let q := s.renamed r
    let sz := r.size
    let n := vcount sz
    let A (i : Nat) := vget (s.vreg q.va) sz i
    let D (i : Nat) := vget (s.vreg q.vd) sz i
    let B (i : Nat) := if o.i then trunc sz (sext 16 o.imm) else vget (s.vreg q.vb) sz i
    let Z (i : Nat) := if o.i then o.imm % 2 ^ sz else vget (s.vreg q.vb) sz i
    let sel (i : Nat) := (s.vxe.mask o.msk).getLsbD i
    let u := decide (8 ≤ o.sub)
    let rd (x : Nat) : Int := if u then x else sext sz x
    let narrow (un : Bool) (x : Int) : Nat × Nat :=
      let y := if o.sat then sat x (if un then 0 else -(2 ^ (sz - 1))) (if un then 2 ^ sz - 1 else 2 ^ (sz - 1) - 1) else x
      (trunc sz y, if y = x then 0 else 32)
    let el (i : Instr) (lat : Nat) (useA useB useD : Bool) (g : Nat → Nat × Nat) : Prop :=
      s.vreadable [q.vd] (vsources o q useA useB useD) [o.msk] → Answers i s fun t =>
        VResult s t h lat false q.vd (Lanes n sz fun k => if sel k then g k else (if o.z then 0 else D k, 0))
    el (.viadd h r o) 2 true true false (fun k => narrow u (match o.sub % 8 with
      | 0 => rd (A k) + rd (B k)
      | 1 => rd (A k) - rd (B k)
      | 2 => (rd (A k) + rd (B k) + 1) / 2
      | _ => ((rd (A k) - rd (B k)).natAbs : Int)))
    ∧ el (.vimul h r o) 4 true true false (fun k => narrow u (if o.sub % 8 = 0 then rd (A k) * rd (B k) else rd (A k) * rd (B k) / 2 ^ sz))
    ∧ el (.vmac h r o) 4 true true true (fun k => narrow u (rd (D k) + rd (A k) * rd (B k)))
    ∧ (r.es = 2 → el (.vdot4 h r o) 4 true true true (fun k =>
        let byte (x j : Nat) (sg : Bool) : Int := if sg then sext 8 (x / 2 ^ (8 * j) % 256) else x / 2 ^ (8 * j) % 256
        narrow false (sext 32 (D k) + ((List.range 4).map fun j =>
          byte (A k) j (o.sub == 0 || o.sub == 3) * byte (B k) j (o.sub == 0 || o.sub == 2)).sum)))
    ∧ el (.vminmax h r o) 2 true true false (fun k => narrow u
        (if o.sub % 8 = 0 then min (rd (A k)) (rd (B k)) else max (rd (A k)) (rd (B k))))
    ∧ el (.vlogic h r o) 2 true (o.sub != 4) false (fun k => (match o.sub with
        | 0 => Nat.land (A k) (Z k)
        | 1 => Nat.lor (A k) (Z k)
        | 2 => Nat.xor (A k) (Z k)
        | 3 => Nat.land (A k) (2 ^ sz - 1 - Z k)
        | _ => 2 ^ sz - 1 - A k, 0))
    ∧ el (.vshift h r o) 2 true true false (fun k => (match o.sub with
        | 0 => A k * 2 ^ (Z k % sz)
        | 1 => A k / 2 ^ (Z k % sz)
        | _ => trunc sz (sext sz (A k) / 2 ^ (Z k % sz)), 0))
    ∧ el (.vrsh h r o) 4 true true false (fun k =>
        let x := rd (A k)
        let d := Z k % sz
        (trunc sz (if d = 0 then x else (x + 2 ^ (d - 1)) / 2 ^ d), 0))
    ∧ el (.vunary h r o) 2 true false false (fun k => narrow false (match o.sub with
        | 0 => ((sext sz (A k)).natAbs : Int)
        | 1 => -(sext sz (A k))
        | 2 => if A k = 0 then sz else ((sz - 1 - (A k).log2 : Nat) : Int)
        | 3 => (((List.range sz).filter fun i => bit (A k) i).length : Nat)
        | _ => (sext sz (A k)).sign))
    ∧ el (.vclamp h r o) 2 true false false (fun k =>
        let x := sext sz (A k)
        let y := sat x (if o.sub = 1 then 0 else -(2 ^ (o.imm - 1))) (if o.sub = 1 then 2 ^ o.imm - 1 else 2 ^ (o.imm - 1) - 1)
        (trunc sz y, if x = y then 0 else 32))
    ∧ el (.vperm h r o) 3 true true false (fun k => (if B k < n then A (B k) else 0, 0))
    ∧ el (.viota h r o) 2 false false false (fun k => ((k + trunc sz (sext 16 o.imm)) % 2 ^ sz, 0))
    ∧ (o.imm < n → s.vreadable [q.vd] [q.va] [o.msk] → el (.vbcE h r o) 2 true false false (fun _ => (A o.imm, 0)))
    ∧ el (.vbcI h r o) 2 false false false (fun _ => (trunc sz (sext 16 o.imm), 0))
    ∧ el (.vbcC h r o) 2 false false false (fun _ => (trunc sz ((s.coord (bits o.imm 5 2)).int (bits o.imm 1 0)), 0))
    ∧ (let by' : Int := if bit o.sub 1 then (s.coord (bits o.imm 5 2)).int (bits o.imm 1 0) else o.imm
      let fill (k : Nat) := if bit o.sub 2 then (if o.i then 0 else vget (s.vreg q.vb) sz k) else 0
      0 ≤ by' → el (.vslide h r o) 3 true (bit o.sub 2) false (fun k => (if bit o.sub 0 then
          (if k < by'.toNat then fill k else A (k - by'.toNat))
        else if k + by'.toNat < n then A (k + by'.toNat) else fill k, 0)))
    ∧ (s.vreadable [q.vd] (q.va :: if o.i then [] else [q.vb]) [o.msk] → Answers (.vsel h r o) s fun t =>
        VResult s t h 2 false q.vd (Lanes n sz fun k => (if sel k then B k else A k, 0)))
    ∧ (s.vreadable [q.vd] (q.va :: if o.sub = 1 then [q.vb] else []) [o.msk] → Answers (.vcomp h r o) s fun t =>
        let picked := (List.range n).filter sel
        VResult s t h 3 false q.vd (Lanes n sz fun k =>
          (match picked[k]? with | some i => A i | none => if o.sub = 1 then vget (s.vreg q.vb) sz k else 0, 0)))
    ∧ (∀ sh vz z0,
        let w := match o.sub with | 0 => 8 | 1 => 8 | 2 => 16 | 3 => 32 | _ => 4
        let lo : Int := match o.sub with | 0 => -128 | 1 => 0 | 2 => -32768 | 3 => -(2 ^ 31) | _ => -8
        let hi : Int := match o.sub with | 0 => 127 | 1 => 255 | 2 => 32767 | 3 => 2 ^ 31 - 1 | _ => 7
        w ≤ sz → s.vreadable [q.vd] (vsources o q true true false ++ if z0 then [] else [s.vxe.name vz]) [o.msk] →
        Answers (.vrq h r o sh vz z0) s fun t => VResult s t h 4 false q.vd (Lanes n w fun k =>
          let m := if o.i then sext 16 o.imm else sext 32 (vget (s.vreg q.vb) sz k)
          let zp := if z0 then 0 else sext 32 (vget (s.vreg (s.vxe.name vz)) sz k)
          let x := sext sz (A k) * m
          let y := (if sh = 0 then x else (x + 2 ^ (sh - 1)) / 2 ^ sh) + zp
          if sel k then (trunc w (max lo (min hi y)), if lo ≤ y ∧ y ≤ hi then 0 else 32)
          else (if o.z then 0 else vget (s.vreg q.vd) w k, 0)))
    ∧ (s.vreadable [] (q.va :: if o.i then [] else [q.vb]) (o.msk :: if vkeeps o then [r.vd] else []) →
        Answers (.vcmp h r o) s fun t => VResult s t h 2 true r.vd fun v fl => fl = 0 ∧ MaskBits n (fun k =>
          if sel k then elemCond o.sub sz (A k) (B k) else !o.z && (s.vxe.mask r.vd).getLsbD k) v)
    ∧ (s.vreadable [] [] ((if o.sub = 5 then [] else [r.va]) ++ if o.sub < 4 then [r.vb] else []) →
        Answers (.vmsk h r o) s fun t => VResult s t h 2 true r.vd fun v fl => fl = 0 ∧ MaskBits 512 (fun k =>
          let a := (s.vxe.mask r.va).getLsbD k
          let b := (s.vxe.mask r.vb).getLsbD k
          match o.sub with
          | 0 => a && b
          | 1 => a || b
          | 2 => a != b
          | 3 => a && !b
          | 4 => !a
          | 5 => decide (k < o.imm)
          | 6 => decide (o.imm ≤ k) && (s.vxe.mask r.va).getLsbD (k - o.imm)
          | _ => a) v)
    ∧ (s.vreadable [] [] [r.va] → Answers (.vmpop h r o) s fun t =>
        let set := (List.range n).filter fun i => (s.vxe.mask r.va).getLsbD i
        let v : Int := if o.sub = 1 then (match set with | [] => -1 | i :: _ => i) else set.length
        Goes s t h (s.after h) 1 s.myStream.loops (fun c C => s.enterParts c { C with coords := c.coords })
          ∧ (∀ k < 4, (t.me.coord 3 (bits o.imm 5 2)).get k =
              if k = bits o.imm 1 0 then BitVec.ofInt 24 v else (s.me.coord 3 (bits o.imm 5 2)).get k)
          ∧ ∀ e < 5, ∀ c < 16, e ≠ 3 ∨ c ≠ bits o.imm 5 2 → t.me.coord e c = s.me.coord e c)

/-- R325 to R333: the floating-point instructions, conversions, QX4 blocks, scaling and the reductions. -/
def Obligations.VectorFloats : Prop :=
  ∀ (s : State) (h : Hdr) (r : VRegs) (o : VArith), s.cur.eng = .vxe → s.cur.fw = false → s.mayIssue h →
    let q := s.renamed r
    let rm := Rm.of o.rm
    let A (i : Nat) := vget (s.vreg q.va) 32 i
    let D (i : Nat) := vget (s.vreg q.vd) 32 i
    let B (i : Nat) := if o.i then o.imm * 2 ^ 16 else vget (s.vreg q.vb) 32 i
    let sel (i : Nat) := (s.vxe.mask o.msk).getLsbD i
    let el (i : Instr) (lat : Nat) (useA useB useD : Bool) (g : Nat → Nat × Flags) : Prop :=
      s.vreadable [q.vd] (vsources o q useA useB useD) [o.msk] → Answers i s fun t =>
        VResult s t h lat false q.vd (Lanes 128 32 fun k =>
          if sel k then ((g k).1, (g k).2.vxst) else (if o.z then 0 else D k, 0))
    el (.vfadd h r o) 4 true true false (fun k => fadd rm o.sat (o.sub == 1) (A k) (B k))
    ∧ el (.vfmul h r o) 4 true true false (fun k => fmul rm o.sat (A k) (B k))
    ∧ el (.vfma h r o) 4 true true true (fun k => ffma rm o.sat (o.sub == 1) (D k) (A k) (B k))
    ∧ el (.vfminmax h r o) 4 true true false (fun k => fminmax (o.sub == 1) (A k) (B k))
    ∧ el (.vfun h r o) 10 true false false (fun k => vfun o.sub rm o.sat (A k))
    ∧ el (.vscale h r o) 4 true true false (fun k =>
        scaleb rm o.sat (A k) (sext 32 (if o.i then trunc 32 (sext 16 o.imm) else vget (s.vreg q.vb) 32 k)))
    ∧ (s.vreadable [] (q.va :: if o.i then [] else [q.vb]) (o.msk :: if vkeeps o then [r.vd] else []) →
        Answers (.vfcmp h r o) s fun t => VResult s t h 4 true r.vd fun v fl =>
          MaskBits 128 (fun k => if sel k then (fcmp o.sub (A k) (B k)).1 else !o.z && (s.vxe.mask r.vd).getLsbD k) v
          ∧ (fl = 0 ∨ fl = 1) ∧ (fl = 1 ↔ ∃ k < 128, sel k = true ∧ (fcmp o.sub (A k) (B k)).2 = true))
    ∧ (let src := o.imm / 256
      let dst := o.imm % 256
      s.vreadable [q.vd] (vsources o q true false false) [o.msk] → Answers (.vcvt h r o) s fun t =>
        VResult s t h 4 false q.vd (Lanes (4096 / max (esize src) (esize dst)) (esize dst) fun k =>
          let x := cvt (elemVal src (vget (s.vreg q.va) (esize src) k)) dst rm o.sat
          if sel k then (x.1, x.2.vxst) else (if o.z then 0 else vget (s.vreg q.vd) (esize dst) k, 0)))
    ∧ (let scale (b : Nat) := vget (s.vreg q.vb) 32 b % 256
      s.vreadable [q.vd] [q.va, q.vb] [] →
        ((∀ b < 4, scale b ≠ 255) → Answers (.vqx4Enc h r o) s fun t => VResult s t h 4 false q.vd (Lanes 64 8 fun k =>
          let x := quadEncode ((scale (k / 16) : Nat) - 127) fun j => f32 (A (4 * (k / 2) + j))
          (if k % 2 = 0 then x.1 else x.2, 0)))
        ∧ ((∃ b < 4, scale b = 255) → exec (.vqx4Enc h r o) s = .next (s.atDone.raise 4 5 0))
        ∧ Answers (.vqx4Dec h r o) s fun t => VResult s t h 4 false q.vd (Lanes 128 32 fun k =>
          let b0 := vget (s.vreg q.va) 8 (k / 4 * 2)
          let b1 := vget (s.vreg q.va) 8 (k / 4 * 2 + 1)
          let x := cvt (quadDecode b0 b1 (scale (k / 32)) (k % 4)) fmtFP32 rm o.sat
          (x.1, x.2.vxst + 64 * b2n (quadBad b0 b1))))
    ∧ (s.vreadable [q.vd] [q.va] [o.msk] →
        (Answers (.vscaleBlk h r o) s fun t => VResult s t h 4 false q.vd (Lanes 4 32 fun b =>
          (blockExp (sext 16 o.imm) (((List.range 32).filter fun j => sel (32 * b + j)).map fun j => f32 (A (32 * b + j))), 0)))
        ∧ (Answers (.vfred h r o) s fun t => VResult s t h 8 false q.vd (Lanes 1 32 fun _ =>
          tree (fredOp o.sub rm) (0, 0) ((List.range 128).map fun k =>
            (if sel k then A k else (match o.sub with | 0 => 0x80000000 | 1 => 0x7F800000 | _ => 0xFF800000), 0))))
        ∧ (let sz := r.size
          let val (k : Nat) := redVal o.sub sz (vget (s.vreg q.va) sz k)
          let x := (((List.range (vcount sz)).filter sel).map val).foldl (redOp o.sub) (redIdentity o.sub sz)
          Answers (.vred h r o) s fun t => VResult s t h 6 false q.vd (Lanes 1 sz fun _ =>
            let y := if o.sat then sat x (-(2 ^ (sz - 1))) (2 ^ (sz - 1) - 1) else x
            (trunc sz y, if x = y then 0 else 32)))
        ∧ (let sz := r.size
          let val (k : Nat) : Int := if o.sub < 2 then sext sz (vget (s.vreg q.va) sz k) else vget (s.vreg q.va) sz k
          let cs := (List.range (vcount sz)).filter sel
          let better (x y : Int) : Prop := if o.sub % 2 = 0 then x ≤ y else y ≤ x
          o.sub < 4 → ∀ i, i ∈ cs → (∀ j ∈ cs, better (val i) (val j)) → (∀ j ∈ cs, val j = val i → i ≤ j) →
            Answers (.vredi h r o) s fun t => VResult s t h 6 false q.vd (Lanes 2 sz fun k =>
              (if k = 0 then i else vget (s.vreg q.va) sz i, 0))))

/-- R306 to R312, R335 to R337, R339 and R86: loads, gathers, stores, scatters, hash lookups, reads of the
accumulator store, the spill bank, VLOOP, and the forms of VBC that reach the engine's status. -/
def Obligations.VectorMemory : Prop :=
  ∀ (s : State) (h : Hdr) (r : VRegs), s.cur.eng = .vxe → s.cur.fw = false → s.mayIssue h →
    let p := s.cur.core
    let q := s.renamed r
    let sz := r.size
    let n := vcount sz
    let kept (m : VMem) (i : Nat) : Nat × Nat := (if m.z then 0 else vget (s.vreg q.vd) sz i, 0)
    let old (m : VMem) := if m.z then [] else [q.vd]
    (∀ (m : VMem) (ext : Option Ext) (mode : VMode),
      let a := s.vaccess m ext
      let es := s.elems p a
      let sel (i : Nat) := (s.vxe.mask m.msk).getLsbD i
      let len := if mode = .packed then (a.count + 1) / 2 else a.count
      s.vreadable [q.vd] (old m) [m.msk] → s.checkAccess p 3 m.tid false a = .ok → vmode a.d.fmt sz m.pk false = some mode →
      vdescOk a.d m.soff false = true → len ≤ n → s.accessBad p a = false →
      Answers (.vld h r m ext) s fun t => VLoads s t h (vlat a.d 8) (s.vwait (s.vaddrs p a)) q.vd fun v =>
        Lanes n sz (fun i => if i < len ∧ sel i = true then
            (if mode = .packed then es.getD (2 * i) 0 % 16 + es.getD (2 * i + 1) 0 % 16 * 16
             else widen mode a.d.fmt sz (es.getD i 0), 0)
          else kept m i) v 0)
    ∧ (∀ (m : VMem) (ext : Option Ext) (mode : VMode),
      let a := s.vaccess m ext
      let sel (i : Nat) := (s.vxe.mask m.msk).getLsbD i
      s.vreadable [] [q.va] [m.msk] → s.checkAccess p 3 m.tid true a = .ok → vmode a.d.fmt sz m.pk true = some mode →
      vdescOk a.d m.soff true = true → (if mode = .packed then (a.count + 1) / 2 else a.count) ≤ n →
      s.myStream.form.length < 16 → s.unaudited p →
      Answers (.vst h r m ext) s fun t => VStores s t h a.d (((a.bitOffs.mapIdx fun i b => (i, b)).filter fun e =>
          sel (if mode = .packed then e.1 / 2 else e.1)).map fun e =>
            (e.2, vget (s.vreg q.va) (if mode = .packed then 4 else sz) e.1)))
    ∧ (∀ (m : VMem) (mode : VMode),
      let a := s.vaccess m none
      let index (i : Nat) : Int := sext 32 (vget (s.vreg q.vb) 32 i)
      let ls := vlanes a (s.vxe.mask m.msk) (s.vreg q.vb) n
      let sel (i : Nat) := (s.vxe.mask m.msk).getLsbD i
      (s.vreadable [q.vd] (q.vb :: old m) [m.msk] → s.vxCheck m sz a false ls = .inl mode →
        (∀ l ∈ ls, s.accessBad p l.2 = false) →
        Answers (.vldx h r m) s fun t =>
          VLoads s t h (vlat a.d 8) (s.vwait (ls.flatMap fun l => s.vaddrs p l.2)) q.vd fun v =>
            Lanes n sz (fun i => if i < 128 ∧ sel i = true then
                (if 0 ≤ index i then widen mode a.d.fmt sz ((s.elems p (laneAccess a (index i))).headD 0) else 0, 0)
              else kept m i) v 0)
      ∧ (s.vreadable [] [q.va, q.vb] [m.msk] → s.vxCheck m sz a true ls = .inl mode → s.myStream.form.length < 16 →
        s.unaudited p →
        Answers (.vstx h r m) s fun t =>
          VStores s t h a.d (ls.map fun l => (l.2.bitOffs.headD 0, vget (s.vreg q.va) sz l.1))))
    ∧ (∀ m : VMem,
      let d := s.me.desc m.tid
      let a : Access := { d := d, slot := 0, origin := [0, 0, 0, 0], ext := d.tile }
      let entry (k : Nat) : Nat := leNat ((s.elemAddrs p d (d.bitOff 0 [k, 0, 0, 0])).map s.byte)
      s.vreadable [q.vd] (q.va :: if m.msk ≠ 0 ∧ !m.z then [q.vd] else []) [m.msk] → hashTable d = true →
      s.checkAccess p 3 m.tid false a = .ok → s.accessBad p a = false →
      let keys := ((List.range 128).filter fun i => (s.vxe.mask m.msk).getLsbD i).map (vget (s.vreg q.va) 32)
      let read := (hashWindows (nth d.dim 0) keys).flatMap fun k => s.elemAddrs p d (d.bitOff 0 [k, 0, 0, 0])
      Answers (.vhash h r m) s fun t => VLoads s t h (vlat d 12) (s.vwait read) q.vd fun v =>
        Lanes 128 32 (fun i => if (s.vxe.mask m.msk).getLsbD i then
            (hashLookup entry (nth d.dim 0) (vget (s.vreg q.va) 32 i), 0)
          else (if m.z then 0 else vget (s.vreg q.vd) 32 i, 0)) v 0)
    ∧ (∀ an cr half xe val,
      let row := (s.coord cr).int 1
      s.vreadable [q.vd] [] [] → an < (s.hdrOf p).acct → (xe = false → 0 ≤ row ∧ row ≤ 127) →
      (s.tileEarly h an = true → (s.hdrOf p).check = true → exec (.vlda h r an cr half xe val) s = .next (s.atDone.raise 2 7 0))
      ∧ (s.tileEarly h an = true → (s.hdrOf p).check = false → Answers (.vlda h r an cr half xe val) s fun t =>
          Late s t h (s.vwait []) ∧ ∃ v, t.me.vxeS.pend =
            (s.me.vxeS.pend ++ [({ due := s.gtc + 6, mask := false, reg := q.vd, value := v } : VLanding)]).map
              fun l => { l with due := l.due + s.vwait [] })
      ∧ (s.tileEarly h an = false → Answers (.vlda h r an cr half xe val) s fun t =>
          VLoads s t h 6 (s.vwait []) q.vd fun v =>
            if xe then Lanes 128 16 (fun i => (trunc 16 (s.me.mxeS.exp an i), 0)) v 0
            else Lanes 64 64 (fun i =>
              let x := s.me.mxeS.at' an row.toNat (64 * b2n half + i)
              (if val then (match x.cls with
                | .finite => trunc 64 x.v
                | .posInf => 2 ^ 63 - 1
                | .negInf => 2 ^ 63
                | .nan => 0) else x.raw, 0)) v 0))
    ∧ ((s.hdrOf p).spillbank = true →
      (s.vreadable [] [q.va] [] → Answers (.vspill h r) s fun t =>
        Goes s t h (s.after h) 1 s.myStream.loops (fun c C => s.enterParts c { C with vxeS := { C.vxeS with spill := c.vxeS.spill } })
          ∧ ∀ k, t.me.vxeS.spill.get 0 k = if k = r.vb then s.vreg q.va else s.me.vxeS.spill.get 0 k)
      ∧ (s.vreadable [q.vd] [] [] → Answers (.vfill h r) s fun t =>
        VResult s t h 3 false q.vd fun v fl => v = s.me.vxeS.spill.get 0 r.vb ∧ fl = 0))
    ∧ ((s.hdrOf p).spillbank = false → s.vreadable [q.vd] [q.va] [] → ∀ i ∈ [Instr.vspill h r, .vfill h r],
        exec i s = .next (s.raise 5 6 0))
    ∧ (∀ (rb rlm1 rs body : Nat) (count : LoopCount), 1 ≤ body →
      let first := s.myStream.pc + h.n
      let last := first + body - 1
      let c : Int := match count with
        | .imm n => n
        | .coord r k => ((s.coord r).get k).toInt
        | .operand code => (s.operand code).toInt
      s.vloopLegal rb (rlm1 + 1) first last = true → rb + rlm1 + 1 ≤ (s.hdrOf p).valloc →
      (0 < c → Answers (.vloop h rb rlm1 rs body count) s fun t =>
        Goes s t h first 1 s.myStream.loops s.enterParts
          ∧ t.me.vxeS.vloop = some { count := c.toNat, iter := 0, start := first, stop := last, rb := rb, rlm1 := rlm1, rs := rs })
      ∧ (c ≤ 0 → Answers (.vloop h rb rlm1 rs body count) s fun t =>
        Goes s t h (last + 1) 1 s.myStream.loops s.enterParts ∧ t.me.vxeS.vloop = none))
    ∧ ∀ o : VArith,
      (s.vreadable [q.vd] [] [] → Answers (.vbcSt h r o) s fun t => VResult s t h 2 false q.vd fun v fl => fl = 0
        ∧ v.toNat = (match o.imm with | 0 => s.vxe.vxst | 1 => s.vxe.vxctl | _ => s.vxe.vbstall).toNat)
      ∧ (s.vreadable [] [q.va] [] →
        (vget (s.vreg q.va) 64 0 < 32 → Answers (.vbcWc h r o) s fun t =>
          Goes s t h (s.after h) 1 s.myStream.loops (fun c C => s.enterParts c { C with vxeS := { C.vxeS with vxctl := c.vxeS.vxctl } })
            ∧ t.me.vxeS.vxctl.toNat = vget (s.vreg q.va) 64 0)
        ∧ (32 ≤ vget (s.vreg q.va) 64 0 → exec (.vbcWc h r o) s = .next (s.atDone.raise 4 5 0)))
      ∧ Answers (.vbcClr h r o) s fun t =>
          Goes s t h (s.after h) 1 s.myStream.loops (fun c C => s.enterParts c { C with vxeS := { C.vxeS with vxst := c.vxeS.vxst } })
            ∧ t.me.vxeS.vxst = s.me.vxeS.vxst &&& ~~~(BitVec.ofNat 64 o.imm)

/-! ## Faults, events and the firmware context -/

/-- R426 to R428: an engine fault of a running core halts its user context, and changes nothing else of the core; a
second fault, and one of a core that runs no task, replaces nothing. Once everything that the SCU, the MXE and the
VXE had issued has completed (R297), the fault frame of Table 16.1 is written at 0xF000 of its firmware RAM and
nothing else of memory, and event KIND 1 is posted; not on the tick of the fault. -/
def Obligations.EngineFaultEntry : Prop :=
  (∀ (s : State) (p : Nat) (e : Engine) (cause ecode tcode foff : Nat),
    let c := s.core p
    let t := s.engineFault p (engIdx e) cause ecode tcode foff
    exec (.engineFault p e cause ecode foff) s = .next (s.engineFault p (engIdx e) cause ecode 0 foff)
    ∧ (c.halted = true ∨ c.task = none → t = s)
    ∧ (c.halted = false → c.task.isSome = true →
      t.core p = { c with
        halted := true
        fault := some { eng := engIdx e, cause := cause, ecode := ecode, tcode := tcode, foff := foff, tick := s.gtc } }
      ∧ (∀ q, q ≠ p → t.core q = s.core q) ∧ { t with cores := s.cores, taster := s.taster } = s))
  ∧ ∀ (s : State) (r : Faulting), s.me.fault = some r → s.me.calm → s.unaudited s.cur.core → s.me.stores = [] →
      s.me.vxeS.traps = [] →
    let p := s.cur.core
    let c := s.me
    let f := fwBase p + 0xF000
    (s.gtc ≤ r.tick → Answers .resultLand s fun t => t.me.fault = some r ∧ SameBytes s t ∧ t.me.fwq = c.fwq)
    ∧ (p < 1024 → r.tick < s.gtc → c.mxeS.flight = [] → c.user.pend = [] → c.vxeS.pend = [] →
      r.cause < 256 → r.ecode < 256 → r.tcode < 2 ^ 16 → r.foff < 2 ^ 24 → r.eng < 5 → r.tick < 2 ^ 64 →
      (∀ k < 10, c.count k < 64) → (∀ k < 5, (c.userStream k).loops.length ≤ 4) →
      Answers .resultLand s fun t =>
        t.me.fault = none ∧ t.me.halted = c.halted
        ∧ t.num f 2 = 0x0100 ∧ t.num (f + 2) 1 = r.cause ∧ t.num (f + 3) 1 = r.eng
        ∧ t.num (f + 4) 4 = 0 ∧ t.num (f + 8) 1 = r.ecode ∧ t.num (f + 9) 3 = r.foff ∧ t.num (f + 0xC) 4 = r.tcode
        ∧ t.num (f + 0x10) 8 = r.tick
        ∧ (∀ k < 10, t.num (f + 0x18) 8 / 2 ^ (6 * k) % 64 = c.count k)
        ∧ (∀ k < 5, (c.userStream k).nextPc < 2 ^ 32 → t.num (f + 0x40 + 128 * k) 4 = (c.userStream k).nextPc)
        ∧ (∀ a, a < f ∨ f + 0x2C0 ≤ a → t.byte a = s.byte a)
        ∧ (c.fwq.length < 16 → t.me.fwq = c.fwq ++ [{ kind := 1, s1 := 0, s2 := 0, s3 := 0 }])
        ∧ (∀ k < 5, t.me.userStream k = c.userStream k)
        ∧ t.me.user = c.user ∧ t.me.lceS = c.lceS ∧ t.me.sceS = c.sceS
        ∧ (∀ q, q ≠ p → t.core q = s.core q) ∧ t.tasks = s.tasks ∧ t.queues = s.queues)

/-- R208 and R429: RETF with F = 1 in a firmware context whose user context is stopped by an engine fault, the
frame of which has been written, ends the stop: with ACT 0 every stream that has not ended resumes at the PC of its entry of the frame, with the
loop levels there; with ACT 1 the front end is asked to end the task, and the core stays stopped. -/
def Obligations.FaultReturn : Prop :=
  ∀ (s : State) (h : Hdr), s.cur.eng = .scu → s.cur.fw = true → s.mayIssue h → s.me.halted = true →
    s.me.fault = none →
    let f := fwBase s.cur.core + 0xF000
    (bit (s.num (f + 4) 4) 0 = false → Answers (.retf h true) s fun t =>
      t.me.halted = false
      ∧ (∀ e < 5, (s.me.userStream e).ended = false →
          (t.me.userStream e).pc = s.num (f + 0x40 + 128 * e) 4 ∧ (t.me.userStream e).at? = none
          ∧ (t.me.userStream e).atd = bit (s.num (f + 0x44 + 128 * e) 4) 0
          ∧ (t.me.userStream e).loops.length = min 4 (bits (s.num (f + 0x44 + 128 * e) 4) 11 8)
          ∧ (t.me.userStream e).sidx = (s.me.userStream e).sidx)
      ∧ (∀ e < 5, (s.me.userStream e).ended = true → t.me.userStream e = s.me.userStream e)
      ∧ SameBytes s t ∧ t.tasks = s.tasks)
    ∧ (bit (s.num (f + 4) 4) 0 = true → ∀ k task, s.me.task = some k → s.task? k = some task → task.cutReq = none →
      Answers (.retf h true) s fun t =>
        t.me.halted = true ∧ SameBytes s t
        ∧ (t.task? k).map (fun x => x.cutReq.map fun r => (r.ends, r.at?))
            = some (some (true, some (s.gtc + if task.podbar.isSome then 16384 else 2048))))

/-- R175: the firmware context of the core of the step, idle and with an event waiting, starts on the oldest
one at FWVEC; a context that is busy, or has been halted, starts nothing. R176: a fault of the firmware context
halts it, and the front end is asked to end the task on its core with FIRMWARE-FAULT; TRAP is such a fault there. -/
def Obligations.FirmwareContext : Prop :=
  (∀ s : State, Answers .firmwareContextFault s fun t =>
    t.me.fwDead = true ∧ t.me.fwBusy = false ∧ SameBytes s t ∧ (∀ q, q ≠ s.cur.core → t.core q = s.core q)
    ∧ (s.me.task = none → t.tasks = s.tasks)
    ∧ ∀ k task, s.me.task = some k → s.task? k = some task → task.cutReq = none →
        (t.task? k).map (fun x => x.cutReq.map fun r => (r.ends, r.fwFault, r.detail)) = some (some (true, true, s.me.vcore)))
  ∧ (∀ (s : State) (h : Hdr) (code : Nat), s.cur.eng = .scu → s.cur.fw = true → s.mayIssue h →
      exec (.trap h code) s = .next (s.atDone.firmwareFault s.cur.core))
  ∧ ∀ s : State,
    (∀ ev q, s.me.fwBusy = false → s.me.fwDead = false → s.me.fwq = ev :: q → Answers .firmwareEventStart s fun t =>
      t.me.fwBusy = true ∧ t.me.fws.pc = s.me.fwvec ∧ t.me.fwq = q ++ s.me.fwWait.take 1
      ∧ t.me.fw.operand 16 = BitVec.ofNat 64 ev.kind ∧ t.me.fw.operand 17 = ev.s1 ∧ t.me.fw.operand 18 = ev.s2
      ∧ t.me.fw.operand 19 = ev.s3 ∧ (∀ k < 16, t.me.fw.operand k = 0)
      ∧ OnlyCore s t fun c C => { C with fw := c.fw, fws := c.fws, fwBusy := c.fwBusy, fwq := c.fwq, fwWait := c.fwWait })
    ∧ (s.me.fwBusy = true ∨ s.me.fwDead = true ∨ s.me.fwq = [] → exec .firmwareEventStart s = .next s)

/-! ## Cores and tasks -/

/-- The steps of a core at their ticks. R25 to R27: arriving tokens enter their queues, where a count of 63 stands.
R94, R173 and R305: results that are due land, with one of a named register that a later one has passed kept
out; R193: the oldest releasing store that waits is performed once what it covers has been acknowledged; R342: a
trap that is due is raised. R23 and R24: a give that has fallen due is performed once both queues
have room. R471: waiting requests are promoted.
R207, R292, R293, R412 and R413: from the tick of a yield request every core of the task that is not cut
reads YREQ; a core that has taken a yield point halts issue on its tick, and one whose task has run to the
forced tick halts there, each while another core of the task still runs; and a slice runs out. -/
def Obligations.CoreSteps : Prop :=
  (∀ s : State,
      let p := s.cur.core
      let c := s.me
      (Answers .tokenPassThrough s fun t =>
        (∀ q, c.count q ≤ 63 → t.me.count q = min 63 (c.count q
            + (c.pass.filter fun x => decide (x.arrive ≤ s.gtc) && x.queue == q).length))
        ∧ t.me.pass = c.pass.filter (fun x => !decide (x.arrive ≤ s.gtc))
        ∧ OnlyCore s t fun c C => { C with iq := c.iq, pass := c.pass })
      ∧ (c.calm → s.unaudited p → (∀ x ∈ c.vxeS.traps, s.gtc < x.due) → c.fault = none → c.stores = [] →
        Answers .resultLand s fun t =>
          (∀ fw, ((t.me.ctx fw).pend = (c.ctx fw).pend.filter fun l => !decide (l.due ≤ s.gtc))
            ∧ ∀ l, ((c.ctx fw).pend.filter fun l => decide (l.due ≤ s.gtc)) = [l] →
                (∀ k, (t.me.ctx fw).slots.get 0 k = if k = l.slot then l.value else (c.ctx fw).slots.get 0 k)
                ∧ ∀ r, (t.me.ctx fw).named.get 0 r =
                    if l.named = some r ∧ (c.ctx fw).seqs.get 0 r ≤ l.seq + 1 then l.value else (c.ctx fw).named.get 0 r)
          ∧ (t.me.vxeS.pend = c.vxeS.pend.filter fun l => !decide (l.due ≤ s.gtc))
          ∧ (∀ l, (c.vxeS.pend.filter fun l => decide (l.due ≤ s.gtc)) = [l] →
              (∀ r, t.me.vxeS.v.get 0 r = if l.mask = false ∧ r = l.reg then l.value else c.vxeS.v.get 0 r)
              ∧ ∀ r, t.me.vxeS.m.get 0 r = if l.mask = true ∧ r = l.reg then l.value.setWidth 512 else c.vxeS.m.get 0 r)
          ∧ OnlyCore s t fun c C => { C with user := c.user, fw := c.fw, vxeS := c.vxeS })
      ∧ (∀ x, c.calm → s.unaudited p → (∀ x ∈ c.vxeS.traps, s.gtc < x.due) → c.fault = none → c.stores = [x] →
          Answers .resultLand s fun t =>
            if s.storeReady p = true then t.me.stores = [] ∧ ∀ a, t.byte a = (s.write x.cells).byte a
            else t.me.stores = [x] ∧ SameBytes s t)
      ∧ (∀ x xs, c.calm → s.unaudited p → (c.vxeS.traps.filter fun x => decide (x.due ≤ s.gtc)) = x :: xs →
          c.task.isSome = true → c.halted = false → c.stores = [] →
          Answers .resultLand s fun t =>
            t.me.halted = true
              ∧ t.me.fault = some { eng := 3, cause := 8, ecode := 8, tcode := 0, foff := x.foff, tick := s.gtc }
              ∧ SameBytes s t ∧ ∀ q, q ≠ p → t.core q = s.core q)
      ∧ (∀ e g, e < 5 → s.unaudited p → (∀ k < 5, (c.userStream k).form = [] ∧ (k ≠ e → (c.userStream k).gives = [])) →
          (c.userStream e).gives = [g] → c.giveDue e (c.userStream e) g s.gtc = true → c.fault = none →
          (c.giveRoom e g = true → Answers .giveOverflowRelease s fun t =>
            (t.me.userStream e).gives = []
            ∧ t.me.pass = c.pass
                ++ List.replicate g.gn { queue := (c.fwdOut e).1, arrive := s.gtc + 1 + (c.fwdOut e).2, clk := g.clk }
                ++ List.replicate g.gp { queue := (c.backOut e).1, arrive := s.gtc + 1 + (c.backOut e).2, clk := g.clk }
            ∧ OnlyCore s t fun c C => { C.setStream (engOf e) false { C.userStream e with gives := (c.userStream e).gives } with
                pass := c.pass, lceS := { C.lceS with slots := c.lceS.slots }, sceS := { C.sceS with slots := c.sceS.slots } })
          ∧ (c.giveRoom e g = false → Answers .giveOverflowRelease s fun t => OnlyCore s t fun _ C => C))
      ∧ Answers .arbitrationPromote s fun t =>
          t.plat.arbAge = s.plat.arbAge.map (fun e => (e.1, true)) ∧ { t with plat := { t.plat with arbAge := s.plat.arbAge } } = s)
  ∧ ∀ (s : State) (id : Nat) (x : Task), s.task? id = some x →
    let p := s.cur.core
    let halts (t : State) (kind : Nat) : Prop := t.me.cut = some s.gtc ∧ t.me.cutBy = kind ∧ t.me.yreq = false
      ∧ OnlyCore s t fun c C => { C with cut := c.cut, cutBy := c.cutBy, yreq := c.yreq }
    let shared : Prop := s.me.task = some id ∧ s.me.cut = none ∧ (∀ q ∈ x.cores, (s.core q).sceS.dirt = [])
      ∧ ∃ q ∈ x.cores, q ≠ p ∧ (s.core q).cut = none
    (∀ r, x.cutReq = some r → r.yield = true →
      (r.ty ≤ s.gtc → Answers (.yieldRequest id) s fun t =>
        (∀ q, t.core q = if q ∈ x.cores ∧ (s.core q).cut = none then { s.core q with yreq := true } else s.core q)
        ∧ { t with cores := s.cores } = s)
      ∧ (s.gtc < r.ty → exec (.yieldRequest id) s = .next s))
    ∧ (∀ a, shared → s.me.cutAt = some a → a ≤ s.gtc → Answers .yieldHalt s fun t => halts t s.me.cutBy)
    ∧ (∀ f, s.me.task = some id → x.forcedTick = some f →
        (shared → f ≤ s.gtc → Answers .forcedCut s fun t => halts t (if s.me.cutAt.isSome then s.me.cutBy else 4))
        ∧ (s.gtc < f → exec .forcedCut s = .next s))
    ∧ (x.phase = .running → x.slice ≠ 0 →
        (x.started + x.slice ≤ s.gtc → (∀ e ∈ s.tasks, ∀ y, e.2 = some y → y.waitsCores = false) →
          Answers (.sliceExpiry id) s fun t => t.task? id = some { x with expired := true } ∧ OnlyTasks s t [id])
        ∧ (s.gtc < x.started + x.slice → exec (.sliceExpiry id) s = .next s))

/-- R19, R21, R35, R363, R404, R408 to R411, R431, R432 and R442: the life of a task. It becomes ready when
nothing it waits for is left; one that has waited 2^20 ticks reserves cores; the first in order that fits
takes its cores all together, and begins on them in the start state; a cut halts every core of it; and a task
whose cores have finished, or that is being ended while it is held, leaves with its root logged. -/
def Obligations.TaskSteps : Prop :=
  ∀ (s : State) (id : Nat) (x : Task),
    (s.task? id = some x →
      (x.phase = .waiting → x.kind = .kernel → x.cutReq = none → x.cores = [] →
        (∀ e ∈ s.tasks, ∀ y, e.2 = some y → y.phase ≠ .running) →
        (s.readyNow x = true → Answers (.taskReady id) s fun t =>
          (∃ d, t.task? id = some { x with phase := .ready s.gtc d, readyAt := s.gtc } ∧ ∀ k, d = some k → s.capable x k = true ∨ ∀ j < 32, s.capable x j = false)
            ∧ OnlyTasks s t [id])
        ∧ (s.readyNow x = false → Answers (.taskReady id) s fun t => OnlyTasks s t []))
      ∧ (x.waitsCores = true → s.placeFor x = none →
          (x.readyAt + 2 ^ 20 ≤ s.gtc → Answers (.reservationStart id) s fun t =>
            t.task? id = some { x with reserving := true } ∧ OnlyTasks s t [id])
          ∧ (s.gtc < x.readyAt + 2 ^ 20 → exec (.reservationStart id) s = .next s))
      ∧ (∀ a d, x.phase = .ready a d → x.cores ≠ [] → x.cores.Nodup → x.restore = none → (s.queue x.queue).entry.slice = 0 →
          Answers (.taskPlacement id) s fun t =>
            (∃ y, t.task? id = some y ∧ y.phase = .running ∧ y.started = s.gtc ∧ y.startAt = s.gtc ∧ y.slice = 0 ∧ y.expired = false
              ∧ y.clock = x.clock ∧ y.pendInc = [] ∧ y.cores = x.cores)
            ∧ (∀ v p, x.cores[v]? = some p → t.core p = startedCore (s.core p) id v s.gtc x
                ∧ ∀ a, spdBase p ≤ a → a < spdBase p + 65536 * x.hdr.spd → t.byte a = 0)
            ∧ (∀ p, p ∉ x.cores → t.core p = s.core p)
            ∧ ∀ a, (∀ p ∈ x.cores, a < spdBase p ∨ spdBase p + 65536 * x.hdr.spd ≤ a) → t.byte a = s.byte a)
      ∧ (∀ r a, x.cutReq = some r → r.at? = some a →
          (s.gtc < a → exec (.stopCut id) s = .next s ∧ exec (.taskEnd id) s = .next s)
          ∧ (a ≤ s.gtc → ∀ i, i = Instr.stopCut id ∨ (i = .taskEnd id ∧ r.ends = true) →
              (x.phase = .running → (∀ p ∈ x.cores, (s.core p).sceS.dirt = []) → (∃ p ∈ x.cores, (s.core p).mxeS.flight ≠ []) →
                Answers i s fun t =>
                  (∀ p, t.core p = if p ∈ x.cores ∧ (s.core p).cut = none then
                      { s.core p with cut := some s.gtc, cutBy := 1, yreq := false } else s.core p)
                  ∧ t.task? id = some { x with cutReq := some { r with kind := 1 } } ∧ SameBytes s t)
              ∧ (x.phase = .held → r.ends = true → s.loggable id x → Answers i s (TaskLeft s · id x))
              ∧ (x.phase = .waiting → r.ends = false → r.stops = [] → Answers i s fun t =>
                  t.task? id = some { x with phase := .heldUnplaced, cutReq := some { r with saves := [] } } ∧ OnlyTasks s t [id])))
      ∧ (x.phase = .running → x.spec = none → (∀ p ∈ x.cores, (s.core p).finished = true ∧ (s.core p).sceS.dirt = []) →
          s.loggable id x → Answers (.taskRetirement id) s (TaskLeft s · id x))
      ∧ (x.phase = .running → (∃ p ∈ x.cores, (s.core p).finished = false) → exec (.taskRetirement id) s = .next s)
      ∧ (∀ src off mask len, x.kind = .cellar src off mask len → x.phase = .waiting → s.readyNow x = true →
          s.isBad (s.fedAt src) len = false → off + len ≤ 96 * 2 ^ 20 → Answers (.cellarCopy id) s fun t =>
            ∃ u : State, (∀ d < 32, bit mask d = true → (s.die d).present = true → ∀ i < len,
                u.byte (celBase d + off + i) = s.under 0 (s.fedAt src + i))
              ∧ (∀ a, (∀ d < 32, bit mask d = true → (s.die d).present = true →
                  a < celBase d + off ∨ celBase d + off + len ≤ a) → u.byte a = s.byte a)
              ∧ u.tasks = s.tasks ∧ t = ((u.dropTask id x).completePart x.queue x.pseq 0 Verdict.ok).settleDisable x.queue))
    ∧ (∀ ps, s.startOrder.find? (fun e => s.turn e.2 && (s.placeFor e.2).isSome) = some (id, x) → s.placeFor x = some ps →
        Answers .taskStart s fun t =>
          t.task? id = some { x with cores := ps, reserving := false, after := none, started := s.gtc }
          ∧ (∀ p, p ∈ ps → (t.core p).task = some id ∧ (t.core p).fw = (s.core p).fw)
          ∧ (∀ p, p ∉ ps → t.core p = s.core p) ∧ (∀ k, k ≠ id → t.task? k = s.task? k)
          ∧ { t with tasks := s.tasks, cores := s.cores } = s)
    ∧ (s.startOrder.find? (fun e => s.turn e.2 && (s.placeFor e.2).isSome) = none → exec .taskStart s = .next s)

/-- R417, R421, R423 and R424: a prediction whose conditions all hold starts a speculation in a free shadow
context, on cores that hold no task; a discard frees its cores and its context and counts its reason, and
nothing else tells of it. -/
def Obligations.Speculations : Prop :=
  (∀ (s : State) (π : Prediction) (fs : List PktField) (k : Kernel) (u : State) (n : Nat) (ps : List Nat),
    let q := s.cur.queue
    let h := pktHdr q false (predicted π.body)
    let f := launchOf fs
    let x := taskOf' q (u.queue q).pseq u.order (u.queue q).entry.asid false none [] f k h.raw
    let key := specKey n f.taskId
    (s.queue q).pred = some π →
    (s.mayStart q π = false → exec .speculationStart s = .next s)
    ∧ (s.mayStart q π = true → checkPacket h false = .ok fs → badField f = none →
      s.prepare (s.queue q).entry.asid f [] = (.ok k, u) → s.freeShadow = some n → u.placeFor x = some ps →
      k.hdr.speculable = true → u.readyNow x = true → Answers .speculationStart s fun t =>
        (∃ y, t.shadows.get none n = some y ∧ y.queue = q ∧ y.task = key ∧ y.body = π.body ∧ y.frames = [] ∧ y.done = false
          ∧ y.hit = false)
        ∧ (∃ y, t.task? key = some y ∧ y.phase = .running ∧ y.spec = some n ∧ y.cores = ps ∧ y.started = u.gtc)
        ∧ t.regs = { u.regs with ttcnt := u.regs.ttcnt.modify 0 fun n => (n + 1) % 2 ^ 64 }
        ∧ (t.queue q).specKept = false ∧ (t.queue q).specDue = false ∧ (∀ r, r ≠ q → t.queue r = u.queue r)))
  ∧ ∀ (s : State) (q : Nat) (why : DiscardReason),
      (s.specOf q = none → exec (.speculationDiscard q why) s = .next s)
      ∧ ∀ k x, s.specOf q = some (k, x) →
          let ps := ((s.task? x.task).map (·.cores)).getD []
          let due := match why with
            | .watch => x.hit = true
            | .capacity => x.isOver = true
            | _ => True
          let count := match why with
            | .mismatch => 2
            | .watch => 3
            | .capacity => 4
            | .cores => 5
            | .queue => 6
          (¬ due → exec (.speculationDiscard q why) s = .next s)
          ∧ (due → Answers (.speculationDiscard q why) s fun t =>
              t.shadows.get none k = none ∧ t.task? x.task = none ∧ (∀ j, j ≠ x.task → t.task? j = s.task? j)
              ∧ (∀ p, (p ∈ ps → (t.core p).task = none) ∧ (p ∉ ps → t.core p = s.core p))
              ∧ t.pool = s.pool ++ x.frames.map (fun f => f.2.2)
              ∧ t.regs = { s.regs with ttcnt := s.regs.ttcnt.modify count fun n => (n + 1) % 2 ^ 64 }
              ∧ SameBytes s t ∧ t.queues = s.queues ∧ t.out = s.out)

/-! ## Links, the router and time -/

/-- R13, R142, R144, R147, R148, R152, R153, R168 to R170 and R454: the steps of one port. It trains toward the peer
that Table 7.1 gives it and fails toward another, and not at all where it has failed or its die is held in reset; a
frame in order is taken and acknowledged, one that does not check or comes too early asks for a replay; resent
frames keep their order; flow is reported every 256 ticks; bulk is promoted and the detector fires at their ages; keys
change at their counters; and software may have a failed port trained anew. -/
def Obligations.Links : Prop :=
  ∀ s : State,
    (∀ q reported delay keyed,
      let x := s.fabric.port q
      let trains : Prop := q < 46 ∧ s.board.single = false ∧ x.st < 2 ∧ (s.die (portDie q)).present = true
      (¬ trains → exec (.linkTraining q reported delay keyed) s = .next s)
      ∧ (trains → reported = portPeer s.peerId q → Answers (.linkTraining q reported delay keyed) s fun t =>
        t.fabric.port q = (if keyed then
            { x with st := 2, keyed := true, delay := delay, keyGen := x.keyGen + 1, keyFrames := 0, switchAt := none
                     tagFails := 0, reportAt := s.gtc }
          else { x with st := 1, delay := delay })
        ∧ t.fabric.wire = s.fabric.wire ++ [.msg q (.peerId s.peerId)] ∧ t.fabric.route = s.fabric.route
        ∧ OnlyPort s t q fun c _ => c)
      ∧ (trains → reported ≠ portPeer s.peerId q → Answers (.linkTraining q reported delay keyed) s fun t =>
          PortFailed s t q))
    ∧ (∀ (q : Nat) (f : Frame),
        let x := s.fabric.port q
        let n := (if x.failWin = s.gtc / 2 ^ 30 then x.tagFails else 0) + b2n (!f.tagOk)
        (x.st ≠ 2 → exec (.frameReceive q f) s = .next s)
        ∧ (x.st = 2 → (f.tagOk && f.codeOk) = false → n < 8 → Answers (.frameReceive q f) s fun t =>
            t.fabric.wire = s.fabric.wire ++ [.msg q (.replayFrom x.rxFctr)] ∧ (t.fabric.port q).lerr = (x.lerr + 1) % 2 ^ 16
            ∧ OnlyPort s t q fun c C => { C with lerr := c.lerr, tagFails := c.tagFails, failWin := c.failWin })
        ∧ (x.st = 2 → (f.tagOk && f.codeOk) = false → 8 ≤ n → Answers (.frameReceive q f) s fun t => (t.fabric.port q).st = 3)
        ∧ (x.st = 2 → f.tagOk = true → f.codeOk = true →
            (f.fctr < x.rxFctr → exec (.frameReceive q f) s = .next s)
            ∧ (x.rxFctr < f.fctr → Answers (.frameReceive q f) s fun t =>
                t.fabric.wire = s.fabric.wire ++ [.msg q (.replayFrom x.rxFctr)] ∧ OnlyPort s t q fun _ C => C)
            ∧ (f.fctr = x.rxFctr → f.tv = false →
                (∀ k, f.fv = false → f.packets = [k] → Answers (.frameReceive q f) s fun t =>
                  let y := t.fabric.port q
                  y.rxFctr = x.rxFctr + 1 ∧ t.fabric.route = s.fabric.route
                  ∧ t.fabric.wire = s.fabric.wire ++ [.msg q (.ack (x.rxFctr + 1))]
                  ∧ (headerOk k = false → y.lerr = (x.lerr + 1) % 2 ^ 16 ∧ y.pool = x.pool ∧ y.siding = x.siding
                      ∧ y.own = { x.own with rcv := (x.own.rcv + flits k) % 2 ^ 32, freed := (x.own.freed + flits k) % 2 ^ 32 })
                  ∧ (headerOk k = true → k.sid = true ∨ k.type = 0x12 → y.pool = x.pool
                      ∧ y.siding = x.siding ++ [{ pkt := k, at' := s.gtc, pool := some q }]
                      ∧ y.own = { x.own with srcv := (x.own.srcv + flits k) % 2 ^ 32 })
                  ∧ (headerOk k = true → k.sid = false → k.type ≠ 0x12 → y.siding = x.siding
                      ∧ y.pool = x.pool ++ [{ pkt := k, at' := s.gtc, pool := some q }]
                      ∧ y.own = { x.own with rcv := (x.own.rcv + flits k) % 2 ^ 32 })
                  ∧ OnlyPort s t q fun c C => { C with
                      rxFctr := c.rxFctr, lerr := c.lerr, pool := c.pool, siding := c.siding, own := c.own })
                ∧ (f.fv = true → f.packets = [] → x.queue = [] → Answers (.frameReceive q f) s fun t =>
                    (t.fabric.port q).rxFctr = x.rxFctr + 1
                    ∧ (t.fabric.port q).applied =
                        if (f.freed + 2 ^ 32 - x.applied.freed) % 2 ^ 32 < 2 ^ 31 ∧ (f.sfreed + 2 ^ 32 - x.applied.sfreed) % 2 ^ 32 < 2 ^ 31
                        then { rcv := f.rcv, freed := f.freed, srcv := f.srcv, sfreed := f.sfreed } else x.applied))))
    ∧ (∀ q fctr, Answers (.frameReplay q fctr) s fun t =>
        (t.fabric.port q).replay = (s.fabric.port q).replay.filter (fun r => decide (fctr ≤ r.fctr))
        ∧ t.fabric.wire = s.fabric.wire
            ++ ((s.fabric.port q).replay.filter fun r => decide (fctr ≤ r.fctr)).map (Wire.frame q)
        ∧ OnlyPort s t q fun c C => { C with replay := c.replay })
    ∧ (let q := s.cur.port
       let x := s.fabric.port q
       let becomes (i : Instr) (y : Port) : Prop := Answers i s fun t => t.fabric.port q = y ∧ LinksQuiet s t
         ∧ { t with fabric := { t.fabric with ports := s.fabric.ports } } = s
         ∧ ∀ k, k ≠ q → t.fabric.port k = s.fabric.port k
       (x.st ≠ 2 ∨ s.gtc < x.reportAt + 256 → exec .flowReportTimer s = .next s)
       ∧ (x.idle → x.reportAt + 256 ≤ s.gtc → Answers .flowReportTimer s fun t =>
           ∃ fr, t.fabric.wire = s.fabric.wire ++ [.frame q fr] ∧ fr.report = some x.own ∧ fr.packets = []
             ∧ fr.fctr = x.txFctr ∧ (t.fabric.port q).txFctr = x.txFctr + 1 ∧ (t.fabric.port q).replay = x.replay ++ [fr]
             ∧ (t.fabric.port q).report = none ∧ (t.fabric.port q).reportAt = s.gtc
             ∧ ∀ k, k ≠ q → t.fabric.port k = s.fabric.port k)
       ∧ becomes .bulkAgePromote (if x.promoted = false ∧ x.queue.any (fun h => pktClass h.pkt == 2) = true
             ∧ x.bulkSince + 512 ≤ s.gtc then { x with promoted := true, slots := 0 } else x)
       ∧ (∀ h hs, x.pool = h :: hs → becomes .detectorFire
           (if h.at' + 4096 ≤ s.gtc ∧ x.fired = false then { x with fired := true, detf := (x.detf + 1) % 2 ^ 16 } else x))
       ∧ (x.st = 2 → 2 ^ 39 ≤ x.keyFrames → x.switchAt = none → Answers .keyUpdateStart s fun t =>
           (t.fabric.port q).switchAt = some (x.txFctr + 4096)
           ∧ t.fabric.wire = s.fabric.wire ++ [.msg q (.keyUpdate (x.txFctr + 4096))]
           ∧ OnlyPort s t q fun c C => { C with switchAt := c.switchAt })
       ∧ (x.st ≠ 2 ∨ x.keyFrames < 2 ^ 39 ∨ x.switchAt ≠ none → exec .keyUpdateStart s = .next s)
       ∧ (x.st ≠ 2 ∨ (∀ c, x.switchAt = some c → x.txFctr < c) → exec .keySwitch s = .next s)
       ∧ (∀ c, x.st = 2 → x.switchAt = some c → c ≤ x.txFctr → x.queue = [] → x.report = none → x.time = false →
           becomes .keySwitch { x with keyGen := x.keyGen + 1, keyFrames := 0, switchAt := none })
       ∧ Answers .linkFail s (PortFailed s · q)
       ∧ becomes .pstatRetrain (if x.st = 3 then { x with st := 1 } else x))

/-- R134 to R136, R146, R149 to R151, R155, R164, R165, R200, R228, R254 and R358: what a module does with a packet.
The router gives it to the port of lowest score, which sends it, or returns it as UNREACH; a request that has
arrived at its home is performed on memory, counted in the commitments of its task or as an orphan, and answered:
OK, or ACCESS where the home refuses it. A barrier's arrival is counted, and its release raises the generation. -/
def Obligations.FabricPackets : Prop :=
  (∀ (s : State) (h : Held), s.nextRouted = some h → h.pool = none →
    (s.choosePort h.pkt = none → isRequest h.pkt = true → Answers .packetRoute s fun t =>
      t.fabric.route = s.fabric.route.erase h ++ [{ pkt := answerOf h.pkt s.peerId 6 0 [], at' := s.gtc, pool := none }]
      ∧ { t with fabric := { t.fabric with route := s.fabric.route } } = s)
    ∧ ∀ q k, s.choosePort h.pkt = some (q, k) → (s.fabric.port q).idle →
        ((s.fabric.port q).allows k = true → Answers .packetRoute s fun t =>
          (∃ fr, t.fabric.wire = s.fabric.wire ++ [.frame q fr] ∧ fr.fctr = (s.fabric.port q).txFctr
            ∧ fr.packets = [{ k with hops := min 3 (k.hops + 1) }] ∧ fr.report = (s.fabric.port q).report
            ∧ (t.fabric.port q).replay = (s.fabric.port q).replay ++ [fr])
          ∧ (t.fabric.port q).txFctr = (s.fabric.port q).txFctr + 1 ∧ (t.fabric.port q).queue = []
          ∧ t.fabric.route = s.fabric.route.erase h ∧ ∀ j, j ≠ q → t.fabric.port j = s.fabric.port j)
        ∧ ((s.fabric.port q).allows k = false → Answers .packetRoute s fun t =>
          (t.fabric.port q).queue = [{ h with pkt := k }] ∧ t.fabric.wire = s.fabric.wire
          ∧ t.fabric.route = s.fabric.route.erase h ∧ OnlyPort s t q fun c C => { C with
              queue := c.queue, bulkSince := c.bulkSince, promoted := c.promoted, slots := c.slots }))
  ∧ ∀ (s : State) (k : Packet),
      let n := k.lenm1 + 1
      let plain (u : State) (a m : Nat) : Prop := ∀ i < m, u.trust.seals.get none ((a + i) / 128) = none
      let counted (t : State) : Prop :=
        match s.task? k.task with
        | none => t.regs.rxorph = (s.regs.rxorph + 1) % 2 ^ 64 ∧ t.tasks = s.tasks
        | some x => s.isCapture k.task = false →
            (t.task? k.task).map (fun y => y.recv.get Commit.zero k.src) = some ((x.recv.get Commit.zero k.src).add k)
              ∧ t.regs.rxorph = s.regs.rxorph
      let answers (t : State) (w : Packet) : Prop := t.fabric.route.getLast? = some { pkt := w, at' := s.gtc, pool := none }
      (s.arrived k = false →
        ∀ i ∈ [Instr.wrPacket k, .rdPacket k, .atmPacket k, .mcwPacket k, .sigPacket k, .barPacket k], exec i s = .next s)
      ∧ (s.arrived k = true →
          (∀ u, s.homePlace k true = (.refused, u) → Answers (.wrPacket k) s fun t =>
            counted t ∧ answers t (answerOf k s.peerId 7 0 []) ∧ SameBytes s t)
          ∧ (∀ u, s.homePlace k true = (.wait, u) → exec (.wrPacket k) s = .next s)
          ∧ (∀ a u, s.homePlace k true = (.go a 0, u) → plain u a n → (pktData k).length = n →
              (Answers (.wrPacket k) s fun t =>
                counted t ∧ answers t (answerOf k s.peerId 0 0 []) ∧ t.bytes a n = pktData k
                  ∧ ∀ b, b < a ∨ a + n ≤ b → t.byte b = u.byte b)
              ∧ (k.colmask = 2 ^ (s.peerId / 32) → k.dst = s.peerId → (∀ r ∈ s.fabric.relays, r.wait ≠ []) → ∀ v,
                  s.homePlace (wrForm k s.peerId) true = (.go a 0, v) → plain v a n →
                  Answers (.mcwPacket k) s fun t =>
                    answers t (mcaOf s.peerId
                      { src := mcwSender k, tag := k.tag, score := k.score, task := k.task, group := k.group, asid := k.asid
                        va := k.va, wait := [], okn := 1, nak := [], tick := s.gtc })
                    ∧ t.bytes a n = pktData k ∧ t.fabric.relays = s.fabric.relays
                    ∧ ∀ b, b < a ∨ a + n ≤ b → t.byte b = v.byte b))
          ∧ (∀ u, s.homePlace k false = (.refused, u) →
              (Answers (.rdPacket k) s fun t => answers t (answerOf k s.peerId 7 0 []) ∧ SameBytes s t)
              ∧ Answers (.atmPacket k) s fun t => counted t ∧ answers t (answerOf k s.peerId 7 0 []) ∧ SameBytes s t)
          ∧ (∀ a u, s.homePlace k false = (.go a 0, u) → plain u a n → u.isBad a n = false →
              Answers (.rdPacket k) s fun t => answers t (answerOf k s.peerId 0 0 (flitsOf (u.bytes a n))) ∧ SameBytes u t)
          ∧ (∀ a v w, (s.homePlace k false).1 = .go a 0 → s.homePlace k true = (.go a 0, v) → w = v.num a 8 → plain v a 8 →
              v.isBad a 8 = false → k.aop ≤ 6 → Answers (.atmPacket k) s fun t =>
                answers t (answerOf k s.peerId 0 w [])
                ∧ t.num a 8 = (fatWord k.aop (BitVec.ofNat 64 w)
                    (BitVec.ofNat 64 k.opa) (BitVec.ofNat 64 k.opb)).toNat
                ∧ ∀ b, b < a ∨ a + 8 ≤ b → t.byte b = v.byte b)
          ∧ (let id := bits k.va 44 13
             let c := bits k.va 12 4
             let r := bits k.va 3 0
             s.isCapture id = false →
             (s.task? id = none → Answers (.sigPacket k) s fun t => answers t (answerOf k s.peerId 7 0 []) ∧ SameBytes s t)
             ∧ ∀ x, s.task? id = some x → k.task ≠ id →
                 (x.n ≤ c ∨ x.asid ≠ k.asid → Answers (.sigPacket k) s fun t =>
                   answers t (answerOf k s.peerId 7 0 []) ∧ SameBytes s t ∧ t.cores = s.cores)
                 ∧ (∀ p, c < x.n → x.asid = k.asid → x.phase = .running → x.cores[c]? = some p → Answers (.sigPacket k) s fun t =>
                   answers t (answerOf k s.peerId 0 0 []) ∧ SameBytes s t
                   ∧ (t.core p).lceS.incs = (s.core p).lceS.incs ++ [(s.gtc, r, BitVec.ofNat 64 k.opa)]
                   ∧ ∀ j, j ≠ p → t.core j = s.core j))
          ∧ (let rec' := s.podRec k.task k.tag
             bit k.opb 17 = false → rec'.result = none →
             (k.opb % 2 ^ 17 + ((rec'.arrived.map (·.nmem)).sum) < s.podCount k.task) →
             Answers (.barPacket k) s fun t =>
               (∃ x ∈ t.pods, x.group = k.task ∧ x.gen = k.tag ∧ ∃ a, x.arrived = rec'.arrived ++ [a]
                 ∧ a.peer = k.src ∧ a.nmem = k.opb % 2 ^ 17 ∧ a.value = BitVec.ofNat 64 k.opa)
               ∧ SameBytes s t ∧ t.tasks = s.tasks ∧ t.cores = s.cores)
          ∧ (bit k.opb 17 = true → Answers (.barPacket k) s fun t =>
               ∀ id x, s.task? id = some x → x.podbar.any (·.group == k.task) = true → x.podGen = k.tag →
                 (t.task? id).map (·.podGen) = some ((k.tag + 1) % 2 ^ 16)))

/-- R142, R153 to R156, R166 and R167: every 4096 ticks the master of time sends TIME on its live row ports; a module
follows the mark that it takes from the master, or from a row peer of it, and a row peer of the master passes it on
down its columns; with none for 2^24 ticks time is lost and the firmware is told. The Staff leaves the Siding pool as
it is taken, only with an epoch that is not lower; it is passed on where no detector has fired, at the end of its hold
and when nothing is left to drain, and is issued anew by the master that has missed it. -/
def Obligations.TimeAndStaff : Prop :=
  ∀ s : State,
    let f := s.fabric
    let marked (t : State) (q : Nat) : Prop :=
      ∃ fr, Wire.frame q fr ∈ t.fabric.wire ∧ fr.time.map Prod.fst = some (t.gtc % 2 ^ 64)
        ∧ (t.fabric.port q).txFctr = (f.port q).txFctr + 1
    let staffTo (d e : Nat) : Packet :=
      { type := 0x12, urg := false, sid := true, det := false, npay := 0, hops := 0, src := s.peerId, dst := d, via := d
        score := 0, asid := 0, va := 0, task := 0, tag := 0, colmask := 0, group := 0, aop := 0, rel := false, lenm1 := 0
        opa := 0, opb := 0, status := 0, aux := e, payload := [] }
    let passed (t : State) (e : Nat) : Prop := t.fabric.holding = none ∧ t.fabric.record = [] ∧ t.fabric.epoch = e
      ∧ t.fabric.route = f.route ++ (if s.nextStaff = s.peerId then [] else
          [{ pkt := staffTo s.nextStaff e, at' := s.gtc, pool := none }])
      ∧ t.cores = s.cores ∧ SameBytes s t
    let calm : Prop := ∀ q < 46, f.live q = true → (f.port q).idle
    (s.isMaster = true → f.timeSent + 4096 ≤ s.gtc → (∃ q < 31, f.live q = true) → calm → Answers .timeSend s fun t =>
      t.fabric.timeSent = s.gtc ∧ t.gtc = s.gtc ∧ SameBytes s t ∧ t.cores = s.cores
      ∧ (∀ q < 31, f.live q = true → marked t q) ∧ ∀ q, 31 ≤ q → t.fabric.port q = f.port q)
    ∧ (s.isMaster = false ∨ s.gtc < f.timeSent + 4096 ∨ (∀ q < 31, f.live q = false) → exec .timeSend s = .next s)
    ∧ (∀ port tgtc tph phase,
        let off := timeDiff (256 * tgtc + tph + (f.port port).delay) (256 * s.gtc + phase)
        let n := if 768 < off.natAbs then f.timeBad + 1 else 0
        let forwards (t : State) : Prop := portPeer s.peerId port = s.master → port < 31 → calm →
          ∀ q, 31 ≤ q → q < 46 → f.live q = true → marked t q
        (f.live port = false ∨ s.takesTime port = false → exec (.timePacket port tgtc tph phase) s = .next s)
        ∧ (f.live port = true → s.takesTime port = true →
          (f.timed = false → Answers (.timePacket port tgtc tph phase) s fun t =>
            t.gtc = ((s.gtc : Int) + (off + 128) / 256).toNat ∧ t.fabric.timed = true ∧ t.fabric.timeSeen = t.gtc
            ∧ forwards t ∧ SameBytes s t ∧ t.cores = s.cores ∧ t.tasks = s.tasks)
          ∧ (f.timed = true → n ≠ 16 → Answers (.timePacket port tgtc tph phase) s fun t =>
            t.gtc = s.gtc ∧ t.fabric.timeSeen = s.gtc ∧ t.fabric.timeBad = n
            ∧ t.fabric.trim = (if off < -100 then -100 else if 100 < off then 100 else off)
            ∧ t.fabric.tlost = (f.tlost || decide (16 < n))
            ∧ forwards t ∧ SameBytes s t ∧ t.cores = s.cores ∧ t.tasks = s.tasks)))
    ∧ (s.isMaster = false → f.timeSeen + 2 ^ 24 ≤ s.gtc → f.tlost = false → Answers .timeLostTimeout s fun t =>
        t.fabric.tlost = true ∧ SameBytes s t
        ∧ let d := s.dieCore ((s.dies.head?.map Prod.fst).getD 0)
          ((s.core d).fwq.length < 16 → (t.core d).fwq = (s.core d).fwq ++
            [{ kind := 5, s1 := BitVec.ofNat 64 s.gtc, s2 := 0, s3 := 0 }]) ∧ ∀ q, q ≠ d → t.core q = s.core q)
    ∧ (s.isMaster = true ∨ s.gtc < f.timeSeen + 2 ^ 24 ∨ f.tlost = true → exec .timeLostTimeout s = .next s)
    ∧ (∀ e, (s.staffHere e = none → exec (.staffPacket e) s = .next s)
        ∧ ∀ q p, s.staffHere e = some (q, p) → (f.port q).pool.any (fun h => samePkt h.pkt p) = false →
          let left (t : State) : Prop := (t.fabric.port q).siding = (f.port q).siding.eraseP fun h => samePkt h.pkt p
          let fired := f.ports.any fun x => x.2.fired
          (e < f.epoch → Answers (.staffPacket e) s fun t => left t ∧ t.fabric.epoch = f.epoch ∧ t.fabric.route = f.route)
          ∧ (f.epoch ≤ e → fired = false → Answers (.staffPacket e) s fun t =>
              left t ∧ passed t e ∧ t.fabric.staffSeen = s.gtc)
          ∧ (f.epoch ≤ e → fired = true → Answers (.staffPacket e) s fun t =>
              left t ∧ t.fabric.epoch = e ∧ t.fabric.staffSeen = s.gtc ∧ t.fabric.holding = some s.gtc
              ∧ t.fabric.record = s.stuck ∧ t.fabric.route = f.route))
    ∧ (f.holding = none → exec .sidingDrain s = .next s ∧ exec .staffHoldTimeout s = .next s)
    ∧ (∀ a, f.holding = some a →
        (a + 65536 ≤ s.gtc → Answers .staffHoldTimeout s fun t => passed t f.epoch)
        ∧ (s.gtc < a + 65536 → exec .staffHoldTimeout s = .next s)
        ∧ (f.record = [] → Answers .sidingDrain s fun t => passed t f.epoch)
        ∧ ∀ k p q, f.record = [(k, p)] →
            (p.dst = s.peerId → exec .sidingDrain s = .next s)
            ∧ (p.dst ≠ s.peerId → s.sidingPort p.dst = some q → k ≠ q →
                (f.port k).pool = [{ pkt := p, at' := a, pool := some k }] →
                let moved := { unrouted p with sid := true }
                ((f.port q).allows moved = false → exec .sidingDrain s = .next s)
                ∧ ((f.port q).allows moved = true → (f.port q).idle → Answers .sidingDrain s fun t =>
                  (∃ fr, t.fabric.wire = f.wire ++ [.frame q fr] ∧ fr.packets = [{ moved with hops := min 3 (p.hops + 1) }])
                  ∧ (t.fabric.port k).pool = [] ∧ (t.fabric.port k).drains = ((f.port k).drains + 1) % 2 ^ 16
                  ∧ (t.fabric.port k).own.freed = ((f.port k).own.freed + flits p) % 2 ^ 32
                  ∧ t.fabric.record = [] ∧ t.fabric.holding = none)))
    ∧ (s.isMaster = true → f.staffSeen + 67222656 ≤ s.gtc → Answers .staffRegenerate s fun t =>
        passed t ((f.epoch + 1) % 2 ^ 32) ∧ t.fabric.staffSeen = s.gtc)
    ∧ (s.isMaster = false ∨ s.gtc < f.staffSeen + 67222656 → exec .staffRegenerate s = .next s)

/-! ## Translation and the registers of the host -/

/-- R131 to R133, R135, R137, R139, R140 and R461: a walk for a page that a running command of the core names pauses
the command where the page is not present, and else brings its translation into the cache; an address that no
command names is not walked for. A translation that leaves the cache writes its count back; invalidations queue up
to 16 and complete in order, each once no access it covers is under way; DLKICK reads DLTAIL anew; and FTTCLR and
ENCIR clear frame tags and counters.
R3, R127, R170, R363, R366, R386 and R422: a whole write to a register of BAR0 that has no step of its own keeps
the bits of its fields and ignores the reserved ones, changes no other register, and where no register stands
changes none; a BATCH record that waits for the root log is appended when RLTAIL makes room. -/
def Obligations.Translations : Prop :=
  (∀ s : State,
      (∀ p asid va,
        let c := s.core p
        let mine := (s.taskOf p).map (·.asid) = some asid
        let named (eng k : Nat) (write : Bool) : Prop :=
          (eng = 1 ∧ s.namedBy p 1 va = some (k, write))
          ∨ (eng = 4 ∧ s.namedBy p 1 va = none ∧ s.namedBy p 4 va = some (k, write))
        let missed := (c.tlb.find? fun x => x.serves asid va) = none
        (¬ mine ∨ (∀ eng k write, ¬ named eng k write) → exec (.translationWalk p asid va) s = .next s)
        ∧ (mine → ∀ eng k write, named eng k write →
          (s.ast asid = none → exec (.translationWalk p asid va) s = .next s)
          ∧ (∀ e, s.ast asid = some e → missed → s.walk e asid va = none →
            (s.core (s.dieCore (p / 32))).fwq.length < 16 → Answers (.translationWalk p asid va) s fun t =>
              let ev := (s.nextEvent + 1) % 2 ^ 32
              let d := s.dieCore (p / 32)
              (∀ f, f = 1 ∨ f = 4 → (t.core p).cmds f = if f = eng
                then (c.cmds f).map (fun x => if x.sidx = k then { x with phase := .paused ev } else x) else c.cmds f)
              ∧ t.nextEvent = ev
              ∧ t.walks = s.walks ++ [{ event := ev, core := p, eng := eng, asid := asid, va := va, full := false }]
              ∧ (t.core d).fwq = (s.core d).fwq ++ [{
                  kind := 2, s1 := BitVec.ofNat 64 va
                  s2 := BitVec.ofNat 64 (b2n write * 2 ^ 25 + eng * 2 ^ 22 + p * 2 ^ 12 + asid), s3 := BitVec.ofNat 64 ev }]
              ∧ SameBytes s t ∧ t.tasks = s.tasks)
          ∧ (∀ e q, s.ast asid = some e → missed → s.walk e asid va = some q →
            (∀ g u, s.useEntry e asid va q write = (.go g, u) → (write = false ∨ bit q.lo 4 = true) → c.tlb.length < 96 →
              Answers (.translationWalk p asid va) s fun t =>
                (∃ x ∈ (t.core p).tlb, x.serves asid va = true ∧ x.lo = q.lo ∧ x.hi = q.hi ∧ x.pte = q.at' ∧ x.count = 0)
                ∧ SameBytes s t ∧ t.tags = u.tags ∧ ∀ j, j ≠ p → t.core j = s.core j)
            ∧ ∀ st u, s.useEntry e asid va q write = (.bad st, u) → exec (.translationWalk p asid va) s = .next u)))
      ∧ (∀ p asid va,
          let gone := (s.core p).tlb.filter fun x => x.serves asid va
          Answers (.acntWriteback p asid va) s fun t =>
            (∀ j, (t.core j).tlb = if j = p then (s.core p).tlb.filter (fun x => !x.serves asid va) else (s.core j).tlb)
            ∧ t.regs = s.regs
            ∧ ((∀ x ∈ gone, x.count = 0) → { t with cores := s.cores } = s ∧ ∀ j, j ≠ p → t.core j = s.core j)
            ∧ ∀ x, gone = [x] → ∀ b, (b < s.paFlat (x.pte + 8) ∨ s.paFlat (x.pte + 8) + 8 ≤ b) → t.byte b = s.byte b)
      ∧ (let queued (k asid va : Nat) (t : State) : Prop :=
          t.regs = (if s.regs.xinvPend.length < 16 then { s.regs with xinvPend := s.regs.xinvPend ++ [(k, asid, va)] }
            else { s.regs with xinvHeld := s.regs.xinvHeld ++ [(k, asid, va)] })
          ∧ { t with regs := s.regs } = s
        (∀ asid va, Answers (.xinvPage64k asid va) s (queued 0 asid va))
        ∧ (∀ asid va, Answers (.xinvPage2m asid va) s (queued 1 asid va))
        ∧ (∀ asid, Answers (.xinvAsid asid) s (queued 2 asid 0))
        ∧ Answers .xinvAll s (queued 3 0 0))
      ∧ (∀ k asid va rest, s.regs.xinvPend = (k, asid, va) :: rest →
          (s.quietSpace k asid = false → exec .xinvComplete s = .next s)
          ∧ (s.quietSpace k asid = true → (∀ p, ∀ x ∈ (s.core p).tlb, x.count = 0) → Answers .xinvComplete s fun t =>
              (∀ p, (t.core p).tlb = (s.core p).tlb.filter (fun x => !invalidates k asid va x)
                ∧ { t.core p with tlb := (s.core p).tlb } = s.core p)
              ∧ t.regs = { s.regs with xinvPend := rest ++ s.regs.xinvHeld.take 1, xinvHeld := s.regs.xinvHeld.drop 1,
                                       xinvDone := (s.regs.xinvDone + 1) % 2 ^ 32 } ∧ SameBytes s t))
      ∧ (s.regs.xinvPend = [] → exec .xinvComplete s = .next s)
      ∧ (∀ asid, (s.ast asid = none → exec (.dlkick asid) s = .next s)
          ∧ ∀ e, s.ast asid = some e → (∀ w ∈ s.walks, w.full = true → w.asid ≠ asid) → Answers (.dlkick asid) s fun t =>
              t.tailOf asid e = e.tail ∧ { t with dlTail := s.dlTail } = s)
      ∧ (∀ first count, Answers (.fttclr first count) s fun t =>
          (∀ k, t.tags.get 0 k = if first ≤ k ∧ k < first + count then 0 else s.tags.get 0 k) ∧ { t with tags := s.tags } = s)
      ∧ ∀ k v, k < 32 →
          let old := s.trust.encir.get 0 k
          let within (e f : Nat) : Prop := bits e 13 0 * 2 ^ 14 ≤ f ∧ f < (bits e 13 0 + bits e 35 32) * 2 ^ 14
          ((∃ x ∈ s.tags, within old x.1) → exec (.encirWrite k v) s = .next s)
          ∧ ((∀ x ∈ s.tags, ¬ within old x.1) → Answers (.encirWrite k v) s fun t =>
              let new := bits v 35 32 * 2 ^ 32 + bits v 13 0
              (∀ j, t.trust.encir.get 0 j = if j = k then new else s.trust.encir.get 0 j)
              ∧ (∀ l, t.trust.counters.get 0 l = if bits v 13 0 * 2 ^ 23 ≤ l ∧ l < (bits v 13 0 + bits v 35 32) * 2 ^ 23 then 0
                  else s.trust.counters.get 0 l)
              ∧ SameBytes s t ∧ t.regs = s.regs ∧ t.tags = s.tags))
  ∧ ∀ (s : State) (v : Nat), v < 2 ^ 64 → s.restful →
    (∀ body, s.trust.batchDue = some body → { s with regs := { s.regs with rltail := v % 2 ^ 32 } }.logFull = false →
      Answers (.registerWrite 0x4010 4 v) s fun t =>
        t.trust.batchDue = none ∧ t.regs = { s.regs with rltail := v % 2 ^ 32, rlhead := s.regs.rlhead + 1 }
        ∧ t.trust.records = s.trust.records ++ [logHead 3 s.trust.bootEpoch s.regs.rlhead ++ body])
    ∧ (s.trust.batchDue = none →
    let writes (off width : Nat) (r : Regs) : Prop := Answers (.registerWrite off width v) s fun t =>
      t.regs = r ∧ SameBytes s t ∧ t.cores = s.cores ∧ t.tasks = s.tasks ∧ t.trust = s.trust
    let r := s.regs
    writes 0x2000 8 { r with xinvVa := bits v 51 16 * 2 ^ 16 }
    ∧ writes 0x2040 8 { r with astb := bits v 43 6 * 2 ^ 6 }
    ∧ writes 0x2048 8 { r with hwbase := v / 2 ^ 16 * 2 ^ 16 }
    ∧ writes 0x4000 8 { r with rlb := v / 2 ^ 7 * 2 ^ 7 }
    ∧ writes 0x4008 4 { r with rln := v % 2 ^ 5 }
    ∧ writes 0x4010 4 { r with rltail := v % 2 ^ 32 }
    ∧ writes 0x4018 8 { r with sgb := v / 2 ^ 7 * 2 ^ 7 }
    ∧ writes 0x4020 4 { r with sgn := v % 2 ^ 4 }
    ∧ writes 0x4028 4 { r with sgtail := v % 2 ^ 32 }
    ∧ writes 0x5000 8 { r with qtb := bits v 43 16 * 2 ^ 16 }
    ∧ writes 0x5018 8 { r with spoolb := bits v 43 16 * 2 ^ 16 }
    ∧ writes 0x5020 4 { r with spooln := v % 2 ^ 28 }
    ∧ (∀ off, 0x8000 ≤ off → ∀ w, writes off w r)
    ∧ (Answers (.registerWrite 0x5018 8 v) s fun t => bits v 43 16 * 2 ^ 16 ≠ r.spoolb → t.pool = [] ∧ t.poolNext = 0)
    ∧ ∀ off width w, off / 8 * 8 ≠ 0x5018 → off / 8 * 8 ≠ 0x5020 →
        Answers (.registerWrite off width w) s fun t => t.pool = s.pool ∧ t.poolNext = s.poolNext)

/-! ## Queues and packets -/

/-- R366, R386 to R391, R394 to R396, R402, R405, R406 and R456: the steps of one queue, the host's writes to it
among them. ENABLE reads its entry and starts its counts anew, DISABLE stops it and waits for its tasks,
RESTART lets it decode again; a tail written counts as the latest one; slots are granted and lost; interrupts
are coalesced; rings that are full are looked at again; a DEP and a SIGNAL complete once what they wait for has
come; the front end wakes; and the records of the root log are signed as a batch, whose own record is appended at
once where the root log has room and waits where it has none. -/
def Obligations.QueueSteps : Prop :=
  ∀ s : State,
    let q := s.cur.queue
    let x := s.queue q
    let done (t : State) : Prop := t.regs.qctlDone = (s.regs.qctlDone + 1) % 2 ^ 32
    (s.pfLocked q = true → ∀ i ∈ [Instr.queueEnable, .queueDisable, .queueRestart], exec i s = .next s)
    ∧ (s.pfLocked q = false → s.specOf q = none →
        (s.readEntry q = none → Answers .queueEnable s fun t => done t ∧ (t.queue q).v = false)
        ∧ (∀ e, s.readEntry q = some e → s.plain → clear2 (s.fedAt e.cwa) 8 (s.paFlat (s.qEntryAt q + 0x3C)) 4 →
            Answers .queueEnable s fun t =>
              done t ∧ (t.queue q).v = true ∧ (t.queue q).entry = e ∧ (t.queue q).pseq = 0 ∧ (t.queue q).ringSeq = 0
              ∧ (t.queue q).statN = 0 ∧ (t.queue q).notN = 0 ∧ (t.queue q).err = false ∧ (t.queue q).spawn = []
              ∧ (t.queue q).head = s.paNum (s.qEntryAt q + 0x2C) 4 ∧ (t.queue q).tail = (t.queue q).head
              ∧ t.num (s.fedAt e.cwa) 8 = 2 ^ 64 - 1 ∧ t.tasks = s.tasks ∧ ∀ r, r ≠ q → t.queue r = s.queue r)
        ∧ (x.v = true → (∃ e ∈ s.tasks, ∃ y, e.2 = some y ∧ y.queue = q ∧ y.spec = none ∧ y.phase = .running) →
            Answers .queueDisable s fun t => done t ∧ (t.queue q).v = true ∧ (t.queue q).disabling = true ∧ SameBytes s t)
        ∧ (x.v = true → (∀ e ∈ s.tasks, ∀ y, e.2 = some y → y.queue ≠ q) → x.opens = [] →
            Answers .queueDisable s fun t => done t ∧ (t.queue q).v = false))
    ∧ (s.pfLocked q = false → x.err = true → (x.tail + 2 ^ 32 - x.head) % 2 ^ 32 ≤ 2 ^ x.entry.rlog →
        Answers .queueRestart s fun t =>
          done t ∧ (t.queue q).err = false ∧ (t.queue q).head = x.head ∧ (t.queue q).opens = x.opens ∧ SameBytes s t)
    ∧ (∀ r tail,
        ((s.queue r).v = false → Answers (.notifyWrite r tail) s fun t =>
          t.regs = { s.regs with ndrop := (s.regs.ndrop + 1) % 2 ^ 32 } ∧ { t with regs := s.regs } = s)
        ∧ ((s.queue r).v = true → Answers (.notifyWrite r tail) s fun t =>
          (t.queue r).tail = tail % 2 ^ 32 ∧ (t.queue r).pending = true
          ∧ ((s.queues.map Prod.fst).Nodup → ((t.queue r).slotted = true ↔ (s.queue r).slotted = true ∨ s.slotsUsed < 32))
          ∧ t.fedWake = (if s.fedGate ≠ 0 ∧ s.fedWake = none then some (s.gtc + if s.fedGate = 1 then 140 else 28000) else s.fedWake)
          ∧ (∀ k, k ≠ r → t.queue k = s.queue k) ∧ SameBytes s t))
    ∧ (s.slotsUsed < 32 → s.firstWaiting q = true → Answers .slotGrant s fun t =>
        (t.queue q).slotted = true ∧ (t.queue q).needs = none ∧ OnlyQueues s t [q])
    ∧ (32 ≤ s.slotsUsed ∨ s.firstWaiting q = false → exec .slotGrant s = .next s)
    ∧ (∀ a, x.slotted = true → x.idle = some a →
        (a + 65536 ≤ s.gtc → s.specOf q = none → Answers .slotEvict s fun t =>
          (t.queue q).slotted = false ∧ (t.queue q).entries = [] ∧ (t.queue q).pred = none ∧ OnlyQueues s t [q])
        ∧ (s.gtc < a + 65536 → exec .slotEvict s = .next s))
    ∧ (∀ l, x.irqDue = true → x.lastIrq = some l →
        (l + 256 ≤ s.gtc → Answers .interruptCoalesceTimer s fun t =>
          t.out = s.out ++ [.msix x.entry.vec] ∧ (t.queue q).irqDue = false ∧ (t.queue q).lastIrq = some s.gtc
          ∧ { t with queues := s.queues, out := s.out } = s)
        ∧ (s.gtc < l + 256 → exec .interruptCoalesceTimer s = .next s))
    ∧ (x.v = true → (x.statN % 2 ^ 32 + 2 ^ 32 - x.stack % 2 ^ 32) % 2 ^ 32 = 2 ^ x.entry.slog → Answers .stackReread s fun t =>
        (t.queue q).stack = s.paNum (s.qEntryAt q + 0x30) 4 ∧ t.tasks = s.tasks)
    ∧ (x.v = true → (x.notN % 2 ^ 32 + 2 ^ 32 - x.nack % 2 ^ 32) % 2 ^ 32 = 2 ^ x.entry.nlog → Answers .nackReread s fun t =>
        t.queue q = { x with nack := s.paNum (s.qEntryAt q + 0x34) 4 } ∧ OnlyQueues s t [q])
    ∧ (∀ k n m, x.dep = some (k, n, m) →
        (((s.queue k).compl : Int) - 1 < sext 64 n → exec .depSatisfied s = .next s)
        ∧ (sext 64 n ≤ ((s.queue k).compl : Int) - 1 → s.lone q m → Answers .depSatisfied s fun t =>
            (t.queue q).dep = none ∧ Completed s t q))
    ∧ (∀ n a v rest, x.signals = (n, a, v) :: rest →
        (x.compl ≠ n → exec .signalWrite s = .next s)
        ∧ (x.compl = n → s.lone q n → clear2 (s.fedAt a) 8 (s.wordAt q) 8 → Answers .signalWrite s fun t =>
            (t.queue q).signals = rest ∧ t.num (s.fedAt a) 8 = v.toNat ∧ Completed s t q
            ∧ ∀ b, (b < s.fedAt a ∨ s.fedAt a + 8 ≤ b) → (b < s.wordAt q ∨ s.wordAt q + 8 ≤ b) → t.byte b = s.byte b))
    ∧ (s.fedWake.isSome = true → Answers .fedWakeup s fun t =>
        t.fedGate = 0 ∧ t.fedWake = none ∧ { t with fedGate := s.fedGate, fedWake := s.fedWake } = s)
    ∧ (s.fedWake = none → exec .fedWakeup s = .next s)
    ∧ (let r := s.trust.records
       let ready := r ≠ [] ∧ (s.trust.lastBatch = 0 ∨ s.trust.lastBatch + 700000 ≤ s.gtc + 1) ∧ s.sigRoom = true
       (ready → 0 < s.regs.rlhead → s.restful → Answers .batchSign s fun t =>
          t.rlPrev = s.regs.rlhead ∧ t.regs.sghead = s.regs.sghead + 1
          ∧ t.trust.prevBatch = shake (0x42 :: digBytes s.trust.prevBatch ++ leBytes 4 s.trust.bootEpoch
              ++ leBytes 8 s.rlPrev ++ leBytes 8 (s.regs.rlhead - 1) ++ r.flatten)
          ∧ t.trust.idxNext = s.trust.idxNext + 1 ∧ t.trust.lastBatch = s.gtc + 1
          ∧ { t.regs with rlhead := s.regs.rlhead, sghead := s.regs.sghead } = s.regs
          ∧ (s.logFull = false → t.regs.rlhead = s.regs.rlhead + 1 ∧ t.trust.batchDue = none
              ∧ ∃ b, t.trust.records = [b] ∧ b.take 16 = logHead 3 s.trust.bootEpoch s.regs.rlhead)
          ∧ (s.logFull = true → t.regs.rlhead = s.regs.rlhead ∧ t.trust.records = [] ∧ t.trust.batchDue.isSome = true))
       ∧ (¬ ready → exec .batchSign s = .next s))

/-- R379, R385, R392 to R395, R397 to R405, R416, R431, R435 and R440: a packet that is the next of its queue is
taken, and only then; a privileged one that its queue may not carry is settled as PRIVILEGED, and one that fails
a check with its status. DEP and SIGNAL wait, MAP writes the group table, SEAL waits for a batch; LAUNCH, GRAPH,
CELLAR, RESUME and CAPTURE bring tasks; STOP and SAVE ask for a cut. -/
def Obligations.QueuePackets : Prop :=
  ∀ (s : State) (h : PktHdr) (f : LaunchFields) (nodes : List LaunchFields) (edges : List (Nat × Nat)) (args : List Nat)
    (a : FedAddr) (k n task len : Nat) (valid : Bool),
    let q := h.q
    let x := s.queue q
    let bs := args.map (BitVec.ofNat 8)
    let priv := [Instr.mapGroup h k valid n task, .cellarLoad h a k n len, .stop h task k n, .save h task a len n
      , .resume h task a len n, .bisect h args, .capture h args, .taste h args]
    (s.nextIs h = false → ∀ i ∈ priv ++ [Instr.launch h f, .graph h nodes edges, .dep h k n, .signal h a n, .seal h
        , .unsupportedTypePacket h k], exec i s = .next s)
    ∧ (s.nextIs h = true → s.lonely h → s.specOf q = none →
        let settles (i : Instr) (v : Verdict) : Prop := Answers i s (Settled s · h v)
        (x.entry.priv = false → ∀ i ∈ priv, settles i { status := 4, tag := 0, detail := pktType h })
        ∧ settles (.unsupportedTypePacket h k) { status := 2, tag := 0, detail := k }
        ∧ (if (s.queue k).v then Answers (.dep h k n) s fun t => Accepted s t h 1 ∧ (t.queue q).dep = some (k, n, x.pseq) ∧ SameBytes s t
            else settles (.dep h k n) { status := 12, tag := 0, detail := k })
        ∧ (Answers (.signal h a n) s fun t =>
            Accepted s t h 1 ∧ (t.queue q).signals = x.signals ++ [(x.pseq, a, BitVec.ofNat 64 n)] ∧ SameBytes s t)
        ∧ (s.rlPrev < s.regs.rlhead → (∀ e ∈ x.seals, s.rlPrev < e.2) → Answers (.seal h) s fun t =>
            Accepted s t h 1 ∧ (t.queue q).seals = x.seals ++ [(x.pseq, s.regs.rlhead)] ∧ SameBytes s t)
        ∧ (∀ tag i, badField f = some (tag, i) → settles (.launch h f) { status := 1, tag := tag, detail := unitOf h.raw tag i })
        ∧ (∀ i, badNode nodes = none → badEdge nodes.length edges = some i →
            settles (.graph h nodes edges) { status := 1, tag := 0x8011, detail := unitOf h.raw 0x8011 i })
        ∧ (x.entry.priv = true →
            (Answers (.mapGroup h k valid n task) s fun t => Settled s t h Verdict.ok
              ∧ ∀ g, t.groups.get GroupEntry.empty g =
                  if g = k then { v := valid, asid := n, members := BitVec.ofNat 512 task } else s.groups.get GroupEntry.empty g)
            ∧ (k % 64 = 0 → len % 64 = 0 → k + len ≤ 96 * 2 ^ 20 → Answers (.cellarLoad h a k n len) s fun t =>
                Accepted s t h 1 ∧ t.order = s.order + 1 ∧ SameBytes s t
                ∧ ∃ y, t.task? (cellarKey s.order) = some y ∧ y.kind = .cellar a k n len ∧ y.phase = .waiting ∧ y.pseq = x.pseq
                  ∧ y.regions = [{ start := k, len := len, w := true, cel := true }])
            ∧ (1 < n → settles (.stop h task k n) { status := 1, tag := 0x8041, detail := unitOf h.raw 0x8041 0 }
                ∧ settles (.save h task a len n) { status := 1, tag := 0x8043, detail := unitOf h.raw 0x8043 0 })
            ∧ (n ≤ 1 → s.task? task = none →
                settles (.stop h task k n) { status := 1, tag := 0x8003, detail := unitOf h.raw 0x8003 0 }
                ∧ settles (.save h task a len n) { status := 1, tag := 0x8003, detail := unitOf h.raw 0x8003 0 })
            ∧ (∀ y, n ≤ 1 → s.task? task = some y → y.phase = .running → y.cutReq = none → s.isCapture task = false →
                let least := s.gtc + if y.podbar.isSome then 16384 else 2048
                (k < least → settles (.stop h task k n) { status := 1, tag := 0x8040, detail := unitOf h.raw 0x8040 0 })
                ∧ (least ≤ k → Answers (.stop h task k n) s fun t => Accepted s t h 1 ∧ SameBytes s t
                    ∧ (∃ r, t.task? task = some { y with cutReq := some r } ∧ r.at? = some k ∧ r.ends = (n == 1) ∧ r.yield = false
                      ∧ r.stops = [(q, x.pseq, unitOf h.raw 0x8003 0)]) ∧ ∀ j, j ≠ task → t.task? j = s.task? j)
                ∧ (Answers (.save h task a len n) s fun t => Accepted s t h 1 ∧ SameBytes s t
                    ∧ (∃ r sv, t.task? task = some { y with cutReq := some r } ∧ r.yield = true ∧ r.ty = s.gtc + 300 ∧ r.ends = false
                      ∧ r.saves = [sv] ∧ sv.area = a ∧ sv.avail = len ∧ sv.detach = (n == 1) ∧ sv.q = q ∧ sv.seq = x.pseq)
                    ∧ ∀ j, j ≠ task → t.task? j = s.task? j))
            ∧ (s.areaAt a len = none → settles (.resume h task a len n) { status := 1, tag := 0x8042, detail := unitOf h.raw 0x8042 0 })
            ∧ (captureBad bs = true → settles (.capture h args) { status := 13, tag := 0, detail := 1 })
            ∧ (bisectOf 0 0 bs = none → settles (.bisect h args) { status := 13, tag := 0, detail := 1 })
            ∧ (tasteBad bs = true → settles (.taste h args) { status := 13, tag := 0, detail := 1 })))
    ∧ (s.nextIs h = true → h.spawned = false → x.disabling = false → s.specOf q = none →
        (∀ u ker, badField f = none → s.prepare x.entry.asid f [] = (.ok ker, u) → Answers (.launch h f) s fun t =>
          Accepted s t h 1 ∧ t.order = s.order + 1 ∧ SameBytes s t ∧ (∀ j, j ≠ f.taskId → t.task? j = s.task? j)
          ∧ (t.queue q).prev = (if learns h then some f.kid else x.prev)
          ∧ ∃ y, t.task? f.taskId = some y ∧ y.phase = .waiting ∧ y.kind = .kernel ∧ y.hdr = ker.hdr ∧ y.descs = ker.descs
            ∧ y.pages = ker.pages ∧ y.n = f.cores ∧ y.shape = f.shape ∧ y.args = f.arg.map (BitVec.ofNat 8) ∧ y.queue = q
            ∧ y.pseq = x.pseq ∧ y.order = s.order ∧ y.asid = x.entry.asid ∧ y.ordered = h.ordered)
        ∧ (∀ u va, badField f = none → s.prepare x.entry.asid f [] = (.hold va, u) → Answers (.launch h f) s fun t =>
            (t.queue q).hold = some ((s.nextEvent + 1) % 2 ^ 32) ∧ (t.queue q).head = x.head ∧ SameBytes s t ∧ t.tasks = s.tasks)
        ∧ (∀ u kers, badNode nodes = none → badEdge nodes.length edges = none →
            s.prepareAll x.entry.asid [] nodes = (.ok kers, u) → kers ≠ [] → (kers.map fun e => e.1.taskId).Nodup →
            Answers (.graph h nodes edges) s fun t =>
              Accepted s t h kers.length ∧ t.order = s.order + kers.length
              ∧ ∀ i e, kers[i]? = some e → ∃ y, t.task? e.1.taskId = some y ∧ y.phase = .waiting ∧ y.hdr = e.2.hdr ∧ y.node = some i
                ∧ y.order = s.order + i ∧ y.preds = (edges.filter fun g => g.2 == i).map fun g => s.order + g.1)
        ∧ (∀ c g ker u, x.entry.priv = true → s.areaAt a len = some c → c.taskId = task → s.task? task = none →
            c.fields = some g → s.resumeKernel x.entry.asid c g = (.ok g ker, u) → Answers (.resume h task a len n) s fun t =>
              Accepted s t h 1 ∧ ∃ y, t.task? task = some y ∧ y.phase = .waiting ∧ y.hdr = ker.hdr ∧ y.n = g.cores ∧ y.queue = q
                ∧ y.pseq = x.pseq ∧ y.restore.isSome = (c.kind != 6) ∧ y.startAt = if c.kind = 6 then 0 else n)
        ∧ (∀ g ker u, x.entry.priv = true → captureBad bs = false → s.task? (numAt bs 0 4) = none →
            launchCopy (pktHdr q false (s.hostPacket (numAt bs 0x30 8))) (numAt bs 0 4) = some g →
            s.prepare x.entry.asid g [] = (.ok ker, u) → Answers (.capture h args) s fun t =>
              Accepted s t h 1 ∧ (∃ y, t.task? g.taskId = some y ∧ y.phase = .waiting ∧ y.hdr = ker.hdr ∧ y.audring = none)
              ∧ ∃ c, t.taster.captures = s.taster.captures ++ [c] ∧ c.task = numAt bs 0 4 ∧ c.decided = none ∧ c.pseq = x.pseq))

/-! ## Audit commands -/

/-- R372, R373, R375, R376, R380, R383 and R384: a command for the Tasters waits while none is idle. An ANSWER side
whose index has no fault serves its session; a TASTE of two images that are whole writes its verdict; a request
is answered from the index, or ACCESS where no session is open, and a reply that no LEAD awaits is counted; an ANSWER
side that has had no request for 2^30 ticks completes, and a capture run that has been decided is cut. -/
def Obligations.AuditCommands : Prop :=
  (∀ (s : State) (h : PktHdr) (args : List Nat),
    let q := h.q
    let n := (s.queue q).pseq
    let bs := args.map (BitVec.ofNat 8)
    s.nextIs h = true → h.spawned = false → (s.queue q).entry.priv = true → (s.queue q).disabling = false →
    s.taster.early = [] → s.taster.waiting = [] →
      (s.freeTaster = none → bisectOf 0 0 bs ≠ none → Answers (.bisect h args) s fun t =>
        Accepted s t h 1 ∧ t.taster.waiting = [(h, n, args)] ∧ SameBytes s t)
      ∧ (s.freeTaster = none → tasteBad bs = false → Answers (.taste h args) s fun t =>
        Accepted s t h 1 ∧ t.taster.waiting = [(h, n, args)] ∧ SameBytes s t)
      ∧ (∀ d b base count work, s.freeTaster = some d → pktType h = 0x21 → bisectOf q n bs = some (b, base, count, work) →
          b.lead = false →
          let y := { b with
            die := d, since := s.gtc, walk := Walking.fin
            index := (List.range count).map fun i => nodeOfRecord (s.hostBytes (base + 64 * i) 64) }
          y.badIndex = none → Answers (.bisect h args) s fun t =>
            Accepted s t h 1 ∧ t.taster.waiting = [] ∧ t.taster.bisects = s.taster.bisects ++ [y])
      ∧ (∀ d, s.freeTaster = some d → pktType h = 0x23 → tasteBad bs = false → s.lonely h →
          let x := s.captured (numAt bs 0 8)
          let y := s.captured (numAt bs 8 8)
          let at' := hostBase + numAt bs 0x10 8
          let v := taste x y (s.freeCtr + 1)
          x.good = true → y.good = true → clear2 at' 128 (s.wordAt q) 8 → Answers (.taste h args) s fun t =>
            Settled s t h Verdict.ok ∧ t.num at' 4 = (v.opsel * 2 ^ 20 + v.side * 2 ^ 16 + v.verdict) % 2 ^ 32
            ∧ t.num (at' + 0x10) 8 = v.ifirst % 2 ^ 64 ∧ t.taster.waiting = []
            ∧ ∀ c, (c < at' ∨ at' + 128 ≤ c) → (c < s.wordAt q ∨ s.wordAt q + 8 ≤ c) → t.byte c = s.byte c))
  ∧ (∀ (s : State) (k : Packet),
      (s.arrived k = false → exec (.audnPacket k) s = .next s)
      ∧ (s.arrived k = true → s.taster.early = [] → s.taster.waiting = [] → (∀ b ∈ s.taster.bisects, b.lead = false) →
          (k.npay ≠ 0 → Answers (.audnPacket k) s fun t =>
            (∀ q, (t.fabric.port q).lerr = if ((s.fabric.port q).pool ++ (s.fabric.port q).siding).any (fun h => h.pkt == k)
              then ((s.fabric.port q).lerr + 1) % 2 ^ 16 else (s.fabric.port q).lerr)
            ∧ { t with fabric := s.fabric } = s)
          ∧ (k.npay = 0 →
          (∀ b bs, s.taster.bisects.find? (fun b => b.serves k) = some b → bits k.opa 2 0 ≠ 7 → b.answer k = some bs →
            Answers (.audnPacket k) s fun t =>
              t.fabric.route.getLast? = some { pkt := replyTo k s.peerId b.die 0 (some bs), at' := s.gtc, pool := none }
                ∧ SameBytes s t ∧ t.tasks = s.tasks)
          ∧ (s.taster.bisects.find? (fun b => b.serves k) = none → Answers (.audnPacket k) s fun t =>
              t.fabric.route.getLast? = some { pkt := replyTo k s.peerId 0 7 (some []), at' := s.gtc, pool := none }
                ∧ SameBytes s t ∧ t.taster = s.taster))))
  ∧ (∀ (s : State) (b : Bisect), s.taster.bisects = [b] → b.lead = false → s.taster.early = [] → s.taster.waiting = [] →
      (b.since + 2 ^ 30 ≤ s.gtc → Answers (.bisectAnswerTimeout b.session) s fun t => t.taster.bisects = [] ∧ t.tasks = s.tasks)
      ∧ (s.gtc < b.since + 2 ^ 30 → exec (.bisectAnswerTimeout b.session) s = .next s))
  ∧ ∀ s : State,
      (s.decidedRun = none → exec .captureTargetReached s = .next s)
      ∧ ∀ id x, s.decidedRun = some id → s.task? id = some x → x.phase = .running → x.cutReq = none →
          (∀ p ∈ x.cores, (s.core p).sceS.dirt = []) → (∃ p ∈ x.cores, (s.core p).mxeS.flight ≠ []) →
          Answers .captureTargetReached s fun t =>
            (∀ p, t.core p = if p ∈ x.cores ∧ (s.core p).cut = none then
                { s.core p with cut := some s.gtc, cutBy := 1, yreq := false } else s.core p)
            ∧ (∃ r, t.task? id = some { x with cutReq := some r } ∧ r.ends = true) ∧ SameBytes s t

/-! ## The platform and the trust chiplet -/

/-- R11, R13, R15, R142, R367, R446, R452, R453, R456, R462, R464, R466 to R469 and R473: power is shared and withheld by
windows of 1024 ticks, errors are counted by window and make resources lasting-faulty, what is faulty or named by
RETIRE leaves service, a die that stays silent fails, the host reaches only frames that are clear, and a reset and a
loss of power leave what outlasts them; a port comes up with the peer of Table 7.1, on a die that is released. That
the ports of a retired die fail is the model's choice (log entry 135). -/
def Obligations.PlatformSteps : Prop :=
  ∀ s : State,
    (s.gtc % 1024 ≠ 0 → ∀ loads draw js, exec (.d2dThrottleWindow loads) s = .next s ∧ exec (.powerWindow draw js) s = .next s)
    ∧ (s.gtc % 1024 = 0 → (∀ loads, let queued := loads.filter (·.queued)
      ((loads.map (·.draw)).sum ≤ 2400000 → Answers (.d2dThrottleWindow loads) s fun t =>
        t.plat = { s.plat with edgeCap := [] } ∧ { t with plat := s.plat } = s)
      ∧ (2400000 < (loads.map (·.draw)).sum → (∀ x ∈ queued, 2400000 / queued.length < x.draw) → (queued.map (·.edge)).Nodup →
          Answers (.d2dThrottleWindow loads) s fun t =>
            (∀ x ∈ queued, t.plat.edgeCap.get 0 x.edge = max 12480 (2400000 / queued.length)) ∧ { t with plat := s.plat } = s))
    ∧ (∀ draw js, Answers (.powerWindow draw js) s fun t =>
        (t.plat.withhold = true ↔ (16000000 < draw ∨ ∃ j ∈ js, 105 < j.2)
          ∨ s.plat.withhold = true ∧ ¬ (draw < 15000000 ∧ ∀ j ∈ js, j.2 < 100))
        ∧ { t with plat := { t.plat with withhold := s.plat.withhold } } = s))
    ∧ (Answers .thermalShutdown s fun t => (∀ d, (t.die d).present = false) ∧ (∀ k, t.task? k = none) ∧ (∀ p, t.core p = Core.idle)
        ∧ (∀ q, t.fabric.port q = Port.absent) ∧ t.plat.dark = true ∧ SameBytes s t ∧ t.queues = s.queues ∧ t.out = s.out)
    ∧ (∀ d side e macOk, side < 4 → neighbour d side = some e → (s.die d).present = true → (s.die e).present = true →
        ∀ i, i = Instr.ucieEdgeTraining d side macOk ∨ (i = .retireEdge d side ∧ macOk = false) → Answers i s fun t =>
          (∀ j, bit (t.die d).edgeOk j = if j = 3 - side then macOk else bit (s.die d).edgeOk j)
          ∧ (∀ j, bit (t.die e).edgeOk j = if j = 3 - (side + 2) % 4 then macOk else bit (s.die e).edgeOk j)
          ∧ (∀ k, k ≠ d → k ≠ e → t.die k = s.die k) ∧ { t with dies := s.dies } = s)
    ∧ (∀ r, let k := resourceKey r
      let now := s.plat.errWin = s.gtc / 2 ^ 30
      (now → Answers (.errorCorrected r) s fun t =>
        t.plat.counts.get 0 k = s.plat.counts.get 0 k + 1
        ∧ (r ∈ t.plat.lasting ↔ r ∈ s.plat.lasting ∨ threshold r < s.plat.counts.get 0 k + 1)
        ∧ (∀ j, j ≠ k → t.plat.counts.get 0 j = s.plat.counts.get 0 j) ∧ { t with plat := s.plat } = s)
      ∧ (∀ unit, now → holdsData r = true →
          (s.bad.get false unit = true → exec (.errorUncorrectable r unit) s = .next s)
          ∧ (s.bad.get false unit = false → Answers (.errorUncorrectable r unit) s fun t =>
              (∀ j, t.bad.get false j = (decide (j ∈ s.unitSectors unit) || s.bad.get false j))
              ∧ t.plat.events.get 0 k = s.plat.events.get 0 k + 1
              ∧ (r ∈ t.plat.lasting ↔ r ∈ s.plat.lasting ∨ 1 ≤ s.plat.events.get 0 k) ∧ SameBytes s t))
      ∧ (r ∉ s.plat.lasting → exec (.resourceRetire r) s = .next s)
      ∧ (r ∈ s.plat.lasting → Answers (.resourceRetire r) s fun t => r ∉ t.plat.lasting ∧ ((∀ d c, r ≠ .cellarBank d c) → SameBytes s t)
          ∧ (∀ d c, r = .hbmChannel d c → (t.die d).hbmOk = false ∨ (s.die d).present = false)
          ∧ ∀ q l, r = .azpinLane q l → (t.fabric.port q).st = 3))
    ∧ (Answers .errorWindow s fun t => t.plat.errWin = s.gtc / 2 ^ 30 ∧ { t with plat := s.plat } = s
        ∧ if s.plat.errWin = s.gtc / 2 ^ 30 then t.plat = s.plat else t.plat.counts = [] ∧ t.plat.events = [])
    ∧ (∀ d pos, (s.die d).present = true → pos ∉ (s.die d).retired → pos < 17 →
        (∀ e ∈ s.tasks, ∀ y, e.2 = some y → 32 * d + pos ∉ y.cores) → Answers (.retireCore d pos) s fun t =>
          pos ∈ (t.die d).retired ∧ pos ∉ (t.die d).positions ∧ (∀ k, k ≠ d → t.die k = s.die k) ∧ t.tasks = s.tasks
          ∧ (pos < 16 → (s.die d).spareUsed = false → 16 ∉ (s.die d).retired → 16 ∈ (t.die d).positions))
    ∧ (∀ d pos id y, (s.die d).present = true → pos ∉ (s.die d).retired → s.tasks = [(id, some y)] → 32 * d + pos ∈ y.cores →
        y.spec = none → y.phase = .running → y.cutReq = none → Answers (.retireCore d pos) s fun t =>
          ∃ r, t.task? id = some { y with cutReq := some r } ∧ r.yield = true ∧ r.ty = s.gtc + 300)
    ∧ (∀ d, d < 32 → (s.die d).present = true → (s.die d).leaving = false → (∀ e ∈ s.cores, e.2.task = none) → s.tasks = [] → s.taster = TasterState.zero → Answers (.retireDie d) s fun t =>
          (t.die d).present = false ∧ (∀ p, p / 32 = d → t.core p = Core.idle)
          ∧ (∀ p, p / 32 ≠ d → t.core p = s.core p) ∧ SameBytes s t
          ∧ ∀ q < 46, portDie q = d → s.fabric.live q = true → (t.fabric.port q).st = 3)
    ∧ (∀ k, (s.die k).present = true → Answers (.retireStack k) s fun t =>
        (∀ pa, pa / stackBytes = k → k < 32 → t.populated pa = false) ∧ (∀ j, j ≠ k → t.die j = s.die j) ∧ { t with dies := s.dies } = s)
    ∧ (∀ d a t, (s.die d).challenge = some a →
        (a + 700000000 ≤ s.gtc → t = s.setDie d Die.held → exec (.dieChallengeTimeout d) s = .next t)
        ∧ (s.gtc < a + 700000000 → exec (.dieChallengeTimeout d) s = .next s))
    ∧ (∀ d a ok, Answers (.fwload d a ok) s fun t =>
        t.regs.fwldone = (s.regs.fwldone + 1) % 2 ^ 32
        ∧ (ok = false → { t with regs := s.regs } = s)
        ∧ (ok = true → (s.die d).present = true → ∀ k < 17, (s.core (32 * d + k)).fwDead = true →
            (t.core (32 * d + k)).fwDead = false ∧ (t.core (32 * d + k)).fwvec = 0))
    ∧ (∀ x : HostAccess, let pas := (List.range x.len).map (x.addr + ·)
      let clear : Prop := ∀ pa ∈ pas, s.populated pa = true ∧ s.tags.get 0 (pa / 2 ^ 16) ≤ 1
      (x.write = none → clear → (∀ pa ∈ pas, s.isBad (s.paFlat pa) 1 = false) → s.plain → Answers (.hostMemoryAccess x) s fun t =>
        t.out = s.out ++ [.read x.addr (pas.map fun pa => s.byte (s.paFlat pa))] ∧ SameBytes s t ∧ t.tags = s.tags)
      ∧ (x.write = none → (∃ pa ∈ pas, s.hostMay x pa = false) → Answers (.hostMemoryAccess x) s fun t =>
          t.out = s.out ++ [.read x.addr (List.replicate x.len 0xFF)] ∧ SameBytes s t)
      ∧ (∀ bs, x.write = some bs → (∃ pa ∈ pas, s.hostMay x pa = false) → exec (.hostMemoryAccess x) s = .next s)
      ∧ (∀ bs, x.write = some bs → bs.length = x.len → clear → s.plain → x.addr + x.len ≤ 2 ^ 43 →
          (∀ pa ∈ pas, s.pfIgnored pa = false) → Answers (.hostMemoryAccess x) s fun t =>
          (∀ i < x.len, t.byte (x.addr + i) = BitVec.ofNat 8 (bs.getD i 0))
          ∧ ∀ a, (a < x.addr ∨ x.addr + x.len ≤ a) → t.byte a = s.byte a))
    ∧ (∀ t, t = s.cold → exec .powerLoss s = .next t ∧ (∀ k, t.task? k = none) ∧ t.up = false ∧ t.gtc = 0 ∧ t.board = s.board
        ∧ t.trust.idxNext = s.trust.idxEnd ∧ t.trust.chains = s.trust.chains
        ∧ (∀ a, hostBase ≤ a → a < 2 * hostBase → t.byte a = s.byte a) ∧ ∀ a, a < hostBase → t.byte a = 0)
    ∧ ∀ b : BringUp, Answers (.moduleReset b) s fun t =>
        t.up = true ∧ t.gtc = 0 ∧ t.peerId = b.strap ∧ t.trust.bootEpoch = (s.trust.bootEpoch + 1) % 2 ^ 32
        ∧ (∀ k, t.task? k = none) ∧ (∀ q, (t.queue q).v = false) ∧ t.regs.hwbase = 0
        ∧ (∀ d < 32, (t.die d).present = b.dies.contains d ∧ ((t.die d).present = true → (t.die d).hbmOk = b.hbms.contains d)
            ∧ t.trust.dieStore.get 0 d = s.trust.dieStore.get 0 d + 1)
        ∧ (s.board.single = false → ∀ q < 46, (t.fabric.port q).st =
            if b.dies.contains (portDie q) && (b.ports.find? fun e => e.1 == q) == some (q, portPeer b.strap q) then 2 else 3)
        ∧ (s.board.single = true → ∀ q, t.fabric.port q = Port.absent)

/-- R445 to R451, R454 to R458 and Tables 17.3 and 17.5: each request is answered as its responder does, a large
answer by a handle for CHUNK_GET; sessions, certificate slots, memory keys, IDE keys and the interfaces of TDISP
change only as the requests say. -/
def Obligations.TrustRequests : Prop :=
  ∀ (s : State) (r : SpdmReq),
    let replies (i : Instr) (a : SpdmAnswer) : Prop := Answers i s fun t =>
      t.out = s.out ++ [.spdm r.ep a] ∧ { t with out := s.out } = s
    let fails (i : Instr) (e : SpdmError) : Prop := replies i (.error e)
    let sends (i : Instr) (a : SpdmAnswer) (n : Nat) : Prop :=
      (n ≤ Config.transferSize → replies i a)
      ∧ (Config.transferSize < n → Answers i s fun t =>
          t.out = s.out ++ [.spdm r.ep (.error (.largeResponse s.trust.nextHandle))]
          ∧ (∃ c, t.trust.gets = s.trust.gets ++ [c] ∧ c.ep = r.ep ∧ c.handle = s.trust.nextHandle ∧ c.answer = a ∧ c.next = 0)
          ∧ SameBytes s t ∧ t.tasks = s.tasks)
    let trusted := atTrust r.ep = true
    replies (.getVersion r) .version ∧ replies (.getCapabilities r) .capabilities
    ∧ replies (.negotiateAlgorithms r true) .algorithms ∧ fails (.negotiateAlgorithms r false) .invalidRequest
    ∧ (∀ code, fails (.spdmUnsupportedRequest r code) .unsupportedRequest)
    ∧ (replies (.getDigests r) (.digests (((List.range 8).filter fun k => k == 0 || !(s.chainOf r.ep k).isEmpty).map fun k =>
        (k, sha384Nat (s.chainOf r.ep k)))))
    ∧ (∀ slot off len, s.trust.uses = [] →
        (8 ≤ slot ∨ slot ≠ 0 ∧ s.chainOf r.ep slot = [] → fails (.getCertificate r slot off len) .invalidRequest)
        ∧ (slot < 8 → off < (s.chainOf r.ep slot).length → (s.chainOf r.ep slot).length - off ≤ len →
            sends (.getCertificate r slot off len) (.certificate slot ((s.chainOf r.ep slot).drop off) 0)
              ((s.chainOf r.ep slot).length - off)))
    ∧ (∀ slot nonce d, r.ep = .dse d → (slot = 0 ∨ 8 ≤ slot) →
        (8 ≤ slot → fails (.challenge r slot nonce) .invalidRequest)
        ∧ (slot = 0 → (s.trust.dieIdx.get (0, 0) d).2 ≤ (s.trust.dieIdx.get (0, 0) d).1 → fails (.challenge r slot nonce) .unspecified)
        ∧ (slot = 0 → (s.trust.dieIdx.get (0, 0) d).1 < (s.trust.dieIdx.get (0, 0) d).2 → Answers (.challenge r slot nonce) s fun t =>
            (t.trust.dieIdx.get (0, 0) d).1 = (s.trust.dieIdx.get (0, 0) d).1 + 1 ∧ t.out.length = s.out.length + 1 ∧ SameBytes s t))
    ∧ (∀ k, (s.blockAt r.ep k = none → k ≠ 255 → fails (.getMeasurements r k) .invalidRequest)
        ∧ ∀ bs, s.blockAt r.ep k = some bs → k ≠ 255 → sends (.getMeasurements r k) (.measurements k bs) bs.length)
    ∧ (∀ hd data, s.trust.sends = [] →
        (∀ n, n ≠ 0 → fails (.chunkSend r hd n false data) .invalidRequest)
        ∧ replies (.chunkSend r hd 0 true data) (.chunkSendAck hd 0)
        ∧ Answers (.chunkSend r hd 0 false data) s fun t =>
            t.out = s.out ++ [.spdm r.ep (.chunkSendAck hd 0)]
            ∧ t.trust = { s.trust with sends := [{ ep := r.ep, handle := hd, seq := 1, data := data }] })
    ∧ (∀ c n, s.trust.gets = [c] → c.ep = r.ep →
        (n ≠ c.next → fails (.chunkGet r c.handle n) .invalidRequest)
        ∧ (c.next + 1 < c.parts → Answers (.chunkGet r c.handle c.next) s fun t =>
            t.out = s.out ++ [.spdm r.ep (.chunkResponse c.handle c.next false)]
            ∧ t.trust = { s.trust with gets := [{ c with next := c.next + 1 }] })
        ∧ (c.parts ≤ c.next + 1 → Answers (.chunkGet r c.handle c.next) s fun t =>
            t.out = s.out ++ [.spdm r.ep (.chunkResponse c.handle c.next true), .spdm r.ep c.answer]
            ∧ t.trust = { s.trust with gets := [] }))
    ∧ (¬ trusted → (∀ slot, fails (.keyExchange r slot) .unsupportedRequest) ∧ (∀ v, fails (.finish r v) .unsupportedRequest)
        ∧ (∀ n, fails (.keyUpdate r n) .unsupportedRequest) ∧ fails (.heartbeat r) .unsupportedRequest
        ∧ fails (.endSession r) .unsupportedRequest ∧ (∀ slot ch ok, fails (.setCertificate r slot ch ok) .unsupportedRequest))
    ∧ (r.ep ≠ .host → (∀ slot a, fails (.keySet r slot a) .unsupportedRequest) ∧ (∀ slot, fails (.keyClear r slot) .unsupportedRequest)
        ∧ ∀ st, fails (.ideKmKeyProgramming r st) .unsupportedRequest)
    ∧ (trusted → s.sessionOf r = none → (∀ n, fails (.keyUpdate r n) .sessionRequired) ∧ fails (.heartbeat r) .sessionRequired
        ∧ fails (.endSession r) .sessionRequired ∧ ∀ slot ch ok, fails (.setCertificate r slot ch ok) .sessionRequired)
    ∧ (trusted → Answers (.keyExchange r 0) s fun t =>
        t.trust.sessions = s.trust.sessions ++ [{ id := s.trust.nextSession, ep := r.ep, open' := false, keys := 0 }]
        ∧ t.trust.idxNext = s.trust.idxNext + 1 ∧ t.trust.nextSession = s.trust.nextSession + 1 ∧ SameBytes s t)
    ∧ (∀ x, trusted → s.trust.sessions = [x] → r.session = some x.id → x.ep = r.ep →
        (x.open' = false → (Answers (.finish r true) s fun t => t.trust.sessions = [{ x with open' := true }]
              ∧ t.out = s.out ++ [.spdm r.ep (.finishRsp x.id)])
          ∧ Answers (.finish r false) s fun t => t.trust.sessions = [] ∧ t.out = s.out ++ [.spdm r.ep (.error .invalidRequest)])
        ∧ (x.open' = true →
          (∀ n, Answers (.keyUpdate r n) s fun t => t.trust.sessions = [{ x with keys := x.keys + 1 }]
            ∧ t.out = s.out ++ [.spdm r.ep (.keyUpdateAck x.id)]
            ∧ ∀ q, (t.fabric.port q).switchAt = if r.ep = .link q then some n else (s.fabric.port q).switchAt)
          ∧ replies (.heartbeat r) (.heartbeatAck x.id)
          ∧ (Answers (.endSession r) s fun t => t.trust.sessions = [] ∧ t.out = s.out ++ [.spdm r.ep (.endSessionAck x.id)]
            ∧ ∀ n, (t.tdi n).phase = if (s.tdi n).held = true ∧ r.ep = .host ∧ (s.tdi n).bound = some x.id then .error else (s.tdi n).phase)
          ∧ (∀ slot ch ok,
              (slot = 0 ∨ 8 ≤ slot ∨ ok = false → fails (.setCertificate r slot ch ok) .invalidRequest)
              ∧ (0 < slot → slot < 8 → ok = true → s.trust.uses = [] → Answers (.setCertificate r slot ch ok) s fun t =>
                  (∀ k, t.trust.chains.get [] k = if k = slot then ch else s.trust.chains.get [] k)
                  ∧ t.out = s.out ++ [.spdm r.ep (.setCertificateRsp slot)]))
          ∧ (r.ep = .host →
            (∀ slot a,
              ((s.trust.keySlots.get none slot).isSome = true → fails (.keySet r slot a) .invalidRequest)
              ∧ (slot < 256 → a < 4096 → s.trust.keySlots.get none slot = none → Answers (.keySet r slot a) s fun t =>
                  (∀ k, t.trust.keySlots.get none k = if k = slot then some { asid := a, gen := s.trust.keyGen + 1 }
                    else s.trust.keySlots.get none k)
                  ∧ t.out = s.out ++ [.spdm r.ep (.keySetRsp slot)] ∧ SameBytes s t))
            ∧ (∀ slot, Answers (.keyClear r slot) s fun t =>
                (∀ k, t.trust.keySlots.get none k = if k = slot then none else s.trust.keySlots.get none k)
                ∧ t.out = s.out ++ [.spdm r.ep (.keyClearRsp slot)] ∧ SameBytes s t)
            ∧ (∀ st, (st < 5 → Answers (.ideKmKeyProgramming r st) s fun t => st ∈ t.trust.ide ∧ (∀ k, k ≠ st → (k ∈ t.trust.ide ↔ k ∈ s.trust.ide))
                  ∧ t.out = s.out ++ [.spdm r.ep (.ideKmAck st)])
                ∧ (5 ≤ st → fails (.ideKmKeyProgramming r st) .invalidRequest))
            ∧ ∀ n, 1 ≤ n → n ≤ 32 →
                let x' := s.tdi n
                let tells (i : Instr) (q : TdispReq) (a : TdispAnswer) (y : Tdi) : Prop := Answers i s fun t =>
                  t.out = s.out ++ [.tdisp n x.id q a] ∧ (∀ k, t.tdi k = if k = n then y else s.tdi k) ∧ SameBytes s t
                x'.scrub = none →
                (x'.phase = .unlocked → tells (.lockInterface n x.id) .lock .done { x' with phase := .locked, bound := some x.id })
                ∧ (x'.phase ≠ .unlocked → tells (.lockInterface n x.id) .lock (.invalidInterfaceState x'.phase) x')
                ∧ (x'.bound = some x.id ∨ x'.bound = none →
                    (x'.phase = .locked → tells (.startInterface n x.id) .start .done { x' with phase := .run })
                    ∧ (x'.phase ≠ .locked → tells (.startInterface n x.id) .start (.invalidInterfaceState x'.phase) x')
                    ∧ (x'.held = true → tells (.getInterfaceReport n x.id) .report .report x')
                    ∧ (x'.held = true → (∀ e ∈ s.queues, e.1 / 32 + 1 ≠ n) →
                        (∀ e ∈ s.tasks, ∀ y, e.2 = some y → y.queue / 32 + 1 ≠ n) → x'.waits = [] →
                        tells (.stopInterface n x.id) .stop .done { x' with phase := .unlocked, bound := none })))))
    ∧ (∀ n session q i, (i, q) ∈ [(Instr.lockInterface n session, TdispReq.lock), (.startInterface n session, .start)
          , (.getInterfaceReport n session, .report)] →
        s.sessionOf { ep := .host, session := some session } = none → Answers i s fun t =>
          t.out = s.out ++ [.spdm .host (.error .sessionRequired)] ∧ { t with out := s.out } = s)
    ∧ ∀ n, Answers (.functionLevelReset n) s fun t => (∀ k, t.tdi k =
        if k = n ∧ (s.tdi n).held = true then { s.tdi n with phase := .error } else s.tdi k)
        ∧ { t with trust := { t.trust with tdis := s.trust.tdis } } = s


/-! ## Encodings -/

/-- The words that the encoder gives a well-formed instruction decode to it, with every operand, in every engine
that has it. -/
def Obligations.RoundTrips : Prop :=
  ∀ i : Instr, i.wf = true → ∀ e ∈ i.engines, decode e (encode i) = .ok i

/-- Words written out from Tables 5.4, 8.4, 9.3, 10.3, 11.3 and 12.6 decode to the instructions they stand for. -/
def Obligations.DecodedWords : Prop :=
  let h (n : Nat) : Hdr := { n := n, wp := 0, wn := 0, gp := 0, gn := 0, stl := 0 }
  -- AT 0x0001_0000 (05, R100); CSET c2.xy, 0; CLDP c3.x, 2; LOOP c3.x, 3; CADD c2.x, 1 | wp; ENDL | gn (Table 5.5)
  decode .scu [0x04100000, 0x00010000] = .ok (.atStamp (h 2) 0x10000)
  ∧ decode .mxe [0x04523000, 0x00000000] = .ok (.csetImm (h 2) 2 3 0)
  ∧ decode .mxe [0x00831002] = .ok (.cldp (h 1) 3 1 2)
  ∧ decode .mxe [0x04380003, 0x0000000C] = .ok (.loop (h 2) 3 (.coord 3 0))
  ∧ decode .mxe [0x84621000, 0x00000001] = .ok (.caddImm { h 2 with wp := 1 } 2 1 1)
  ∧ decode .mxe [0x10400000] = .ok (.endl { h 1 with gn := 1 })
  -- ADD s0, b1, s1 with STL 1; LI b0, -1; LD.D s2 from tensor 5 at s1 + 8
  ∧ decode .scu [0x01018062] = .ok (.add { h 1 with stl := 1 } 16 1 17)
  ∧ decode .scu [0x06800000, 0x0FFFFFFF] = .ok (.li (h 2) 0 0x0FFFFFFF)
  ∧ decode .scu [0x07409440, 0x01002808] =
      .ok (.ld (h 2) 18 17 false { sel := 0, kind := 1, ord := 0, scope := 0, tid := 5, off := 8 })
  -- CPI t16[c1] <- t32[c2] of the load copy engine; CPO with ACKW of the store copy engine
  ∧ decode .lce [0x05010120, 0x02000000] = .ok (.cpi (h 2) 16 1 2 32 none)
  ∧ decode .sce [0x05010121, 0x02000000] = .ok (.cpo (h 2) 16 1 2 32 true none)
  -- MMA a3, q1, w2, POP with STL 4; VIADD v1, v2, v3 of 32 bits
  ∧ decode .mxe [0x01246D00] = .ok (.mma { h 1 with stl := 4 } 3 1 2 true)
  ∧ decode .vxe [0x02008870] = .ok (.viadd (h 1) { vd := 1, va := 2, vb := 3, es := 2 } (VArith.dflt 0))

/-- R93: checks 1 and 2 of Table 5.3. An operation that an engine does not have decodes to nothing, whatever
else its words hold, and words of a number that word 0 does not announce decode to nothing. -/
def Obligations.ReservedOperations : Prop :=
  (∀ (e : Engine) (ws : List Nat), ws.length ≠ lenOf (ws.getD 0 0) → decode e ws = .error .badLen)
  ∧ (∀ (e : Engine) (ws : List Nat), ws.length = lenOf (ws.getD 0 0) →
      let op := bits (ws.getD 0 0) 25 20
      let reserved := match e with
        | .scu => op ∈ [0x2A, 0x2B, 0x2C, 0x2D, 0x2E, 0x2F, 0x3B, 0x3C, 0x3D, 0x3E, 0x3F]
        | .lce => op ∈ [0x0B, 0x0C, 0x0D, 0x0E, 0x0F] ∨ 0x1A ≤ op
        | .mxe => op ∈ [0x0B, 0x0C, 0x0D, 0x0E, 0x0F] ∨ 0x1E ≤ op
        | .vxe => op ∈ [0x0B, 0x0C, 0x0D, 0x0E, 0x0F, 0x2D, 0x2E, 0x2F] ∨ 0x3C ≤ op
        | .sce => op ∈ [0x0B, 0x0C, 0x0D, 0x0E, 0x0F] ∨ 0x19 ≤ op
      reserved → decode e ws = .error .reservedOp)

/-! ## A step -/

/-- Where no step has fallen due and the schedule lets an engine issue, a step runs the instruction that its
words decode to, with those words noted and the move taken; words that decode to nothing raise an illegal
encoding at their place, and so does an instruction that does not lie whole in the stream; words with uncorrectable
data raise that, with the code of their engine (R92, R93, R297, R341). -/
def Obligations.StepRunsDecoded : Prop :=
  ∀ (s : State) (p : Nat) (e : Engine) (fw : Bool) (ms : List Move), s.dueStep = none →
    s.agenda = .issue p e fw :: ms → p < 1024 → p % 32 ≤ 16 → (fw = false ∨ e = .scu) →
    let u : State := { s with
      agenda := ms, cur := { core := p, eng := e, fw := fw, words := [], port := 0, queue := 0 } }
    u.canIssue = true →
    (∀ ws i, u.fetch = .words ws → decode e ws = .ok i →
      step s = exec i { u with cur := { u.cur with words := ws } })
    ∧ (∀ ws d, u.fetch = .words ws → decode e ws = .error d → step s = .next (u.raise 1 0 0))
    ∧ (u.fetch = .outside → step s = .next (u.raise 1 0 0))
    ∧ (u.fetch = .uncorrectable → step s = .next (u.raise 10 (match e with
        | .mxe => 11
        | .vxe => 9
        | _ => 0) 0))

/-- A step that has fallen due is taken before any move of the schedule. Where the tick would end, a stream that
could still issue on it runs its instruction first (R94), and the clock ticks only when none is left that could; a
tick changes nothing but the clock, the sweep over the streams and what the cores count by ticks: what has been
consumed counts no more (R25), a slot that one context of the SCU took is none of the other's (R179), and DGSTALL
counts one where a retirement waits on its leaf (R365). The order of the steps within a tick is the model's choice
(log entry 1). -/
def Obligations.StepOrder : Prop :=
  ∀ s : State,
    (∀ cur i, s.dueStep = some (cur, i) → step s = exec i { s with cur := cur })
    ∧ (let n := 6 * s.cores.length + 1 - s.sweep
       (∀ u : State, s.dueStep = none → s.agenda = [] ∧ u = s ∨ s.agenda = .tick :: u.agenda ∧ u = { s with agenda := u.agenda } →
          s.unswept s.sweep n = none → step s = .next u.tick)
       ∧ (∀ k cur, s.dueStep = none → s.agenda = [] → s.unswept s.sweep n = some (k, cur) →
          let u : State := { s with
            sweep := k + 1, cur := { core := cur.core, eng := cur.eng, fw := cur.fw, words := [], port := 0, queue := 0 } }
          ∀ ws i, u.fetch = .words ws → decode cur.eng ws = .ok i → step s = exec i { u with cur := { u.cur with words := ws } })
       ∧ (s.unswept s.sweep n = none → ∀ k cur, s.sweep ≤ k → s.streamAt k = some cur → s.couldIssue cur = false))
    ∧ s.tick.gtc = s.gtc + 1 ∧ { s.tick with gtc := s.gtc, sweep := s.sweep, cores := s.cores } = s
    ∧ ∀ p,
        let c := s.core p
        let d := s.tick.core p
        d.spent = [] ∧ d.dgstall = c.dgstall + b2n c.digestWait
        ∧ (c.fwSlot = true → d.user = c.user.delay 1)
        ∧ (c.fwSlot = false → c.usrSlot = true → c.fwWants = true → d.fw = c.fw.delay 1)
        ∧ (c.fwSlot = false → c.usrSlot = false ∨ c.fwWants = false → { d with
            spent := c.spent, usrSlot := c.usrSlot, fwIss := c.fwIss, fwHad := c.fwHad, fwWas := c.fwWas
            dgstall := c.dgstall, sealWait := c.sealWait } = c)

/-- Memory has its canonical form after every step from a state in which it has it. -/
def Obligations.StepKeepsMemoryForm : Prop :=
  ∀ s t : State, Memory.wf s.mem = true → step s = .next t → Memory.wf t.mem = true

/-- After reset memory has its canonical form: it lists nothing. -/
def Obligations.ResetMemoryForm : Prop := Memory.wf State.reset.mem = true ∧ State.reset.mem = []

/-- What reset leaves (R466, R127): the station clock reads 0, every die is held in reset, the host's registers
are not reachable yet, HWBASE reads 0, no task, queue entry or log is set up, and no packet is on its way. The
values that the rules do not state are those of log entry 2. -/
def Obligations.ResetState : Prop :=
  State.reset.gtc = 0 ∧ State.reset.up = false ∧ (∀ d, (State.reset.die d).present = false)
    ∧ State.reset.regs.hwbase = 0 ∧ (∀ t, State.reset.task? t = none) ∧ (∀ q, (State.reset.queue q).v = false)
    ∧ (∀ p, (State.reset.core p).task = none ∧ (State.reset.core p).fwvec = 0 ∧ (State.reset.core p).fwq = [])
    ∧ State.reset.fabric.route = [] ∧ (∀ q, State.reset.fabric.port q = Port.absent) ∧ State.reset.out = []
    ∧ State.reset.mem = [] ∧ State.reset.trust.records = [] ∧ State.reset.trust.batchDue = none
end

