-- ==== Sys2Proof/Laws/Encode.lean ====
section
/-!
SUPPORT. The fields of assembled words: what the decoder reads from what the encoder lays out.
-/

namespace Sys2Proof

/-! ## Bit fields of sums -/

theorem bits_mul_add {a b lo : Nat} (hi : Nat) (hb : b < 2 ^ lo) (ha : a < 2 ^ (hi + 1 - lo)) :
    bits (a * 2 ^ lo + b) hi lo = a := by
  unfold bits
  rw [Nat.mul_comm, Nat.mul_add_div (Nat.two_pow_pos lo), Nat.div_eq_of_lt hb, Nat.add_zero, Nat.mod_eq_of_lt ha]

theorem bits_lt (w hi lo : Nat) : bits w hi lo < 2 ^ (hi + 1 - lo) := Nat.mod_lt _ (Nat.two_pow_pos _)

theorem b2n_le (b : Bool) : b2n b ≤ 1 := by cases b <;> simp [b2n]

@[simp] theorem b2n_eq_one (b : Bool) : (b2n b == 1) = b := by cases b <;> rfl

theorem countBit_eq (b : Nat) (ws : List Nat) : countBit b ws = ws.countP fun w => bit w b := by
  induction ws with
  | nil => rfl
  | cons w ws ih =>
    rw [countBit, ih, List.countP_cons, Nat.add_comm]
    cases bit w b <;> rfl

/-! ## Assembled words -/

variable {h : Hdr} {op p c1 c2 : Nat}

/-- The part of word `k` below its interlock bits. -/
def lowPart (h : Hdr) (op p c1 c2 k : Nat) : Nat :=
  match k with
  | 0 => (h.n - 1) * 2 ^ 26 + op * 2 ^ 20 + p
  | 1 => c1
  | 2 => c2
  | _ => 0

theorem assemble_eq : assemble h op p c1 c2 = (List.range h.n).map fun k => ilBits h k + lowPart h op p c1 c2 k := by
  rfl

@[simp] theorem length_assemble : (assemble h op p c1 c2).length = h.n := by simp [assemble]

/-- The payloads fit their places. -/
structure Fits (h : Hdr) (op p c1 c2 : Nat) : Prop where
  n  : 1 ≤ h.n ∧ h.n ≤ 4
  op : op < 2 ^ 6
  p  : p < 2 ^ 20
  c1 : c1 < 2 ^ 28
  c2 : c2 < 2 ^ 28

theorem lowPart_lt (f : Fits h op p c1 c2) (k : Nat) : lowPart h op p c1 c2 k < 2 ^ 28 := by
  have := f.n; have := f.op; have := f.p; have := f.c1; have := f.c2
  unfold lowPart
  split <;> omega

theorem ilBits_eq (h : Hdr) (k : Nat) : ilBits h k = (b2n (decide (k < h.wp)) * 8 + b2n (decide (k < h.wn)) * 4
    + b2n (decide (k < h.gp)) * 2 + b2n (decide (k < h.gn))) * 2 ^ 28 := by
  unfold ilBits
  omega

theorem getD_assemble {k : Nat} (hk : k < h.n) :
    (assemble h op p c1 c2).getD k 0 = ilBits h k + lowPart h op p c1 c2 k := by
  rw [assemble_eq]
  simp [List.getD, hk]

theorem getD_assemble_out {k : Nat} (hk : h.n ≤ k) : (assemble h op p c1 c2).getD k 0 = 0 := by
  rw [assemble_eq]
  simp [List.getD, hk]

theorem low_of_word (f : Fits h op p c1 c2) (k hi lo : Nat) (hh : hi < 28) :
    bits (ilBits h k + lowPart h op p c1 c2 k) hi lo = bits (lowPart h op p c1 c2 k) hi lo := by
  have hl := lowPart_lt f k
  rw [ilBits_eq]
  generalize b2n (decide (k < h.wp)) * 8 + b2n (decide (k < h.wn)) * 4 + b2n (decide (k < h.gp)) * 2
    + b2n (decide (k < h.gn)) = q
  unfold bits
  by_cases h0 : lo ≤ hi
  · have e : q * 2 ^ 28 = (q * 2 ^ (28 - (hi + 1)) * 2 ^ (hi + 1 - lo)) * 2 ^ lo := by
      rw [Nat.mul_assoc, Nat.mul_assoc, ← Nat.pow_add, ← Nat.pow_add]
      congr 2
      omega
    rw [e, Nat.add_comm, Nat.add_mul_div_right _ _ (Nat.two_pow_pos lo), Nat.add_mul_mod_self_right]
  · have : hi + 1 - lo = 0 := by omega
    rw [this]
    simp [Nat.mod_one]

/-- The interlock count whose bit is 28 + j of a word (R91). -/
def Hdr.il (h : Hdr) (j : Nat) : Nat := if j = 3 then h.wp else if j = 2 then h.wn else if j = 1 then h.gp else h.gn

/-- The bit of a number at a power of two. -/
def bit' (w d : Nat) : Bool := (w / d) % 2 == 1

theorem ilBits_div (h : Hdr) (k : Nat) (j : Nat) (hj : j < 4) :
    bit ((b2n (decide (k < h.wp)) * 8 + b2n (decide (k < h.wn)) * 4 + b2n (decide (k < h.gp)) * 2
      + b2n (decide (k < h.gn)))) j = decide (k < h.il j) := by
  have h4 : j = 0 ∨ j = 1 ∨ j = 2 ∨ j = 3 := by omega
  unfold bit Hdr.il
  by_cases h1 : k < h.wp <;> by_cases h2 : k < h.wn <;> by_cases h3 : k < h.gp <;> by_cases h5 : k < h.gn <;>
    rcases h4 with rfl | rfl | rfl | rfl <;> simp [b2n, h1, h2, h3, h5]

theorem bit_high {q l N : Nat} (hN : 0 < N) (hl : l < N) (j : Nat) : bit' (q * N + l) (N * 2 ^ j) = bit q j := by
  unfold bit bit'
  rw [← Nat.div_div_eq_div_mul, Nat.mul_comm, Nat.mul_add_div hN, Nat.div_eq_of_lt hl, Nat.add_zero]

theorem bit_of_word (f : Fits h op p c1 c2) (k j : Nat) (hj : j < 4) :
    bit (ilBits h k + lowPart h op p c1 c2 k) (28 + j) = decide (k < h.il j) := by
  have hl := lowPart_lt f k
  rw [ilBits_eq, ← ilBits_div h k j hj]
  have := bit_high (q := b2n (decide (k < h.wp)) * 8 + b2n (decide (k < h.wn)) * 4 + b2n (decide (k < h.gp)) * 2
    + b2n (decide (k < h.gn))) (Nat.two_pow_pos 28) hl j
  rw [← this]
  unfold bit bit'
  rw [Nat.pow_add]

theorem countP_range_lt (n m : Nat) (hm : m ≤ n) : (List.range n).countP (fun k => decide (k < m)) = m := by
  induction n with
  | zero => simp; omega
  | succ n ih =>
    rw [List.range_succ, List.countP_append]
    by_cases h : m ≤ n
    · rw [ih h]
      simp
      omega
    · have : m = n + 1 := by omega
      subst this
      have e : (List.range n).countP (fun k => decide (k < n + 1)) = n := by
        rw [List.countP_eq_length.2 (by simp; omega)]
        simp
      rw [e]
      simp

theorem countBit_assemble (f : Fits h op p c1 c2) (j : Nat) (hj : j < 4) (hn : h.il j ≤ h.n) :
    countBit (28 + j) (assemble h op p c1 c2) = h.il j := by
  rw [countBit_eq, assemble_eq, List.countP_map, ← countP_range_lt h.n (h.il j) hn]
  refine List.countP_congr fun k _ => ?_
  have := bit_of_word f k j hj
  rw [Function.comp_apply, this]

/-- The header that the decoder reads is the one assembled. -/
theorem hdrOf_assemble (f : Fits h op p c1 c2) (hw : h.wp ≤ h.n ∧ h.wn ≤ h.n ∧ h.gp ≤ h.n ∧ h.gn ≤ h.n) (stl : Nat) :
    hdrOf (assemble h op p c1 c2) stl = { h with stl := stl } := by
  unfold hdrOf
  rw [length_assemble, countBit_assemble f 3 (by omega) hw.1, countBit_assemble f 2 (by omega) hw.2.1,
    countBit_assemble f 1 (by omega) hw.2.2.1, countBit_assemble f 0 (by omega) hw.2.2.2]
  rfl

/-- The number of words that word 0 announces is the number assembled. -/
theorem lenOf_assemble (f : Fits h op p c1 c2) : lenOf ((assemble h op p c1 c2).getD 0 0) = h.n := by
  have := f.n; have := f.op; have := f.p
  rw [getD_assemble (by omega), lenOf, low_of_word f 0 27 26 (by omega)]
  unfold lowPart bits
  simp only
  omega

/-- The parts that the decoder reads are those assembled, where no payload is left out. -/
theorem partsOf_assemble (f : Fits h op p c1 c2) (h1 : h.n < 2 → c1 = 0) (h2 : h.n < 3 → c2 = 0) :
    partsOf (assemble h op p c1 c2) = { op := op, p := p, c1 := c1, c2 := c2, c3 := 0 } := by
  have := f.n; have := f.op; have := f.p; have := f.c1; have := f.c2
  have low : ∀ k, h.n ≤ k ∨ k < h.n := fun k => by omega
  unfold partsOf contOf
  rw [getD_assemble (k := 0) (by omega), low_of_word f 0 25 20 (by omega), low_of_word f 0 19 0 (by omega)]
  simp only [Parts.mk.injEq]
  refine ⟨by unfold lowPart bits; simp only; omega, by unfold lowPart bits; simp only; omega, ?_, ?_, ?_⟩
  · rcases low 1 with h | h
    · rw [getD_assemble_out h, h1 (by omega)]; rfl
    · rw [getD_assemble h, low_of_word f 1 27 0 (by omega)]
      unfold lowPart bits; simp only; omega
  · rcases low 2 with h | h
    · rw [getD_assemble_out h, h2 (by omega)]; rfl
    · rw [getD_assemble h, low_of_word f 2 27 0 (by omega)]
      unfold lowPart bits; simp only; omega
  · rcases low 3 with h | h
    · rw [getD_assemble_out h]; rfl
    · rw [getD_assemble h, low_of_word f 3 27 0 (by omega)]
      simp [lowPart, bits]

end Sys2Proof
end

