-- ==== Sys2Proof/Laws/Maps.lean ====
section
/-!
SUPPORT. Sparse maps: a read after a write, and the canonical form that every update keeps.
-/

namespace Sys2Proof.SMap

variable {α : Type} {d v w : α} {m : SMap α} {j k : Nat}

@[simp] theorem get_nil : get d ([] : SMap α) k = d := rfl

theorem get_cons (e : Nat × α) : get d (e :: m) k = if e.1 = k then e.2 else get d m k := rfl

theorem get_erase_self : get d (m.erase k) k = d := by
  induction m with
  | nil => rfl
  | cons e m ih =>
    unfold erase at *
    rw [List.filter_cons]
    by_cases h : e.1 = k
    · simpa [h] using ih
    · simpa [h, get_cons] using ih

theorem get_erase_ne (h : j ≠ k) : get d (m.erase k) j = get d m j := by
  induction m with
  | nil => rfl
  | cons e m ih =>
    unfold erase at *
    rw [List.filter_cons]
    by_cases he : e.1 = k
    · have : ¬ e.1 = j := by omega
      simpa [he, get_cons, this, Ne.symm h] using ih
    · simp only [bne_iff_ne, ne_eq, he, not_false_eq_true, if_true, get_cons, ih]

theorem get_ins_ne (h : j ≠ k) : get d (ins k v m) j = get d m j := by
  induction m with
  | nil => simp [ins, get_cons, Ne.symm h]
  | cons e m ih =>
    unfold ins
    split
    · simp [get_cons, Ne.symm h]
    · simp only [get_cons, ih]

theorem get_ins_self (h : ∀ e ∈ m, e.1 ≠ k) : get d (ins k v m) k = v := by
  induction m with
  | nil => simp [ins, get_cons]
  | cons e m ih =>
    unfold ins
    split
    · simp [get_cons]
    · have he : ¬ e.1 = k := h e (by simp)
      simp only [get_cons, he, if_false]
      exact ih fun x hx => h x (by simp [hx])

theorem not_mem_erase : ∀ e ∈ m.erase k, e.1 ≠ k := by
  intro e he
  simp only [erase, List.mem_filter, bne_iff_ne] at he
  exact he.2

theorem erase_erase : (m.erase k).erase k = m.erase k := by
  simp [erase, List.filter_filter]

theorem erase_ins : (ins k v m).erase k = m.erase k := by
  induction m with
  | nil => simp [ins, erase]
  | cons e m ih =>
    unfold ins
    split
    · simp [erase]
    · unfold erase at *
      rw [List.filter_cons, List.filter_cons, ih]

variable [DecidableEq α]

/-- The last of two updates of one key stands. -/
@[simp] theorem set_set : set d (set d m k v) k w = set d m k w := by
  have h : (set d m k v).erase k = m.erase k := by
    unfold set
    split
    · exact erase_erase
    · rw [erase_ins, erase_erase]
  unfold set at *
  rw [h]

@[simp] theorem get_set_self : get d (set d m k v) k = v := by
  unfold set
  split
  · rename_i h
    rw [get_erase_self, h]
  · exact get_ins_self not_mem_erase

@[simp] theorem get_set_ne (h : j ≠ k) : get d (set d m k v) j = get d m j := by
  unfold set
  split
  · exact get_erase_ne h
  · rw [get_ins_ne h, get_erase_ne h]

theorem get_set : get d (set d m k v) j = if j = k then v else get d m j := by
  by_cases h : j = k
  · simp [h]
  · simp [h]

theorem wfFrom_filter (p : Nat × α → Bool) {b b' : Option Nat}
    (hb : ∀ x, b' = some x → ∃ y, b = some y ∧ x ≤ y) (h : wfFrom d b m = true) :
    wfFrom d b' (m.filter p) = true := by
  induction m generalizing b b' with
  | nil => simp [wfFrom]
  | cons e m ih =>
    obtain ⟨i, u⟩ := e
    simp only [wfFrom, Bool.and_eq_true, decide_eq_true_eq] at h
    obtain ⟨⟨h1, h2⟩, h3⟩ := h
    rw [List.filter_cons]
    split
    · simp only [wfFrom, Bool.and_eq_true, decide_eq_true_eq]
      refine ⟨⟨?_, h2⟩, ih (b := some i) (fun x hx => ⟨i, rfl, by simp_all⟩) h3⟩
      cases b' with
      | none => rfl
      | some x =>
        obtain ⟨y, rfl, hy⟩ := hb x rfl
        simp only [decide_eq_true_eq] at h1 ⊢
        omega
    · refine ih (b := some i) (fun x hx => ?_) h3
      obtain ⟨y, rfl, hy⟩ := hb x hx
      simp only [decide_eq_true_eq] at h1
      exact ⟨i, rfl, by omega⟩

/-- Any selection of entries keeps the canonical form. -/
theorem wf_filter (p : Nat × α → Bool) (h : wf d m = true) : wf d (m.filter p) = true :=
  wfFrom_filter p (by simp) h

theorem wf_erase (h : wf d m = true) : wf d (m.erase k) = true := wf_filter _ h

theorem wf_clear {lo hi : Nat} (h : wf d m = true) : wf d (m.clear lo hi) = true := wf_filter _ h

theorem wfFrom_ins {b : Option Nat} (hv : v ≠ d) (hb : ∀ x, b = some x → x < k)
    (hm : ∀ e ∈ m, e.1 ≠ k) (h : wfFrom d b m = true) : wfFrom d b (ins k v m) = true := by
  induction m generalizing b with
  | nil =>
    cases b with
    | none => simp [ins, wfFrom, hv]
    | some x => simp [ins, wfFrom, hv, hb x rfl]
  | cons e m ih =>
    obtain ⟨i, u⟩ := e
    have hi : i ≠ k := hm (i, u) (by simp)
    simp only [wfFrom, Bool.and_eq_true, decide_eq_true_eq] at h
    obtain ⟨⟨h1, h2⟩, h3⟩ := h
    unfold ins
    split
    · rename_i hk
      simp only [wfFrom, Bool.and_eq_true, decide_eq_true_eq]
      refine ⟨⟨?_, hv⟩, ⟨hk, h2⟩, h3⟩
      cases b with
      | none => rfl
      | some x => simpa using hb x rfl
    · simp only [wfFrom, Bool.and_eq_true, decide_eq_true_eq]
      refine ⟨⟨h1, h2⟩, ih (b := some i) (fun x hx => ?_) (fun e he => hm e (by simp [he])) h3⟩
      simp only [Option.some.injEq] at hx
      omega

/-- An update keeps the canonical form. -/
theorem wf_set (h : wf d m = true) : wf d (set d m k v) = true := by
  unfold set
  split
  · exact wf_erase h
  · rename_i hv
    exact wfFrom_ins hv (by simp) not_mem_erase (wf_erase h)

end Sys2Proof.SMap
end

