-- ==== Sys2Proof/Laws/State.lean ====
section
/-!
SUPPORT. What each update of the state leaves of each field: true by definition, so that no later proof
unfolds a record update; and reading a part after it has been written.
-/

namespace Sys2Proof.Machine

variable (s : State) (p d t q n a : Nat) (c : Core) (f : Core → Core) (g : Stream → Stream) (x : Die)
  (y : Option Task) (z : Queue) (cs : List (Nat × Byte)) (bs : List Byte) (r : Stream) (k : ScuCtx)

/-! ## setCore -/

@[simp] theorem State.setCore_gtc : (s.setCore p c).gtc = s.gtc := rfl
@[simp] theorem State.setCore_agenda : (s.setCore p c).agenda = s.agenda := rfl
@[simp] theorem State.setCore_sweep : (s.setCore p c).sweep = s.sweep := rfl
@[simp] theorem State.setCore_cur : (s.setCore p c).cur = s.cur := rfl
@[simp] theorem State.setCore_freeCtr : (s.setCore p c).freeCtr = s.freeCtr := rfl
@[simp] theorem State.setCore_up : (s.setCore p c).up = s.up := rfl
@[simp] theorem State.setCore_board : (s.setCore p c).board = s.board := rfl
@[simp] theorem State.setCore_peerId : (s.setCore p c).peerId = s.peerId := rfl
@[simp] theorem State.setCore_dies : (s.setCore p c).dies = s.dies := rfl
@[simp] theorem State.setCore_mem : (s.setCore p c).mem = s.mem := rfl
@[simp] theorem State.setCore_bad : (s.setCore p c).bad = s.bad := rfl
@[simp] theorem State.setCore_released : (s.setCore p c).released = s.released := rfl
@[simp] theorem State.setCore_tags : (s.setCore p c).tags = s.tags := rfl
@[simp] theorem State.setCore_regs : (s.setCore p c).regs = s.regs := rfl
@[simp] theorem State.setCore_mth : (s.setCore p c).mth = s.mth := rfl
@[simp] theorem State.setCore_dcache : (s.setCore p c).dcache = s.dcache := rfl
@[simp] theorem State.setCore_dlTail : (s.setCore p c).dlTail = s.dlTail := rfl
@[simp] theorem State.setCore_walks : (s.setCore p c).walks = s.walks := rfl
@[simp] theorem State.setCore_nextEvent : (s.setCore p c).nextEvent = s.nextEvent := rfl
@[simp] theorem State.setCore_groups : (s.setCore p c).groups = s.groups := rfl
@[simp] theorem State.setCore_queues : (s.setCore p c).queues = s.queues := rfl
@[simp] theorem State.setCore_fedTurn : (s.setCore p c).fedTurn = s.fedTurn := rfl
@[simp] theorem State.setCore_tasks : (s.setCore p c).tasks = s.tasks := rfl
@[simp] theorem State.setCore_order : (s.setCore p c).order = s.order := rfl
@[simp] theorem State.setCore_shadows : (s.setCore p c).shadows = s.shadows := rfl
@[simp] theorem State.setCore_pool : (s.setCore p c).pool = s.pool := rfl
@[simp] theorem State.setCore_poolNext : (s.setCore p c).poolNext = s.poolNext := rfl
@[simp] theorem State.setCore_retired : (s.setCore p c).retired = s.retired := rfl
@[simp] theorem State.setCore_rlPrev : (s.setCore p c).rlPrev = s.rlPrev := rfl
@[simp] theorem State.setCore_fabric : (s.setCore p c).fabric = s.fabric := rfl
@[simp] theorem State.setCore_pods : (s.setCore p c).pods = s.pods := rfl
@[simp] theorem State.setCore_podPeers : (s.setCore p c).podPeers = s.podPeers := rfl
@[simp] theorem State.setCore_taster : (s.setCore p c).taster = s.taster := rfl
@[simp] theorem State.setCore_trust : (s.setCore p c).trust = s.trust := rfl
@[simp] theorem State.setCore_plat : (s.setCore p c).plat = s.plat := rfl
@[simp] theorem State.setCore_fedGate : (s.setCore p c).fedGate = s.fedGate := rfl
@[simp] theorem State.setCore_fedWake : (s.setCore p c).fedWake = s.fedWake := rfl
@[simp] theorem State.setCore_out : (s.setCore p c).out = s.out := rfl

/-! ## onCore -/

@[simp] theorem State.onCore_gtc : (s.onCore p f).gtc = s.gtc := rfl
@[simp] theorem State.onCore_agenda : (s.onCore p f).agenda = s.agenda := rfl
@[simp] theorem State.onCore_sweep : (s.onCore p f).sweep = s.sweep := rfl
@[simp] theorem State.onCore_cur : (s.onCore p f).cur = s.cur := rfl
@[simp] theorem State.onCore_freeCtr : (s.onCore p f).freeCtr = s.freeCtr := rfl
@[simp] theorem State.onCore_up : (s.onCore p f).up = s.up := rfl
@[simp] theorem State.onCore_board : (s.onCore p f).board = s.board := rfl
@[simp] theorem State.onCore_peerId : (s.onCore p f).peerId = s.peerId := rfl
@[simp] theorem State.onCore_dies : (s.onCore p f).dies = s.dies := rfl
@[simp] theorem State.onCore_mem : (s.onCore p f).mem = s.mem := rfl
@[simp] theorem State.onCore_bad : (s.onCore p f).bad = s.bad := rfl
@[simp] theorem State.onCore_released : (s.onCore p f).released = s.released := rfl
@[simp] theorem State.onCore_tags : (s.onCore p f).tags = s.tags := rfl
@[simp] theorem State.onCore_regs : (s.onCore p f).regs = s.regs := rfl
@[simp] theorem State.onCore_mth : (s.onCore p f).mth = s.mth := rfl
@[simp] theorem State.onCore_dcache : (s.onCore p f).dcache = s.dcache := rfl
@[simp] theorem State.onCore_dlTail : (s.onCore p f).dlTail = s.dlTail := rfl
@[simp] theorem State.onCore_walks : (s.onCore p f).walks = s.walks := rfl
@[simp] theorem State.onCore_nextEvent : (s.onCore p f).nextEvent = s.nextEvent := rfl
@[simp] theorem State.onCore_groups : (s.onCore p f).groups = s.groups := rfl
@[simp] theorem State.onCore_queues : (s.onCore p f).queues = s.queues := rfl
@[simp] theorem State.onCore_fedTurn : (s.onCore p f).fedTurn = s.fedTurn := rfl
@[simp] theorem State.onCore_tasks : (s.onCore p f).tasks = s.tasks := rfl
@[simp] theorem State.onCore_order : (s.onCore p f).order = s.order := rfl
@[simp] theorem State.onCore_shadows : (s.onCore p f).shadows = s.shadows := rfl
@[simp] theorem State.onCore_pool : (s.onCore p f).pool = s.pool := rfl
@[simp] theorem State.onCore_poolNext : (s.onCore p f).poolNext = s.poolNext := rfl
@[simp] theorem State.onCore_retired : (s.onCore p f).retired = s.retired := rfl
@[simp] theorem State.onCore_rlPrev : (s.onCore p f).rlPrev = s.rlPrev := rfl
@[simp] theorem State.onCore_fabric : (s.onCore p f).fabric = s.fabric := rfl
@[simp] theorem State.onCore_pods : (s.onCore p f).pods = s.pods := rfl
@[simp] theorem State.onCore_podPeers : (s.onCore p f).podPeers = s.podPeers := rfl
@[simp] theorem State.onCore_taster : (s.onCore p f).taster = s.taster := rfl
@[simp] theorem State.onCore_trust : (s.onCore p f).trust = s.trust := rfl
@[simp] theorem State.onCore_plat : (s.onCore p f).plat = s.plat := rfl
@[simp] theorem State.onCore_fedGate : (s.onCore p f).fedGate = s.fedGate := rfl
@[simp] theorem State.onCore_fedWake : (s.onCore p f).fedWake = s.fedWake := rfl
@[simp] theorem State.onCore_out : (s.onCore p f).out = s.out := rfl

/-! ## onMe -/

@[simp] theorem State.onMe_gtc : (s.onMe f).gtc = s.gtc := rfl
@[simp] theorem State.onMe_agenda : (s.onMe f).agenda = s.agenda := rfl
@[simp] theorem State.onMe_sweep : (s.onMe f).sweep = s.sweep := rfl
@[simp] theorem State.onMe_cur : (s.onMe f).cur = s.cur := rfl
@[simp] theorem State.onMe_freeCtr : (s.onMe f).freeCtr = s.freeCtr := rfl
@[simp] theorem State.onMe_up : (s.onMe f).up = s.up := rfl
@[simp] theorem State.onMe_board : (s.onMe f).board = s.board := rfl
@[simp] theorem State.onMe_peerId : (s.onMe f).peerId = s.peerId := rfl
@[simp] theorem State.onMe_dies : (s.onMe f).dies = s.dies := rfl
@[simp] theorem State.onMe_mem : (s.onMe f).mem = s.mem := rfl
@[simp] theorem State.onMe_bad : (s.onMe f).bad = s.bad := rfl
@[simp] theorem State.onMe_released : (s.onMe f).released = s.released := rfl
@[simp] theorem State.onMe_tags : (s.onMe f).tags = s.tags := rfl
@[simp] theorem State.onMe_regs : (s.onMe f).regs = s.regs := rfl
@[simp] theorem State.onMe_mth : (s.onMe f).mth = s.mth := rfl
@[simp] theorem State.onMe_dcache : (s.onMe f).dcache = s.dcache := rfl
@[simp] theorem State.onMe_dlTail : (s.onMe f).dlTail = s.dlTail := rfl
@[simp] theorem State.onMe_walks : (s.onMe f).walks = s.walks := rfl
@[simp] theorem State.onMe_nextEvent : (s.onMe f).nextEvent = s.nextEvent := rfl
@[simp] theorem State.onMe_groups : (s.onMe f).groups = s.groups := rfl
@[simp] theorem State.onMe_queues : (s.onMe f).queues = s.queues := rfl
@[simp] theorem State.onMe_fedTurn : (s.onMe f).fedTurn = s.fedTurn := rfl
@[simp] theorem State.onMe_tasks : (s.onMe f).tasks = s.tasks := rfl
@[simp] theorem State.onMe_order : (s.onMe f).order = s.order := rfl
@[simp] theorem State.onMe_shadows : (s.onMe f).shadows = s.shadows := rfl
@[simp] theorem State.onMe_pool : (s.onMe f).pool = s.pool := rfl
@[simp] theorem State.onMe_poolNext : (s.onMe f).poolNext = s.poolNext := rfl
@[simp] theorem State.onMe_retired : (s.onMe f).retired = s.retired := rfl
@[simp] theorem State.onMe_rlPrev : (s.onMe f).rlPrev = s.rlPrev := rfl
@[simp] theorem State.onMe_fabric : (s.onMe f).fabric = s.fabric := rfl
@[simp] theorem State.onMe_pods : (s.onMe f).pods = s.pods := rfl
@[simp] theorem State.onMe_podPeers : (s.onMe f).podPeers = s.podPeers := rfl
@[simp] theorem State.onMe_taster : (s.onMe f).taster = s.taster := rfl
@[simp] theorem State.onMe_trust : (s.onMe f).trust = s.trust := rfl
@[simp] theorem State.onMe_plat : (s.onMe f).plat = s.plat := rfl
@[simp] theorem State.onMe_fedGate : (s.onMe f).fedGate = s.fedGate := rfl
@[simp] theorem State.onMe_fedWake : (s.onMe f).fedWake = s.fedWake := rfl
@[simp] theorem State.onMe_out : (s.onMe f).out = s.out := rfl

/-! ## onStream -/

@[simp] theorem State.onStream_gtc : (s.onStream g).gtc = s.gtc := rfl
@[simp] theorem State.onStream_agenda : (s.onStream g).agenda = s.agenda := rfl
@[simp] theorem State.onStream_sweep : (s.onStream g).sweep = s.sweep := rfl
@[simp] theorem State.onStream_cur : (s.onStream g).cur = s.cur := rfl
@[simp] theorem State.onStream_freeCtr : (s.onStream g).freeCtr = s.freeCtr := rfl
@[simp] theorem State.onStream_up : (s.onStream g).up = s.up := rfl
@[simp] theorem State.onStream_board : (s.onStream g).board = s.board := rfl
@[simp] theorem State.onStream_peerId : (s.onStream g).peerId = s.peerId := rfl
@[simp] theorem State.onStream_dies : (s.onStream g).dies = s.dies := rfl
@[simp] theorem State.onStream_mem : (s.onStream g).mem = s.mem := rfl
@[simp] theorem State.onStream_bad : (s.onStream g).bad = s.bad := rfl
@[simp] theorem State.onStream_released : (s.onStream g).released = s.released := rfl
@[simp] theorem State.onStream_tags : (s.onStream g).tags = s.tags := rfl
@[simp] theorem State.onStream_regs : (s.onStream g).regs = s.regs := rfl
@[simp] theorem State.onStream_mth : (s.onStream g).mth = s.mth := rfl
@[simp] theorem State.onStream_dcache : (s.onStream g).dcache = s.dcache := rfl
@[simp] theorem State.onStream_dlTail : (s.onStream g).dlTail = s.dlTail := rfl
@[simp] theorem State.onStream_walks : (s.onStream g).walks = s.walks := rfl
@[simp] theorem State.onStream_nextEvent : (s.onStream g).nextEvent = s.nextEvent := rfl
@[simp] theorem State.onStream_groups : (s.onStream g).groups = s.groups := rfl
@[simp] theorem State.onStream_queues : (s.onStream g).queues = s.queues := rfl
@[simp] theorem State.onStream_fedTurn : (s.onStream g).fedTurn = s.fedTurn := rfl
@[simp] theorem State.onStream_tasks : (s.onStream g).tasks = s.tasks := rfl
@[simp] theorem State.onStream_order : (s.onStream g).order = s.order := rfl
@[simp] theorem State.onStream_shadows : (s.onStream g).shadows = s.shadows := rfl
@[simp] theorem State.onStream_pool : (s.onStream g).pool = s.pool := rfl
@[simp] theorem State.onStream_poolNext : (s.onStream g).poolNext = s.poolNext := rfl
@[simp] theorem State.onStream_retired : (s.onStream g).retired = s.retired := rfl
@[simp] theorem State.onStream_rlPrev : (s.onStream g).rlPrev = s.rlPrev := rfl
@[simp] theorem State.onStream_fabric : (s.onStream g).fabric = s.fabric := rfl
@[simp] theorem State.onStream_pods : (s.onStream g).pods = s.pods := rfl
@[simp] theorem State.onStream_podPeers : (s.onStream g).podPeers = s.podPeers := rfl
@[simp] theorem State.onStream_taster : (s.onStream g).taster = s.taster := rfl
@[simp] theorem State.onStream_trust : (s.onStream g).trust = s.trust := rfl
@[simp] theorem State.onStream_plat : (s.onStream g).plat = s.plat := rfl
@[simp] theorem State.onStream_fedGate : (s.onStream g).fedGate = s.fedGate := rfl
@[simp] theorem State.onStream_fedWake : (s.onStream g).fedWake = s.fedWake := rfl
@[simp] theorem State.onStream_out : (s.onStream g).out = s.out := rfl

/-! ## setDie -/

@[simp] theorem State.setDie_gtc : (s.setDie d x).gtc = s.gtc := rfl
@[simp] theorem State.setDie_agenda : (s.setDie d x).agenda = s.agenda := rfl
@[simp] theorem State.setDie_sweep : (s.setDie d x).sweep = s.sweep := rfl
@[simp] theorem State.setDie_cur : (s.setDie d x).cur = s.cur := rfl
@[simp] theorem State.setDie_freeCtr : (s.setDie d x).freeCtr = s.freeCtr := rfl
@[simp] theorem State.setDie_up : (s.setDie d x).up = s.up := rfl
@[simp] theorem State.setDie_board : (s.setDie d x).board = s.board := rfl
@[simp] theorem State.setDie_peerId : (s.setDie d x).peerId = s.peerId := rfl
@[simp] theorem State.setDie_mem : (s.setDie d x).mem = s.mem := rfl
@[simp] theorem State.setDie_bad : (s.setDie d x).bad = s.bad := rfl
@[simp] theorem State.setDie_released : (s.setDie d x).released = s.released := rfl
@[simp] theorem State.setDie_tags : (s.setDie d x).tags = s.tags := rfl
@[simp] theorem State.setDie_regs : (s.setDie d x).regs = s.regs := rfl
@[simp] theorem State.setDie_mth : (s.setDie d x).mth = s.mth := rfl
@[simp] theorem State.setDie_cores : (s.setDie d x).cores = s.cores := rfl
@[simp] theorem State.setDie_dcache : (s.setDie d x).dcache = s.dcache := rfl
@[simp] theorem State.setDie_dlTail : (s.setDie d x).dlTail = s.dlTail := rfl
@[simp] theorem State.setDie_walks : (s.setDie d x).walks = s.walks := rfl
@[simp] theorem State.setDie_nextEvent : (s.setDie d x).nextEvent = s.nextEvent := rfl
@[simp] theorem State.setDie_groups : (s.setDie d x).groups = s.groups := rfl
@[simp] theorem State.setDie_queues : (s.setDie d x).queues = s.queues := rfl
@[simp] theorem State.setDie_fedTurn : (s.setDie d x).fedTurn = s.fedTurn := rfl
@[simp] theorem State.setDie_tasks : (s.setDie d x).tasks = s.tasks := rfl
@[simp] theorem State.setDie_order : (s.setDie d x).order = s.order := rfl
@[simp] theorem State.setDie_shadows : (s.setDie d x).shadows = s.shadows := rfl
@[simp] theorem State.setDie_pool : (s.setDie d x).pool = s.pool := rfl
@[simp] theorem State.setDie_poolNext : (s.setDie d x).poolNext = s.poolNext := rfl
@[simp] theorem State.setDie_retired : (s.setDie d x).retired = s.retired := rfl
@[simp] theorem State.setDie_rlPrev : (s.setDie d x).rlPrev = s.rlPrev := rfl
@[simp] theorem State.setDie_fabric : (s.setDie d x).fabric = s.fabric := rfl
@[simp] theorem State.setDie_pods : (s.setDie d x).pods = s.pods := rfl
@[simp] theorem State.setDie_podPeers : (s.setDie d x).podPeers = s.podPeers := rfl
@[simp] theorem State.setDie_taster : (s.setDie d x).taster = s.taster := rfl
@[simp] theorem State.setDie_trust : (s.setDie d x).trust = s.trust := rfl
@[simp] theorem State.setDie_plat : (s.setDie d x).plat = s.plat := rfl
@[simp] theorem State.setDie_fedGate : (s.setDie d x).fedGate = s.fedGate := rfl
@[simp] theorem State.setDie_fedWake : (s.setDie d x).fedWake = s.fedWake := rfl
@[simp] theorem State.setDie_out : (s.setDie d x).out = s.out := rfl

/-! ## setTask -/

@[simp] theorem State.setTask_gtc : (s.setTask t y).gtc = s.gtc := rfl
@[simp] theorem State.setTask_agenda : (s.setTask t y).agenda = s.agenda := rfl
@[simp] theorem State.setTask_sweep : (s.setTask t y).sweep = s.sweep := rfl
@[simp] theorem State.setTask_cur : (s.setTask t y).cur = s.cur := rfl
@[simp] theorem State.setTask_freeCtr : (s.setTask t y).freeCtr = s.freeCtr := rfl
@[simp] theorem State.setTask_up : (s.setTask t y).up = s.up := rfl
@[simp] theorem State.setTask_board : (s.setTask t y).board = s.board := rfl
@[simp] theorem State.setTask_peerId : (s.setTask t y).peerId = s.peerId := rfl
@[simp] theorem State.setTask_dies : (s.setTask t y).dies = s.dies := rfl
@[simp] theorem State.setTask_mem : (s.setTask t y).mem = s.mem := rfl
@[simp] theorem State.setTask_bad : (s.setTask t y).bad = s.bad := rfl
@[simp] theorem State.setTask_released : (s.setTask t y).released = s.released := rfl
@[simp] theorem State.setTask_tags : (s.setTask t y).tags = s.tags := rfl
@[simp] theorem State.setTask_regs : (s.setTask t y).regs = s.regs := rfl
@[simp] theorem State.setTask_mth : (s.setTask t y).mth = s.mth := rfl
@[simp] theorem State.setTask_cores : (s.setTask t y).cores = s.cores := rfl
@[simp] theorem State.setTask_dcache : (s.setTask t y).dcache = s.dcache := rfl
@[simp] theorem State.setTask_dlTail : (s.setTask t y).dlTail = s.dlTail := rfl
@[simp] theorem State.setTask_walks : (s.setTask t y).walks = s.walks := rfl
@[simp] theorem State.setTask_nextEvent : (s.setTask t y).nextEvent = s.nextEvent := rfl
@[simp] theorem State.setTask_groups : (s.setTask t y).groups = s.groups := rfl
@[simp] theorem State.setTask_queues : (s.setTask t y).queues = s.queues := rfl
@[simp] theorem State.setTask_fedTurn : (s.setTask t y).fedTurn = s.fedTurn := rfl
@[simp] theorem State.setTask_order : (s.setTask t y).order = s.order := rfl
@[simp] theorem State.setTask_shadows : (s.setTask t y).shadows = s.shadows := rfl
@[simp] theorem State.setTask_pool : (s.setTask t y).pool = s.pool := rfl
@[simp] theorem State.setTask_poolNext : (s.setTask t y).poolNext = s.poolNext := rfl
@[simp] theorem State.setTask_retired : (s.setTask t y).retired = s.retired := rfl
@[simp] theorem State.setTask_rlPrev : (s.setTask t y).rlPrev = s.rlPrev := rfl
@[simp] theorem State.setTask_fabric : (s.setTask t y).fabric = s.fabric := rfl
@[simp] theorem State.setTask_pods : (s.setTask t y).pods = s.pods := rfl
@[simp] theorem State.setTask_podPeers : (s.setTask t y).podPeers = s.podPeers := rfl
@[simp] theorem State.setTask_taster : (s.setTask t y).taster = s.taster := rfl
@[simp] theorem State.setTask_trust : (s.setTask t y).trust = s.trust := rfl
@[simp] theorem State.setTask_plat : (s.setTask t y).plat = s.plat := rfl
@[simp] theorem State.setTask_fedGate : (s.setTask t y).fedGate = s.fedGate := rfl
@[simp] theorem State.setTask_fedWake : (s.setTask t y).fedWake = s.fedWake := rfl
@[simp] theorem State.setTask_out : (s.setTask t y).out = s.out := rfl

/-! ## setQueue -/

@[simp] theorem State.setQueue_gtc : (s.setQueue q z).gtc = s.gtc := rfl
@[simp] theorem State.setQueue_agenda : (s.setQueue q z).agenda = s.agenda := rfl
@[simp] theorem State.setQueue_sweep : (s.setQueue q z).sweep = s.sweep := rfl
@[simp] theorem State.setQueue_cur : (s.setQueue q z).cur = s.cur := rfl
@[simp] theorem State.setQueue_freeCtr : (s.setQueue q z).freeCtr = s.freeCtr := rfl
@[simp] theorem State.setQueue_up : (s.setQueue q z).up = s.up := rfl
@[simp] theorem State.setQueue_board : (s.setQueue q z).board = s.board := rfl
@[simp] theorem State.setQueue_peerId : (s.setQueue q z).peerId = s.peerId := rfl
@[simp] theorem State.setQueue_dies : (s.setQueue q z).dies = s.dies := rfl
@[simp] theorem State.setQueue_mem : (s.setQueue q z).mem = s.mem := rfl
@[simp] theorem State.setQueue_bad : (s.setQueue q z).bad = s.bad := rfl
@[simp] theorem State.setQueue_released : (s.setQueue q z).released = s.released := rfl
@[simp] theorem State.setQueue_tags : (s.setQueue q z).tags = s.tags := rfl
@[simp] theorem State.setQueue_regs : (s.setQueue q z).regs = s.regs := rfl
@[simp] theorem State.setQueue_mth : (s.setQueue q z).mth = s.mth := rfl
@[simp] theorem State.setQueue_cores : (s.setQueue q z).cores = s.cores := rfl
@[simp] theorem State.setQueue_dcache : (s.setQueue q z).dcache = s.dcache := rfl
@[simp] theorem State.setQueue_dlTail : (s.setQueue q z).dlTail = s.dlTail := rfl
@[simp] theorem State.setQueue_walks : (s.setQueue q z).walks = s.walks := rfl
@[simp] theorem State.setQueue_nextEvent : (s.setQueue q z).nextEvent = s.nextEvent := rfl
@[simp] theorem State.setQueue_groups : (s.setQueue q z).groups = s.groups := rfl
@[simp] theorem State.setQueue_fedTurn : (s.setQueue q z).fedTurn = s.fedTurn := rfl
@[simp] theorem State.setQueue_tasks : (s.setQueue q z).tasks = s.tasks := rfl
@[simp] theorem State.setQueue_order : (s.setQueue q z).order = s.order := rfl
@[simp] theorem State.setQueue_shadows : (s.setQueue q z).shadows = s.shadows := rfl
@[simp] theorem State.setQueue_pool : (s.setQueue q z).pool = s.pool := rfl
@[simp] theorem State.setQueue_poolNext : (s.setQueue q z).poolNext = s.poolNext := rfl
@[simp] theorem State.setQueue_retired : (s.setQueue q z).retired = s.retired := rfl
@[simp] theorem State.setQueue_rlPrev : (s.setQueue q z).rlPrev = s.rlPrev := rfl
@[simp] theorem State.setQueue_fabric : (s.setQueue q z).fabric = s.fabric := rfl
@[simp] theorem State.setQueue_pods : (s.setQueue q z).pods = s.pods := rfl
@[simp] theorem State.setQueue_podPeers : (s.setQueue q z).podPeers = s.podPeers := rfl
@[simp] theorem State.setQueue_taster : (s.setQueue q z).taster = s.taster := rfl
@[simp] theorem State.setQueue_trust : (s.setQueue q z).trust = s.trust := rfl
@[simp] theorem State.setQueue_plat : (s.setQueue q z).plat = s.plat := rfl
@[simp] theorem State.setQueue_fedGate : (s.setQueue q z).fedGate = s.fedGate := rfl
@[simp] theorem State.setQueue_fedWake : (s.setQueue q z).fedWake = s.fedWake := rfl
@[simp] theorem State.setQueue_out : (s.setQueue q z).out = s.out := rfl

/-! ## write -/

@[simp] theorem State.write_gtc : (s.write cs).gtc = s.gtc := rfl
@[simp] theorem State.write_agenda : (s.write cs).agenda = s.agenda := rfl
@[simp] theorem State.write_sweep : (s.write cs).sweep = s.sweep := rfl
@[simp] theorem State.write_cur : (s.write cs).cur = s.cur := rfl
@[simp] theorem State.write_freeCtr : (s.write cs).freeCtr = s.freeCtr := rfl
@[simp] theorem State.write_up : (s.write cs).up = s.up := rfl
@[simp] theorem State.write_board : (s.write cs).board = s.board := rfl
@[simp] theorem State.write_peerId : (s.write cs).peerId = s.peerId := rfl
@[simp] theorem State.write_dies : (s.write cs).dies = s.dies := rfl
@[simp] theorem State.write_tags : (s.write cs).tags = s.tags := rfl
@[simp] theorem State.write_regs : (s.write cs).regs = s.regs := rfl
@[simp] theorem State.write_mth : (s.write cs).mth = s.mth := rfl
@[simp] theorem State.write_cores : (s.write cs).cores = s.cores := rfl
@[simp] theorem State.write_dlTail : (s.write cs).dlTail = s.dlTail := rfl
@[simp] theorem State.write_walks : (s.write cs).walks = s.walks := rfl
@[simp] theorem State.write_nextEvent : (s.write cs).nextEvent = s.nextEvent := rfl
@[simp] theorem State.write_groups : (s.write cs).groups = s.groups := rfl
@[simp] theorem State.write_queues : (s.write cs).queues = s.queues := rfl
@[simp] theorem State.write_fedTurn : (s.write cs).fedTurn = s.fedTurn := rfl
@[simp] theorem State.write_tasks : (s.write cs).tasks = s.tasks := rfl
@[simp] theorem State.write_order : (s.write cs).order = s.order := rfl
@[simp] theorem State.write_pool : (s.write cs).pool = s.pool := rfl
@[simp] theorem State.write_poolNext : (s.write cs).poolNext = s.poolNext := rfl
@[simp] theorem State.write_retired : (s.write cs).retired = s.retired := rfl
@[simp] theorem State.write_rlPrev : (s.write cs).rlPrev = s.rlPrev := rfl
@[simp] theorem State.write_fabric : (s.write cs).fabric = s.fabric := rfl
@[simp] theorem State.write_pods : (s.write cs).pods = s.pods := rfl
@[simp] theorem State.write_podPeers : (s.write cs).podPeers = s.podPeers := rfl
@[simp] theorem State.write_taster : (s.write cs).taster = s.taster := rfl
@[simp] theorem State.write_trust : (s.write cs).trust = s.trust := rfl
@[simp] theorem State.write_plat : (s.write cs).plat = s.plat := rfl
@[simp] theorem State.write_fedGate : (s.write cs).fedGate = s.fedGate := rfl
@[simp] theorem State.write_fedWake : (s.write cs).fedWake = s.fedWake := rfl
@[simp] theorem State.write_out : (s.write cs).out = s.out := rfl

/-! ## writeAt -/

@[simp] theorem State.writeAt_gtc : (s.writeAt a bs).gtc = s.gtc := rfl
@[simp] theorem State.writeAt_agenda : (s.writeAt a bs).agenda = s.agenda := rfl
@[simp] theorem State.writeAt_sweep : (s.writeAt a bs).sweep = s.sweep := rfl
@[simp] theorem State.writeAt_cur : (s.writeAt a bs).cur = s.cur := rfl
@[simp] theorem State.writeAt_freeCtr : (s.writeAt a bs).freeCtr = s.freeCtr := rfl
@[simp] theorem State.writeAt_up : (s.writeAt a bs).up = s.up := rfl
@[simp] theorem State.writeAt_board : (s.writeAt a bs).board = s.board := rfl
@[simp] theorem State.writeAt_peerId : (s.writeAt a bs).peerId = s.peerId := rfl
@[simp] theorem State.writeAt_dies : (s.writeAt a bs).dies = s.dies := rfl
@[simp] theorem State.writeAt_tags : (s.writeAt a bs).tags = s.tags := rfl
@[simp] theorem State.writeAt_regs : (s.writeAt a bs).regs = s.regs := rfl
@[simp] theorem State.writeAt_mth : (s.writeAt a bs).mth = s.mth := rfl
@[simp] theorem State.writeAt_cores : (s.writeAt a bs).cores = s.cores := rfl
@[simp] theorem State.writeAt_dlTail : (s.writeAt a bs).dlTail = s.dlTail := rfl
@[simp] theorem State.writeAt_walks : (s.writeAt a bs).walks = s.walks := rfl
@[simp] theorem State.writeAt_nextEvent : (s.writeAt a bs).nextEvent = s.nextEvent := rfl
@[simp] theorem State.writeAt_groups : (s.writeAt a bs).groups = s.groups := rfl
@[simp] theorem State.writeAt_queues : (s.writeAt a bs).queues = s.queues := rfl
@[simp] theorem State.writeAt_fedTurn : (s.writeAt a bs).fedTurn = s.fedTurn := rfl
@[simp] theorem State.writeAt_tasks : (s.writeAt a bs).tasks = s.tasks := rfl
@[simp] theorem State.writeAt_order : (s.writeAt a bs).order = s.order := rfl
@[simp] theorem State.writeAt_pool : (s.writeAt a bs).pool = s.pool := rfl
@[simp] theorem State.writeAt_poolNext : (s.writeAt a bs).poolNext = s.poolNext := rfl
@[simp] theorem State.writeAt_retired : (s.writeAt a bs).retired = s.retired := rfl
@[simp] theorem State.writeAt_rlPrev : (s.writeAt a bs).rlPrev = s.rlPrev := rfl
@[simp] theorem State.writeAt_fabric : (s.writeAt a bs).fabric = s.fabric := rfl
@[simp] theorem State.writeAt_pods : (s.writeAt a bs).pods = s.pods := rfl
@[simp] theorem State.writeAt_podPeers : (s.writeAt a bs).podPeers = s.podPeers := rfl
@[simp] theorem State.writeAt_taster : (s.writeAt a bs).taster = s.taster := rfl
@[simp] theorem State.writeAt_trust : (s.writeAt a bs).trust = s.trust := rfl
@[simp] theorem State.writeAt_plat : (s.writeAt a bs).plat = s.plat := rfl
@[simp] theorem State.writeAt_fedGate : (s.writeAt a bs).fedGate = s.fedGate := rfl
@[simp] theorem State.writeAt_fedWake : (s.writeAt a bs).fedWake = s.fedWake := rfl
@[simp] theorem State.writeAt_out : (s.writeAt a bs).out = s.out := rfl

/-! ## Reading what has been written -/

theorem State.setCore_cores : (s.setCore p c).cores = s.cores.set Core.idle p c := rfl

@[simp] theorem State.core_setCore : (s.setCore p c).core p = c := SMap.get_set_self

@[simp] theorem State.core_setCore_ne (h : q ≠ p) : (s.setCore p c).core q = s.core q := SMap.get_set_ne h

@[simp] theorem State.setCore_setCore (c' : Core) : (s.setCore p c).setCore p c' = s.setCore p c' := by
  simp [State.setCore]

@[simp] theorem State.me_setCore : (s.setCore s.cur.core c).me = c := SMap.get_set_self

@[simp] theorem State.core_onCore : (s.onCore p f).core p = f (s.core p) := SMap.get_set_self

@[simp] theorem State.core_onCore_ne (h : q ≠ p) : (s.onCore p f).core q = s.core q := SMap.get_set_ne h

@[simp] theorem State.me_onMe : (s.onMe f).me = f s.me := SMap.get_set_self

@[simp] theorem State.core_onMe_ne (h : q ≠ s.cur.core) : (s.onMe f).core q = s.core q := SMap.get_set_ne h

@[simp] theorem State.die_setDie : (s.setDie d x).die d = x := SMap.get_set_self

@[simp] theorem State.die_setDie_ne (h : q ≠ d) : (s.setDie d x).die q = s.die q := SMap.get_set_ne h

@[simp] theorem State.task_setTask : (s.setTask t y).task? t = y := SMap.get_set_self

@[simp] theorem State.task_setTask_ne (h : q ≠ t) : (s.setTask t y).task? q = s.task? q := SMap.get_set_ne h

@[simp] theorem State.queue_setQueue : (s.setQueue q z).queue q = z := SMap.get_set_self

@[simp] theorem State.queue_setQueue_ne (h : p ≠ q) : (s.setQueue q z).queue p = s.queue p := SMap.get_set_ne h

@[simp] theorem Core.stream_setStream (e : Engine) (b : Bool) : (c.setStream e b r).stream e b = r := by
  cases b <;> cases e <;> rfl

@[simp] theorem Core.ctx_setCtx (b : Bool) : (c.setCtx b k).ctx b = k := by cases b <;> rfl

@[simp] theorem State.me_onStream :
    (s.onStream g).me = s.me.setStream s.cur.eng s.cur.fw (g (s.me.stream s.cur.eng s.cur.fw)) :=
  SMap.get_set_self

@[simp] theorem State.myStream_onStream : (s.onStream g).myStream = g s.myStream := by
  simp [State.myStream]

@[simp] theorem State.core_onStream_ne (h : q ≠ s.cur.core) : (s.onStream g).core q = s.core q :=
  SMap.get_set_ne h

/-! ## A core's fields after its streams and contexts have been replaced -/

@[simp] theorem Core.setStream_task (e : Engine) (b : Bool) : (c.setStream e b r).task = c.task := by
  cases b <;> cases e <;> rfl

@[simp] theorem Core.setStream_vcore (e : Engine) (b : Bool) : (c.setStream e b r).vcore = c.vcore := by
  cases b <;> cases e <;> rfl

@[simp] theorem Core.setStream_halted (e : Engine) (b : Bool) : (c.setStream e b r).halted = c.halted := by
  cases b <;> cases e <;> rfl

@[simp] theorem Core.setStream_fault (e : Engine) (b : Bool) : (c.setStream e b r).fault = c.fault := by
  cases b <;> cases e <;> rfl

@[simp] theorem Core.setStream_cut (e : Engine) (b : Bool) : (c.setStream e b r).cut = c.cut := by
  cases b <;> cases e <;> rfl

@[simp] theorem Core.setStream_cutAt (e : Engine) (b : Bool) : (c.setStream e b r).cutAt = c.cutAt := by
  cases b <;> cases e <;> rfl

@[simp] theorem Core.setStream_cutBy (e : Engine) (b : Bool) : (c.setStream e b r).cutBy = c.cutBy := by
  cases b <;> cases e <;> rfl

@[simp] theorem Core.setStream_user (e : Engine) (b : Bool) : (c.setStream e b r).user = c.user := by
  cases b <;> cases e <;> rfl

@[simp] theorem Core.setStream_fw (e : Engine) (b : Bool) : (c.setStream e b r).fw = c.fw := by
  cases b <;> cases e <;> rfl

@[simp] theorem Core.setStream_fwBusy (e : Engine) (b : Bool) : (c.setStream e b r).fwBusy = c.fwBusy := by
  cases b <;> cases e <;> rfl

@[simp] theorem Core.setStream_fwDead (e : Engine) (b : Bool) : (c.setStream e b r).fwDead = c.fwDead := by
  cases b <;> cases e <;> rfl

@[simp] theorem Core.setStream_fwvec (e : Engine) (b : Bool) : (c.setStream e b r).fwvec = c.fwvec := by
  cases b <;> cases e <;> rfl

@[simp] theorem Core.setStream_fwq (e : Engine) (b : Bool) : (c.setStream e b r).fwq = c.fwq := by
  cases b <;> cases e <;> rfl

@[simp] theorem Core.setStream_fwWait (e : Engine) (b : Bool) : (c.setStream e b r).fwWait = c.fwWait := by
  cases b <;> cases e <;> rfl

@[simp] theorem Core.setStream_fwSlot (e : Engine) (b : Bool) : (c.setStream e b r).fwSlot = c.fwSlot := by
  cases b <;> cases e <;> rfl

@[simp] theorem Core.setStream_usrSlot (e : Engine) (b : Bool) : (c.setStream e b r).usrSlot = c.usrSlot := by
  cases b <;> cases e <;> rfl

@[simp] theorem Core.setStream_fwIss (e : Engine) (b : Bool) : (c.setStream e b r).fwIss = c.fwIss := by
  cases b <;> cases e <;> rfl

@[simp] theorem Core.setStream_fwHad (e : Engine) (b : Bool) : (c.setStream e b r).fwHad = c.fwHad := by
  cases b <;> cases e <;> rfl

@[simp] theorem Core.setStream_fwWas (e : Engine) (b : Bool) : (c.setStream e b r).fwWas = c.fwWas := by
  cases b <;> cases e <;> rfl

@[simp] theorem Core.setStream_stores (e : Engine) (b : Bool) : (c.setStream e b r).stores = c.stores := by
  cases b <;> cases e <;> rfl

@[simp] theorem Core.setStream_stalls (e : Engine) (b : Bool) : (c.setStream e b r).stalls = c.stalls := by
  cases b <;> cases e <;> rfl

@[simp] theorem Core.setStream_dz (e : Engine) (b : Bool) : (c.setStream e b r).dz = c.dz := by
  cases b <;> cases e <;> rfl

@[simp] theorem Core.setStream_yreq (e : Engine) (b : Bool) : (c.setStream e b r).yreq = c.yreq := by
  cases b <;> cases e <;> rfl

@[simp] theorem Core.setStream_dgstall (e : Engine) (b : Bool) : (c.setStream e b r).dgstall = c.dgstall := by
  cases b <;> cases e <;> rfl

@[simp] theorem Core.setStream_sealWait (e : Engine) (b : Bool) : (c.setStream e b r).sealWait = c.sealWait := by
  cases b <;> cases e <;> rfl

@[simp] theorem Core.setStream_iq (e : Engine) (b : Bool) : (c.setStream e b r).iq = c.iq := by
  cases b <;> cases e <;> rfl

@[simp] theorem Core.setStream_spent (e : Engine) (b : Bool) : (c.setStream e b r).spent = c.spent := by
  cases b <;> cases e <;> rfl

@[simp] theorem Core.setStream_pass (e : Engine) (b : Bool) : (c.setStream e b r).pass = c.pass := by
  cases b <;> cases e <;> rfl

@[simp] theorem Core.setStream_coords (e : Engine) (b : Bool) : (c.setStream e b r).coords = c.coords := by
  cases b <;> cases e <;> rfl

@[simp] theorem Core.setStream_cursors (e : Engine) (b : Bool) : (c.setStream e b r).cursors = c.cursors := by
  cases b <;> cases e <;> rfl

@[simp] theorem Core.setStream_descs (e : Engine) (b : Bool) : (c.setStream e b r).descs = c.descs := by
  cases b <;> cases e <;> rfl

@[simp] theorem Core.setStream_lceS (e : Engine) (b : Bool) : (c.setStream e b r).lceS = c.lceS := by
  cases b <;> cases e <;> rfl

@[simp] theorem Core.setStream_sceS (e : Engine) (b : Bool) : (c.setStream e b r).sceS = c.sceS := by
  cases b <;> cases e <;> rfl

@[simp] theorem Core.setStream_mxeS (e : Engine) (b : Bool) : (c.setStream e b r).mxeS = c.mxeS := by
  cases b <;> cases e <;> rfl

@[simp] theorem Core.setStream_vxeS (e : Engine) (b : Bool) : (c.setStream e b r).vxeS = c.vxeS := by
  cases b <;> cases e <;> rfl

@[simp] theorem Core.setStream_tlb (e : Engine) (b : Bool) : (c.setStream e b r).tlb = c.tlb := by
  cases b <;> cases e <;> rfl

@[simp] theorem Core.setCtx_task (b : Bool) : (c.setCtx b k).task = c.task := by cases b <;> rfl

@[simp] theorem Core.setCtx_vcore (b : Bool) : (c.setCtx b k).vcore = c.vcore := by cases b <;> rfl

@[simp] theorem Core.setCtx_halted (b : Bool) : (c.setCtx b k).halted = c.halted := by cases b <;> rfl

@[simp] theorem Core.setCtx_fault (b : Bool) : (c.setCtx b k).fault = c.fault := by cases b <;> rfl

@[simp] theorem Core.setCtx_cut (b : Bool) : (c.setCtx b k).cut = c.cut := by cases b <;> rfl

@[simp] theorem Core.setCtx_cutAt (b : Bool) : (c.setCtx b k).cutAt = c.cutAt := by cases b <;> rfl

@[simp] theorem Core.setCtx_cutBy (b : Bool) : (c.setCtx b k).cutBy = c.cutBy := by cases b <;> rfl

@[simp] theorem Core.setCtx_scu (b : Bool) : (c.setCtx b k).scu = c.scu := by cases b <;> rfl

@[simp] theorem Core.setCtx_lce (b : Bool) : (c.setCtx b k).lce = c.lce := by cases b <;> rfl

@[simp] theorem Core.setCtx_mxe (b : Bool) : (c.setCtx b k).mxe = c.mxe := by cases b <;> rfl

@[simp] theorem Core.setCtx_vxe (b : Bool) : (c.setCtx b k).vxe = c.vxe := by cases b <;> rfl

@[simp] theorem Core.setCtx_sce (b : Bool) : (c.setCtx b k).sce = c.sce := by cases b <;> rfl

@[simp] theorem Core.setCtx_fws (b : Bool) : (c.setCtx b k).fws = c.fws := by cases b <;> rfl

@[simp] theorem Core.setCtx_fwBusy (b : Bool) : (c.setCtx b k).fwBusy = c.fwBusy := by cases b <;> rfl

@[simp] theorem Core.setCtx_fwDead (b : Bool) : (c.setCtx b k).fwDead = c.fwDead := by cases b <;> rfl

@[simp] theorem Core.setCtx_fwvec (b : Bool) : (c.setCtx b k).fwvec = c.fwvec := by cases b <;> rfl

@[simp] theorem Core.setCtx_fwq (b : Bool) : (c.setCtx b k).fwq = c.fwq := by cases b <;> rfl

@[simp] theorem Core.setCtx_fwWait (b : Bool) : (c.setCtx b k).fwWait = c.fwWait := by cases b <;> rfl

@[simp] theorem Core.setCtx_fwSlot (b : Bool) : (c.setCtx b k).fwSlot = c.fwSlot := by cases b <;> rfl

@[simp] theorem Core.setCtx_usrSlot (b : Bool) : (c.setCtx b k).usrSlot = c.usrSlot := by cases b <;> rfl

@[simp] theorem Core.setCtx_fwIss (b : Bool) : (c.setCtx b k).fwIss = c.fwIss := by cases b <;> rfl

@[simp] theorem Core.setCtx_fwHad (b : Bool) : (c.setCtx b k).fwHad = c.fwHad := by cases b <;> rfl

@[simp] theorem Core.setCtx_fwWas (b : Bool) : (c.setCtx b k).fwWas = c.fwWas := by cases b <;> rfl

@[simp] theorem Core.setCtx_stores (b : Bool) : (c.setCtx b k).stores = c.stores := by cases b <;> rfl

@[simp] theorem Core.setCtx_stalls (b : Bool) : (c.setCtx b k).stalls = c.stalls := by cases b <;> rfl

@[simp] theorem Core.setCtx_dz (b : Bool) : (c.setCtx b k).dz = c.dz := by cases b <;> rfl

@[simp] theorem Core.setCtx_yreq (b : Bool) : (c.setCtx b k).yreq = c.yreq := by cases b <;> rfl

@[simp] theorem Core.setCtx_dgstall (b : Bool) : (c.setCtx b k).dgstall = c.dgstall := by cases b <;> rfl

@[simp] theorem Core.setCtx_sealWait (b : Bool) : (c.setCtx b k).sealWait = c.sealWait := by cases b <;> rfl

@[simp] theorem Core.setCtx_iq (b : Bool) : (c.setCtx b k).iq = c.iq := by cases b <;> rfl

@[simp] theorem Core.setCtx_spent (b : Bool) : (c.setCtx b k).spent = c.spent := by cases b <;> rfl

@[simp] theorem Core.setCtx_pass (b : Bool) : (c.setCtx b k).pass = c.pass := by cases b <;> rfl

@[simp] theorem Core.setCtx_coords (b : Bool) : (c.setCtx b k).coords = c.coords := by cases b <;> rfl

@[simp] theorem Core.setCtx_cursors (b : Bool) : (c.setCtx b k).cursors = c.cursors := by cases b <;> rfl

@[simp] theorem Core.setCtx_descs (b : Bool) : (c.setCtx b k).descs = c.descs := by cases b <;> rfl

@[simp] theorem Core.setCtx_lceS (b : Bool) : (c.setCtx b k).lceS = c.lceS := by cases b <;> rfl

@[simp] theorem Core.setCtx_sceS (b : Bool) : (c.setCtx b k).sceS = c.sceS := by cases b <;> rfl

@[simp] theorem Core.setCtx_mxeS (b : Bool) : (c.setCtx b k).mxeS = c.mxeS := by cases b <;> rfl

@[simp] theorem Core.setCtx_vxeS (b : Bool) : (c.setCtx b k).vxeS = c.vxeS := by cases b <;> rfl

@[simp] theorem Core.setCtx_tlb (b : Bool) : (c.setCtx b k).tlb = c.tlb := by cases b <;> rfl

end Sys2Proof.Machine
end

