-- ==== Sys2Proof/Laws/Issue.lean ====
section
/-!
SUPPORT. Issue: what an instruction that may issue does, said once (R23, R24, R94, R98).
-/

namespace Sys2Proof.Machine

variable {s s' : State} {h : Hdr} {eff : State → Eff}

/-! ## Which way an issue goes -/

/-- An instruction that may issue is settled as its own conditions say, unless decoding finds a fault in it. -/
theorem State.issue_of_mayIssue (hi : s.mayIssue h) (hn : (eff s.enter).named = none) :
    ∃ b, s.issue h eff = s.settleEff h b (eff s.enter) := by
  obtain ⟨h1, h2 | h2, h3, h4⟩ := hi
  · exact ⟨false, by simp [State.issue, h1, h2, h3, h4, hn]⟩
  · refine ⟨true, ?_⟩
    simp only [State.issue, h1, h2, h3, h4, hn]
    cases eff s.enter <;> rfl

theorem State.issue_done {lat : Nat} (hi : s.mayIssue h) (he : eff s.enter = .done s' lat) :
    s.issue h eff = (s'.finish h (.tick (s.gtc + lat)) (s.myStream.pc + h.n) 1).takeSlot := by
  obtain ⟨b, hb⟩ := State.issue_of_mayIssue (eff := eff) hi (by rw [he]; rfl)
  rw [hb, he]
  rfl

theorem State.issue_jump {lat pc gap : Nat} (hi : s.mayIssue h) (he : eff s.enter = .jump s' lat pc gap) :
    s.issue h eff = (s'.finish h (.tick (s.gtc + lat)) pc gap).takeSlot := by
  obtain ⟨b, hb⟩ := State.issue_of_mayIssue (eff := eff) hi (by rw [he]; rfl)
  rw [hb, he]
  rfl

theorem State.issue_late {lat k : Nat} (hi : s.mayIssue h) (he : eff s.enter = .late s' lat k) :
    s.issue h eff =
      ((s'.finish h (.tick (s.gtc + lat)) (s.myStream.pc + h.n) 1).takeSlot).freeze k := by
  obtain ⟨b, hb⟩ := State.issue_of_mayIssue (eff := eff) hi (by rw [he]; rfl)
  rw [hb, he]
  rfl

theorem State.issue_cmd (hi : s.mayIssue h) (he : eff s.enter = .cmd s') :
    s.issue h eff = s'.finish h (.command s.myStream.sidx) (s.myStream.pc + h.n) 1 := by
  obtain ⟨b, hb⟩ := State.issue_of_mayIssue (eff := eff) hi (by rw [he]; rfl)
  rw [hb, he]
  rfl

theorem State.issue_raw (hi : s.mayIssue h) (he : eff s.enter = .raw s') : s.issue h eff = s'.takeSlot := by
  obtain ⟨b, hb⟩ := State.issue_of_mayIssue (eff := eff) hi (by rw [he]; rfl)
  rw [hb, he]
  rfl

/-- A fault that is found when the conditions of issue are met: the AT of the instruction counts as satisfied. -/
theorem State.issue_fault {cause ecode tcode : Nat} (hi : s.mayIssue h)
    (he : eff s.enter = .fault cause ecode tcode) (h5 : cause ≠ 5) (h6 : cause ≠ 6) :
    s.issue h eff = s.atDone.raise cause ecode tcode := by
  obtain ⟨b, hb⟩ := State.issue_of_mayIssue (eff := eff) hi (by rw [he]; simp [Eff.named, h5, h6])
  rw [hb, he]
  rfl

/-- A fault that decoding finds needs no wait and no stamp. -/
theorem State.issue_named {cause ecode : Nat} (hc : s.canIssue = true) (he : (eff s.enter).named = some (cause, ecode)) :
    s.issue h eff = s.raise cause ecode 0 := by
  simp [State.issue, hc, he]

/-- Where the core cannot issue, nothing happens. -/
theorem State.issue_idle (hc : s.canIssue = false) : s.issue h eff = s := by
  simp [State.issue, hc]

/-- Outside the vector engine nothing is entered into a segment. -/
theorem State.enter_of_ne (he : s.cur.eng ≠ .vxe) : s.enter = s := by
  cases hx : s.cur.eng <;> simp_all [State.enter]

/-! ## Bookkeeping -/

theorem Core.cursors_ite (x : Core) (b : Prop) [Decidable b] (m : SMap Nat) :
    (if b then x else { x with cursors := m }) =
      { x with cursors := (if b then x else { x with cursors := m }).cursors } := by
  by_cases hb : b
  · rw [if_pos hb]
  · rw [if_neg hb]

theorem Core.advance_eq (c : Core) (e gp gn : Nat) :
    c.advance e gp gn = { c with cursors := (c.advance e gp gn).cursors } := by
  unfold Core.advance
  suffices hs : ∀ (l : SMap (BitVec 512)) (c' : Core) (f : Core → Nat × BitVec 512 → Core),
      (∀ x e, f x e = { x with cursors := (f x e).cursors }) →
      l.foldl f c' = { c' with cursors := (l.foldl f c').cursors } by
    apply hs
    intro x kd
    dsimp only
    by_cases h1 : (bit (kd.2.toNat % 2 ^ 32) 24 && bits (kd.2.toNat % 2 ^ 32) 10 9 == 2) = true
    · rw [if_pos h1]
      exact Core.cursors_ite x _ _
    · rw [if_neg h1]
  intro l
  induction l with
  | nil => intros; rfl
  | cons k l ih =>
    intro c' f hf
    simp only [List.foldl_cons]
    rw [ih (f c' k) f hf, hf c' k]

theorem Core.wrapVloop_eq (c : Core) (pc : Nat) :
    (c.wrapVloop pc).1 = { c with vxeS := { c.vxeS with vloop := (c.wrapVloop pc).1.vxeS.vloop } } := by
  unfold Core.wrapVloop
  split
  · rfl
  · split
    · split <;> rfl
    · rfl

/-- A core that differs from `c` in what an issue of a stream may change. -/
def Core.IssueLike (c c' : Core) (e : Engine) (b : Bool) : Prop :=
  ∃ st iq sp cur vl fs us, c' = { c.setStream e b st with
    iq := iq, spent := sp, cursors := cur, vxeS := { c.vxeS with vloop := vl }, fwSlot := fs, usrSlot := us }

variable {c c' c'' : Core} {e : Engine} {b : Bool}

theorem Core.IssueLike.refl : c.IssueLike c e b :=
  ⟨c.stream e b, c.iq, c.spent, c.cursors, c.vxeS.vloop, c.fwSlot, c.usrSlot, by cases b <;> cases e <;> rfl⟩

theorem Core.IssueLike.trans (h1 : c.IssueLike c' e b) (h2 : c'.IssueLike c'' e b) : c.IssueLike c'' e b := by
  obtain ⟨st, iq, sp, cur, vl, fs, us, rfl⟩ := h1
  obtain ⟨st', iq', sp', cur', vl', fs', us', rfl⟩ := h2
  exact ⟨st', iq', sp', cur', vl', fs', us', by cases b <;> cases e <;> rfl⟩

theorem Core.IssueLike.setStream (st : Stream) : c.IssueLike (c.setStream e b st) e b :=
  ⟨st, c.iq, c.spent, c.cursors, c.vxeS.vloop, c.fwSlot, c.usrSlot, by cases b <;> cases e <;> rfl⟩

theorem Core.IssueLike.setIq (x : SMap (List Clock)) (y : SMap Nat) :
    c.IssueLike { c with iq := x, spent := y } e b :=
  ⟨c.stream e b, x, y, c.cursors, c.vxeS.vloop, c.fwSlot, c.usrSlot, by cases b <;> cases e <;> rfl⟩

theorem Core.IssueLike.setCursors (x : SMap Nat) : c.IssueLike { c with cursors := x } e b :=
  ⟨c.stream e b, c.iq, c.spent, x, c.vxeS.vloop, c.fwSlot, c.usrSlot, by cases b <;> cases e <;> rfl⟩

theorem Core.IssueLike.setVloop (x : Option VLoop) :
    c.IssueLike { c with vxeS := { c.vxeS with vloop := x } } e b :=
  ⟨c.stream e b, c.iq, c.spent, c.cursors, x, c.fwSlot, c.usrSlot, by cases b <;> cases e <;> rfl⟩

theorem Core.IssueLike.setSlots (x y : Bool) : c.IssueLike { c with fwSlot := x, usrSlot := y } e b :=
  ⟨c.stream e b, c.iq, c.spent, c.cursors, c.vxeS.vloop, x, y, by cases b <;> cases e <;> rfl⟩

theorem Core.IssueLike.advance (k gp gn : Nat) : c.IssueLike (c.advance k gp gn) e b := by
  rw [Core.advance_eq]
  exact .setCursors _

theorem Core.IssueLike.wrapVloop (pc : Nat) : c.IssueLike (c.wrapVloop pc).1 e b := by
  rw [Core.wrapVloop_eq]
  exact .setVloop _

@[simp] theorem engOf_engIdx (e : Engine) : engOf (engIdx e) = e := by cases e <;> rfl

theorem engIdx_eq_three {e : Engine} : engIdx e = 3 ↔ e = .vxe := by cases e <;> simp [engIdx]

@[simp] theorem Core.stream_advance (k gp gn : Nat) : (c.advance k gp gn).stream e b = c.stream e b := by
  rw [Core.advance_eq]
  cases b <;> cases e <;> rfl

@[simp] theorem Core.iq_advance (k gp gn : Nat) : (c.advance k gp gn).iq = c.iq := by
  rw [Core.advance_eq]

@[simp] theorem Core.stream_wrapVloop (pc : Nat) : (c.wrapVloop pc).1.stream e b = c.stream e b := by
  rw [Core.wrapVloop_eq]
  cases b <;> cases e <;> rfl

@[simp] theorem Core.iq_wrapVloop (pc : Nat) : (c.wrapVloop pc).1.iq = c.iq := by
  rw [Core.wrapVloop_eq]

theorem Core.count_take (c : Core) (q n k : Nat) :
    (c.take q n).1.count k = c.count k - if k = q then n else 0 := by
  by_cases hk : k = q
  · subst hk
    simp [Core.take, Core.count]
  · simp [Core.take, Core.count, hk]

@[simp] theorem Core.stream_take (c : Core) (q n : Nat) : (c.take q n).1.stream e b = c.stream e b := by
  cases b <;> cases e <;> rfl

@[simp] theorem Core.vxeS_take (c : Core) (q n : Nat) : (c.take q n).1.vxeS = c.vxeS := rfl

theorem Core.IssueLike.take (q n : Nat) : c.IssueLike (c.take q n).1 e b := .setIq _ _

theorem Core.count_setStream (st : Stream) (q : Nat) : (c.setStream e b st).count q = c.count q := by
  simp [Core.count]

theorem fwdIn_ne_backIn (a b : Nat) : fwdIn a ≠ backIn b := by
  unfold fwdIn backIn
  omega

/-- The step has changed nothing outside its core, and that core as `R` says. -/
structure State.CoreStep (s t : State) (R : Core → Core → Prop) : Prop where
  rest   : { t with cores := s.cores } = s
  others : ∀ q, q ≠ s.cur.core → t.core q = s.core q
  own    : R s.me t.me

theorem State.CoreStep.cur {t : State} {R : Core → Core → Prop} (x : s.CoreStep t R) : t.cur = s.cur :=
  (congrArg State.cur x.rest :)

theorem State.CoreStep.gtc {t : State} {R : Core → Core → Prop} (x : s.CoreStep t R) : t.gtc = s.gtc :=
  (congrArg State.gtc x.rest :)

theorem State.CoreStep.mem {t : State} {R : Core → Core → Prop} (x : s.CoreStep t R) : t.mem = s.mem :=
  (congrArg State.mem x.rest :)

theorem State.CoreStep.refl {R : Core → Core → Prop} (h : R s.me s.me) : s.CoreStep s R :=
  ⟨rfl, fun _ _ => rfl, h⟩

theorem State.CoreStep.onMe {R : Core → Core → Prop} {f : Core → Core} (h : R s.me (f s.me)) :
    s.CoreStep (s.onMe f) R :=
  ⟨rfl, fun _ hq => State.core_onMe_ne _ _ _ hq, by simpa using h⟩

theorem State.CoreStep.trans {t u : State} {R R' R'' : Core → Core → Prop} (x : s.CoreStep t R)
    (y : t.CoreStep u R') (h : ∀ c c' c'', R c c' → R' c' c'' → R'' c c'') : s.CoreStep u R'' := by
  refine ⟨?_, fun q hq => ?_, ?_⟩
  · rw [← x.rest, ← y.rest]
  · rw [y.others q (by rwa [x.cur]), x.others q hq]
  · have hu : u.me = u.core u.cur.core := rfl
    exact h _ _ _ x.own y.own

/-- What consuming the waits of an instruction does (R23, R177). -/
theorem State.consume_spec (s : State) (h : Hdr) :
    s.CoreStep (s.consume h) fun c C => c.IssueLike C s.cur.eng s.cur.fw ∧ C.vxeS.vloop = c.vxeS.vloop
      ∧ (∀ q, C.count q = c.count q - s.taken h q)
      ∧ ∃ k, C.stream s.cur.eng s.cur.fw = { c.stream s.cur.eng s.cur.fw with clk := k } := by
  by_cases hf : s.cur.fw = true
  · have hs : s.consume h = s := by simp [State.consume, hf]
    rw [hs]
    exact .refl ⟨.refl, rfl, fun q => by simp [State.taken, hf], _, rfl⟩
  · simp only [Bool.not_eq_true] at hf
    simp only [State.consume, hf]
    refine .onMe ⟨?_, ?_, fun q => ?_, ?_⟩
    · exact (Core.IssueLike.trans (.take _ _) (.take _ _)).trans (by
        rw [engOf_engIdx]
        exact .setStream _)
    · simp
    · simp only [engOf_engIdx, Core.count_setStream, Core.count_take, State.taken, hf]
      have := fwdIn_ne_backIn (engIdx s.cur.eng) (engIdx s.cur.eng)
      by_cases h1 : q = fwdIn (engIdx s.cur.eng)
      · subst h1
        simp [this]
      · by_cases h2 : q = backIn (engIdx s.cur.eng)
        · subst h2
          simp [h1]
        · simp [h1, h2]
    · simp [Core.userStream]

/-- The stream of the step after the bookkeeping of an issue. -/
def Stream.booked (t : Stream) (now e pc gap : Nat) (h : Hdr) (due : GiveDue) (gp gn : Nat) (fw : Bool) : Stream :=
  let clk := { t.clk with idx := t.clk.idx.set e (t.sidx + 1) }
  { t with pc := pc, at? := none, atd := false, hold := .none, fresh := true, withheld := false
           sidx := t.sidx + 1, ready := now + max gap (max 1 h.stl), clk := clk
           gives := if gp + gn = 0 ∨ fw = true then t.gives
             else t.gives ++ [{ sidx := t.sidx, gp := gp, gn := gn, due := due, clk := clk }] }

/-- What the bookkeeping of an issue does to its core: its stream, the interlock counts, the cursors,
the VLOOP state and the record of the slot, as R23, R24, R94, R337 and R349 say. -/
structure Core.Booked (s : State) (h : Hdr) (due : GiveDue) (pc gap : Nat) (c C : Core) : Prop where
  like   : c.IssueLike C s.cur.eng s.cur.fw
  stream : ∃ k, C.stream s.cur.eng s.cur.fw =
    ({ c.stream s.cur.eng s.cur.fw with clk := k } : Stream).booked s.gtc (engIdx s.cur.eng)
      (if s.cur.eng = .vxe then (c.wrapVloop pc).2 else pc) gap h due (s.myStream.tokens h).2.2.1
      (s.myStream.tokens h).2.2.2 s.cur.fw
  waits  : ∀ q, C.count q = c.count q - s.taken h q

theorem Core.wrapVloop_congr {c c' : Core} (h : c'.vxeS.vloop = c.vxeS.vloop) (pc : Nat) :
    (c'.wrapVloop pc).2 = (c.wrapVloop pc).2 := by
  unfold Core.wrapVloop
  rw [h]
  split
  · rfl
  · split
    · split <;> rfl
    · rfl

/-- What comes before the bookkeeping of the stream: the end of a VLOOP body is passed. -/
def Core.past (c : Core) (e pc : Nat) : Core × Nat := if e = 3 then c.wrapVloop pc else (c, pc)

theorem Core.IssueLike.past (k pc : Nat) : c.IssueLike (c.past k pc).1 e b := by
  unfold Core.past
  split
  · exact .wrapVloop _
  · exact .refl

@[simp] theorem Core.stream_past (k pc : Nat) : (c.past k pc).1.stream e b = c.stream e b := by
  unfold Core.past
  split <;> simp

@[simp] theorem Core.iq_past (k pc : Nat) : (c.past k pc).1.iq = c.iq := by
  unfold Core.past
  split <;> simp

theorem State.finish_eq (s : State) (h : Hdr) (due : GiveDue) (pc gap : Nat) :
    s.finish h due pc gap =
      let w := s.myStream.tokens h
      let s1 := s.consume h
      let k := (s1.me.past (engIdx s.cur.eng) pc).2
      let s2 := (s1.onMe fun c => (c.past (engIdx s.cur.eng) pc).1).onMe fun c =>
        c.setStream s1.cur.eng s1.cur.fw ((c.stream s1.cur.eng s1.cur.fw).booked s1.gtc (engIdx s.cur.eng) k gap h
          due w.2.2.1 w.2.2.2 s1.cur.fw)
      if s1.cur.fw then s2 else s2.onMe fun c => c.advance (engIdx s.cur.eng) w.2.2.1 w.2.2.2 := by
  rfl

theorem State.CoreStep.onUser {t : State} {R R' : Core → Core → Prop} (x : s.CoreStep t R) (f : Core → Core)
    (q : Bool) (h0 : ∀ c C, R c C → R' c C) (h1 : ∀ c C, R c C → R' c (f C)) :
    s.CoreStep (if q then t else t.onMe f) R' := by
  cases q
  · exact x.trans (.onMe (R := fun c c' => c' = f c) rfl) fun _ _ _ h h' => by rw [h']; exact h1 _ _ h
  · exact ⟨x.rest, x.others, h0 _ _ x.own⟩

theorem State.CoreStep.atMe {t : State} {R : Core → Core → Prop} (x : s.CoreStep t fun c C => c = s.me → R c C) :
    s.CoreStep t R :=
  ⟨x.rest, x.others, x.own rfl⟩

theorem Core.Booked.same {c C C' : Core} {due : GiveDue} {pc gap : Nat} (x : Core.Booked s h due pc gap c C)
    (hl : C.IssueLike C' s.cur.eng s.cur.fw) (hs : C'.stream s.cur.eng s.cur.fw = C.stream s.cur.eng s.cur.fw)
    (hi : C'.iq = C.iq) : Core.Booked s h due pc gap c C' :=
  ⟨x.like.trans hl, by rw [hs]; exact x.stream, fun q => by rw [← x.waits q, Core.count, Core.count, hi]⟩

theorem Core.stream_setSlots (x y : Bool) : ({ c with fwSlot := x, usrSlot := y } : Core).stream e b = c.stream e b := by
  cases b <;> cases e <;> rfl

/-- The record of which context took the slot is all that is noted of it (R37). -/
theorem State.takeSlot_step (s : State) :
    s.CoreStep s.takeSlot fun c C => ∃ x y, C = { c with fwSlot := x, usrSlot := y } := by
  unfold State.takeSlot
  split
  · exact .onMe ⟨_, _, rfl⟩
  · split
    · exact .onMe ⟨_, _, rfl⟩
    · exact .refl ⟨_, _, rfl⟩

/-- The bookkeeping of an issue. -/
theorem State.finish_spec (s : State) (h : Hdr) (due : GiveDue) (pc gap : Nat) :
    s.CoreStep ((s.finish h due pc gap).takeSlot) (Core.Booked s h due pc gap) := by
  have x1 := State.consume_spec s h
  have hc := x1.cur
  have hg := x1.gtc
  have hp : ((s.consume h).me.past (engIdx s.cur.eng) pc).2 =
      if s.cur.eng = .vxe then (s.me.wrapVloop pc).2 else pc := by
    simp only [Core.past, engIdx_eq_three]
    split
    · exact Core.wrapVloop_congr x1.own.2.1 pc
    · rfl
  have hf := State.finish_eq s h due pc gap
  simp only [hp, hc, hg] at hf
  let F : Core → Core := fun c => c.setStream s.cur.eng s.cur.fw ((c.stream s.cur.eng s.cur.fw).booked s.gtc
    (engIdx s.cur.eng) (if s.cur.eng = .vxe then (s.me.wrapVloop pc).2 else pc) gap h due
    (s.myStream.tokens h).2.2.1 (s.myStream.tokens h).2.2.2 s.cur.fw)
  have x2 := (x1.trans (.onMe (f := fun c => (c.past (engIdx s.cur.eng) pc).1)
      (R := fun c c' => c' = (c.past (engIdx s.cur.eng) pc).1) rfl)
    (R'' := fun c C => c.IssueLike C s.cur.eng s.cur.fw ∧ (∀ q, C.count q = c.count q - s.taken h q)
      ∧ ∃ k, C.stream s.cur.eng s.cur.fw = { c.stream s.cur.eng s.cur.fw with clk := k }) (by
    rintro c c' c'' ⟨hl, hv, hw, hk⟩ rfl
    exact ⟨hl.trans (.past _ _), fun q => by rw [Core.count, Core.iq_past, ← hw q, Core.count],
      by simpa using hk⟩)).trans (.onMe (f := F) (R := fun c c' => c' = F c) rfl)
    (R'' := fun c C => c = s.me → Core.Booked s h due pc gap c C) (by
    rintro c c' c'' ⟨hl, hw, k, hk⟩ rfl rfl
    exact ⟨hl.trans (.setStream _), ⟨k, by rw [Core.stream_setStream, hk]⟩,
      fun q => by rw [Core.count_setStream, hw]⟩)
  have x3 := x2.onUser (R' := fun c C => c = s.me → Core.Booked s h due pc gap c C)
    (fun c => c.advance (engIdx s.cur.eng) (s.myStream.tokens h).2.2.1 (s.myStream.tokens h).2.2.2) s.cur.fw
    (fun _ _ h => h) fun c C hb e => (hb e).same (.advance _ _ _) (by simp) (by simp)
  rw [hf]
  refine (x3.trans (State.takeSlot_step _) (R'' := fun c C => c = s.me → Core.Booked s h due pc gap c C) ?_).atMe
  rintro c C C' hb ⟨x, y, rfl⟩ e
  exact (hb e).same (.setSlots x y) (Core.stream_setSlots x y) rfl

end Sys2Proof.Machine
end

