-- ==== Sys2Proof/Laws/Memory.lean ====
section
/-!
SUPPORT. Memory: what each operation writes, what it leaves, and the canonical form that it keeps.
-/

namespace Sys2Proof.Machine

variable {s : State} {m : SMap Byte} {a b n : Nat} {cs : List (Nat × Byte)} {bs : List Byte}

/-! ## Writes as cells -/

theorem pokes_nil : pokes m [] = m := rfl

theorem pokes_cons (c : Nat × Byte) : pokes m (c :: cs) = pokes (m.set 0 c.1 c.2) cs := rfl

theorem pokes_append (ds : List (Nat × Byte)) : pokes m (cs ++ ds) = pokes (pokes m cs) ds :=
  List.foldl_append

/-- Bytes outside the cells are untouched. -/
theorem get_pokes_ne (h : ∀ c ∈ cs, c.1 ≠ a) : (pokes m cs).get 0 a = m.get 0 a := by
  induction cs generalizing m with
  | nil => rfl
  | cons c cs ih =>
    rw [pokes_cons, ih fun e he => h e (by simp [he])]
    exact SMap.get_set_ne (Ne.symm (h c (by simp)))

/-- The last cell at an address is what it holds. -/
theorem get_pokes_last (h : ∀ c ∈ cs, c.1 ≠ a) (v : Byte) (ds : List (Nat × Byte)) :
    (pokes m (ds ++ (a, v) :: cs)).get 0 a = v := by
  rw [pokes_append, pokes_cons, get_pokes_ne h, SMap.get_set_self]

/-- Writes keep the canonical form. -/
theorem wf_pokes (h : Memory.wf m = true) : Memory.wf (pokes m cs) = true := by
  induction cs generalizing m with
  | nil => exact h
  | cons c cs ih => exact ih (SMap.wf_set h)

/-! ## The operations on memory -/

theorem State.byte_write_ne (h : ∀ c ∈ cs, c.1 ≠ a) : (s.write cs).byte a = s.byte a :=
  get_pokes_ne h

theorem mem_cellsAt {c : Nat × Byte} (h : c ∈ cellsAt a bs) : a ≤ c.1 ∧ c.1 < a + bs.length := by
  simp only [cellsAt, List.mem_mapIdx] at h
  obtain ⟨i, hi, rfl⟩ := h
  constructor <;> simp_all

/-- A write of consecutive bytes leaves every byte outside them. -/
theorem State.byte_writeAt_ne (h : b < a ∨ a + bs.length ≤ b) : (s.writeAt a bs).byte b = s.byte b :=
  State.byte_write_ne fun _ hc => by
    have := mem_cellsAt hc
    omega

theorem cellsAt_cons (x : Byte) : cellsAt a (x :: bs) = (a, x) :: cellsAt (a + 1) bs := by
  simp only [cellsAt, List.mapIdx_cons, Nat.add_zero, List.cons.injEq, true_and]
  congr 1
  funext i y
  simp only [Prod.mk.injEq, and_true]
  omega

theorem get_pokes_cellsAt (i : Nat) (hi : i < bs.length) :
    (pokes m (cellsAt a bs)).get 0 (a + i) = bs[i] := by
  induction bs generalizing m a i with
  | nil => simp at hi
  | cons x bs ih =>
    rw [cellsAt_cons, pokes_cons]
    cases i with
    | zero =>
      rw [Nat.add_zero, get_pokes_ne fun c hc => by have := mem_cellsAt hc; omega]
      exact SMap.get_set_self
    | succ i =>
      have := ih (m := m.set 0 a x) (a := a + 1) i (by simpa using hi)
      rw [show a + (i + 1) = a + 1 + i by omega]
      simpa using this

/-- A write of consecutive bytes gives each its value. -/
theorem State.byte_writeAt (i : Nat) (hi : i < bs.length) : (s.writeAt a bs).byte (a + i) = bs[i] :=
  get_pokes_cellsAt i hi

theorem State.bytes_writeAt : (s.writeAt a bs).bytes a bs.length = bs := by
  apply List.ext_getElem (by simp [State.bytes])
  intro i h1 h2
  simp [State.bytes, State.byte_writeAt i h2]

theorem State.wf_write (h : Memory.wf s.mem = true) : Memory.wf (s.write cs).mem = true := wf_pokes h

theorem State.wf_writeAt (h : Memory.wf s.mem = true) : Memory.wf (s.writeAt a bs).mem = true := wf_pokes h

theorem State.wf_zeroRange (h : Memory.wf s.mem = true) : Memory.wf (s.zeroRange a n).mem = true :=
  SMap.wf_clear h

/-- What outlasts a power loss or a reset is a selection of what was listed. -/
theorem wf_kept (p : Nat × Byte → Bool) (h : Memory.wf m = true) : Memory.wf (m.filter p) = true :=
  SMap.wf_filter p h

theorem State.wf_reset : Memory.wf State.reset.mem = true := rfl

end Sys2Proof.Machine
end

