-- ==== Sys2Proof/Laws/Scu.lean ====
section
/-!
SUPPORT. The SCU: what an instruction that issues leaves, from what its effect left (R94, R171, R172).
-/

namespace Sys2Proof.Machine

variable {s s' t : State} {h : Hdr} {eff : State → Eff} {due : GiveDue} {pc gap : Nat} {R : Core → Core → Prop}

/-! ## From an effect to the issued instruction -/

/-- An effect that leaves alone what issue itself books. -/
structure Unbooked (s s' : State) : Prop where
  step  : s.CoreStep s' fun _ _ => True
  sidx  : s'.myStream.sidx = s.myStream.sidx
  at?   : s'.myStream.at? = s.myStream.at?
  gives : s'.myStream.gives = s.myStream.gives
  code  : s'.myStream.off = s.myStream.off ∧ s'.myStream.len = s.myStream.len
  vloop : s'.me.vxeS.vloop = s.me.vxeS.vloop
  count : ∀ q, s'.me.count q = s.me.count q

theorem Unbooked.refl : Unbooked s s := ⟨.refl trivial, rfl, rfl, rfl, ⟨rfl, rfl⟩, rfl, fun _ => rfl⟩

theorem Unbooked.tokens (x : Unbooked s s') : s'.myStream.tokens h = s.myStream.tokens h := by
  rw [Stream.tokens, Stream.tokens, x.at?]

theorem Unbooked.taken (x : Unbooked s s') (q : Nat) : s'.taken h q = s.taken h q := by
  simp only [State.taken, x.tokens, x.step.cur]

/-- The stream of the step after an issue. -/
theorem State.stream_finish (x : Unbooked s s') :
    ∃ k, ((s'.finish h due pc gap).takeSlot).myStream = ({ s'.myStream with clk := k } : Stream).booked s.gtc
      (engIdx s.cur.eng) (if s.cur.eng = .vxe then (s.me.wrapVloop pc).2 else pc) gap h due
      (s.myStream.tokens h).2.2.1 (s.myStream.tokens h).2.2.2 s.cur.fw := by
  have y := State.finish_spec s' h due pc gap
  obtain ⟨k, hk⟩ := y.own.stream
  refine ⟨k, ?_⟩
  rw [State.myStream, y.cur, hk, x.tokens, x.step.cur, x.step.gtc, Core.wrapVloop_congr x.vloop]
  simp only [State.myStream, x.step.cur]

theorem State.issued (x : Unbooked s s') :
    Issued s ((s'.finish h due pc gap).takeSlot) h due
      (if s.cur.eng = .vxe then (s.me.wrapVloop pc).2 else pc) gap := by
  obtain ⟨k, hk⟩ := State.stream_finish (h := h) (due := due) (pc := pc) (gap := gap) x
  have y := State.finish_spec s' h due pc gap
  refine ⟨by rw [hk]; rfl, by rw [hk, ← x.sidx]; rfl, by rw [hk]; rfl, by rw [hk]; exact ⟨rfl, rfl, rfl⟩, fun q => ?_, ?_,
    by rw [hk]; exact x.code⟩
  · rw [y.own.waits q, x.count, x.taken]
  · rw [hk]
    simp only [Stream.booked, State.promised, x.gives, x.sidx]
    split <;> simp

theorem State.kept (x : Unbooked s s') (hk : StreamKept s s') :
    StreamKept s ((s'.finish h due pc gap).takeSlot) := by
  obtain ⟨k, e⟩ := State.stream_finish (h := h) (due := due) (pc := pc) (gap := gap) x
  refine ⟨by rw [e]; exact hk.loops, by rw [e]; exact hk.ended, by rw [e]; exact hk.leaves⟩

theorem StreamKept.refl : StreamKept s s := ⟨rfl, rfl, rfl, rfl, rfl, rfl⟩

theorem State.CoreStep.onlyCore (x : s.CoreStep t R) {back : Core → Core → Core}
    (h : ∀ c C, R c C → back c C = c) : OnlyCore s t back :=
  ⟨x.rest, x.others, h _ _ x.own, fun a => by simp only [State.byte, x.mem]⟩

/-- After an effect on the core of the step and the bookkeeping of its issue. -/
theorem State.finish_onlyCore (x : s.CoreStep s' R) {back : Core → Core → Core}
    (h0 : ∀ c c' C, R c c' → c'.IssueLike C s.cur.eng s.cur.fw → back c C = c) :
    OnlyCore s ((s'.finish h due pc gap).takeSlot) back := by
  have y := State.finish_spec s' h due pc gap
  refine (x.trans y (R'' := fun c C => ∃ c', R c c' ∧ c'.IssueLike C s.cur.eng s.cur.fw) fun c c' C h1 h2 =>
    ⟨c', h1, ?_⟩).onlyCore fun c C ⟨c', h1, h2⟩ => h0 c c' C h1 h2
  have := h2.like
  rwa [x.cur] at this

theorem Core.back_setCtx (c : Core) (b : Bool) (k : ScuCtx) : (c.setCtx b k).setCtx b (c.ctx b) = c := by
  cases b <;> rfl

theorem Core.setCtx_issueLike {c C : Core} {e : Engine} {b : Bool} (k : ScuCtx) (hl : c.IssueLike C e b) :
    (c.setCtx b k).IssueLike (C.setCtx b k) e b := by
  obtain ⟨st, iq, sp, cur, vl, fs, us, rfl⟩ := hl
  exact ⟨st, iq, sp, cur, vl, fs, us, by cases b <;> cases e <;> rfl⟩

theorem State.issueParts_issueLike {c C : Core} (hl : c.IssueLike C s.cur.eng s.cur.fw) : s.issueParts c C = c := by
  obtain ⟨st, iq, sp, cur, vl, fs, us, rfl⟩ := hl
  unfold State.issueParts
  generalize s.cur.eng = e
  generalize s.cur.fw = b
  cases b <;> cases e <;> rfl

theorem State.scuParts_issueLike {c C : Core} {k : ScuCtx} (hl : (c.setCtx s.cur.fw k).IssueLike C s.cur.eng s.cur.fw) :
    s.scuParts c C = c := by
  have := Core.setCtx_issueLike (c.ctx s.cur.fw) hl
  rw [Core.back_setCtx] at this
  exact State.issueParts_issueLike this

theorem Unbooked.trans {u : State} (x : Unbooked s s') (y : Unbooked s' u) : Unbooked s u :=
  ⟨x.step.trans y.step fun _ _ _ _ _ => trivial, y.sidx.trans x.sidx, y.at?.trans x.at?, y.gives.trans x.gives,
    ⟨y.code.1.trans x.code.1, y.code.2.trans x.code.2⟩, y.vloop.trans x.vloop,
    fun q => (y.count q).trans (x.count q)⟩

/-- An effect that puts other loop levels into the stream. -/
theorem Unbooked.onLoops (ls : Stream → List LoopLevel) :
    Unbooked s (s.onStream fun t => { t with loops := ls t }) := by
  refine ⟨⟨rfl, fun q hq => State.core_onStream_ne _ _ _ hq, trivial⟩, ?_, ?_, ?_, ?_, ?_, fun q => ?_⟩
  all_goals first | rw [State.myStream_onStream] | rw [State.me_onStream]
  · exact ⟨rfl, rfl⟩
  · cases s.cur.fw <;> cases s.cur.eng <;> rfl
  · exact Core.count_setStream _ _

theorem State.onStream_step (f : Stream → Stream) :
    s.CoreStep (s.onStream f) fun c c' => c' = c.setStream s.cur.eng s.cur.fw (f (c.stream s.cur.eng s.cur.fw)) :=
  .onMe (f := fun c => c.setStream s.cur.eng s.cur.fw (f (c.stream s.cur.eng s.cur.fw))) rfl

/-- An instruction of one tick whose effect is to put other loop levels into the stream. -/
theorem State.goes (ls : Stream → List LoopLevel) :
    Goes s (((s.onStream fun t => { t with loops := ls t }).finish h (.tick (s.gtc + 1)) pc gap).takeSlot) h
      (if s.cur.eng = .vxe then (s.me.wrapVloop pc).2 else pc) gap (ls s.myStream) s.issueParts := by
  have x := Unbooked.onLoops (s := s) ls
  obtain ⟨k, e⟩ := State.stream_finish (h := h) (due := .tick (s.gtc + 1)) (pc := pc) (gap := gap) x
  rw [State.myStream_onStream] at e
  refine ⟨State.issued x, by rw [e]; rfl, ?_, State.finish_onlyCore (State.onStream_step _) ?_⟩
  · rw [e]
    exact ⟨rfl, rfl, rfl, rfl, rfl⟩
  · rintro c c' C rfl hl
    exact State.issueParts_issueLike ((Core.IssueLike.setStream _).trans hl)

/-- An instruction of one tick without an effect of its own. -/
theorem State.goes_nothing :
    Goes s ((s.finish h (.tick (s.gtc + 1)) pc gap).takeSlot) h
      (if s.cur.eng = .vxe then (s.me.wrapVloop pc).2 else pc) gap s.myStream.loops s.issueParts := by
  obtain ⟨k, e⟩ := State.stream_finish (h := h) (due := .tick (s.gtc + 1)) (pc := pc) (gap := gap) (Unbooked.refl (s := s))
  refine ⟨State.issued .refl, by rw [e]; rfl, ?_, State.finish_onlyCore (R := Eq) ⟨rfl, fun _ _ => rfl, rfl⟩ ?_⟩
  · rw [e]
    exact ⟨rfl, rfl, rfl, rfl, rfl⟩
  · rintro c c' C rfl hl
    exact State.issueParts_issueLike hl

/-! ## Reading and pushing -/

theorem State.reading_of_readable {cs : List Nat} {k : Eff} (hr : s.readable cs) : s.reading cs k = k := by
  unfold State.reading
  obtain hr | ⟨h1, h2⟩ := hr
  · simp [hr]
  · simp [h1, h2]

theorem Core.stream_setCtx (c : Core) (fw b : Bool) (e : Engine) (k : ScuCtx) :
    (c.setCtx fw k).stream e b = c.stream e b := by
  cases fw <;> cases b <;> cases e <;> rfl

theorem State.push_step (d lat : Nat) (v : Word) :
    s.CoreStep (s.push d lat v) fun c c' => c' = c.setCtx s.cur.fw ((c.ctx s.cur.fw).push d (s.gtc + lat) v) :=
  .onMe (f := fun c => c.setCtx s.cur.fw ((c.ctx s.cur.fw).push d (s.gtc + lat) v)) rfl

theorem State.me_push (d lat : Nat) (v : Word) :
    (s.push d lat v).me = s.me.setCtx s.cur.fw ((s.me.ctx s.cur.fw).push d (s.gtc + lat) v) :=
  State.me_onMe _ _

theorem State.myStream_push (d lat : Nat) (v : Word) : (s.push d lat v).myStream = s.myStream := by
  have : (s.push d lat v).cur = s.cur := rfl
  rw [State.myStream, State.me_push, this, Core.stream_setCtx, State.myStream]

theorem Unbooked.push (d lat : Nat) (v : Word) : Unbooked s (s.push d lat v) := by
  refine ⟨⟨rfl, State.push_step d lat v |>.others, trivial⟩, ?_, ?_, ?_, ?_, ?_, fun q => ?_⟩
  all_goals first | rw [State.myStream_push] | rw [State.me_push]
  · exact ⟨rfl, rfl⟩
  · cases s.cur.fw <;> rfl
  · cases s.cur.fw <;> rfl

theorem State.pushed (x : State.CoreStep (s.push d lat v) t fun c C => C.ctx s.cur.fw = c.ctx s.cur.fw) :
    Pushed s t d lat v := by
  have e : t.scu = (s.me.ctx s.cur.fw).push d (s.gtc + lat) v := by
    rw [State.scu, x.cur]
    have := x.own
    rw [State.me_push, Core.ctx_setCtx] at this
    exact this
  refine ⟨?_, ?_, ?_, ?_, ?_⟩ <;> rw [e]
  · rfl
  · rfl
  · rfl
  · rfl
  · exact ⟨rfl, rfl⟩

theorem Core.IssueLike.ctx {c C : Core} {e : Engine} {b : Bool} (h : c.IssueLike C e b) (fw : Bool) :
    C.ctx fw = c.ctx fw := by
  obtain ⟨st, iq, sp, cur, vl, fs, us, rfl⟩ := h
  cases fw <;> cases b <;> cases e <;> rfl

/-- An SCU instruction of one result. -/
theorem State.computes {cs : List Nat} {d lat : Nat} {f : State → Word} (he : s.cur.eng = .scu)
    (hi : s.mayIssue h) (hr : s.readable cs) : Computes s (scuOp h d cs lat f s) h d lat (f s) := by
  have hen : s.enter = s := State.enter_of_ne (by simp [he])
  have e : scuOp h d cs lat f s = ((s.push d lat (f s)).finish h (.tick (s.gtc + lat)) (s.myStream.pc + h.n) 1).takeSlot :=
    State.issue_done hi (by rw [hen, State.reading_of_readable hr])
  rw [e]
  have x := Unbooked.push (s := s) d lat (f s)
  have i := State.issued (h := h) (due := .tick (s.gtc + lat)) (pc := s.myStream.pc + h.n) (gap := 1) x
  rw [if_neg (by simp [he])] at i
  refine ⟨i, State.kept x ?_, State.pushed ?_, State.finish_onlyCore (State.push_step d lat (f s)) ?_⟩
  · constructor <;> rw [State.myStream_push]
    exact ⟨rfl, rfl, rfl, rfl⟩
  · have y := State.finish_spec (s.push d lat (f s)) h (.tick (s.gtc + lat)) (s.myStream.pc + h.n) 1
    exact ⟨y.rest, y.others, y.own.like.ctx _⟩
  · rintro c c' C rfl hl
    exact State.scuParts_issueLike hl

end Sys2Proof.Machine
end

