-- ==== Sys2Proof/Tests/Slice0.lean ====
section
/-!
SUPPORT. Tests of the model on small states: terms that are not well formed, the words of every engine
instruction written out from the tables of the specification, single steps with results worked out from it,
and for each statement with hypotheses states that meet them.
-/

namespace Sys2Proof.Tests

-- The proofs evaluate terms: one after another they keep to the memory of one.
set_option Elab.async false

open Sys2Proof.Machine

/-! ## States -/

/-- A header of `n` words that waits for nothing and gives nothing. -/
def hd (n : Nat) : Hdr := { n := n, wp := 0, wn := 0, gp := 0, gn := 0, stl := 0 }

/-- Task 0 runs on core 0 at tick 1000; the step is one of the user context of `e`, at word 0 of a stream of four
words of NOP. -/
def spot (e : Engine) : State :=
  { State.reset.placeWords e [] with
    agenda := [], gtc := 1000, cur := { core := 0, eng := e, fw := false, words := [0], port := 0, queue := 0 } }

/-- The same core with its firmware context handling an event. -/
def fwSpot : State :=
  let s := (spot .scu).onMe fun c => { c with fwBusy := true }
  { s with cur := { s.cur with fw := true } }

/-- The state that an instruction answers, or the one before it where it stops. -/
def next (i : Instr) (s : State) : State :=
  match exec i s with
  | .next t => t
  | _ => s

/-- What an instruction makes of the state. -/
def gives (i : Instr) (s : State) {α : Type} (f : State → α) : α := f (next i s)

/-- Registers s0, s1 and so on of the user context set. -/
def regs (s : State) (vs : List Word) : State :=
  s.onMe fun c => { c with user := { c.user with named := (vs.mapIdx fun i v => (i, v)).filter fun e => e.2 != 0 } }

/-- The header of the kernel on core 0 changed. -/
def header (s : State) (f : KHeader → KHeader) : State :=
  s.setTask 0 ((s.task? 0).map fun x => { x with hdr := f x.hdr })

/-- Task 0 changed. -/
def task (s : State) (f : Task → Task) : State := s.setTask 0 ((s.task? 0).map f)

/-- The stream of the step changed. -/
def stream (s : State) (f : Stream → Stream) : State := s.onStream f

/-- A row-major descriptor with every right (Table 6.1): its space, its format, two dimensions, tiles as large,
the stride of dimension 1 and its base. -/
def desc (space fmt d0 d1 s1 base : Nat) : BitVec 512 :=
  BitVec.ofNat 512 (2 ^ 24 + space * 2 ^ 15 + fmt + 2 ^ 32 * (2 ^ 23 + 0x3FF) + 2 ^ 64 * d0 + 2 ^ 96 * d1
    + 2 ^ 128 + 2 ^ 160 + 2 ^ 192 * (d1 * 2 ^ 16 + d0) + 2 ^ 224 * (2 ^ 16 + 1) + 2 ^ 256 * s1 + 2 ^ 448 * base)

/-- Tensor `t` of core 0 set. -/
def tensor (s : State) (t : Nat) (d : BitVec 512) : State := s.onMe fun c => { c with descs := c.descs.set 0 t d }

/-- Bytes stored in the scratchpad of core 0. -/
def spd (s : State) (o : Nat) (bs : List Nat) : State := s.writeAt (spdBase 0 + o) (bs.map (BitVec.ofNat 8))

/-- A fabric write of stream index 0 that waits for its acknowledgement. -/
def ack0 : AckEntry :=
  { tag := 7, sidx := 0, dst := 1, line := 0, local? := false, atm := false, sig := false, off := 0, seg := 0, tick := 0, mask := 0 }

/-- The stream of the step covers that write; a releasing store of it waits in the write queue for the write, or for
nothing. -/
def covers0 : Clock := { Clock.zero with idx := [0, 0, 0, 0, 1] }
def unacked (s : State) : State :=
  (s.onStream fun t => { t with clk := covers0 }).onMe fun c => { c with sceS := { c.sceS with ack := [ack0] } }
def storing (s : State) (k : Clock) : State :=
  s.onMe fun c => { c with stores := [{ sidx := 0, cells := [(spdBase 0, 1)], scope := 4, clk := k }] }

/-- What an engine reads from words. -/
def reads (e : Engine) (ws : List Nat) : Option Instr := (decode e ws).toOption

/-- Whether a stream's next instruction is one of the core's engine fault: its cause and its code in the frame
(Table 16.1). -/
def faulted (s : State) : Nat × Nat × Nat × Nat :=
  let f := fwBase s.cur.core + 0xF000
  (b2n s.me.halted, s.num (f + 2) 1, s.num (f + 8) 1, s.num (f + 9) 3)

/-! ## Terms that are not well formed: for each check one that it refuses, beside terms that pass -/

/-- Whether the terms of the first list are well formed and those of the second are not. -/
def sorts (good bad : List Instr) : Bool := good.all Instr.wf && bad.all fun i => !i.wf

/-- The header's counts: too few and too many words, interlock counts above the words, a stall above its field or where
there is none (R90, R94, R112). -/
theorem test_refuses_headers : sorts [.nop (hd 4), .add { hd 1 with wp := 1, wn := 1, gp := 1, gn := 1, stl := 15 } 0 0 0]
    [.nop (hd 0), .nop (hd 5), .add (hd 2) 0 0 0, .nop { hd 1 with wp := 2 }, .nop { hd 1 with wn := 2 }, .nop { hd 1 with gp := 2 }
    , .nop { hd 1 with gn := 2 }, .nop { hd 1 with stl := 1 }, .add { hd 1 with stl := 16 } 0 0 0
    , .viadd { hd 1 with stl := 8 } { vd := 0, va := 0, vb := 0, es := 0 } (VArith.dflt 0)] = true := by
  decide +kernel

/-- Tables 5.4 and 8.4: fields that are too wide, and values that the tables reserve. -/
theorem test_refuses_scu :
    let m : MemWord := { sel := 0, kind := 0, ord := 0, scope := 0, tid := 0, off := 0 }
    let a : MemWord := { m with kind := 3 }
    sorts [.atStamp (hd 2) (2 ^ 40 - 1), .fence (hd 1) 4, .getc (hd 1) 16 19, .setc (hd 1) 18 0, .ld (hd 2) 16 0 false { m with ord := 1, scope := 4 }
      , .st (hd 2) 0 0 { m with ord := 2 }, .atm (hd 2) 0 0 0 false a 0, .atm (hd 3) 0 0 0 false { a with kind := 4 } 31]
    [.atStamp (hd 2) (2 ^ 40), .atLax (hd 2) (2 ^ 40), .loop (hd 2) 0 (.imm 1), .loop (hd 2) (2 ^ 14) (.imm 1), .loop (hd 2) 1 (.imm (2 ^ 28))
    , .loop (hd 2) 1 (.coord 16 0), .loop (hd 2) 1 (.coord 0 4), .loop (hd 2) 1 (.operand 32), .csetImm (hd 2) 16 1 0, .caddImm (hd 2) 0 0 0
    , .csetImm (hd 2) 0 16 0, .caddImm (hd 2) 0 1 (2 ^ 24), .cmodImm (hd 2) 0 1 0, .cmodImm (hd 2) 0 1 (2 ^ 23), .csetReg (hd 1) 0 0 0
    , .caddReg (hd 1) 16 1 0, .cmodReg (hd 1) 0 1 16, .cldp (hd 1) 0 16 0, .cldp (hd 1) 0 1 4096, .fence (hd 1) 5, .trap (hd 1) (2 ^ 16)
    , .bar (hd 1) 5, .barred (hd 1) 1 0 0 0, .barred (hd 1) 0 32 0 0, .barred (hd 1) 0 0 8 0, .barred (hd 1) 0 0 0 5, .waitt (hd 1) 32 true
    , .gtc (hd 1) 15, .getc (hd 1) 0 6, .getc (hd 1) 0 17, .setc (hd 1) 1 0, .setc (hd 1) 0 32, .spawn (hd 2) 0 0 256, .spawn (hd 2) 0 32 0
    , .notify (hd 2) 0 (2 ^ 16), .notify (hd 2) 32 0, .add (hd 1) 1 0 0, .add (hd 1) 32 0 0, .mul (hd 1) 0 32 0, .div (hd 1) 0 0 32 false
    , .cmp (hd 2) 0 0 0 10, .sel (hd 2) 0 0 0 32, .clz (hd 1) 0 32 true, .popc (hd 1) 2 0, .addi (hd 2) 0 0 (2 ^ 28), .shi (hd 2) 0 0 3 0
    , .shi (hd 2) 0 0 0 64, .li (hd 2) 0 (2 ^ 28), .li (hd 3) 0 (2 ^ 56), .cmpi (hd 2) 0 0 10 0, .br (hd 2) 10 0 0 0, .br (hd 2) 0 0 0 (2 ^ 28)
    , .jump (hd 2) (2 ^ 28), .jumpReg (hd 1) 32, .call (hd 2) 3 0, .callReg (hd 1) 0 32, .ret (hd 1) 32, .ld (hd 2) 0 0 true { m with kind := 1 }
    , .ld (hd 2) 0 0 false { m with kind := 3 }, .ld (hd 2) 17 0 false { m with kind := 2 }, .ld (hd 2) 0 0 false { m with off := 2 ^ 11 }
    , .ld (hd 2) 0 0 false { m with ord := 2 }, .ld (hd 2) 0 0 false { m with scope := 1 }, .ld (hd 2) 0 0 false { m with ord := 1, scope := 5 }
    , .ld (hd 2) 0 0 false { m with sel := 3 }, .ld (hd 2) 0 0 false { m with sel := 1, tid := 1 }, .ld (hd 2) 0 0 false { m with sel := 1, ord := 1 }
    , .ld (hd 2) 0 0 false { m with tid := 256 }, .st (hd 2) 0 0 { m with ord := 1 }, .st (hd 2) 0 15 { m with kind := 2 }
    , .st (hd 2) 0 31 { m with kind := 2 }, .atm (hd 2) 0 0 0 false { a with sel := 1 } 0, .atm (hd 2) 0 0 0 false { a with kind := 4 } 0
    , .atm (hd 3) 0 0 0 false a 0, .atm (hd 2) 0 0 0 false { a with kind := 5 } 0, .atm (hd 2) 0 0 0 true { a with kind := 0 } 0
    , .atm (hd 2) 0 0 0 false { a with off := 2 ^ 10 } 0, .atm (hd 2) 0 0 0 false a 1, .dgleaf (hd 2) 0 0 (2 ^ 12) 0, .dgseal (hd 1) 1] = true := by
  decide +kernel

/-- Tables 9.3, 10.3 and 11.3: tensor ids, coordinates, groups, extents, row ranges and the fields of accumulators. -/
theorem test_refuses_copies_and_products :
    let r : Rows := { all := false, cr := 0 }
    let e : Ext := { e0 := 2 ^ 14 - 1, e1 := 0 }
    sorts [.cpi (hd 3) 255 15 15 255 (some e), .flush (hd 1) 0 0 false none, .flush (hd 3) 0 0 false (some e), .fat (hd 2) 0 0 0 0 true 255 15 6
      , .mrd (hd 2) 3 255 15 none, .mmag (hd 1) 7 3 true 15 3, .aclr (hd 1) 7 { all := true, cr := 0 }]
    [.cpi (hd 2) 256 0 0 0 none, .cpic (hd 2) 0 16 0 0 none, .cpib (hd 2) 0 0 16 0 none, .cpw (hd 2) 0 0 0 256 none, .cpi (hd 2) 0 0 0 0 (some e)
    , .cpi (hd 3) 0 0 0 0 none, .cpi (hd 3) 0 0 0 0 (some { e with e0 := 2 ^ 14 }), .cpi (hd 3) 0 0 0 0 (some { e with e1 := 2 ^ 14 })
    , .cpig (hd 2) 0 0 0 0 256 0 none, .cpig (hd 2) 0 0 0 0 0 16 none, .cpa (hd 2) 0 0 0 0 false (2 ^ 16) none, .pref (hd 2) 16 0 none
    , .cpq (hd 2) 0 0 0 0 4 false none, .lstat (hd 1) 256 0 false, .lstat (hd 1) 0 16 false, .rwait (hd 2) 16 false 0, .rwait (hd 2) 0 false (2 ^ 28)
    , .cpos (hd 2) 0 0 0 0 256 0 false none, .cpm (hd 2) 0 0 0 0 256 none, .fat (hd 2) 0 0 0 0 true 0 0 7, .fat (hd 2) 0 0 0 0 true 256 0 0
    , .fat (hd 2) 0 0 0 0 true 0 16 0, .fsig (hd 2) 0 0 false false (2 ^ 20), .fsig (hd 2) 16 0 false false 0, .flush (hd 2) 0 0 false none
    , .flush (hd 1) 256 0 false none, .flushAll (hd 2) false, .sstat (hd 1) 0 16 false false false, .mrd (hd 2) 4 0 0 none, .wld (hd 2) 0 256 0 none
    , .wld (hd 2) 0 0 16 none, .mrd (hd 3) 0 0 0 none, .mma (hd 1) 8 0 0 false, .mma (hd 1) 0 4 0 false, .mma (hd 1) 0 0 4 false
    , .mmag (hd 1) 0 0 false 16 0, .mmag (hd 1) 0 0 false 0 4, .aset (hd 2) 0 r (2 ^ 16), .anorm (hd 1) 0 r 64, .aclr (hd 1) 0 { r with cr := 16 }
    , .aclr (hd 1) 0 { all := true, cr := 1 }, .aadd (hd 1) 0 r 8, .aret (hd 2) 0 r false 64 0 0 0 0 0, .aret (hd 2) 0 r false 0 256 0 0 0 0
    , .aret (hd 2) 0 r false 0 0 16 0 0 0, .aret (hd 2) 0 r false 0 0 0 256 0 0, .aret (hd 2) 0 r false 0 0 0 0 16 0, .aret (hd 2) 0 r false 0 0 0 0 0 4
    , .ard (hd 2) 0 r false 256 0, .awr (hd 2) 0 r false 0 16, .amax (hd 2) 8 r 0 0, .mxmode (hd 2) false, .mstat (hd 2) false 0 16] = true := by
  decide +kernel

/-- Table 12.6: register fields, element sizes, the two layouts of word 1 and the functions that SUB names. -/
theorem test_refuses_vectors :
    let r : VRegs := { vd := 1, va := 2, vb := 3, es := 2 }
    let o : VArith := VArith.dflt 0
    let m : VMem := { tid := 0, cr := 0, soff := 0, msk := 0, z := false, pk := false }
    let u : VRegs := { r with vb := 0 }
    let ld : VRegs := { r with va := 0, vb := 0, es := 0 }
    sorts [.viadd (hd 2) r { o with sub := 8, sat := true, msk := 7, z := true }, .vld (hd 2) ld { m with pk := true } none
      , .vfadd (hd 2) r { o with sat := true, rm := 3 }, .vclamp (hd 2) u { o with imm := 32 }, .vcvt (hd 2) { u with es := 0 } { o with imm := 0x0112 }]
    [.viadd (hd 1) { r with vd := 32 } o, .viadd (hd 1) { r with va := 32 } o, .viadd (hd 1) { r with vb := 32 } o, .viadd (hd 1) { r with es := 4 } o
    , .viadd (hd 1) r { o with sub := 1 }, .viadd (hd 2) r { o with sub := 16 }, .viadd (hd 2) r { o with msk := 8 }, .viadd (hd 2) r { o with imm := 2 ^ 16 }
    , .viadd (hd 2) r { o with rm := 1 }, .viadd (hd 2) r { o with i := true }, .viadd (hd 2) r { o with sub := 4 }, .viadd (hd 2) r { o with sub := 2, sat := true }
    , .vld (hd 2) { ld with va := 1 } m none, .vld (hd 2) { ld with vb := 1 } m none, .vst (hd 2) { ld with va := 1 } m none, .vldx (hd 2) { r with va := 0 } { m with pk := true }
    , .vld (hd 2) { ld with es := 1 } { m with pk := true } none, .vld (hd 2) ld { m with tid := 256 } none, .vld (hd 2) ld { m with cr := 16 } none
    , .vld (hd 2) ld { m with soff := 16 } none, .vld (hd 2) ld { m with msk := 8 } none, .vstx (hd 2) r m, .vlda (hd 2) ld 0 0 false false false
    , .vlda (hd 2) { ld with es := 3 } 8 0 false false false, .vlda (hd 2) { ld with es := 1 } 0 0 true true false, .vbcE (hd 1) u o, .vbcE (hd 2) u { o with sub := 1, imm := 512 }
    , .vbcI (hd 2) { u with va := 0 } { o with sub := 1 }, .vbcC (hd 2) { u with va := 0 } { o with sub := 2, imm := 64 }, .vbcSt (hd 2) { u with va := 0 } { o with sub := 3 }
    , .vbcSt (hd 2) { u with va := 0, es := 3 } { o with sub := 3, imm := 3 }, .vbcWc (hd 2) { u with vd := 0 } { o with sub := 4 }, .vbcClr (hd 2) u { o with sub := 5 }
    , .vspill (hd 1) r, .vfill (hd 1) { r with va := 0 }, .vloop (hd 2) 32 0 0 1 (.imm 1), .vloop (hd 2) 0 0 0 0 (.imm 1), .vloop (hd 2) 0 0 0 1 (.operand 0)
    , .vloop (hd 2) 0 0 0 1 (.imm (2 ^ 13)), .viota (hd 1) u o, .vhash (hd 2) { u with es := 1 } m, .vhash (hd 2) u { m with cr := 1 }, .vperm (hd 2) r { o with sub := 1 }
    , .vslide (hd 2) r o, .vslide (hd 2) u { o with imm := 512 }, .vslide (hd 2) u { o with sub := 2, imm := 64 }, .vslide (hd 2) u { o with sub := 8 }
    , .vcomp (hd 2) u { o with z := true }, .vcomp (hd 2) u { o with sub := 2 }, .vmsk (hd 2) { r with es := 1 } o, .vmsk (hd 2) { r with vd := 0, es := 0 } o
    , .vmsk (hd 2) { r with vb := 8, es := 0 } o, .vmsk (hd 2) { r with es := 0 } { o with imm := 1 }, .vmsk (hd 2) { r with va := 0, vb := 0, es := 0 } { o with sub := 5, imm := 513 }
    , .vmpop (hd 2) { u with vd := 0 } { o with sub := 2 }, .vmpop (hd 2) { u with vd := 0, va := 8 } o, .vimul (hd 2) r { o with sub := 2 }, .vmac (hd 2) r { o with sub := 1 }
    , .vdot4 (hd 1) { r with es := 0 } o, .vdot4 (hd 2) r { o with sub := 4 }, .vminmax (hd 2) r { o with sat := true }, .vlogic (hd 2) r { o with sub := 5 }
    , .vlogic (hd 2) u { o with sub := 4, i := true }, .vshift (hd 2) r { o with sub := 3 }, .vrsh (hd 2) r { o with sub := 1 }, .vrq (hd 2) r o 0 0 false
    , .vrq (hd 3) { r with es := 1 } o 0 0 false, .vrq (hd 3) { r with es := 3 } { o with sub := 3 } 0 0 false, .vrq (hd 3) r o 64 0 false, .vrq (hd 3) r o 0 32 false
    , .vrq (hd 3) r o 0 1 true, .vcmp (hd 1) { r with vd := 8 } o, .vcmp (hd 2) r { o with sub := 10 }, .vsel (hd 2) r { o with z := true }, .vunary (hd 2) u { o with sub := 5 }
    , .vunary (hd 2) u { o with sub := 2, sat := true }, .vclamp (hd 2) u o, .vclamp (hd 2) u { o with imm := 33 }, .vfadd (hd 1) { r with es := 1 } o, .vfmul (hd 2) r { o with sub := 1 }
    , .vfma (hd 2) r { o with sub := 2 }, .vfminmax (hd 2) r { o with rm := 1 }, .vfun (hd 2) u { o with sub := 4 }, .vfcmp (hd 2) r { o with sub := 8 }
    , .vcvt (hd 2) { u with es := 0 } { o with imm := 0x0100 }, .vqx4Enc (hd 2) r { o with msk := 1 }, .vqx4Dec (hd 2) r o, .vscale (hd 2) r { o with sub := 1 }
    , .viadd (hd 2) r { o with imm := 5 }, .vst (hd 2) { ld with va := 1, vd := 0 } { m with z := true } none, .vbcClr (hd 2) { u with vd := 0, va := 0 } { o with sub := 5, z := true }
    , .vred (hd 2) u { o with i := true }, .vred (hd 2) u { o with z := true }, .vlda (hd 2) { ld with es := 1 } 0 1 false true false
    , .vscaleBlk (hd 2) u o, .vred (hd 2) u { o with sub := 8 }, .vfred (hd 2) u { o with sub := 3 }, .vredi (hd 2) { u with es := 1 } o] = true := by
  decide +kernel

/-- Steps from outside: numbers of things that the part does not have. -/
theorem test_refuses_outside :
    let p : Packet :=
      { type := 1, urg := false, sid := false, det := false, npay := 0, hops := 0, src := 511, dst := 0, via := 0, score := 0, asid := 0, va := 0, task := 0, tag := 0
        colmask := 0, group := 0, aop := 0, rel := false, lenm1 := 0, opa := 0, opb := 0, status := 0, aux := 0, payload := [] }
    let h : PktHdr := { q := 1023, spawned := false, len := 1, nospec := false, irq := false, stopOnError := false, ordered := false, raw := [] }
    let b : BringUp := { strap := 511, dies := [31], hbms := [31], edges := [(31, 3)], ports := [(45, 511)] }
    let r : SpdmReq := { ep := .host, session := none }
    let load (e : Nat) : EdgeLoad := { edge := e, draw := 1, queued := true }
    let f (ks : List Packet) : Frame := { fctr := 0, rcv := 0, freed := 0, srcv := 0, sfreed := 0, tgtc := 0, tph := 0, tv := false, fv := false
                                          tagOk := true, codeOk := true, packets := ks }
    sorts [.wrPacket p, .seal h, .moduleReset b, .retireCore 31 16, .registerWrite 0x4010 4 0, .d2dThrottleWindow [load 0, load 51]
      , .frameReceive 45 (f (List.replicate 16 p))]
    [.d2dThrottleWindow [load 52], .d2dThrottleWindow [load 1, load 1], .frameReceive 0 (f (List.replicate 17 p)), .frameReceive 46 (f [])
    , .wrPacket { p with npay := 5, payload := [0, 0, 0, 0, 0] }, .wrPacket { p with hops := 4 }, .wrPacket { p with colmask := 2 ^ 16 }
    , .wrPacket { p with aux := 2 ^ 64 }, .powerWindow 0 [(32, 0)], .moduleReset { b with strap := 512 }, .moduleReset { b with dies := [32] }, .moduleReset { b with hbms := [32] }
    , .moduleReset { b with edges := [(0, 4)] }, .moduleReset { b with ports := [(46, 0)] }, .moduleReset { b with ports := [(0, 512)] }, .dieChallengeTimeout 32, .ucieEdgeTraining 0 4 true, .linkTraining 46 0 0 true
    , .frameReplay 46 0, .wrPacket { p with src := 512 }, .rdPacket { p with asid := 4096 }, .atmPacket { p with va := 2 ^ 52 }, .mcwPacket { p with payload := [1] }
    , .sigPacket { p with tag := 2 ^ 16 }, .ackPacket { p with status := 256 }, .barPacket { p with opb := 2 ^ 64 }, .timePacket 46 0 0 0, .responseTimeout 17 0
    , .responseTimeout 0 (2 ^ 16), .translationWalk 17 0 0, .acntWriteback 0 4096 0, .xinvPage64k 4096 0, .dlkick 4096, .encirWrite 32 0, .registerWrite 0 2 0
    , .registerWrite 0 8 (2 ^ 64), .lceCommandCompletion 1024 0, .packetSettlement 0 0 256, .fabricCacheEviction 32 0, .cellarRefresh 32, .engineFault 17 .scu 0 0 0
    , .notifyWrite 1024 0, .seal { h with q := 1024 }, .dep h 1024 0, .mapGroup h 256 true 0 0, .mapGroup h 0 true 0 (2 ^ 512), .speculationDiscard 1024 .queue
    , .errorCorrected (.sramBank 17 0), .errorCorrected (.cellarBank 0 64), .errorCorrected (.hbmChannel 32 0), .resourceRetire (.ucieLane 0 4 0)
    , .resourceRetire (.azpinLane 0 4), .retireCore 0 17, .retireDie 32, .retireStack 32, .retireEdge 0 4, .fwload 32 0 true
    , .hostMemoryAccess { addr := 2 ^ 44, len := 1, tee := false, tdi := 0, write := none }, .hostMemoryAccess { addr := 0, len := 1, tee := false, tdi := 33, write := none }
    , .hostMemoryAccess { addr := 0, len := 1, tee := false, tdi := 0, write := some [256] }, .getCertificate r 16 0 0, .challenge r 16 0, .keyExchange r 16
    , .setCertificate r 16 [] true, .keySet r 256 0, .keySet r 0 4096, .keyClear r 256, .lockInterface 64 0, .functionLevelReset 64] = true := by
  decide +kernel

/-- The common stream group: Tables 5.1, 5.2 and 5.4, R102, R105 and R106. -/
theorem test_words_common :
    decode .scu [0x88000000, 0x10000000, 0x00000000] = .ok (.nop { hd 3 with wp := 1, gn := 1 })
    ∧ decode .vxe [0x04101ABC, 0x01234567] = .ok (.atLax (hd 2) 0xABC1234567)
    ∧ decode .lce [0x04100001, 0x00000005] = .ok (.atStamp (hd 2) 0x10000005)
    ∧ decode .sce [0x00200000] = .ok (.endStream (hd 1))
    ∧ decode .mxe [0x04303FFF, 0x0FFFFFFF] = .ok (.loop (hd 2) 0x3FFF (.imm 0xFFFFFFF))
    ∧ decode .vxe [0x04380007, 0x00000027] = .ok (.loop (hd 2) 7 (.coord 9 3))
    ∧ decode .scu [0x04380007, 0x00000011] = .ok (.loop (hd 2) 7 (.operand 17))
    ∧ decode .vxe [0x00400000] = .ok (.endl (hd 1))
    ∧ decode .lce [0x045F9000, 0x00FFFFFF] = .ok (.csetImm (hd 2) 15 9 0xFFFFFF)
    ∧ decode .lce [0x005F9680] = .ok (.csetReg (hd 1) 15 9 6)
    ∧ decode .sce [0x04612000, 0x00000003] = .ok (.caddImm (hd 2) 1 2 3)
    ∧ decode .sce [0x00612480] = .ok (.caddReg (hd 1) 1 2 4)
    ∧ decode .vxe [0x04712000, 0x007FFFFF] = .ok (.cmodImm (hd 2) 1 2 0x7FFFFF)
    ∧ decode .mxe [0x00712480] = .ok (.cmodReg (hd 1) 1 2 4)
    ∧ decode .lce [0x00835FFF] = .ok (.cldp (hd 1) 3 5 0xFFF)
    ∧ decode .sce [0x00900000] = .ok (.mark (hd 1))
    ∧ decode .mxe [0x00A00004] = .ok (.fence (hd 1) 4) := by and_intros <;> rfl

/-- The SCU: Tables 8.3 and 8.4. -/
theorem test_words_scuCtl :
    decode .scu [0x0052BEEF] = .ok (.trap { hd 1 with stl := 2 } 0xBEEF)
    ∧ decode .scu [0x00600003] = .ok (.bar (hd 1) 3)
    ∧ decode .scu [0x0070A172] = .ok (.barred (hd 1) 20 5 6 2)
    ∧ decode .scu [0x00800241] = .ok (.waitt (hd 1) 9 true)
    ∧ decode .scu [0x00B0F800] = .ok (.gtc (hd 1) 31)
    ∧ decode .scu [0x00C084C0] = .ok (.getc (hd 1) 16 19)
    ∧ decode .scu [0x00D0048E] = .ok (.setc (hd 1) 18 7)
    ∧ decode .scu [0x04E088C0, 0x000000A5] = .ok (.spawn (hd 2) 17 3 0xA5)
    ∧ decode .scu [0x04F0002A, 0x0000FFFF] = .ok (.notify (hd 2) 21 0xFFFF) := by and_intros <;> rfl

/-- The SCU: Tables 8.3 and 8.4. -/
theorem test_words_scuAlu :
    decode .scu [0x0100803E] = .ok (.add { hd 1 with stl := 0 } 16 0 31)
    ∧ decode .scu [0x0111887C] = .ok (.sub { hd 1 with stl := 1 } 17 1 30)
    ∧ decode .scu [0x012290BA] = .ok (.andReg { hd 1 with stl := 2 } 18 2 29)
    ∧ decode .scu [0x013398F8] = .ok (.orReg { hd 1 with stl := 3 } 19 3 28)
    ∧ decode .scu [0x0144A136] = .ok (.xorReg { hd 1 with stl := 4 } 20 4 27)
    ∧ decode .scu [0x0155A974] = .ok (.andn { hd 1 with stl := 5 } 21 5 26)
    ∧ decode .scu [0x0166B1B2] = .ok (.shl { hd 1 with stl := 6 } 22 6 25)
    ∧ decode .scu [0x0177B9F0] = .ok (.shr { hd 1 with stl := 7 } 23 7 24)
    ∧ decode .scu [0x0188C22E] = .ok (.sra { hd 1 with stl := 8 } 24 8 23)
    ∧ decode .scu [0x0199CA6C] = .ok (.mul { hd 1 with stl := 9 } 25 9 22)
    ∧ decode .scu [0x01AAD2AB] = .ok (.mulh { hd 1 with stl := 10 } 26 10 21 true)
    ∧ decode .scu [0x01BBDAE9] = .ok (.div { hd 1 with stl := 11 } 27 11 20 true)
    ∧ decode .scu [0x01CCE327] = .ok (.rem { hd 1 with stl := 12 } 28 12 19 true)
    ∧ decode .scu [0x01DDEB65] = .ok (.minReg { hd 1 with stl := 13 } 29 13 18 true)
    ∧ decode .scu [0x01EEF3A3] = .ok (.maxReg { hd 1 with stl := 14 } 30 14 17 true)
    ∧ decode .scu [0x05F08044, 0x00000009] = .ok (.cmp (hd 2) 16 1 2 9)
    ∧ decode .scu [0x06008044, 0x0000001E] = .ok (.sel (hd 2) 16 1 2 30)
    ∧ decode .scu [0x02100041] = .ok (.clz (hd 1) 0 1 true)
    ∧ decode .scu [0x02200740] = .ok (.popc (hd 1) 0 29)
    ∧ decode .scu [0x06300100, 0x08000001] = .ok (.addi (hd 2) 0 4 0x8000001)
    ∧ decode .scu [0x06400100, 0x08000001] = .ok (.andi (hd 2) 0 4 0x8000001)
    ∧ decode .scu [0x06500100, 0x08000001] = .ok (.ori (hd 2) 0 4 0x8000001)
    ∧ decode .scu [0x06600100, 0x08000001] = .ok (.xori (hd 2) 0 4 0x8000001)
    ∧ decode .scu [0x06700100, 0x000000BF] = .ok (.shi (hd 2) 0 4 2 63)
    ∧ decode .scu [0x0A809000, 0x01234567, 0x0ABCDEF0] = .ok (.li (hd 3) 18 0xABCDEF01234567)
    ∧ decode .scu [0x069090D0, 0x00000005] = .ok (.cmpi (hd 2) 18 3 8 5) := by and_intros <;> rfl

/-- The SCU: Tables 8.3, 8.4, 8.9 and 8.10. -/
theorem test_words_scuMem :
    decode .scu [0x07003044, 0x0FFFFFFE] = .ok (.br (hd 2) 6 1 2 0xFFFFFFE)
    ∧ decode .scu [0x07100000, 0x0000000C] = .ok (.jump (hd 2) 12)
    ∧ decode .scu [0x031001C1] = .ok (.jumpReg (hd 1) 7)
    ∧ decode .scu [0x07208000, 0x0000000C] = .ok (.call (hd 2) 16 12)
    ∧ decode .scu [0x032081C1] = .ok (.callReg (hd 1) 16 7)
    ∧ decode .scu [0x033001C0] = .ok (.ret (hd 1) 7)
    ∧ decode .scu [0x07409181, 0x00640FFF] =
        .ok (.ld (hd 2) 18 6 true { sel := 0, kind := 0, ord := 1, scope := 4, tid := 0x81, off := 0x7FF })
    ∧ decode .scu [0x07500190, 0x0A000010] =
        .ok (.st (hd 2) 6 8 { sel := 2, kind := 2, ord := 0, scope := 0, tid := 0, off := 16 })
    ∧ decode .scu [0x0B608190, 0x026827F8, 0x0000001E] =
        .ok (.atm (hd 3) 16 6 8 false { sel := 0, kind := 4, ord := 3, scope := 2, tid := 9, off := 1016 } 30)
    ∧ decode .scu [0x07700190, 0x0ABC007F] = .ok (.dgleaf (hd 2) 6 8 0xABC 0x7F)
    ∧ decode .scu [0x03808000] = .ok (.dgseal (hd 1) 16)
    ∧ decode .scu [0x03900001] = .ok (.retf (hd 1) true)
    ∧ decode .scu [0x03A00000] = .ok (.yield (hd 1)) := by and_intros <;> rfl

/-- The load copy engine: Tables 9.2 and 9.3. -/
theorem test_words_lce :
    decode .lce [0x090C35A0, 0x03C00000, 0x08005FFE] =
        .ok (.cpi (hd 3) 0xC3 5 10 0x3C (some { e0 := 0x1FFE, e1 := 0x2001 }))
    ∧ decode .lce [0x05101230, 0x00400000] = .ok (.cpic (hd 2) 1 2 3 4 none)
    ∧ decode .lce [0x05201236, 0x00405000] = .ok (.cpig (hd 2) 1 2 3 4 5 6 none)
    ∧ decode .lce [0x05301230, 0x00400000] = .ok (.cpib (hd 2) 1 2 3 4 none)
    ∧ decode .lce [0x05401230, 0x00400000] = .ok (.cpw (hd 2) 1 2 3 4 none)
    ∧ decode .lce [0x05501231, 0x0040FFFE] = .ok (.cpa (hd 2) 1 2 3 4 true 0xFFFE none)
    ∧ decode .lce [0x05600030, 0x00400000] = .ok (.pref (hd 2) 3 4 none)
    ∧ decode .lce [0x0570123A, 0x00400000] = .ok (.cpq (hd 2) 1 2 3 4 2 true none)
    ∧ decode .lce [0x01801201] = .ok (.lstat (hd 1) 1 2 true)
    ∧ decode .lce [0x059000B1, 0x0ABCDEF1] = .ok (.rwait (hd 2) 11 true 0xABCDEF1) := by and_intros <;> rfl

/-- The store copy engine: Tables 10.2 and 10.3. -/
theorem test_words_sce :
    decode .sce [0x090C35A0, 0x03C00000, 0x08005FFE] =
        .ok (.cpo (hd 3) 0xC3 5 10 0x3C false (some { e0 := 0x1FFE, e1 := 0x2001 }))
    ∧ decode .sce [0x05101231, 0x00400000] = .ok (.cpoc (hd 2) 1 2 3 4 true none)
    ∧ decode .sce [0x05201231, 0x00405600] = .ok (.cpos (hd 2) 1 2 3 4 5 6 true none)
    ∧ decode .sce [0x05301230, 0x00400000] = .ok (.cpf (hd 2) 1 2 3 4 false none)
    ∧ decode .sce [0x05401230, 0x004FE000] = .ok (.cpm (hd 2) 1 2 3 4 0xFE none)
    ∧ decode .sce [0x05501231, 0x00405640] = .ok (.fat (hd 2) 1 2 3 4 true 5 6 4)
    ∧ decode .sce [0x05600032, 0x004FFFFF] = .ok (.fsig (hd 2) 3 4 false true 0xFFFFF)
    ∧ decode .sce [0x09701201, 0x00000000, 0x08005FFE] =
        .ok (.flush (hd 3) 1 2 true (some { e0 := 0x1FFE, e1 := 0x2001 }))
    ∧ decode .sce [0x01700002] = .ok (.flushAll (hd 1) false)
    ∧ decode .sce [0x01801206] = .ok (.sstat (hd 1) 1 2 true true false) := by and_intros <;> rfl

/-- The matrix engine: Table 11.3. -/
theorem test_words_mxe :
    decode .mxe [0x0900C000, 0x00450000, 0x08005FFE] =
        .ok (.mrd (hd 3) 3 4 5 (some { e0 := 0x1FFE, e1 := 0x2001 }))
    ∧ decode .mxe [0x05108000, 0x00450000] = .ok (.wld (hd 2) 2 4 5 none)
    ∧ decode .mxe [0x012FED00] = .ok (.mma { hd 1 with stl := 15 } 7 1 2 true)
    ∧ decode .mxe [0x0130D670] = .ok (.mmag (hd 1) 6 2 true 9 3)
    ∧ decode .mxe [0x0540A900, 0x00008000] = .ok (.aset (hd 2) 5 { all := false, cr := 9 } 0x8000)
    ∧ decode .mxe [0x0150B03F] = .ok (.anorm (hd 1) 5 { all := true, cr := 0 } 63)
    ∧ decode .mxe [0x0160A900] = .ok (.aclr (hd 1) 5 { all := false, cr := 9 })
    ∧ decode .mxe [0x0170A960] = .ok (.aadd (hd 1) 5 { all := false, cr := 9 } 3)
    ∧ decode .mxe [0x0580A9A1, 0x08124238] = .ok (.aret (hd 2) 5 { all := false, cr := 9 } true 33 0x81 2 0x42 3 2)
    ∧ decode .mxe [0x0590A980, 0x08120000] = .ok (.ard (hd 2) 5 { all := false, cr := 9 } true 0x81 2)
    ∧ decode .mxe [0x05A0A900, 0x08120000] = .ok (.awr (hd 2) 5 { all := false, cr := 9 } false 0x81 2)
    ∧ decode .mxe [0x05B0A900, 0x08120000] = .ok (.amax (hd 2) 5 { all := false, cr := 9 } 0x81 2)
    ∧ decode .mxe [0x01C00001] = .ok (.mxmode (hd 1) true)
    ∧ decode .mxe [0x05D00001, 0x08120000] = .ok (.mstat (hd 2) true 0x81 2) := by and_intros <;> rfl

/-- The VXE: Tables 12.3, 12.5, 12.6 and 12.11, R310. -/
theorem test_words_vxeMem :
    decode .vxe [0x09048000, 0x08156F01, 0x08005FFE] =
        .ok (.vld (hd 3) { vd := 9, va := 0, vb := 0, es := 0 } { tid := 129, cr := 5, soff := 6, msk := 7, z := true, pk := true } (some { e0 := 0x1FFE, e1 := 0x2001 }))
    ∧ decode .vxe [0x05102410, 0x08156E00] =
        .ok (.vst (hd 2) { vd := 0, va := 9, vb := 0, es := 2 } { tid := 129, cr := 5, soff := 6, msk := 7, z := false, pk := false } none)
    ∧ decode .vxe [0x05248148, 0x08150F00] =
        .ok (.vldx (hd 2) { vd := 9, va := 0, vb := 10, es := 1 } { tid := 129, cr := 5, soff := 0, msk := 7, z := true, pk := false })
    ∧ decode .vxe [0x05302548, 0x08150E00] =
        .ok (.vstx (hd 2) { vd := 0, va := 9, vb := 10, es := 1 } { tid := 129, cr := 5, soff := 0, msk := 7, z := false, pk := false })
    ∧ decode .vxe [0x05448018, 0x0B340000] =
        .ok (.vlda (hd 2) { vd := 9, va := 0, vb := 0, es := 3 } 5 9 true false true)
    ∧ decode .vxe [0x05448008, 0x0A080000] =
        .ok (.vlda (hd 2) { vd := 9, va := 0, vb := 0, es := 1 } 5 0 false true false)
    ∧ decode .vxe [0x016027E3] = .ok (.vspill { hd 1 with stl := 3 } { vd := 0, va := 9, vb := 31, es := 0 })
    ∧ decode .vxe [0x017483E0] = .ok (.vfill (hd 1) { vd := 9, va := 0, vb := 31, es := 0 })
    ∧ decode .vxe [0x05841C60, 0x07FFFFFF] = .ok (.vloop (hd 2) 8 7 3 0x3FFF (.imm 0x1FFF))
    ∧ decode .vxe [0x05841C60, 0x08004025] = .ok (.vloop (hd 2) 8 7 3 2 (.coord 9 1))
    ∧ decode .vxe [0x05A4A810, 0x08100F00] =
        .ok (.vhash (hd 2) { vd := 9, va := 10, vb := 0, es := 2 } { tid := 129, cr := 0, soff := 0, msk := 7, z := true, pk := false }) := by and_intros <;> rfl

/-- The VXE: Tables 12.3, 12.4 and 12.6, R313 to R319. -/
theorem test_words_vxePerm :
    decode .vxe [0x0154A808] = .ok (.vbcE (hd 1) { vd := 9, va := 10, vb := 0, es := 1 } (VArith.dflt 1))
    ∧ decode .vxe [0x0554A808, 0x010E01FF] =
        .ok (.vbcE (hd 2) { vd := 9, va := 10, vb := 0, es := 1 } { sub := 1, sat := false, rm := 0, msk := 3, z := true, i := false, imm := 511 })
    ∧ decode .vxe [0x05548008, 0x0000FFFF] =
        .ok (.vbcI (hd 2) { vd := 9, va := 0, vb := 0, es := 1 } { sub := 0, sat := false, rm := 0, msk := 0, z := false, i := false, imm := 65535 })
    ∧ decode .vxe [0x05548008, 0x02000017] =
        .ok (.vbcC (hd 2) { vd := 9, va := 0, vb := 0, es := 1 } { sub := 2, sat := false, rm := 0, msk := 0, z := false, i := false, imm := 23 })
    ∧ decode .vxe [0x05548018, 0x03000002] =
        .ok (.vbcSt (hd 2) { vd := 9, va := 0, vb := 0, es := 3 } { sub := 3, sat := false, rm := 0, msk := 0, z := false, i := false, imm := 2 })
    ∧ decode .vxe [0x05502818, 0x04000000] =
        .ok (.vbcWc (hd 2) { vd := 0, va := 10, vb := 0, es := 3 } { sub := 4, sat := false, rm := 0, msk := 0, z := false, i := false, imm := 0 })
    ∧ decode .vxe [0x05500000, 0x0500007F] =
        .ok (.vbcClr (hd 2) { vd := 0, va := 0, vb := 0, es := 0 } { sub := 5, sat := false, rm := 0, msk := 0, z := false, i := false, imm := 127 })
    ∧ decode .vxe [0x05948008, 0x00000007] =
        .ok (.viota (hd 2) { vd := 9, va := 0, vb := 0, es := 1 } { sub := 0, sat := false, rm := 0, msk := 0, z := false, i := false, imm := 7 })
    ∧ decode .vxe [0x01B4A960] = .ok (.vperm (hd 1) { vd := 9, va := 10, vb := 11, es := 0 } (VArith.dflt 0))
    ∧ decode .vxe [0x05C4A960, 0x0500000C] =
        .ok (.vslide (hd 2) { vd := 9, va := 10, vb := 11, es := 0 } { sub := 5, sat := false, rm := 0, msk := 0, z := false, i := false, imm := 12 })
    ∧ decode .vxe [0x05D4A960, 0x01080000] =
        .ok (.vcomp (hd 2) { vd := 9, va := 10, vb := 11, es := 0 } { sub := 1, sat := false, rm := 0, msk := 2, z := false, i := false, imm := 0 })
    ∧ decode .vxe [0x05E39800, 0x060001FF] =
        .ok (.vmsk (hd 2) { vd := 7, va := 6, vb := 0, es := 0 } { sub := 6, sat := false, rm := 0, msk := 0, z := false, i := false, imm := 511 })
    ∧ decode .vxe [0x05F01808, 0x0100003E] =
        .ok (.vmpop (hd 2) { vd := 0, va := 6, vb := 0, es := 1 } { sub := 1, sat := false, rm := 0, msk := 0, z := false, i := false, imm := 62 }) := by and_intros <;> rfl

/-- The VXE: Tables 12.3, 12.4, 12.6, 12.8 and 12.9. -/
theorem test_words_vxeInt :
    decode .vxe [0x0604A975, 0x0B9A0000] =
        .ok (.viadd { hd 2 with stl := 5 } { vd := 9, va := 10, vb := 11, es := 2 } { sub := 11, sat := true, rm := 0, msk := 6, z := true, i := false, imm := 0 })
    ∧ decode .vxe [0x0614A975, 0x091A0000] =
        .ok (.vimul { hd 2 with stl := 5 } { vd := 9, va := 10, vb := 11, es := 2 } { sub := 9, sat := false, rm := 0, msk := 6, z := true, i := false, imm := 0 })
    ∧ decode .vxe [0x0624A975, 0x089A0000] =
        .ok (.vmac { hd 2 with stl := 5 } { vd := 9, va := 10, vb := 11, es := 2 } { sub := 8, sat := true, rm := 0, msk := 6, z := true, i := false, imm := 0 })
    ∧ decode .vxe [0x0634A975, 0x039A0000] =
        .ok (.vdot4 { hd 2 with stl := 5 } { vd := 9, va := 10, vb := 11, es := 2 } { sub := 3, sat := true, rm := 0, msk := 6, z := true, i := false, imm := 0 })
    ∧ decode .vxe [0x0644A975, 0x091A0000] =
        .ok (.vminmax { hd 2 with stl := 5 } { vd := 9, va := 10, vb := 11, es := 2 } { sub := 9, sat := false, rm := 0, msk := 6, z := true, i := false, imm := 0 })
    ∧ decode .vxe [0x0654A975, 0x031A0000] =
        .ok (.vlogic { hd 2 with stl := 5 } { vd := 9, va := 10, vb := 11, es := 2 } { sub := 3, sat := false, rm := 0, msk := 6, z := true, i := false, imm := 0 })
    ∧ decode .vxe [0x0664A975, 0x021A0000] =
        .ok (.vshift { hd 2 with stl := 5 } { vd := 9, va := 10, vb := 11, es := 2 } { sub := 2, sat := false, rm := 0, msk := 6, z := true, i := false, imm := 0 })
    ∧ decode .vxe [0x0674A975, 0x081A0000] =
        .ok (.vrsh { hd 2 with stl := 5 } { vd := 9, va := 10, vb := 11, es := 2 } { sub := 8, sat := false, rm := 0, msk := 6, z := true, i := false, imm := 0 })
    ∧ decode .vxe [0x0A84A978, 0x04040000, 0x08580000] =
        .ok (.vrq (hd 3) { vd := 9, va := 10, vb := 11, es := 3 } { sub := 4, sat := false, rm := 0, msk := 1, z := false, i := false, imm := 0 } 33 12 false)
    ∧ decode .vxe [0x0693A818, 0x09018000] =
        .ok (.vcmp (hd 2) { vd := 7, va := 10, vb := 0, es := 3 } { sub := 9, sat := false, rm := 0, msk := 0, z := false, i := true, imm := 32768 })
    ∧ decode .vxe [0x06A4A978, 0x00100000] =
        .ok (.vsel (hd 2) { vd := 9, va := 10, vb := 11, es := 3 } { sub := 0, sat := false, rm := 0, msk := 4, z := false, i := false, imm := 0 })
    ∧ decode .vxe [0x06B4A818, 0x01800000] =
        .ok (.vunary (hd 2) { vd := 9, va := 10, vb := 0, es := 3 } { sub := 1, sat := true, rm := 0, msk := 0, z := false, i := false, imm := 0 })
    ∧ decode .vxe [0x06C4A818, 0x01000040] =
        .ok (.vclamp (hd 2) { vd := 9, va := 10, vb := 0, es := 3 } { sub := 1, sat := false, rm := 0, msk := 0, z := false, i := false, imm := 64 }) := by and_intros <;> rfl

/-- The VXE: Tables 12.3, 12.4 and 12.6, R327 to R332. -/
theorem test_words_vxeFp :
    decode .vxe [0x0704A977, 0x01FA0000] =
        .ok (.vfadd { hd 2 with stl := 7 } { vd := 9, va := 10, vb := 11, es := 2 } { sub := 1, sat := true, rm := 3, msk := 6, z := true, i := false, imm := 0 })
    ∧ decode .vxe [0x0714A977, 0x00DA0000] =
        .ok (.vfmul { hd 2 with stl := 7 } { vd := 9, va := 10, vb := 11, es := 2 } { sub := 0, sat := true, rm := 2, msk := 6, z := true, i := false, imm := 0 })
    ∧ decode .vxe [0x0724A977, 0x01BA0000] =
        .ok (.vfma { hd 2 with stl := 7 } { vd := 9, va := 10, vb := 11, es := 2 } { sub := 1, sat := true, rm := 1, msk := 6, z := true, i := false, imm := 0 })
    ∧ decode .vxe [0x0734A977, 0x011A0000] =
        .ok (.vfminmax { hd 2 with stl := 7 } { vd := 9, va := 10, vb := 11, es := 2 } { sub := 1, sat := false, rm := 0, msk := 6, z := true, i := false, imm := 0 })
    ∧ decode .vxe [0x0744A810, 0x03C00000] =
        .ok (.vfun (hd 2) { vd := 9, va := 10, vb := 0, es := 2 } { sub := 3, sat := true, rm := 2, msk := 0, z := false, i := false, imm := 0 })
    ∧ decode .vxe [0x0753A810, 0x07013F80] =
        .ok (.vfcmp (hd 2) { vd := 7, va := 10, vb := 0, es := 2 } { sub := 7, sat := false, rm := 0, msk := 0, z := false, i := true, imm := 16256 })
    ∧ decode .vxe [0x0764A800, 0x00A01310] =
        .ok (.vcvt (hd 2) { vd := 9, va := 10, vb := 0, es := 0 } { sub := 0, sat := true, rm := 1, msk := 0, z := false, i := false, imm := 4880 })
    ∧ decode .vxe [0x0774A970, 0x00000000] =
        .ok (.vqx4Enc (hd 2) { vd := 9, va := 10, vb := 11, es := 2 } { sub := 0, sat := false, rm := 0, msk := 0, z := false, i := false, imm := 0 })
    ∧ decode .vxe [0x0774A970, 0x01E00000] =
        .ok (.vqx4Dec (hd 2) { vd := 9, va := 10, vb := 11, es := 2 } { sub := 1, sat := true, rm := 3, msk := 0, z := false, i := false, imm := 0 })
    ∧ decode .vxe [0x0384A970] = .ok (.vscale (hd 1) { vd := 9, va := 10, vb := 11, es := 2 } (VArith.dflt 0))
    ∧ decode .vxe [0x0784A810, 0x01000006] =
        .ok (.vscaleBlk (hd 2) { vd := 9, va := 10, vb := 0, es := 2 } { sub := 1, sat := false, rm := 0, msk := 0, z := false, i := false, imm := 6 })
    ∧ decode .vxe [0x0794A800, 0x00800000] =
        .ok (.vred (hd 2) { vd := 9, va := 10, vb := 0, es := 0 } { sub := 0, sat := true, rm := 0, msk := 0, z := false, i := false, imm := 0 })
    ∧ decode .vxe [0x07A4A810, 0x00400000] =
        .ok (.vfred (hd 2) { vd := 9, va := 10, vb := 0, es := 2 } { sub := 0, sat := false, rm := 2, msk := 0, z := false, i := false, imm := 0 })
    ∧ decode .vxe [0x07B4A818, 0x03000000] =
        .ok (.vredi (hd 2) { vd := 9, va := 10, vb := 0, es := 3 } { sub := 3, sat := false, rm := 0, msk := 0, z := false, i := false, imm := 0 }) := by and_intros <;> rfl

/-! ## The hypotheses of the statements can be met -/

/-- Two results pending on the belt and a CHECK header, one tick on. -/
def early : State :=
  let s := next (.mul (hd 1) 16 0 0) (header (spot .scu) fun h => { h with check := true })
  { s with gtc := 1001 }

theorem test_meets_RegisterOperations :
    (spot .scu).mayIssue (hd 1) ∧ (spot .scu).readable [0, 31] ∧ fwSpot.mayIssue (hd 1) ∧ fwSpot.readable [0, 31]
    ∧ (0x10 ≤ bits 0x01000001 25 20 ∧ bit 0x01000001 0 = true) ∧ (bits 0x01900001 25 20 ≤ 0x19 ∧ bit 0x01900001 0 = true) := by
  unfold State.mayIssue State.readable; decide +kernel

theorem test_meets_ComparesAndCounts :
    (spot .scu).mayIssue (hd 2) ∧ (spot .scu).mayIssue (hd 1) ∧ (spot .scu).readable [0, 16, 31]
    ∧ (spot .scu).operand 31 = 0 ∧ (regs (spot .scu) [1]).operand 16 ≠ 0 := by
  unfold State.mayIssue State.readable; decide +kernel

theorem test_meets_ImmediateOperations :
    (spot .scu).mayIssue (hd 2) ∧ (spot .scu).mayIssue (hd 3) ∧ (spot .scu).readable [31] ∧ 2 ^ 28 - 1 < 2 ^ 28 := by
  unfold State.mayIssue State.readable; decide +kernel

theorem test_meets_BeltAndNamedRegisters :
    ScuCtx.zero.head < 16 ∧ ScuCtx.zero.pend = [] ∧ 31 < 32 ∧ ∀ r, ScuCtx.zero.seqs.get 0 r ≤ ScuCtx.zero.seq :=
  ⟨by decide, rfl, by decide, fun _ => Nat.le_refl 0⟩

theorem test_meets_EarlyReadFaults :
    early.cur.eng = .scu ∧ early.cur.fw = false ∧ early.mayIssue (hd 1) ∧ [16, 0].any early.scu.pending = true
    ∧ [0, 1].any early.scu.pending = true ∧ (early.hdrOf early.cur.core).check = true := by
  unfold State.mayIssue; decide +kernel

theorem test_meets_Branches :
    (spot .scu).mayIssue (hd 2) ∧ (spot .scu).mayIssue (hd 1) ∧ (spot .scu).readable [0, 0] ∧ (spot .scu).myStream.pc < 2 ^ 32
    ∧ Cond 0 ((spot .scu).operand 0) ((spot .scu).operand 0) ∧ ¬ Cond 1 ((spot .scu).operand 0) ((spot .scu).operand 0) := by
  unfold State.mayIssue State.readable
  exact ⟨by decide +kernel, by decide +kernel, by decide +kernel, by decide +kernel, rfl, fun h => h rfl⟩

theorem test_meets_Calls :
    fwSpot.cur.eng = .scu ∧ fwSpot.mayIssue (hd 2) ∧ fwSpot.mayIssue (hd 1) ∧ fwSpot.readable [0] ∧ fwSpot.myStream.pc < 2 ^ 32 := by
  unfold State.mayIssue State.readable; decide +kernel

theorem test_meets_ControlRegisters :
    (spot .scu).mayIssue (hd 1) ∧ (spot .scu).readable [0, 0] ∧ (spot .scu).cur.fw = false
    ∧ fwSpot.mayIssue (hd 1) ∧ fwSpot.readable [0, 0] ∧ fwSpot.cur.fw = true := by
  unfold State.mayIssue State.readable; decide +kernel

/-- A target two ticks ahead holds, one that the next tick reaches does not. -/
theorem test_meets_Waitt :
    let s := regs (spot .scu) [1001, 1002]
    s.mayIssue (hd 1) ∧ s.readable [16] ∧ s.readable [17] ∧ s.myStream.hold = .none
    ∧ (s.operand 16).toNat ≤ s.myView + 1 ∧ s.myView + 1 < (s.operand 17).toNat := by
  unfold State.mayIssue State.readable; decide +kernel

theorem test_meets_TrapYieldRetf :
    let y := (spot .scu).onMe fun c => { c with yreq := true }
    let l := y.onMe fun c => { c with mxeS := { c.mxeS with live := 1 } }
    let q := fwSpot.onMe fun c => { c with fwq := [{ kind := 5, s1 := 1, s2 := 2, s3 := 3 }] }
    ((spot .scu).mayIssue (hd 1) ∧ (spot .scu).cur.fw = false ∧ (spot .scu).me.yreq = false)
    ∧ (y.mayIssue (hd 1) ∧ y.me.yreq = true ∧ y.me.mxeS.live = 0 ∧ y.me.cutAt = none)
    ∧ (l.mayIssue (hd 1) ∧ l.me.mxeS.live ≠ 0)
    ∧ (fwSpot.mayIssue (hd 1) ∧ fwSpot.cur.fw = true ∧ fwSpot.me.fwq = [] ∧ fwSpot.me.halted = false)
    ∧ (q.mayIssue (hd 1) ∧ q.me.fwq.length = 1) := by
  unfold State.mayIssue; decide +kernel

/-- Tensor 5 of core 0: 16 INT64 elements in its scratchpad at 0x100. -/
def words5 (s : State) : State := tensor s 5 (desc 0 5 16 1 16 0x100)

/-- An access of the SCU to tensor 5. -/
def to5 (kind off : Nat) : MemWord := { sel := 0, kind := kind, ord := 0, scope := 0, tid := 5, off := off }

/-- The last element of tensor 5, the last byte of the argument block, and the byte behind each. -/
theorem test_meets_Loads :
    let s := header (words5 (spot .scu)) fun h => { h with arglen := 16 }
    let args (off : Nat) : MemWord := { sel := 1, kind := 0, ord := 0, scope := 0, tid := 0, off := off }
    let ram : MemWord := { sel := 2, kind := 2, ord := 0, scope := 0, tid := 0, off := 0 }
    s.mayIssue (hd 2) ∧ s.readable [0] ∧ s.cur.fw = false
    ∧ s.ldPlace (to5 1 0) 120 8 = .mem ((List.range 8).map (spdBase 0 + 0x100 + 120 + ·)) 6
    ∧ s.anyBad ((List.range 8).map (spdBase 0 + 0x100 + 120 + ·)) = false
    ∧ s.storeWaits = false ∧ (storing s covers0).mayIssue (hd 2) ∧ (storing s covers0).storeWaits = true
    ∧ (storing s covers0).ldPlace (to5 1 0) 120 8 = .mem ((List.range 8).map (spdBase 0 + 0x100 + 120 + ·)) 6
    ∧ s.ldPlace (args 12) 12 4 = .arg 12 ∧ s.ldPlace (args 13) 13 4 = .bad
    ∧ fwSpot.mayIssue (hd 2) ∧ fwSpot.ldPlace ram 0 16 = .mem ((List.range 16).map (fwBase 0 + ·)) 3 := by
  unfold State.mayIssue State.readable; decide +kernel

theorem test_meets_ScalarStores :
    let s := words5 (spot .scu)
    (∀ u ∈ [s, unacked s, storing s covers0], u.mayIssue (hd 2) ∧ u.readable [0, 0, 1] ∧ u.readable [0, 31]
      ∧ u.stPlace (to5 2 0) 112 16 = .mem ((List.range 16).map (spdBase 0 + 0x100 + 112 + ·)) 1)
    ∧ (s.storeWaits = false ∧ s.releaseWaits (hd 2) 2 4 = false ∧ (unacked s).storeWaits = false
      ∧ (unacked s).releaseWaits (hd 2) 2 4 = true ∧ (storing s covers0).storeWaits = true) := by
  unfold State.mayIssue State.readable; decide +kernel

theorem test_meets_Atomics :
    let s := words5 (spot .scu)
    (∀ u ∈ [s, unacked s, storing s covers0], u.mayIssue (hd 2) ∧ u.mayIssue (hd 3) ∧ u.readable [0, 1, 2]
      ∧ u.atmPlace (to5 4 0) 120 = .mem ((List.range 8).map (spdBase 0 + 0x100 + 120 + ·)) 8
      ∧ u.anyBad ((List.range 8).map (spdBase 0 + 0x100 + 120 + ·)) = false)
    ∧ s.storeWaits = false ∧ s.releaseWaits (hd 3) 2 4 = false ∧ (unacked s).releaseWaits (hd 3) 2 4 = true
    ∧ (storing s covers0).storeWaits = true := by
  unfold State.mayIssue State.readable; decide +kernel

/-- Offset 121 of the 128-byte span cannot hold 8 bytes, and an atomic at offset 4 is misaligned. -/
theorem test_meets_ScalarAccessFaults :
    let s := words5 (spot .scu)
    s.mayIssue (hd 2) ∧ s.readable [0, 1, 2] ∧ s.cur.fw = false ∧ (s.me.desc 5).span < 121 + 4 * 2 ^ 1
    ∧ ¬ (s.me.desc 5).span < 120 + 4 * 2 ^ 1 ∧ ((s.me.desc 5).base + 4) % 8 ≠ 0 := by
  unfold State.mayIssue State.readable; decide +kernel

/-- A SIGNAL of three units (Table 15.3) is handed over; a header of length 0 and a STOP are turned away. -/
theorem test_meets_Spawn :
    let at0 (w : Nat) : State := spd (words5 (spot .scu)) 0x100 (List.map (fun i => w / 256 ^ i % 256) (List.range 8))
    let s := at0 (4 + 3 * 2 ^ 24)
    s.mayIssue (hd 2) ∧ s.readable [0] ∧ (s.shadowOf 0).isSome = false ∧ s.capturing 0 = false
    ∧ s.spawnAt 5 0 = .pkt [4 + 3 * 2 ^ 24, 0, 0] ∧ (s.taskOf 0).map (·.spec) = some none
    ∧ (s.queue 0).spawn.length < 8 ∧ (at0 4).spawnAt 5 0 = .turned (-1) ∧ (at0 (0x10 + 2 ^ 24)).spawnAt 5 0 = .turned (-2) := by
  unfold State.mayIssue State.readable; decide +kernel

theorem test_meets_Notify :
    let s := spot .scu
    let f := s.setQueue 0 { Queue.empty with notN := 2 ^ 32 }
    let full := s.setQueue 0 { Queue.empty with notN := 1 }
    let left (u : State) := ((u.queue 0).notN % 2 ^ 32 + 2 ^ 32 - (u.queue 0).nack % 2 ^ 32) % 2 ^ 32
    s.mayIssue (hd 2) ∧ s.readable [0] ∧ (s.taskOf 0).map (fun t => (t.queue, t.spec)) = some (0, none)
    ∧ s.capturing 0 = false ∧ left f ≠ 2 ^ (f.queue 0).entry.nlog ∧ full.mayIssue (hd 2) ∧ left full = 2 ^ (full.queue 0).entry.nlog
    ∧ s.me.vcore < 2 ^ 16 := by
  unfold State.mayIssue State.readable; decide +kernel

theorem test_meets_ExplicitLeaf :
    let s := regs (words5 (spot .scu)) [0, 1]
    s.mayIssue (hd 2) ∧ s.readable [16, 17] ∧ s.cur.fw = false ∧ 1 ≤ (s.operand 17).toNat ∧ (s.operand 17).toNat ≤ 2 ^ 20
    ∧ s.scuTensor 5 0 1 true false (1, 1, 1) = .mem [spdBase 0 + 0x100] 1 ∧ s.anyBad [spdBase 0 + 0x100] = false
    ∧ s.refreshing [spdBase 0 + 0x100] = false ∧ s.myStream.form = [] ∧ (s.taskOf s.cur.core).bind Task.audit? = none
    ∧ s.storeWaits = false
    ∧ (let u := storing s covers0
       u.mayIssue (hd 2) ∧ u.readable [16, 17] ∧ u.scuTensor 5 0 1 true false (1, 1, 1) = .mem [spdBase 0 + 0x100] 1
         ∧ u.anyBad [spdBase 0 + 0x100] = false ∧ u.refreshing [spdBase 0 + 0x100] = false ∧ u.storeWaits = true) := by
  unfold State.mayIssue State.readable; decide +kernel

/-- A root log of 2^10 records (R363): empty, full, and one that a leaf in formation keeps waiting. -/
theorem test_meets_InterimRoot :
    let s : State := { spot .scu with regs := { Regs.zero with rln := 10 } }
    let full : State := { s with regs := { s.regs with rlhead := 1024 } }
    let wait := stream s fun t => { t with sidx := 1, form := [{ sidx := 0, record := none, images := [], drop := false }] }
    (s.mayIssue (hd 1) ∧ s.cur.fw = false ∧ (s.shadowOf 0).isSome = false ∧ s.capturing 0 = false
      ∧ s.me.leavesDone (s.sealed (hd 1)) = true ∧ s.logFull = false)
    ∧ (full.mayIssue (hd 1) ∧ full.logFull = true)
    ∧ (wait.mayIssue (hd 1) ∧ wait.me.leavesDone (wait.sealed (hd 1)) = false) := by
  unfold State.mayIssue; decide +kernel

/-- One core of one task at each scope, in both contexts; at POD scope with a packet that has not been acknowledged; a
releasing store that waits; and firmware on a core without a task. -/
theorem test_meets_BarrierArrivals :
    let s := spot .scu
    let free := fwSpot.onMe fun c => { c with task := none }
    (∀ u ∈ [s, fwSpot, unacked s, storing s covers0, free], u.mayIssue (hd 1) ∧ u.readable [0] ∧ u.myStream.hold = .none
      ∧ (u.shadowOf 0).isSome = false ∧ u.capturing 0 = false)
    ∧ (∀ u ∈ [s, fwSpot], u.alone 0 = true ∧ u.alone 1 = false ∧ u.alone 4 = false ∧ u.storeWaits = false ∧ u.scopeHere 4 = 4
      ∧ u.acked (hd 1) = true ∧ (u.taskOf 0).isSome = true ∧ u.myStream.form.length < 16)
    ∧ ((unacked s).acked (hd 1) = false ∧ (unacked s).scopeHere 4 = 4 ∧ (unacked s).alone 4 = false)
    ∧ ((storing s covers0).storeWaits = true ∧ (storing s covers0).alone 1 = false)
    ∧ (free.alone 4 = true ∧ free.taskOf 0 = none) := by
  unfold State.mayIssue State.readable; decide +kernel

/-- The one core of a task has arrived at a barrier of its quad, with BAR and with BARRED.QUAD ADD. -/
theorem test_meets_BarrierDepartures :
    let a := next (.bar (hd 1) 1) (spot .scu)
    let r := next (.barred (hd 1) 0 16 0 1) (regs (spot .scu) [7])
    (∀ u ∈ [a, r], u.me.standsAt.any (fun b => b.scope == 1) = true ∧ u.scopeHere 1 < 4
      ∧ (u.taskOf 0).map (fun x => u.members 0 1 x) = some [0] ∧ (∀ q ∈ [0], (u.arrival q 1).isSome) ∧ [0].Nodup)
    ∧ a.me.standsAt.map (fun b => (b.rop, b.contrib)) = some (none, 0)
    ∧ r.me.standsAt.map (fun b => (b.rop, b.contrib)) = some (some 0, 7) := by
  decide +kernel

/-- A stream of `e` whose four words are given. -/
def words (e : Engine) (ws : List Nat) : State :=
  { State.reset.placeWords e ws with
    agenda := [], gtc := 1000, cur := { core := 0, eng := e, fw := false, words := [0], port := 0, queue := 0 } }

/-- A command of the LCE, or the SCE, that has just been placed. -/
def cmd (i : Instr) : Cmd := Cmd.new 0 i [0, 0] Coord.zero Coord.zero Coord.zero 0 0 []

/-- A command in a slot of the LCE; one of the SCE; an instruction of the MXE in progress. -/
def lceSlot (s : State) (x : Cmd) : State := s.onMe fun c => { c with lceS := { c.lceS with slots := [x] } }
def sceSlot (s : State) (x : Cmd) : State := s.onMe fun c => { c with sceS := { c.sceS with slots := [x] } }

/-- An instruction of the MXE that completes at tick 2000. -/
def flying : MxeOp :=
  { unit := 3, sidx := 0, free := 1000, due := 2000, reads := [], writes := [], effect := [.bytes [(spdBase 0, 1, 3)]]
    mxst := 0, trap := false, uncorr := false, foff := 0, yield := false, sums := false, record := none, images := [] }

theorem test_meets_NopMarkFence :
    let s := spot .lce
    let busy := lceSlot s (cmd (.cpi (hd 2) 6 0 0 4 none))
    let wait := (stream (spot .sce) fun t => { t with sidx := 1 }).onMe fun c => { c with sceS := { c.sceS with ack := [ack0] } }
    let mxe := (stream (spot .mxe) fun t => { t with sidx := 1 }).onMe fun c => { c with mxeS := { c.mxeS with flight := [flying] } }
    (s.mayIssue (hd 1) ∧ s.quiet = true ∧ s.acked (hd 1) = true) ∧ (busy.mayIssue (hd 1) ∧ busy.quiet = false)
    ∧ (wait.mayIssue (hd 1) ∧ wait.quiet = true ∧ wait.scopeHere 4 = 4 ∧ wait.acked (hd 1) = false)
    ∧ (mxe.mayIssue (hd 1) ∧ mxe.me.mxeS.flight = [flying] ∧ flying.sidx < mxe.myStream.sidx) ∧ ∀ e, (spot e).mayIssue (hd 4) := by
  refine ⟨?_, ?_, ?_, ?_, fun e => ?_⟩ <;> try cases e
  all_goals unfold State.mayIssue; decide +kernel

/-- An AT that takes the last two words but one, one that ends its stream, and one behind another AT. -/
theorem test_meets_AtPrefixes :
    let s := spot .vxe
    let last := stream s fun t => { t with pc := 2 }
    let body := stream s fun t => { t with loops := [{ start := 0, stop := 1, count := 1 }] }
    let vbody := s.onMe fun c => { c with vxeS := { c.vxeS with
      vloop := some { count := 2, iter := 0, start := 0, stop := 1, rb := 0, rlm1 := 0, rs := 1 } } }
    let twice := stream s fun t => { t with at? := some { pc := 0, stamp := 0, lax := true, wp := 0, wn := 0, gp := 0, gn := 0 } }
    (s.canIssue = true ∧ s.myStream.at? = none ∧ 0 + 2 < s.myStream.len ∧ s.myStream.loops = [] ∧ s.me.vxeS.vloop = none)
    ∧ (vbody.canIssue = true ∧ vbody.cur.eng = .vxe ∧ vbody.me.vxeS.vloop.map (fun v => v.stop + 1) = some (vbody.myStream.pc + 2))
    ∧ (last.canIssue = true ∧ last.myStream.len ≤ last.myStream.pc + 2)
    ∧ (body.canIssue = true ∧ (body.myStream.loops.map fun l => l.stop + 1) = [body.myStream.pc + 2])
    ∧ (twice.canIssue = true ∧ twice.myStream.at? ≠ none) := by
  decide +kernel

/-- At view 1000: a stamp as far ahead as can be told, one tick ahead, the present one and the past one. -/
theorem test_meets_AtStamps :
    let at' (stamp : Nat) (lax : Bool) := stream (spot .mxe) fun t =>
      { t with at? := some { pc := 0, stamp := stamp, lax := lax, wp := 0, wn := 0, gp := 0, gn := 0 } }
    let d (stamp : Nat) := (1000 % 2 ^ 40 + 2 ^ 40 - stamp) % 2 ^ 40
    (∀ st ∈ [999, 1000, 1001], (at' st false).canIssue = true ∧ (at' st false).myView = 1000
      ∧ (at' st false).myStream.atd = false ∧ (at' st false).myStream.withheld = false ∧ (at' st false).myStream.frozen = none
      ∧ (at' st false).delayed = false ∧ (at' st false).waitsMet { hd 1 with wp := 1 } = false ∧ (at' st false).waitsMet (hd 1) = true)
    ∧ (at' 0 true).canIssue = true ∧ (at' 0 true).waitsMet { hd 1 with wn := 1 } = false
    ∧ d (1000 + 2 ^ 39) = 2 ^ 39 ∧ d 1001 = 2 ^ 40 - 1 ∧ d 1000 = 0 ∧ d 999 = 1 ∧ d (1001 + 2 ^ 39) = 2 ^ 39 - 1 := by
  decide +kernel

theorem test_meets_StreamEnds :
    let g := stream (spot .vxe) fun t => { t with gives := [{ sidx := 0, gp := 1, gn := 0, due := .tick 2000, clk := Clock.zero }] }
    (∀ e, (spot e).mayIssue (hd 1) ∧ (spot e).myStream.gives = [] ∧ (spot e).me.stores = [] ∧ (spot e).myStream.form = [])
    ∧ (g.mayIssue (hd 1) ∧ g.cur.fw = false ∧ g.myStream.gives ≠ [])
    ∧ ((storing (spot .scu) covers0).mayIssue (hd 1) ∧ (storing (spot .scu) covers0).me.stores ≠ []) ∧ (fwSpot.mayIssue (hd 1) ∧ fwSpot.cur.fw = true) := by
  refine ⟨fun e => ?_, ?_, ?_, ?_⟩ <;> try cases e
  all_goals unfold State.mayIssue; decide +kernel

/-- A LOOP over NOP and ENDL (0x00400000); four open levels; and ENDL at the end of the innermost body. -/
theorem test_meets_Loops :
    let s := words .mxe [0x04300002, 0, 0, 0x00400000]
    let four := stream s fun t => { t with loops := List.replicate 4 { start := 0, stop := 3, count := 1 } }
    let e (n : Nat) := stream s fun t => { t with pc := 3, loops := [{ start := 2, stop := 3, count := n }] }
    (s.mayIssue (hd 2) ∧ s.readable [] ∧ s.loopLegal 2 3 = true ∧ s.isEndl 2 = false)
    ∧ (four.mayIssue (hd 2) ∧ four.myStream.loops.length = 4)
    ∧ ((e 2).mayIssue (hd 1) ∧ (e 1).mayIssue (hd 1) ∧ (e 1).myStream.loops.map (·.stop) = [(e 1).myStream.pc])
    ∧ (s.mayIssue (hd 1) ∧ s.myStream.loops = []) := by
  unfold State.mayIssue State.readable; decide +kernel

/-- A modulus of 1 and of 0, and words of 2^23 - 1, 2^23 and past the argument block. -/
theorem test_meets_Coordinates :
    let s := ((header (spot .vxe) fun h => { h with arglen := 8 }).onMe fun c =>
      { c with coords := c.coords.set Coord.zero (16 * 3 + 1) { x := 1, y := 0, z := 0, w := 0 } })
    let a := task s fun x => { x with args := [0xFF, 0xFF, 0x7F, 0, 0, 0, 0x80, 0] }
    a.mayIssue (hd 1) ∧ a.mayIssue (hd 2) ∧ a.cur.fw = false ∧ engIdx a.cur.eng = 3
    ∧ 0 < ((a.me.coord 3 1).get 0).toInt ∧ ((a.me.coord 3 1).get 1).toInt ≤ 0
    ∧ a.argWord 0 = 2 ^ 23 - 1 ∧ a.argWord 4 = 2 ^ 23 ∧ (a.hdrOf a.cur.core).arglen = 8 := by
  unfold State.mayIssue; decide +kernel

/-- Die 0 and its stack in service, and address space 0 mapping page 0 to frame 4, which may be read and written
and is logged as dirty (Tables 6.7 and 6.8). -/
def mapped (s : State) : State :=
  let s := s.setDie 0 { Die.held with present := true, hbmOk := true, coreOk := 0xFFFF }
  let s := { s with regs := { s.regs with astb := 0x30000 } }
  let s := s.writeAt 0x30000 (leBytes 8 (2 * 8 + 1) ++ leBytes 8 0x20000 ++ leBytes 8 0x100000 ++ leBytes 4 10)
  s.writeAt 0x20000 (leBytes 8 0x1D ++ leBytes 8 4)

/-- Tensor 4 on page 0 of the address space and tensor 6 in the scratchpad: four INT8 elements each. -/
def pair (s : State) : State :=
  (tensor (tensor (mapped s) 4 (desc 3 1 4 1 4 0)) 6 (desc 0 1 4 1 4 0x200)).writeAt 0x40000 [9, 8, 7, 6]

/-- Whether bytes have been gathered. -/
def Gathered (x : Gather) : Bool := match x with | .bytes _ => true | _ => false

/-- A copy with its source mapped, one from an invalid tensor, and one behind a MARK. -/
theorem test_meets_LoadCopies :
    let s := pair (spot .lce)
    let i := Instr.cpi (hd 2) 6 0 0 4 none
    let x := cmd i
    let a : LceArgs := { op := .cpi, td := 6, ts := 4, ti := 0, flg := 0, exp := 0, ext := none }
    let u := lceSlot s x
    let w := lceSlot s { x with sidx := 1, mark := 1 }
    (s.mayIssue (hd 2) ∧ s.cur.fw = false ∧ s.me.slotFree 1 = true ∧ s.myStream.form = [] ∧ s.me.lceS.slots = [])
    ∧ (u.cmd? 0 1 0 = some x ∧ lceArgs x.instr = some a ∧ x.phase = .running ∧ x.next = 0 ∧ (x.image? 16).isNone
      ∧ (x.image? 17).isNone ∧ u.cmdWaits 0 1 x = false ∧ u.lceStatus 0 x a = 0 ∧ (u.core 0).cut = none
      ∧ u.unaudited 0 ∧ (u.core 0).lcePrelude x a = none ∧ x.indices = [] ∧ (u.core 0).lcePieces x a ≠ []
      ∧ u.lceSegment 0 x a = (u.core 0).lcePieces x a
      ∧ u.lceBehind 0 x (((u.core 0).lcePieces x a).flatMap (u.lceTouch 0 x a)) = false
      ∧ Gathered (u.gather 0 x ((u.core 0).lceReads x a ((u.core 0).lcePieces x a))).1 = true)
    ∧ (lceSlot (spot .lce) x).lceStatus 0 x a ≠ 0
    ∧ (lceSlot s x).cmdWaits 0 1 { x with sidx := 1, mark := 1 } = true ∧ w.cmdWaits 0 1 { x with sidx := 1, mark := 1 } = false := by
  unfold State.mayIssue State.unaudited; decide +kernel

/-- A packet among those injected here, at its home. -/
def inject (s : State) (k : Packet) : State :=
  { s with fabric := { s.fabric with route := [{ pkt := k, at' := 0, pool := none }] } }

/-- A packet of a type for module `dst`, with no payload. -/
def pkt (type dst : Nat) : Packet :=
  { type := type, urg := false, sid := false, det := false, npay := 0, hops := 0, src := 2, dst := dst, via := dst, score := 0, asid := 0
    va := 0, task := 0, tag := 1, colmask := 0, group := 0, aop := 0, rel := false, lenm1 := 0, opa := 0, opb := 0, status := 0
    aux := 0, payload := [] }

/-- PREF of a mapped and an invalid tensor; LSTAT with a good and a bad tensor; a counter at and below its
target; an answer with a status and one with bytes, for a command and for a line, one that nothing awaits, and one that
has not arrived. -/
theorem test_meets_LoadCopyStatus :
    let s := pair (spot .lce)
    let l := tensor s 5 (desc 0 5 4 1 4 0x100)
    let a := s.access 4 0 none
    let good (u : State) (t : Nat) : Prop :=
      let d := u.me.desc t
      d.v = true ∧ d.fmt = fmtInt64 ∧ d.layout = 0 ∧ d.space = 0 ∧ d.qwin = false ∧ bit d.wr 1 = true
        ∧ u.checkBounds 0 { d := d, slot := 0, origin := (u.coord 0).origin, ext := [4, 1, 1, 1] } = .ok
    let x := cmd (.cpi (hd 2) 6 0 0 4 none)
    let f : LceArgs := { op := .cpi, td := 6, ts := 4, ti := 0, flg := 0, exp := 0, ext := none }
    let r (fill : Option Nat) : ReadWait := { tag := 9, sidx := 0, va := 0, len := 4, fill := fill, tick := 0 }
    let u (fill : Option Nat) := (lceSlot s x).onMe fun c => { c with lceS := { c.lceS with reads := [r fill] } }
    let k (st : Nat) : Packet := { pkt 0x03 0 with tag := 9, status := st }
    let stray := { k 0 with tag := 8 }
    (s.mayIssue (hd 2) ∧ s.checkAccess 0 1 4 false a = .ok ∧ a.d.translated = true ∧ a.empty = false
      ∧ (a.bytesAt.map (· / 2 ^ 16)).eraseDups = [0] ∧ s.checkAccess 0 1 7 false (s.access 7 0 none) ≠ .ok)
    ∧ (l.mayIssue (hd 1) ∧ l.quiet = true ∧ good l 5 ∧ ¬ good l 6)
    ∧ (s.me.lceS.counter s.gtc 15 - BitVec.ofNat 64 0 = 0 ∧ (s.me.lceS.counter s.gtc 15 - BitVec.ofNat 64 1).toInt < 0
      ∧ s.capturing 0 = false)
    ∧ (∀ st ∈ [0, 2], ∀ fill ∈ [none, some 5],
      let v := inject (u fill) (k st)
      v.arrived (k st) = true ∧ ((v.core (k st).score).lceS.reads.find? fun r => r.tag == (k st).tag && v.inTime r.tick) = some (r fill)
        ∧ v.cmd? 0 1 0 = some x ∧ lceArgs x.instr = some f ∧ v.unaudited 0)
    ∧ ((inject (u none) stray).arrived stray = true
      ∧ (((inject (u none) stray).core 0).lceS.reads.find? fun r => r.tag == stray.tag && (inject (u none) stray).inTime r.tick) = none)
    ∧ (u none).arrived (k 0) = false := by
  unfold State.mayIssue State.unaudited; decide +kernel

/-- A copy out whose destination is mapped; a fabric copy to page 0 of a peer, one packet in all; an atomic on a word of
page 0; and a signal. -/
theorem test_meets_StoreCopies :
    let s := pair (spot .sce)
    let i := Instr.cpo (hd 2) 4 0 0 6 false none
    let x := cmd i
    let a : SceArgs := { op := .cpo, td := 4, ts := 6, t3 := 0, ackw := false, opt := false, num := 0, ext := none }
    let u := sceSlot s x
    let all := (u.core 0).scePieces a x
    let peer := tensor u 8 (desc 5 1 4 1 4 0)
    let px := cmd (.cpf (hd 2) 8 0 0 6 false none)
    let pa := { a with op := .cpf, td := 8 }
    let word := tensor (tensor s 10 (desc 3 5 1 1 1 0)) 9 (desc 0 5 1 1 1 0x300)
    let fx := cmd (.fat (hd 2) 10 0 0 9 false 0 0 0)
    let fa : SceArgs := { op := .fat, td := 10, ts := 9, t3 := 0, ackw := false, opt := false, num := 0, ext := none }
    let gx := cmd (.fsig (hd 2) 0 9 false false 1)
    let ga : SceArgs := { op := .fsig, td := 0, ts := 9, t3 := 0, ackw := false, opt := false, num := 1, ext := none }
    let sends (v : State) (k : Packet) : Bool := !(v.core 0).lineHeld k.dst k.va k.phys && decide ((v.core 0).sceS.ack.length < 256)
      && !(v.core 0).tagHeld (pktTag 0 0) && !v.capturing 0
    (s.mayIssue (hd 2) ∧ s.me.slotFree 4 = true ∧ s.myStream.form = [] ∧ (s.shadowOf 0).isSome = false ∧ s.me.sceS.slots = [])
    ∧ (u.cmd? 0 4 0 = some x ∧ sceArgs x.instr = some a ∧ x.phase = .running ∧ x.pend = [] ∧ x.got = [] ∧ x.agg = Mcast.empty
      ∧ u.cmdWaits 0 4 x = false ∧ (u.core 0).cut = none ∧ u.sceStatus 0 x a = 0 ∧ (u.core 0).unsettled 0 = false
      ∧ (u.outPages 0 [0, 1, 2, 3]).1 = .all [(0, { mode := 0, peer := 0, base := 0x40000, key := 0 })])
    ∧ (u.unaudited 0 ∧ (u.sceLearn 0 x a).2 = 0 ∧ all ≠ [] ∧ nextSegment (u.sceTouch 0 x a) all = all
      ∧ u.sceBehind 0 x (all.flatMap (u.sceTouch 0 x a)) = false
      ∧ u.anyBad (all.flatMap fun z => (z.src.map (u.elemAddrs 0 (u.me.desc 6))).getD []) = false
      ∧ ∀ b < 4, u.destOf (u.me.desc 4) [(0, { mode := 0, peer := 0, base := 0x40000, key := 0 })] b = .here (0x40000 + b) 0)
    ∧ (peer.sceStatus 0 px pa = 0 ∧ (peer.me.desc 8).space = 5
      ∧ (match segGroups pa 4 8 (peer.me.desc 8) (((peer.core 0).scePieces pa px).map fun z => (z, 0)) with
        | [m] => (match peer.storeBytes 0 0 (peer.me.desc 8) [] m with
          | ([r], w) => (match w.runsOut 0 px pa 0 [r] with
            | [z] => sends peer z.pkt
            | _ => false)
          | _ => false)
        | _ => false) = true)
    ∧ (word.sceStatus 0 fx fa = 0 ∧ word.accessBad 0 ((word.core 0).sceSource fa fx) = false ∧ word.sceBehind 0 fx (word.sceWords 0 fx fa) = false
      ∧ (match word.xlatePages 0 0 false [] [0] with
        | (.all _, u2) => (match u2.xlatePages 0 0 true [0] [0] with
          | (.all ts, u3) => (match u3.destOf (u3.me.desc 10) ts 0 with
            | .here at' key => decide (key = 0) && !u3.isBad at' 8
            | _ => false)
          | _ => false)
        | _ => false) = true)
    ∧ (word.sceStatus 0 gx ga = 0 ∧ word.accessBad 0 ((word.core 0).sceSource ga gx) = false ∧ word.sceBehind 0 gx (word.sceWords 0 gx ga) = false
      ∧ bits ((word.elems 0 ((word.core 0).sceSource ga gx)).headD 0) 63 54 = 0 ∧ sends word (word.packetFrom 0 0x06 false 0 0 (pktTag 0 0) 0 false) = true)
    ∧ (sceSlot (spot .sce) x).sceStatus 0 x a ≠ 0 := by
  unfold State.mayIssue State.unaudited; decide +kernel

/-- SSTAT to a mapped and to a bad tensor; a line that is absent, clean and dirty; the last tick of a refresh
window and the first behind it. -/
theorem test_meets_StoreStatus :
    let s := tensor (mapped (spot .sce)) 4 (desc 3 5 4 1 4 0)
    let line (v : Nat) := s.setDie 0 { s.die 0 with cache := [(5, v)] }
    (s.mayIssue (hd 1) ∧ (s.shadowOf 0).isSome = false ∧ s.quiet = true ∧ s.me.sceS.ack = [] ∧ s.statPaused 0 = false
      ∧ (s.me.desc 4).v = true ∧ (s.me.desc 4).fmt = fmtInt64 ∧ outSpace (s.me.desc 4).space = true ∧ bit (s.me.desc 4).wr 4 = true
      ∧ s.checkBounds 0 { d := s.me.desc 4, slot := 0, origin := (s.coord 0).origin, ext := [4, 1, 1, 1] } = .ok
      ∧ (s.outPages 0 (List.range 32)).1 = .all [(0, { mode := 0, peer := 0, base := 0x40000, key := 0 })])
    ∧ (s.me.desc 6).v = false
    ∧ (s.line 0 5 = 0 ∧ (line 1).line 0 5 ≠ 0 ∧ lineDirty ((line 1).line 0 5) = 0 ∧ lineDirty ((line (2 ^ 256 + 1)).line 0 5) ≠ 0)
    ∧ ({ s with gtc := 256 * 3 + 63 } : State).gtc % 256 < 64 ∧ 64 ≤ ({ s with gtc := 256 * 3 + 64 } : State).gtc % 256 := by
  unfold State.mayIssue; decide +kernel

/-- One packet of a completed command: awaiting an ACK, an ATR, and an MCA; at and before D_FAB; a read that has
waited as long; and a CPF with ACKW that waits for its last packet. -/
theorem test_meets_StoreAnswers :
    let s := spot .sce
    let ack (a : AckEntry) := s.onMe fun c => { c with sceS := { c.sceS with ack := [a] } }
    let k (f : Packet → Packet) : Packet := f { pkt 0x12 0 with tag := 7, src := 1 }
    let found (a : AckEntry) (f : Packet → Packet) (ok : AckEntry → Bool) : Prop :=
      let v := inject (ack a) (k f)
      v.arrived (k f) = true ∧ (k f).score = 0 ∧ ((v.core 0).sceS.ack.find? fun e => e.tag == (k f).tag && ok e && v.inTime e.tick) = some a
        ∧ v.cmd? 0 4 a.sidx = none
    let late : State := { ack ack0 with gtc := 100847808 }
    let r : ReadWait := { tag := 9, sidx := 0, va := 0, len := 4, fill := none, tick := 0 }
    let rd : State := { (lceSlot s (cmd (.cpi (hd 2) 6 0 0 4 none))).onMe fun c => { c with lceS := { c.lceS with reads := [r] } }
      with gtc := 100847808 }
    let p := pair s
    let x := { cmd (.cpf (hd 2) 4 0 0 6 true none) with next := 4, pkts := 1 }
    let f : SceArgs := { op := .cpf, td := 4, ts := 6, t3 := 0, ackw := true, opt := false, num := 0, ext := none }
    let w := (sceSlot p x).onMe fun c => { c with sceS := { c.sceS with ack := [ack0] } }
    (0 % 32 < 30 ∧ ((ack ack0).core 0).sceS.slots = []
      ∧ found ack0 id (fun e => !e.atm && e.mask == 0 && (k id).opb == 0) ∧ found { ack0 with atm := true } id (fun e => e.atm)
      ∧ found { ack0 with mask := 1 } id (fun e => e.mask != 0 && e.dst == (k id).src)
      ∧ (ack ack0).arrived (k id) = false ∧ (ack ack0).fabric.relays = [])
    ∧ ((late.core 0).sceS.ack.find? fun e => e.tag == 7 && !late.inTime e.tick) = some ack0
    ∧ late.fabric.relays = []
    ∧ ((rd.core 0).sceS.ack = [] ∧ ((rd.core 0).lceS.reads.find? fun r => r.tag == 9 && !rd.inTime r.tick) = some r
      ∧ (rd.cmd? 0 1 0).any (fun x => (lceArgs x.instr).isSome) = true ∧ rd.unaudited 0 ∧ rd.fabric.relays = [])
    ∧ ((inject w (k id)).arrived (k id) = true ∧ (k id).opb = 0 ∧ w.inTime 0 = true ∧ w.unaudited 0 ∧ f.ackw = true ∧ x.status = 0 ∧ x.next ≠ 0
      ∧ (w.core 0).sceS.ack = [ack0] ∧ (w.core 0).sceS.slots = [x] ∧ x.phase = .running ∧ x.mark ≤ x.sidx
      ∧ sceArgs x.instr = some f ∧ x.pend = [] ∧ x.next = ((w.core 0).scePieces f x).length) := by
  unfold State.unaudited; decide +kernel

/-- A block of INT8 elements, and a slot that holds it. -/
def block (rows k : Nat) (es : List Nat) : Block :=
  { fmt := fmtInt8, blk := 0, rows := rows, k := k, elems := es, scales := [], start := 0, digest := 0 }
def slotOf (b : Block) : WSlot := { block := b, ts := 0, origin := Coord.zero, e0 := b.k, e1 := b.rows, cel := false }

/-- The matrix engine with an entry of two rows in queue 0 and slots 0 and 3 of one column, K = 2. -/
def matrix : State :=
  (spot .mxe).onMe fun c => { c with mxeS := { c.mxeS with
    bufs := [(0, some (block 2 2 [3, 0xFC, 1, 0]))], wr := [(0, 1)]
    slots := [(0, some (slotOf (block 1 2 [5, 6]))), (3, some (slotOf (block 1 2 [1, 1])))] } }

theorem test_meets_MatrixProducts :
    let s := tensor (tensor matrix 4 (desc 0 1 2 2 2 0x200)) 5 (desc 0 5 2 1 2 0x100)
    let m := s.me.mxeS
    let a := s.blockAccess 4 0 none
    let one := s.onMe fun c => { c with coords := c.coords.set Coord.zero 32 { x := 1, y := 2, z := 0, w := 0 } }
    (s.mayIssue (hd 2) ∧ s.bad = [] ∧ s.ahead.accessBad 0 a = false ∧ s.myStream.form = [] ∧ s.checkAccess 0 2 4 false a = .ok ∧ s.me.blockOk a false = true
      ∧ m.wr.get 0 0 - m.rd.get 0 0 < 2 ∧ s.accessBad 0 a = false ∧ m.ready s.gtc 0 [] [1] = true ∧ m.ready s.gtc 1 [] [11] = true
      ∧ s.me.blockOk a true = true)
    ∧ (7 < (s.hdrOf 0).acct ∧ m.rd.get 0 0 < m.wr.get 0 0 ∧ (m.bufs.get none 0).map (·.rows) = some 2
      ∧ (m.slots.get none 3).isSome = true ∧ pairing fmtInt8 fmtInt8 = some 8
      ∧ m.ready s.gtc 2 ([0, 11] ++ rowRes 7 0 2) (rowRes 7 0 2) = true)
    ∧ ((s.coord 0).int 0 = 0 ∧ m.ready s.gtc 2 (0 :: rowRes 7 0 (min 0 2)) (rowRes 7 0 (min 0 2)) = true)
    ∧ ((one.coord 0).int 0 = 1 ∧ (one.coord 0).int 1 = 2 ∧ one.mayIssue (hd 1) ∧ (m.slots.get none 0).map (·.block.rows) = some 1
      ∧ (m.slots.get none 0).map (·.block.k) = some 2 ∧ m.ready s.gtc 2 ([0, 8] ++ rowRes 7 0 (min 1 2)) (rowRes 7 0 (min 1 2)) = true)
    ∧ (m.flight = [] ∧ s.me.checkRights 2 5 true = .ok ∧ (s.me.desc 5).fmt = fmtInt64 ∧ (s.me.desc 5).space = 0 ∧ s.me.slotOf 2 5 = 0
      ∧ s.checkBounds 0 { d := s.me.desc 5, slot := 0, origin := (s.coord 0).origin, ext := [2, 1, 1, 1] } = .ok) := by
  unfold State.mayIssue; decide +kernel

/-- All rows, a range of the last row and none, tiles inside and at the allocation, and a target of each kind. -/
theorem test_meets_AccumulatorRows :
    let s := tensor (tensor (tensor (spot .mxe) 4 (desc 0 1 2 1 2 0x200)) 5 (desc 0 5 129 1 129 0x100)) 6 (desc 0 4 2 2 2 0x1000)
    let at' (x y : BitVec 24) := s.onMe fun c => { c with coords := c.coords.set Coord.zero 32 { x := x, y := y, z := 0, w := 0 } }
    let r : Rows := { all := false, cr := 0 }
    let m := s.me.mxeS
    (s.mayIssue (hd 2) ∧ s.mayIssue (hd 1) ∧ (s.hdrOf 0).acct = 8 ∧ s.rowRange { all := true, cr := 0 } = some (0, 128)
      ∧ (at' 127 1).rowRange r = some (127, 1) ∧ (at' 128 0).rowRange r = some (128, 0) ∧ (at' 128 1).rowRange r = none
      ∧ (at' 127 1).mayIssue (hd 2) ∧ s.bad = [] ∧ s.me.slotOf 2 4 = 0 ∧ s.me.slotOf 2 5 = 0 ∧ s.me.slotOf 2 6 = 0
      ∧ m.ready s.gtc 3 (rowRes 7 0 128) (rowRes 7 0 128) = true)
    ∧ (s.me.checkRights 2 4 true = .ok ∧ retireTarget (s.me.desc 4) = true ∧ (s.me.desc 6).fmt = fmtInt32
      ∧ (at' 127 1).checkBounds 0 { d := s.me.desc 4, slot := 0, origin := (s.coord 0).origin, ext := [2, 1, 1, 1] } = .ok
      ∧ s.checkAccess 0 2 6 false { d := s.me.desc 6, slot := 0, origin := (s.coord 0).origin, ext := [2, 2, 1, 1] } = .ok)
    ∧ (s.me.checkRights 2 5 true = .ok ∧ (s.me.desc 5).fmt = fmtInt64 ∧ (s.me.desc 5).layout = 0
      ∧ s.checkBounds 0 { d := s.me.desc 5, slot := 0, origin := (s.coord 0).origin, ext := [129, 1, 1, 1] } = .ok
      ∧ s.checkBounds 0 { d := s.me.desc 5, slot := 0, origin := (s.coord 0).origin, ext := [2, 1, 1, 1] } = .ok
      ∧ sext 64 ((s.elems 0 { d := s.me.desc 5, slot := 0, origin := [0, 0, 0, 0], ext := [129, 1, 1, 1] }).getD 128 0) = 0) := by
  unfold State.mayIssue; decide +kernel

/-- An instruction in progress a tick before it is due and when it is, with and without a trap. -/
theorem test_meets_MatrixCompletion :
    let o : MxeOp := { unit := 3, sidx := 0, free := 1000, due := 1000, reads := [], writes := [], effect := [], mxst := 1, trap := true
                       uncorr := false, foff := 0, yield := false, sums := false, record := none, images := [] }
    let at' (t : Nat) : State := { (spot .mxe).onMe fun c => { c with mxeS := { c.mxeS with flight := [o] } } with gtc := t }
    let bad : State := { (spot .mxe).onMe fun c => { c with mxeS := { c.mxeS with flight := [{ o with trap := false, uncorr := true }] } } with gtc := 1000 }
    (at' 999).me.mxeS.flight = [o] ∧ (at' 999).gtc < o.due ∧ o.due ≤ (at' 1000).gtc ∧ o.uncorr = false
    ∧ (∀ u ∈ [at' 999, at' 1000, bad], u.me.fault = none ∧ u.me.halted = false ∧ u.me.task.isSome = true ∧ u.unaudited 0)
    ∧ bad.me.mxeS.flight.map (fun o => (o.due, o.uncorr, o.effect)) = [(1000, true, [])] := by
  unfold State.unaudited; decide +kernel

theorem test_meets_VectorIntegers :
    let s := spot .vxe
    let wait := (header s fun h => { h with check := true }).onMe fun c =>
      { c with vxeS := { c.vxeS with pend := [{ due := 2000, mask := false, reg := 5, value := 0 }] } }
    s.mayIssue (hd 1) ∧ s.mayIssue (hd 2) ∧ s.mayIssue (hd 3) ∧ s.vreadable [31] [31, 0, 1] [0, 7] ∧ s.vreadable [] [] [7]
    ∧ wait.vreadable [5] [4] [0] ∧ ¬ wait.vreadable [4] [5] [0] ∧ 0 ≤ (s.coord 0).int 0 := by
  unfold State.mayIssue State.vreadable; decide +kernel

/-- The scale codes 254 and 255 (R330), and a least element of mask bits all set. -/
theorem test_meets_VectorFloats :
    let s := spot .vxe
    let q (v : BitVec 4096) := s.onMe fun c => { c with vxeS := { c.vxeS with v := [(3, v)] } }
    s.mayIssue (hd 1) ∧ s.mayIssue (hd 2) ∧ s.vreadable [1] [2, 3] [0] ∧ (q 254).mayIssue (hd 2)
    ∧ (∀ b < 4, vget ((q 254).vreg 3) 32 b % 256 ≠ 255) ∧ (q 255).mayIssue (hd 2) ∧ vget ((q 255).vreg 3) 32 0 % 256 = 255
    ∧ (s.vxe.mask 0).getLsbD 0 = true ∧ vget (s.vreg 2) 32 0 = 0 ∧ vget (s.vreg 2) 32 127 = 0 := by
  unfold State.mayIssue State.vreadable; decide +kernel

/-- A tensor of 4 INT32 elements, a table of two entries, a spill bank and none, an early tile, a VLOOP over a
NOP of one word, and 31 and 32 for VXCTL. -/
theorem test_meets_VectorMemory :
    let s := tensor (tensor (spot .vxe) 4 (desc 0 4 4 1 4 0x200)) 5 (desc 0 5 2 1 2 0x100 - BitVec.ofNat 512 (2 ^ 55))
    let m : VMem := { tid := 4, cr := 0, soff := 0, msk := 0, z := false, pk := false }
    let a := s.vaccess m none
    let d := s.me.desc 5
    let bank := header s fun h => { h with spillbank := true }
    let early (check : Bool) := (header s fun h => { h with check := check }).onMe fun c =>
      { c with mxeS := { c.mxeS with writer := [(7, 1)] } }
    let ctl (v : BitVec 4096) := s.onMe fun c => { c with vxeS := { c.vxeS with v := [(2, v)] } }
    (s.mayIssue (hd 2) ∧ s.vreadable [1] [1] [0] ∧ s.checkAccess 0 3 4 false a = .ok ∧ s.checkAccess 0 3 4 true a = .ok
      ∧ vmode a.d.fmt 32 false false = some .same ∧ vdescOk a.d 0 false = true ∧ vdescOk a.d 0 true = true ∧ a.count = 4
      ∧ s.accessBad 0 a = false ∧ s.myStream.form = [])
    ∧ ((s.vxCheck m 32 a false [(0, laneAccess a 0), (1, laneAccess a 3)]).isLeft = true
      ∧ (s.vxCheck m 32 a false [(0, laneAccess a 4)]).isLeft = false)
    ∧ (hashTable d = true ∧ s.checkAccess 0 3 5 false { d := d, slot := 0, origin := [0, 0, 0, 0], ext := d.tile } = .ok)
    ∧ (s.tileEarly (hd 2) 7 = false ∧ (early true).tileEarly (hd 2) 7 = true ∧ (early true).mayIssue (hd 2) ∧ (early false).mayIssue (hd 2)
      ∧ (s.coord 0).int 1 = 0 ∧ 7 < (s.hdrOf 0).acct)
    ∧ (bank.mayIssue (hd 1) ∧ (bank.hdrOf 0).spillbank = true ∧ (s.hdrOf 0).spillbank = false)
    ∧ (s.vloopLegal 0 32 2 3 = true ∧ s.vloopLegal 1 32 2 3 = false ∧ 0 + 31 + 1 ≤ (s.hdrOf 0).valloc)
    ∧ ((ctl 31).mayIssue (hd 2) ∧ vget ((ctl 31).vreg 2) 64 0 < 32 ∧ (ctl 32).mayIssue (hd 2) ∧ 32 ≤ vget ((ctl 32).vreg 2) 64 0) := by
  unfold State.mayIssue State.vreadable; decide +kernel

theorem test_meets_EngineFaultEntry :
    let s := spot .scu
    let c := s.core 0
    let r (t : Nat) : Faulting := { eng := 0, cause := 4, ecode := 0, tcode := 0, foff := 0, tick := t }
    let u (t : Nat) := s.onMe fun c => { c with halted := true, fault := some (r t) }
    (∀ t ∈ [999, 1000], (u t).me.fault = some (r t) ∧ (∀ e < 5, ((u t).me.userStream e).form = [] ∧ ((u t).me.userStream e).gives = [])
      ∧ (u t).unaudited 0 ∧ (u t).me.stores = [] ∧ (u t).me.vxeS.traps = [] ∧ (u t).me.mxeS.flight = [] ∧ (u t).me.user.pend = []
      ∧ (u t).me.vxeS.pend = [] ∧ (∀ k < 10, (u t).me.count k < 64)) ∧
    (c.halted = false ∧ c.task.isSome = true ∧ s.gtc < 2 ^ 64 ∧ (∀ k < 10, c.count k < 64)
      ∧ (∀ k < 5, (c.userStream k).loops.length ≤ 4 ∧ (c.userStream k).nextPc < 2 ^ 32) ∧ c.fwq.length < 16)
    ∧ (s.core 1).task = none ∧ ((s.onMe fun c => { c with halted := true }).core 0).halted = true := by
  unfold State.unaudited; decide +kernel

/-- A frame with ACT 0 and one with ACT 1; the streams of the other engines have ended. -/
theorem test_meets_FaultReturn :
    let s := fwSpot.onMe fun c => { c with halted := true }
    let act := s.writeAt (fwBase 0 + 0xF004) [1]
    (s.mayIssue (hd 1) ∧ s.cur.eng = .scu ∧ s.cur.fw = true ∧ s.me.halted = true ∧ s.me.fault = none ∧ act.me.fault = none ∧ bit (s.num (fwBase 0 + 0xF004) 4) 0 = false
      ∧ (s.me.userStream 0).ended = false ∧ (s.me.userStream 1).ended = true)
    ∧ (act.mayIssue (hd 1) ∧ act.me.halted = true ∧ bit (act.num (fwBase 0 + 0xF004) 4) 0 = true ∧ act.me.task = some 0
      ∧ (act.task? 0).map (·.cutReq) = some none) := by
  unfold State.mayIssue; decide +kernel

theorem test_meets_FirmwareContext :
    let ev : FwEvent := { kind := 2, s1 := 0, s2 := 0, s3 := 0 }
    let s := (spot .scu).onMe fun c => { c with fwq := [ev] }
    (s.me.task = some 0 ∧ (s.task? 0).map (·.cutReq) = some none) ∧ (s.core 1).task = none
    ∧ (fwSpot.mayIssue (hd 1) ∧ fwSpot.cur.eng = .scu ∧ fwSpot.cur.fw = true)
    ∧ (s.me.fwBusy = false ∧ s.me.fwDead = false ∧ s.me.fwq = [ev]) ∧ fwSpot.me.fwBusy = true := by
  unfold State.mayIssue; decide +kernel

/-! ## Cores and tasks -/

/-- A give of one token forward, in a stream of the engine of the step. -/
def give (s : State) (due : GiveDue) : State :=
  stream s fun t => { t with gives := [{ sidx := 0, gp := 0, gn := 1, due := due, clk := Clock.zero }] }

/-- A yield request sent for a tick; a common cut at a tick. -/
def asked (ty : Nat) : CutReq :=
  { at? := none, kind := 4, ends := false, detail := 0, fwFault := false, stops := [], saves := [], yield := true, ty := ty }
def cutAt (a : Nat) (ends : Bool) : CutReq := { asked 0 with at? := some a, kind := 1, ends := ends, yield := false }

/-- Task 0 runs on cores 0 and 1. -/
def two (s : State) : State :=
  (task s fun x => { x with cores := [0, 1], n := 2 }).setCore 1 { Core.idle with task := some 0, vcore := 1 }

/-- A token due now and one due later; results of each kind that are due; a releasing store that may be performed and
one that may not; a trap that is due; a give that is due with and without room for it. -/
theorem test_meets_CoreSteps :
    let s := spot .scu
    let c := s.me
    let land : Landing := { due := 1000, slot := 3, named := some 4, seq := 1, value := 7 }
    let r := s.onMe fun c => { c with
      user := { c.user with pend := [land, { land with due := 1001 }] }
      vxeS := { c.vxeS with pend := [{ due := 1000, mask := true, reg := 2, value := 1 }] } }
    let trap := s.onMe fun c => { c with vxeS := { c.vxeS with traps := [{ due := 1000, foff := 2 ^ 24 - 1 }] } }
    let g := give s (.tick 1000)
    let full := g.onMe fun c => { c with iq := c.iq.set [] (c.fwdOut 0).1 (List.replicate 63 Clock.zero) }
    (∀ q < 10, c.count q ≤ 63)
    ∧ (s.unaudited 0 ∧ (∀ e < 5, (r.me.userStream e).form = [] ∧ (r.me.userStream e).gives = []) ∧ r.me.vxeS.traps = []
      ∧ ((r.me.ctx false).pend.filter fun l => decide (l.due ≤ r.gtc)) = [land]
      ∧ (r.me.vxeS.pend.filter fun l => decide (l.due ≤ r.gtc)).length = 1)
    ∧ ((trap.me.vxeS.traps.filter fun x => decide (x.due ≤ trap.gtc)) = [{ due := 1000, foff := 2 ^ 24 - 1 }]
      ∧ trap.me.task.isSome = true ∧ trap.me.halted = false ∧ trap.me.stores = [] ∧ trap.unaudited 0
      ∧ ∀ e < 5, (trap.me.userStream e).form = [] ∧ (trap.me.userStream e).gives = [])
    ∧ (r.me.fault = none ∧ r.me.stores = [])
    ∧ (∀ u ∈ [storing s Clock.zero, storing (unacked s) covers0], u.me.stores.length = 1 ∧ u.unaudited 0 ∧ u.me.vxeS.traps = []
      ∧ u.me.fault = none ∧ ∀ e < 5, (u.me.userStream e).form = [] ∧ (u.me.userStream e).gives = [])
    ∧ (storing s Clock.zero).storeReady 0 = true ∧ (storing (unacked s) covers0).storeReady 0 = false
    ∧ (∀ u ∈ [g, full], u.unaudited 0 ∧ u.me.fault = none ∧ (∀ k < 5, (u.me.userStream k).form = [] ∧ (k ≠ 0 → (u.me.userStream k).gives = []))
      ∧ (u.me.userStream 0).gives.any (u.me.giveDue 0 (u.me.userStream 0) · u.gtc) = true)
    ∧ (g.me.userStream 0).gives.any (g.me.giveRoom 0) = true ∧ (full.me.userStream 0).gives.any (full.me.giveRoom 0) = false := by
  unfold State.unaudited; decide +kernel

/-- A yield request; a core that has taken a yield point, and a task at its forced tick, while core 1 still runs; a
slice that runs out on this tick and one that runs out on the next. -/
theorem test_meets_CoreStepsOfTask :
    let u (ty sl : Nat) := task (two (spot .mxe)) fun x => { x with cutReq := some (asked ty), slice := sl, started := 900 }
    let y := (u 1000 100).onMe fun c => { c with cutAt := some 1000, cutBy := 4 }
    (y.me.task = some 0 ∧ y.me.cut = none ∧ (y.core 1).cut = none ∧ ((y.task? 0).map (·.cores)) = some [0, 1]
      ∧ (∀ p ∈ [0, 1], (y.core p).sceS.dirt = []))
    ∧ (∀ d ∈ [0, 1], ((u (1000 + d) 100).task? 0).map (fun x => x.cutReq.map fun r => (r.yield, r.ty)) = some (some (true, 1000 + d)))
    ∧ (∀ d ∈ [0, 1], ((u 0 (100 + d)).task? 0).map (fun x => (x.phase, x.started + x.slice)) = some (.running, 1000 + d)
      ∧ (∀ e ∈ (u 0 (100 + d)).tasks, ∀ x ∈ e.2, x.waitsCores = false))
    ∧ (∀ d ∈ [0, 1], (((header (u (700 + d) 0) fun h => { h with maxred := 300 }).task? 0).bind Task.forcedTick) = some (1000 + d)) := by
  decide +kernel

/-- A second task, in a phase, beside the one that runs. -/
def other (s : State) (f : Task → Task) : State := s.setTask 5 ((s.task? 0).map fun x => f { x with cores := [], order := 1 })

/-- A root log of 1024 records at 0x50000 (Table 13.5). -/
def logged (s : State) : State := { s with regs := { s.regs with rlb := 0x50000, rln := 10, sgb := 0x60000, sgn := 4 } }

/-- Tasks that wait, with and without an earlier one of the same regions; one that has waited 2^20 ticks and one that
has a tick to go; and one about to be placed on two cores. -/
theorem test_meets_TaskWaits :
    let r : Region := { start := 0, len := 1, w := true, cel := true }
    let s := mapped (spot .scu)
    let w (rs : List Region) := other (task s fun x => { x with phase := .held, regions := [r] }) fun x => { x with phase := .waiting, regions := rs }
    let old (t : Nat) : State := { other s fun x => { x with phase := .ready 0 (some 0), n := 17, readyAt := 0 } with gtc := t }
    let ok (u : State) (f : State → Task → Bool) : Bool := (u.task? 5).any (f u)
    ok (w []) (fun u x => u.readyNow x) = true ∧ ok (w [r]) (fun u x => !u.readyNow x) = true
    ∧ (∀ u ∈ [w [], w [r]], ok u (fun _ x => decide (x.phase = .waiting ∧ x.kind = .kernel) && x.cutReq.isNone && x.cores.isEmpty) = true
      ∧ (∀ e ∈ u.tasks, ∀ x ∈ e.2, x.phase ≠ .running))
    ∧ (∀ t ∈ [2 ^ 20 - 1, 2 ^ 20], ok (old t) (fun u x => x.waitsCores && (u.placeFor x).isNone) = true)
    ∧ ok (other s fun x => { x with phase := .ready 0 (some 0), cores := [1, 2], n := 2 }) (fun u x =>
        decide x.cores.Nodup && x.restore.isNone && (u.queue x.queue).entry.slice == 0) = true := by
  decide +kernel

/-- Cuts of a running task with an instruction in flight, of a held one and of one that was never placed, on the tick
and a tick early; and tasks whose cores have and have not finished. -/
theorem test_meets_TaskCuts :
    let o : MxeOp := { unit := 3, sidx := 0, free := 2000, due := 2000, reads := [], writes := [], effect := [], mxst := 0, trap := false
                       uncorr := false, foff := 0, yield := false, sums := false, record := none, images := [] }
    let run (a : Nat) (e : Bool) := task (spot .mxe) fun x => { x with cutReq := some (cutAt a e) }
    let busy := (run 1000 false).onMe fun c => { c with mxeS := { c.mxeS with flight := [o] } }
    let held := logged (task (run 1000 true) fun x => { x with phase := .held })
    let wait := task (run 1000 false) fun x => { x with phase := .waiting, cores := [] }
    let gone := (logged (spot .scu)).onMe fun c => { c with scu := { c.scu with ended := true } }
    (∀ a ∈ [1000, 1001], ((run a true).task? 0).any (fun x => x.cutReq.any fun r => r.at? == some a && r.ends) = true)
    ∧ ((busy.core 0).mxeS.flight ≠ [] ∧ (busy.core 0).sceS.dirt = [] ∧ (busy.task? 0).map (·.phase) = some .running)
    ∧ ((held.task? 0).map (fun x => (x.phase, x.audit?, x.audWait)) = some (.held, none, []) ∧ held.logFull = false
      ∧ held.taster.captures = [])
    ∧ (wait.task? 0).map (fun x => (x.phase, x.cutReq.map (·.ends))) = some (.waiting, some false)
    ∧ (wait.task? 0).any (fun x => x.cutReq.any fun r => r.stops.isEmpty) = true
    ∧ ((gone.core 0).finished = true ∧ (gone.core 0).sceS.dirt = [] ∧ gone.logFull = false ∧ ((spot .scu).core 0).finished = false) := by
  decide +kernel

/-- A Cellar task whose range ends with the Cellar; a task that can start and one that cannot. -/
theorem test_meets_TaskStarts :
    let s := mapped (spot .scu)
    let load := other s fun x => { x with kind := .cellar { sp := false, addr := 0x40000 } (96 * 2 ^ 20 - 64) 1 64, phase := .waiting }
    let t (n : Nat) := other s fun x => { x with phase := .ready 0 (some 0), n := n }
    let first (u : State) := u.startOrder.find? fun e => u.turn e.2 && (u.placeFor e.2).isSome
    ((load.task? 5).any (fun x => load.readyNow x) = true ∧ load.isBad (load.fedAt { sp := false, addr := 0x40000 }) 64 = false
      ∧ (load.die 0).present = true)
    ∧ (first (t 15)).map (fun e => (e.1, (t 15).placeFor e.2)) = some (5, some [1, 2, 3, 4, 5, 6, 7, 8, 9, 10, 11, 12, 13, 14, 15])
    ∧ first (t 16) = none := by
  decide +kernel

/-! ## Packets -/

/-- A kernel of one NOP for the SCU, at 0x8000 of address space 0, that may speculate (Table 2.7). -/
def kernel (s : State) : State :=
  (mapped s).writeAt 0x48000 (leBytes 4 0x4B484D5A ++ leBytes 2 0x100 ++ leBytes 2 128 ++ leBytes 4 8 ++ leBytes 4 0
    ++ leBytes 4 128 ++ leBytes 4 1 ++ (List.replicate 4 (leBytes 4 128 ++ leBytes 4 0)).flatten ++ zeros 16
    ++ leBytes 4 128 ++ leBytes 4 132)

/-- The body of a LAUNCH of it as task `t` on one core (Table 15.7), and its packet. -/
def body (t : Nat) : List Nat := [0x108001, 0, 0x8000, 0, 1, 0, 0x048003, 0, t, 0, 0x088004, 0, 1, 0]
def launchOf1 (t : Nat) : PktHdr := pktHdr 0 false (predicted (body t))
def fields1 (t : Nat) : LaunchFields :=
  { kva := 0x8000, kid := 1, taskId := t, cores := 1, shape := 0, arg := [], regions := [], descs := [], podbar := none, audring := none }

/-- Queue 0 enabled, with its completion word at 0x10040 and its status records at 0x10080. -/
def queue0 (s : State) (f : Queue → Queue) : State :=
  s.setQueue 0 (f { Queue.empty with
    v := true, slotted := true
    entry := { QueueEntry.empty with priv := true, spec := true, slog := 3, cwa := ⟨false, 0x10040⟩, stb := ⟨false, 0x10080⟩ } })

/-! ## Speculations, links, fabric and time -/

/-- A prediction whose speculation may start, on queue 0: its kernel, its task and the cores it would take; and one
that a discard ends, for a reason that is due and for one that is not. -/
theorem test_meets_Speculations :
    let e : TtEntry := { kid := 7, last := [], layout := [], delta := [], next := some 1, conf := 2 }
    let π : Prediction := { after := 7, body := body 9 }
    let on (due : Bool) := queue0 (kernel (spot .scu)) fun x => { x with pred := some π, specDue := due, entries := [e] }
    let s := on true
    let x : Shadow := { queue := 0, task := specKey 0 9, body := [], frames := [], watch := [], parked := false, done := false
                        hit := true, isOver := false, audit := [] }
    let d : State := { on false with shadows := [(0, some x)] }
    ((s.queue 0).pred = some π ∧ s.mayStart 0 π = true ∧ (on false).mayStart 0 π = false
      ∧ (checkPacket (pktHdr 0 false (predicted π.body)) false).toOption.map launchOf = some (fields1 9)
      ∧ badField (fields1 9) = none ∧ s.freeShadow = some 0)
    ∧ ((match s.prepare 0 (fields1 9) [] with
        | (.ok k, u) => k.hdr.speculable && decide (u.placeFor (taskOf' 0 0 0 0 false none [] (fields1 9) k []) = some [1])
            && u.readyNow (taskOf' 0 0 0 0 false none [] (fields1 9) k [])
        | _ => false) = true)
    ∧ (s.specOf 0 = none ∧ d.specOf 0 = some (0, x) ∧ x.hit = true ∧ x.isOver ≠ true) := by
  decide +kernel

/-- A module with port 0 live, toward module 1, and the port changed. -/
def live (f : Port → Port) : State :=
  { State.reset with gtc := 2 ^ 20, fabric := { Fabric.zero with ports := [(0, f { Port.absent with st := 2 })] } }

/-- A frame with packets. -/
def frame (n : Nat) (fv : Bool) (ks : List Packet) : Frame :=
  { fctr := n, rcv := 0, freed := 0, srcv := 0, sfreed := 0, tgtc := 0, tph := 0, tv := false, fv := fv, tagOk := true, codeOk := true
    packets := ks }

/-- A port that may train, toward its peer and toward another module, and one that may not; frames early, in order and
repeated, with packets of each kind; a tag failure that is the eighth and one that is the seventh; ages and counters at
their limits and one below. -/
theorem test_meets_Links :
    let h : Held := { pkt := pkt 0x02 1, at' := 2 ^ 20 - 512, pool := none }
    let old : Held := { pkt := pkt 0x01 1, at' := 2 ^ 20 - 4096, pool := some 0 }
    let x : Port := { Port.absent with st := 2 }
    let up := State.reset.setDie (portDie 0) { Die.held with present := true }
    let fails (n : Nat) := live fun x => { x with failWin := 2 ^ 20 / 2 ^ 30, tagFails := n }
    (0 < 46 ∧ up.board.single = false ∧ (up.fabric.port 0).st < 2 ∧ (up.die (portDie 0)).present = true ∧ portPeer up.peerId 0 = 1
      ∧ (State.reset.die (portDie 0)).present = false)
    ∧ (∀ n ∈ [6, 7], ((fails n).fabric.port 0).st = 2 ∧ ((fails n).fabric.port 0).failWin = (fails n).gtc / 2 ^ 30
      ∧ ((fails n).fabric.port 0).tagFails = n ∧ ({ frame 0 false [] with tagOk := false }.tagOk && true) = false)
    ∧ ((live id).fabric.port 0 = x ∧ (frame 0 false [pkt 1 1]).fctr = x.rxFctr ∧ x.rxFctr < (frame 1 false []).fctr
      ∧ (frame 0 true []).fctr < ({ x with rxFctr := 1 } : Port).rxFctr ∧ x.queue = []
      ∧ (frame 0 false []).tv = false ∧ headerOk (pkt 0x0E 1) = false ∧ headerOk (pkt 0x02 1) = true ∧ headerOk (pkt 0x12 1) = true
      ∧ headerOk { pkt 0x02 1 with sid := true } = true)
    ∧ (∀ a ∈ [2 ^ 20 - 256, 2 ^ 20 - 255], let y := (live fun x => { x with reportAt := a }).fabric.port 0
      y.st = 2 ∧ y.queue = [] ∧ y.keyFrames + 1 < 2 ^ 40 ∧ y.switchAt = none ∧ y.reportAt = a)
    ∧ (∀ a ∈ [2 ^ 20 - 512, 2 ^ 20 - 511], let y := (live fun x => { x with queue := [h], bulkSince := a }).fabric.port 0
      y.promoted = false ∧ y.queue.any (fun h => pktClass h.pkt == 2) = true ∧ y.bulkSince = a)
    ∧ ((live fun x => { x with pool := [old], fired := false }).fabric.port 0).pool = [old]
    ∧ (∀ n ∈ [2 ^ 39 - 1, 2 ^ 39], ((live fun x => { x with keyFrames := n }).fabric.port 0).keyFrames = n)
    ∧ (∀ n ∈ [4096, 4097], let y := (live fun x => { x with txFctr := 4096, switchAt := some n }).fabric.port 0
      y.switchAt = some n ∧ y.txFctr = 4096 ∧ y.queue = [] ∧ y.report = none ∧ y.time = false) := by
  decide +kernel

/-- A packet with no way and one that port 0 sends, or holds for want of credit; stores and reads whose place is found,
refused, and that wait for the dirty log; an atomic; signals for a core of the task and one past it; an arrival of
one of two members. -/
theorem test_meets_FabricPackets :
    let h : Held := { pkt := pkt 0x02 1, at' := 0, pool := none }
    let one (n : Nat) := live fun x => { x with sent := n }
    let r (n : Nat) : State := { one n with fabric := { (one n).fabric with route := [h] } }
    let here (k : Packet) : State := inject (mapped (spot .scu)) k
    let cut : State := { State.reset with fabric := { Fabric.zero with route := [h] } }
    let w : Packet := { pkt 0x01 0 with va := 0x100, npay := 1, payload := [5], lenm1 := 7 }
    let low := { w with va := 0x20000 }
    let mc := { w with colmask := 1 }
    let am := { w with type := 0x04, npay := 0, payload := [], aop := 6 }
    let s := here w
    let full := (s.writeAt 0x3001C (leBytes 4 1024)).writeAt 0x20000 [0x0D]
    let sig (c : Nat) : Packet := { pkt 0x06 0 with va := c * 16 + 2, task := 9 }
    let b : Packet := { pkt 0x0A 0 with task := 3, opb := 1 }
    let u := let s := here b; s.setTask 0 ((s.task? 0).map fun x => { x with podbar := some { group := 3, members := 2, base := 0 } })
    let rel : Packet := { b with opb := 2 ^ 17 + 2 }
    let away := live fun x => { x with pool := [{ h with pkt := w }], siding := [{ h with pkt := pkt 0x02 0 }] }
    (cut.nextRouted = some h ∧ h.pool = none ∧ cut.choosePort h.pkt = none ∧ isRequest h.pkt = true)
    ∧ (∀ n ∈ [1023, 1024], (r n).nextRouted = some h ∧ (r n).choosePort h.pkt = some (0, h.pkt)
      ∧ ((r n).fabric.port 0).st = 2 ∧ ((r n).fabric.port 0).keyFrames + 1 < 2 ^ 40 ∧ ((r n).fabric.port 0).queue = []
      ∧ ((r n).fabric.port 0).switchAt = none
      ∧ ((r n).fabric.port 0).allows h.pkt = decide (n < 1024))
    ∧ (∀ k ∈ [w, low, mc, am, sig 0, sig 1, b, rel], (here k).arrived k = true) ∧ away.arrived w = false ∧ away.arrived (pkt 0x02 0) = true
    ∧ ((s.homePlace w true).1 = .go 0x40100 0 ∧ (s.homePlace w false).1 = .go 0x40100 0 ∧ (pktData w).length = 8
      ∧ (∀ i < 8, (s.homePlace w true).2.trust.seals.get none ((0x40100 + i) / 128) = none)
      ∧ (s.homePlace w false).2.isBad 0x40100 8 = false)
    ∧ (((here low).homePlace low true).1 = .refused ∧ ((here low).homePlace low false).1 = .refused
      ∧ full.arrived w = true ∧ (full.homePlace w true).1 = .wait)
    ∧ (let s := here mc
      mc.colmask = 2 ^ (s.peerId / 32) ∧ mc.dst = s.peerId ∧ s.fabric.relays = [] ∧ (s.homePlace mc true).1 = .go 0x40100 0
      ∧ (s.homePlace (wrForm mc 0) true).1 = .go 0x40100 0
      ∧ (∀ i < 8, (s.homePlace mc true).2.trust.seals.get none ((0x40100 + i) / 128) = none
        ∧ (s.homePlace (wrForm mc 0) true).2.trust.seals.get none ((0x40100 + i) / 128) = none))
    ∧ (let s := here am
      (s.homePlace am false).1 = .go 0x40100 0 ∧ (s.homePlace am true).1 = .go 0x40100 0
      ∧ (∀ i < 8, (s.homePlace am true).2.trust.seals.get none ((0x40100 + i) / 128) = none) ∧ (s.homePlace am true).2.isBad 0x40100 8 = false)
    ∧ (∀ c ∈ [0, 1], (here (sig c)).isCapture 0 = false ∧ ((here (sig c)).task? 0).any (fun x => decide (c < x.n) == (c == 0) && x.asid == 0 && x.phase == .running && x.cores == [0]) = true
      ∧ bits (sig c).va 12 4 = c ∧ bits (sig c).va 44 13 = 0 ∧ (sig c).task ≠ 0) ∧ s.task? 9 = none ∧ s.isCapture 0 = false
    ∧ (bit rel.opb 17 = true ∧ (u.podRec 3 1).result = none ∧ bit b.opb 17 = false ∧ b.opb % 2 ^ 17 + ((u.podRec 3 1).arrived.map (·.nmem)).sum < u.podCount 3) := by
  decide +kernel

/-- The master of time and a module that is not, when TIME is due and a tick before; a mark from the master, the first
one and a later one, and one that is not taken; silence of 2^24 ticks and of one less. -/
theorem test_meets_TimeAndStaff_time :
    let s := live id
    let sent (n : Nat) : State := { s with fabric := { s.fabric with timeSent := n } }
    let away (q : Nat) : State :=
      { s with peerId := 1, fabric := { s.fabric with present := [0, 3], ports := [(q, { Port.absent with st := 2 })] } }
    let heard (n : Nat) : State :=
      let s := away (rowPort 1 0)
      { s with gtc := 2 ^ 24, fabric := { s.fabric with timed := true, timeSeen := n, timeBad := 14 } }
    let u := away (rowPort 1 0)
    let v := heard 0
    (∀ n ∈ [2 ^ 20 - 4096, 2 ^ 20 - 4095], (sent n).isMaster = true ∧ (sent n).fabric.live 0 = true
      ∧ decide ((sent n).fabric.timeSent + 4096 ≤ (sent n).gtc) = (n == 2 ^ 20 - 4096))
    ∧ ((s.fabric.port 0).st = 2 ∧ (s.fabric.port 0).queue = [] ∧ (s.fabric.port 0).keyFrames + 1 < 2 ^ 40
      ∧ (s.fabric.port 0).switchAt = none ∧ s.fabric.ports.length = 1)
    ∧ (u.isMaster = false ∧ u.fabric.live (rowPort 1 0) = true ∧ u.takesTime (rowPort 1 0) = true ∧ rowPort 1 0 < 31
      ∧ portPeer u.peerId (rowPort 1 0) = u.master ∧ u.fabric.timed = false ∧ (u.fabric.port (rowPort 1 0)).st = 2)
    ∧ (away (rowPort 1 2)).takesTime (rowPort 1 2) = true ∧ { v with peerId := 33 }.takesTime (colPort 33 2) = false
    ∧ (v.fabric.timed = true ∧ v.isMaster = false ∧ v.takesTime (rowPort 1 0) = true ∧ v.fabric.live (rowPort 1 0) = true
      ∧ v.fabric.timeSeen + 2 ^ 24 ≤ v.gtc ∧ v.fabric.tlost = false ∧ v.fabric.timeBad ≠ 15)
    ∧ (heard 1).gtc < (heard 1).fabric.timeSeen + 2 ^ 24 := by
  decide +kernel

/-- Staffs lower and as high, with a detector fired and with none; a hold at its end and before; packets to drain, with
room in the Siding pool of the way and without, and one that is for this module; and a master that has missed the Staff. -/
theorem test_meets_TimeAndStaff :
    let s := live id
    let p := pkt 0x01 1
    let staff : Packet := { pkt 0x12 0 with sid := true, aux := 5 }
    let came (fired : Bool) (e : Nat) : State :=
      let s := live fun x => { x with siding := [{ pkt := staff, at' := 0, pool := some 0 }], fired := fired }
      { s with fabric := { s.fabric with epoch := e } }
    let hold (t : Nat) : State := { s with fabric := { s.fabric with holding := some t } }
    let old : Held := { pkt := p, at' := 0, pool := some 2 }
    let own : State := { s with fabric := { s.fabric with holding := some 0, record := [(0, pkt 0x01 0)] } }
    let drain (n : Nat) : State := { s with fabric := { s.fabric with
      holding := some 0, record := [(2, p)], ports := [(0, { Port.absent with st := 2, ssent := n }), (2, { Port.absent with st := 2, pool := [old] })] } }
    (∀ b ∈ [true, false], ∀ e ∈ [5, 6], (came b e).staffHere 5 = some (0, staff) ∧ ((came b e).fabric.port 0).pool = []
      ∧ ((came b e).fabric.ports.any fun x => x.2.fired) = b ∧ (came b e).fabric.epoch = e) ∧ (came true 5).staffHere 4 = none
    ∧ (∀ t ∈ [2 ^ 20 - 65536, 2 ^ 20 - 65535], (hold t).fabric.holding = some t ∧ (hold t).fabric.record = []) ∧ s.fabric.holding = none
    ∧ (own.fabric.holding = some 0 ∧ own.fabric.record = [(0, pkt 0x01 0)] ∧ (pkt 0x01 0).dst = own.peerId)
    ∧ (∀ n ∈ [63, 64], p.dst ≠ (drain n).peerId ∧ (drain n).sidingPort p.dst = some 0
      ∧ ((drain n).fabric.port 0).allows { unrouted p with sid := true } = decide (n < 64)
      ∧ ((drain n).fabric.port 0).st = 2 ∧ ((drain n).fabric.port 0).queue = [] ∧ ((drain n).fabric.port 0).switchAt = none
      ∧ ((drain n).fabric.port 0).keyFrames + 1 < 2 ^ 40
      ∧ ((drain n).fabric.port 2).pool = [{ pkt := p, at' := 0, pool := some 2 }] ∧ (drain n).fabric.holding = some 0)
    ∧ (∀ t ∈ [67222655, 67222656], { s with gtc := t }.isMaster = true) ∧ s.fabric.staffSeen = 0 := by
  decide +kernel

/-! ## Translation, queues and packets -/

/-- Walks for pages that a load and a store name: one that is not present, one that is, and one that may not be read;
an address that no command names, an ASID that is not the task's, and one without an entry. -/
theorem test_meets_Translations_walks :
    let load (base : Nat) := lceSlot (tensor (pair (spot .lce)) 4 (desc 3 1 4 1 4 base)) (cmd (.cpi (hd 2) 6 0 0 4 none))
    let stores := sceSlot (pair (spot .sce)) (cmd (.cpo (hd 2) 4 0 0 6 false none))
    let s := load 0
    let shut := s.writeAt 0x20000 [0x19]
    let bare : State := { s with regs := { s.regs with astb := 0x70000 } }
    let found (u : State) (va : Nat) (write : Bool) : Option Nat := (u.ast 0).bind fun e => (u.walk e 0 va).map fun q =>
      match u.useEntry e 0 va q write with
      | (.go g, _) => g.base
      | (.bad st, _) => st
      | _ => 99
    (∀ u ∈ [s, load 0x10000, stores, shut, bare], (u.taskOf 0).map (·.asid) = some 0 ∧ u.me.tlb = []
      ∧ (u.core (u.dieCore 0)).fwq.length < 16)
    ∧ s.namedBy 0 1 0x12 = some (0, false) ∧ (load 0x10000).namedBy 0 1 0x10000 = some (0, false)
    ∧ stores.namedBy 0 1 0 = none ∧ stores.namedBy 0 4 0 = some (0, true) ∧ shut.namedBy 0 1 0 = some (0, false) ∧ bare.namedBy 0 1 0 = some (0, false)
    ∧ s.namedBy 0 1 0x10000 = none ∧ s.namedBy 0 4 0x10000 = none
    ∧ s.ast 0 ≠ none ∧ (load 0x10000).ast 0 ≠ none ∧ found (load 0x10000) 0x10000 false = none
    ∧ found s 0 false = some 0x40000 ∧ found stores 0 true = some 0x40000 ∧ (stores.ast 0).map (fun e => (stores.walk e 0 0).map fun q => bit q.lo 4) = some (some true)
    ∧ found shut 0 false = some 4 ∧ bare.ast 0 = none := by
  decide +kernel

/-- A translation with a count; an invalidation that completes and one that is held up, with room for more and with
none; a dirty log that no walk waits for, and no address space; a frame tag inside and outside the old ENCI range. -/
theorem test_meets_Translations :
    let s := mapped (spot .lce)
    let x : TlbEntry := { asid := 0, va := 0, size := 0, lo := 0x1D, hi := 4, pte := 0x20000, count := 3 }
    let held := s.onMe fun c => { c with tlb := [x] }
    let pend (n : Nat) : State := { s with regs := { s.regs with xinvPend := List.replicate n (2, 0, 0) } }
    let busy := (pend 1).onMe fun c => { c with lceS := { c.lceS with reads := [{ tag := 0, sidx := 0, va := 0, len := 1, fill := none, tick := 0 }] } }
    let tag : State := { s with tags := [(2 ^ 14, 1)], trust := { s.trust with encir := [(0, 2 ^ 32 + 1)] } }
    held.me.tlb.filter (·.serves 0 0) = [x] ∧ s.me.tlb.filter (·.serves 0 0) = []
    ∧ (pend 15).regs.xinvPend.length < 16 ∧ ¬ (pend 16).regs.xinvPend.length < 16
    ∧ ((pend 1).quietSpace 2 0 = true ∧ busy.quietSpace 2 0 = false ∧ (pend 1).regs.xinvPend = [(2, 0, 0)] ∧ s.regs.xinvPend = [])
    ∧ s.ast 0 ≠ none ∧ s.ast 1 = none ∧ s.walks = []
    ∧ (∀ x ∈ tag.tags, bits (tag.trust.encir.get 0 0) 13 0 * 2 ^ 14 ≤ x.1
      ∧ x.1 < (bits (tag.trust.encir.get 0 0) 13 0 + bits (tag.trust.encir.get 0 0) 35 32) * 2 ^ 14)
    ∧ s.tags = [] := by
  decide +kernel

/-- No queue of these states has anything that waits; a BATCH record waits for room in the root log, and none does. -/
theorem test_meets_Translations_registers :
    let s : State := logged (mapped (spot .scu))
    let due : State := { s with trust := { s.trust with batchDue := some (zeros 112) }, regs := { s.regs with rlhead := 1024 } }
    s.restful ∧ due.restful ∧ s.trust.batchDue = none ∧ due.trust.batchDue = some (zeros 112) ∧ due.logFull = true
    ∧ { due with regs := { due.regs with rltail := 1 % 2 ^ 32 } }.logFull = false :=
  ⟨fun _ => ⟨rfl, fun _ h => absurd h List.not_mem_nil, rfl⟩, fun _ => ⟨rfl, fun _ h => absurd h List.not_mem_nil, rfl⟩, by decide +kernel⟩

/-- Queue 0 with a good entry at QTB and with none; running and held tasks of it; a ring with room and a ring that is
past its end; slots, ages and interrupts at their limits; waits that are met and that are not. -/
theorem test_meets_QueueSteps :
    let q (f : Queue → Queue) := queue0 (mapped (spot .scu)) f
    let entry (n : Nat) : State := let s := q id
      ({ s with regs := { s.regs with qtb := 0x80000 } }).writeAt 0x80000 (leBytes 4 (n * 2 ^ 20 + 1) ++ zeros 12
        ++ leBytes 8 0x10040 ++ zeros 16 ++ leBytes 4 0x0404)
    let idle := State.setTask (q id) 0 none
    let err (n : Nat) := q fun x => { x with err := true, tail := n, entry := { x.entry with rlog := 6 } }
    let age (n : Nat) := q fun x => { x with idle := some n, irqDue := true, lastIrq := some n }
    let full := q fun x => { x with statN := 8, notN := 1 }
    let lone (f : Queue → Queue) : State := logged <| (q fun x => f { x with
      opens := [{ seq := 5, irq := false, stop := false, left := 1, worst := [] }], pseq := 6 }).setQueue 1 { Queue.empty with pseq := 3 }
    let dep (n : Nat) := lone fun x => { x with dep := some (1, n, 5) }
    let sig := lone fun x => { x with signals := [(5, { sp := false, addr := 0x10048 }, 7)] }
    let lf : State := logged (mapped (spot .scu))
    let batch (n h : Nat) : State := { lf with
      gtc := n, trust := { lf.trust with records := [zeros 64], lastBatch := 1 }, regs := { lf.regs with rlhead := h } }
    ((entry 6).pfLocked 0 = false ∧ (entry 6).specOf 0 = none
      ∧ ((entry 6).readEntry 0).isSome = true ∧ ((entry 22).readEntry 0).isSome = true ∧ ((entry 5).readEntry 0).isSome = false
      ∧ ((entry 6).readEntry 0).map (·.cwa) = some { sp := false, addr := 0x10040 } ∧ (entry 6).qEntryAt 0 = 0x80000)
    ∧ ((idle.queue 0).v = true ∧ idle.tasks = [] ∧ (idle.queue 0).opens = [] ∧ ((q id).task? 0).map (fun y => (y.queue, y.phase)) = some (0, .running))
    ∧ (((err 64).queue 0).err = true ∧ (((err 64).queue 0).tail + 2 ^ 32 - ((err 64).queue 0).head) % 2 ^ 32 ≤ 2 ^ ((err 64).queue 0).entry.rlog)
    ∧ (State.reset.queue 5).v = false ∧ (q id).slotsUsed < 32 ∧ ((q fun x => { x with needs := some 0 }).firstWaiting 0 = true)
    ∧ ((age 0).queue 0).slotted = true
    ∧ (((full.queue 0).statN % 2 ^ 32 + 2 ^ 32 - (full.queue 0).stack % 2 ^ 32) % 2 ^ 32 = 2 ^ (full.queue 0).entry.slog
      ∧ ((full.queue 0).notN % 2 ^ 32 + 2 ^ 32 - (full.queue 0).nack % 2 ^ 32) % 2 ^ 32 = 2 ^ (full.queue 0).entry.nlog)
    ∧ (((dep 3).queue 1).compl : Int) - 1 < sext 64 3 ∧ sext 64 2 ≤ (((dep 2).queue 1).compl : Int) - 1
    ∧ ((sig.queue 0).opens = [{ seq := 5, irq := false, stop := false, left := 1, worst := [] }] ∧ 5 < (sig.queue 0).pseq ∧ (sig.queue 0).pseq ≤ 2 ^ 64
      ∧ (sig.queue 0).disabling = false ∧ (sig.queue 0).compl = 5 ∧ sig.logFull = false ∧ (dep 2).logFull = false)
    ∧ (∀ n ∈ [699999, 700000], ∀ h ∈ [1, 1024], (batch n h).trust.records ≠ [] ∧ (batch n h).sigRoom = true
      ∧ (batch n h).logFull = (h == 1024)
      ∧ decide ((batch n h).trust.lastBatch + 700000 ≤ (batch n h).gtc + 1) = (n == 700000) ∧ 0 < (batch n h).regs.rlhead) := by
  decide +kernel

/-- No line of memory is under a key in these states. -/
theorem test_meets_plain : (queue0 (mapped (spot .scu)) id).plain ∧ (kernel (spot .scu)).plain := ⟨fun _ => rfl, fun _ => rfl⟩

/-- Nor does a queue have anything that waits in the state whose records are signed. -/
theorem test_meets_restful : (logged (mapped (spot .scu))).restful :=
  fun _ => ⟨rfl, fun _ h => absurd h List.not_mem_nil, rfl⟩

/-! ## Packets and audit commands -/

/-- Queue 0 of a module with the kernel in memory; a queue that may not carry privileged packets, one behind its
packet, and one whose packet the spawn buffer comes before. -/
theorem test_meets_QueuePackets :
    let q (f : Queue → Queue) := logged (queue0 (kernel (spot .scu)) f)
    let s := q id
    let h := launchOf1 9
    let user := q fun x => { x with entry := { x.entry with priv := false } }
    let ring : State := { s with rlPrev := 0, regs := { s.regs with rlhead := 1 } }
    (∀ u ∈ [s, user, ring], u.nextIs h = true ∧ (u.queue 0).opens = [] ∧ (u.queue 0).disabling = false ∧ (u.queue 0).pseq + 1 < 2 ^ 64
      ∧ u.logFull = false ∧ u.specOf 0 = none ∧ (u.queue 0).seals = [] ∧ u.recordAt 0 + 32 ≤ 2 * hostBase ∧ u.wordAt 0 + 8 ≤ u.recordAt 0)
    ∧ h.spawned = false ∧ (q fun x => { x with spawn := [[1]] }).nextIs h = false ∧ (s.queue 0).entry.priv = true
    ∧ (user.queue 0).entry.priv = false ∧ (s.queue 0).v = true ∧ (s.queue 1).v = false ∧ ring.rlPrev < ring.regs.rlhead
    ∧ badField { fields1 9 with cores := 513 } = some (0x8004, 0) ∧ badField { fields1 9 with cores := 512 } = none
    ∧ badNode [fields1 9] = none ∧ badEdge 1 [(0, 0)] = some 0 ∧ badEdge 2 [(0, 1)] = none
    ∧ (64 % 64 = 0 ∧ (96 * 2 ^ 20 - 64) + 64 ≤ 96 * 2 ^ 20)
    ∧ s.task? 9 = none ∧ (s.task? 0).any (fun x => x.phase == .running && x.cutReq.isNone && x.podbar.isNone) = true ∧ s.isCapture 0 = false
    ∧ s.gtc + 2048 = 3048 ∧ s.areaAt { sp := false, addr := 0x70000 } 255 = none
    ∧ captureBad (zeros 79) = true ∧ (bisectOf 0 0 (zeros 144)).isNone = true ∧ tasteBad (zeros 33) = true
    ∧ (match s.prepare 0 (fields1 9) [] with | (.ok k, _) => k.hdr.slen == [1, 0, 0, 0, 0] | _ => false) = true
    ∧ (match s.prepare 0 { fields1 9 with kva := 0x10000 } [] with | (.hold va, _) => va == 0x10000 | _ => false) = true
    ∧ (match s.prepareAll 0 [] [fields1 9, fields1 10] with | (.ok ks, _) => ks.map (fun e => e.1.taskId) == [9, 10] | _ => false) = true := by
  decide +kernel

/-- The save area of task 9, which was never placed (Tables 16.5 to 16.7), at 0x70000 of host memory. -/
def savedArea : List Byte :=
  leBytes 4 0x4C53435A ++ leBytes 4 0x00030100 ++ leBytes 8 512 ++ leBytes 4 9 ++ zeros 12 ++ leBytes 8 1000 ++ leBytes 8 1000
    ++ leBytes 4 6 ++ leBytes 4 1 ++ leBytes 8 0x1C0 ++ leBytes 8 0x140 ++ (kernel (spot .scu)).bytes 0x48000 128 ++ zeros 24
    ++ leBytes 32 0x542F1FB62CEDF829DEB89A5CCB21DF5EFE11D34CA3406099F91027F08D53360E ++ zeros 64
    ++ [13] ++ zeros 7 ++ leBytes 8 8 ++ zeros 16 ++ [14] ++ zeros 15 ++ [15] ++ zeros 7 ++ leBytes 8 8 ++ zeros 64
    ++ (predicted (body 9)).flatMap (leBytes 8)

theorem test_meets_QueuePackets_resume :
    (({ State.reset with mem := (savedArea.mapIdx fun i b => (hostBase + 0x70000 + i, b)).filter fun c => c.2 != 0 } : State).areaAt
      { sp := false, addr := 0x70000 } 512).any (fun c => c.taskId == 9 && c.kind == 6 && c.fields.isSome) = true := by
  decide +kernel

/-- The block of a CAPTURE of task 9 whose LAUNCH stands at 0x1000 of host memory (Table 14.4). -/
theorem test_meets_QueuePackets_capture :
    let s := (queue0 (kernel (spot .scu)) id).writeAt (hostBase + 0x1000) ((predicted (body 9)).flatMap (leBytes 8))
    let bs := leBytes 4 9 ++ zeros 44 ++ leBytes 8 0x1000 ++ leBytes 8 0x2000 ++ zeros 16
    captureBad bs = false ∧ s.task? (numAt bs 0 4) = none
    ∧ (launchCopy (pktHdr 0 false (s.hostPacket (numAt bs 0x30 8))) 9).any (fun g => g.taskId == 9 && g.kid == 1) = true := by
  decide +kernel

/-- A BISECT block of an ANSWER side over one core root, with its index at 0x3000 of host memory. -/
def answerBlock : List Byte :=
  leBytes 4 1 ++ leBytes 4 7 ++ leBytes 4 9 ++ leBytes 4 2 ++ leBytes 8 0x3000 ++ leBytes 4 1 ++ leBytes 4 1 ++ leBytes 8 0x10000 ++ leBytes 8 0x4000
    ++ digBytes (rootOver 9 1 [5] (zeros 64)) ++ zeros 64

/-- A queue with a BISECT, and with a TASTE, as its next packet; a Taster that is idle, and none; an ANSWER side without
a fault; and two whole images without content. -/
theorem test_meets_AuditCommands :
    let h (ty : Nat) := pktHdr 0 false [0x20000000 + ty + 2 ^ 24, 0]
    let i := leBytes 4 0x4D494343
    let s := (logged (queue0 (kernel (spot .scu)) id)).writeAt (hostBase + 0x3000) (auditRecord 4 0 0 0 0 5)
    let t := (s.writeAt (hostBase + 0x5000) i).writeAt (hostBase + 0x5040) i
    let b := (bisectOf 0 0 answerBlock).map (·.1)
    let none' : State := { s with dies := [] }
    let args := leBytes 8 0x5000 ++ leBytes 8 0x5040 ++ leBytes 8 0x6000 ++ zeros 8
    (∀ ty ∈ [0x21, 0x23], pktType (h ty) = ty ∧ (h ty).spawned = false
      ∧ ∀ u ∈ [s, t, none'], u.nextIs (h ty) = true ∧ (u.queue 0).entry.priv = true ∧ (u.queue 0).disabling = false
        ∧ u.taster.early = [] ∧ u.taster.waiting = [])
    ∧ s.freeTaster = some 0 ∧ t.freeTaster = some 0 ∧ none'.freeTaster = none
    ∧ ((bisectOf 0 0 answerBlock).map (fun e => (e.2.1, e.2.2.1)) = some (0x3000, 1) ∧ b.any (fun b => !b.lead) = true
      ∧ b.any (fun b => (Bisect.badIndex { b with
          die := 0, since := 1000, walk := Walking.fin
          index := (List.range 1).map fun i => nodeOfRecord (s.hostBytes (0x3000 + 64 * i) 64) }).isNone) = true)
    ∧ (tasteBad args = false ∧ numAt args 0 8 = 0x5000 ∧ numAt args 8 8 = 0x5040 ∧ numAt args 0x10 8 = 0x6000)
    ∧ (t.logFull = false ∧ (t.queue 0).opens = [] ∧ (t.queue 0).pseq + 1 < 2 ^ 64 ∧ clear2 (t.recordAt 0) 32 (t.wordAt 0) 8)
    ∧ ((t.captured 0x5000).good = true ∧ (t.captured 0x5040).good = true ∧ clear2 (hostBase + 0x6000) 128 (t.wordAt 0) 8) := by
  unfold clear2; decide +kernel

/-- An ANSWER side asked for its root, on the last tick and late; a reply that nobody awaits, a request of a session that
is not open, and a packet that has not arrived; and a capture run that has been decided, and one that has not. -/
theorem test_meets_AuditCommands_served :
    let k : Packet := { pkt 0x13 0 with task := 7 }
    let reply : Packet := { k with npay := 1, payload := [0] }
    let s (n : Nat) : State := inject { queue0 (kernel (spot .scu)) id with
      gtc := n, taster := { TasterState.zero with
        bisects := ((bisectOf 0 0 answerBlock).map (fun e => { e.1 with since := 5 })).toList } } k
    let c (d : Option Nat) : Capture :=
      { q := 0, pseq := 0, task := 0, eng := 0, vcore := 0, leafPos := 0, expect := 0, imgb := 0, imgMax := 0, pinned := false
        record := [], images := [], psidx := none, status := 0, fcause := 0, ovcore := 0, osidx := 0, decided := d }
    let run (d : Option Nat) : State := { (spot .mxe).onMe fun c => { c with mxeS := { c.mxeS with
        flight := [flying] } } with
      taster := { TasterState.zero with captures := [c d] } }
    (∀ n ∈ [2 ^ 30 + 4, 2 ^ 30 + 5], (s n).arrived k = true ∧ (s n).arrived reply = false ∧ (s n).taster.early = [] ∧ (s n).taster.waiting = []
      ∧ k.npay = 0 ∧ (s n).taster.bisects.map (fun b => (b.lead, b.session, b.since)) = [(false, 7, 5)]
      ∧ ((s n).taster.bisects.find? fun b => b.serves k).any (fun b => (b.answer k).isSome) = true
      ∧ (s n).taster.bisects.find? (fun b => b.serves { k with task := 8 }) = none)
    ∧ bits k.opa 2 0 ≠ 7 ∧ (inject (s 1000) reply).arrived reply = true ∧ reply.npay ≠ 0
    ∧ (inject (s 1000) { k with task := 8 }).arrived { k with task := 8 } = true
    ∧ ((run (some 999)).decidedRun = some 0 ∧ (run none).decidedRun = none
      ∧ ((run (some 999)).task? 0).map (fun x => (x.phase, x.cutReq, x.cores)) = some (.running, none, [0])
      ∧ (run (some 999)).me.sceS.dirt = [] ∧ (run (some 999)).me.mxeS.flight ≠ []) := by
  decide +kernel

/-! ## The platform, the trust chiplet, encodings and the step -/

/-- Ticks that end a window and that do not; loads that fill the cap and pass it by one; neighbours in service; counts at their thresholds and data that is bad
already; dies, cores and stacks that can retire; silence at its limit; and frames that the host may and may not reach. -/
theorem test_meets_PlatformSteps :
    let s := mapped (spot .scu)
    let load (n : Nat) : EdgeLoad := { edge := 0, draw := n, queued := true }
    let pair : State := s.setDie 1 { s.die 0 with challenge := some 0 }
    let seen (n : Nat) : State := { s with plat := { s.plat with
      counts := [(resourceKey (.hbmChannel 0 1), n)], lasting := [.hbmChannel 0 1] }, bad := [(7, true)] }
    let at' (n : Nat) : State := { s with gtc := n }
    let still := State.setTask (s.setCore 0 Core.idle) 0 none
    let clear (u : State) (pa : Nat) : Bool := u.populated pa && decide (u.tags.get 0 (pa / 2 ^ 16) ≤ 1) && !u.isBad (u.paFlat pa) 1 && !u.pfIgnored pa
    (at' 1024).gtc % 1024 = 0 ∧ (at' 1023).gtc % 1024 ≠ 0 ∧ ([load 2400000].map (·.draw)).sum ≤ 2400000 ∧ 2400000 < ([load 2400001].map (·.draw)).sum
    ∧ (∀ x ∈ [load 2400001].filter (·.queued), 2400000 / 1 < x.draw) ∧ ([load 2400001].map (·.edge)).Nodup
    ∧ (neighbour 0 1 = some 1 ∧ neighbour 0 2 = some 8 ∧ (pair.die 0).present = true ∧ (pair.die 1).present = true)
    ∧ s.plat.errWin = s.gtc / 2 ^ 30 ∧ (∀ n ∈ [1023, 1024], (seen n).plat.counts.get 0 (resourceKey (.hbmChannel 0 1)) = n)
    ∧ threshold (.hbmChannel 0 1) = 1024 ∧ holdsData (.hbmChannel 0 1) = true ∧ (seen 0).bad.get false 7 = true ∧ s.bad.get false 7 = false
    ∧ Resource.hbmChannel 0 1 ∈ (seen 0).plat.lasting ∧ Resource.azpinLane 3 0 ∉ (seen 0).plat.lasting
    ∧ (∀ pos ∈ [1, 15, 16], pos ∉ (s.die 0).retired ∧ pos < 17 ∧ ∀ e ∈ s.tasks, ∀ y ∈ e.2, 32 * 0 + pos ∉ y.cores)
    ∧ s.tasks.map (fun e => e.2.map fun y => (y.cores, y.phase)) = [some ([32 * 0 + 0], .running)]
    ∧ ((still.die 0).leaving = false ∧ (∀ e ∈ still.cores, e.2.task = none) ∧ still.tasks = [] ∧ still.taster = TasterState.zero)
    ∧ (pair.die 1).challenge = some 0 ∧ clear s 0x40000 = true
    ∧ (∀ k ∈ [1, 2], ({ s with tags := [(4, k)] } : State).tags.get 0 (0x40000 / 2 ^ 16) = k)
    ∧ ({ s with tags := [(4, 2)] } : State).hostMay { addr := 0x40000, len := 1, tee := false, tdi := 0, write := none } 0x40000 = false := by
  decide +kernel

/-- Endpoints of each kind; a session that has not finished and an open one; a key slot that is set; an interface of each
state; chunks that are the last and that are not. -/
theorem test_meets_TrustRequests :
    let x (o : Bool) : Session := { id := 3, ep := .host, open' := o, keys := 0 }
    let s (o : Bool) : State := { State.reset with trust := { Trust.zero with sessions := [x o], keySlots := [(5, some { asid := 1, gen := 0 })] } }
    let r : SpdmReq := { ep := .host, session := some 3 }
    let c (n : Nat) : ChunkOut := { ep := .host, handle := 0, answer := .version, next := n, parts := 2 }
    let tdi (p : TdiPhase) (b : Option Nat) : State := { s true with trust := { (s true).trust with
      tdis := [(1, { phase := p, bound := b, scrub := none, waits := [] }), (32, { phase := p, bound := b, scrub := none, waits := [] })] } }
    let block (n : Nat) : State := { State.reset with trust := { Trust.zero with dieIdx := [(4, (n, 6))] } }
    atTrust .host = true ∧ atTrust (.link 45) = true ∧ atTrust (.dse 4) = false
    ∧ ((s true).sessionOf r).isSome = true ∧ (s false).sessionOf r = none ∧ (s true).trust.sessions = [x true] ∧ r.session = some (x true).id
    ∧ (s true).trust.uses = [] ∧ (s true).trust.sends = [] ∧ (s true).chainOf .host 8 = [] ∧ State.reset.chainOf .host 7 = []
    ∧ ({ State.reset with trust := { Trust.zero with chains := [(7, [1, 2])] } } : State).chainOf .host 7 = [1, 2]
    ∧ (∀ n ∈ [5, 6], (block n).trust.dieIdx.get (0, 0) 4 = (n, 6))
    ∧ State.reset.blockAt .host 48 = none ∧ (State.reset.blockAt .host 47).isSome = true ∧ State.reset.blockAt (.dse 0) 16 = none
    ∧ (c 0).next + 1 < (c 0).parts ∧ (c 1).parts ≤ (c 1).next + 1
    ∧ ((s true).trust.keySlots.get none 5).isSome = true ∧ (s true).trust.keySlots.get none 255 = none
    ∧ (∀ n ∈ [1, 32], ((tdi .unlocked none).tdi n).phase = .unlocked ∧ ((tdi .locked (some 3)).tdi n).phase = .locked
      ∧ ((tdi .run (some 3)).tdi n).held = true ∧ ((tdi .run (some 3)).tdi n).scrub = none ∧ ((tdi .run (some 3)).tdi n).waits = []
      ∧ ((tdi .run (some 3)).tdi n).bound = some (x true).id)
    ∧ (tdi .run none).queues = [] ∧ (tdi .run none).tasks = [] := by
  decide +kernel

/-- Instructions of each kind of operand are well formed. -/
theorem test_meets_RoundTrips :
    ∀ i ∈ [Instr.add (hd 1) 31 19 0, .li (hd 2) 0 (2 ^ 28 - 1), .loop (hd 2) 3 (.coord 15 3), .cpi (hd 2) 255 15 15 255 none
      , .mma (hd 1) 7 1 3 true], i.wf = true := by
  decide +kernel

/-- Every engine has words that a reserved operation makes, and words of a number that they do not announce. -/
theorem test_meets_ReservedOperations :
    (∀ op ∈ [0x2A, 0x2F, 0x3B, 0x3F], lenOf (op * 2 ^ 20) = 1 ∧ bits (op * 2 ^ 20) 25 20 = op)
    ∧ [0x04000000].length ≠ lenOf 0x04000000 ∧ [0, 0].length ≠ lenOf 0 := by
  decide +kernel

/-- The engine of the step has words that decode, words that do not (0x00F00000), a word past the end of its stream, and
data that cannot be corrected. -/
theorem test_meets_StepRunsDecoded :
    let at' (ws : List Nat) : State := { words .mxe ws with agenda := [.issue 0 .mxe false, .tick] }
    let cur : Cur := { core := 0, eng := .mxe, fw := false, words := [], port := 0, queue := 0 }
    let u (s : State) : State := { s with agenda := [.tick], cur := cur }
    let past := (at' [0]).onMe fun c => { c with mxe := { c.mxe with pc := 3 } }
    let long := past.writeAt (wordPage + 140) [0, 0, 0, 0x04]
    let bad : State := { at' [0] with bad := [((wordPage + 128) / 32, true)] }
    (∀ s ∈ [at' [0], at' [0x00F00000], past, long, bad], s.dueStep = none ∧ (u s).canIssue = true)
    ∧ (u (at' [0])).fetch = .words [0] ∧ reads .mxe [0] = some (.nop (hd 1)) ∧ (u (at' [0x00F00000])).fetch = .words [0x00F00000]
    ∧ reads .mxe [0x00F00000] = none ∧ (u past).fetch = .words [0] ∧ (u long).fetch = .outside ∧ (u bad).fetch = .uncorrectable := by
  decide +kernel

/-- A step that is due; a state where none is and a stream can still issue, and two where none can, with a tick in the
schedule and without; and cores whose slot firmware took, whose slot the user took while firmware wanted it, and whose
slot nobody took. -/
theorem test_meets_StepOrder :
    let s := spot .scu
    let due := s.onMe fun c => { c with user := { c.user with pend := [{ due := 1000, slot := 0, named := none, seq := 0, value := 1 }] } }
    let swept : State := { s with sweep := 6 }
    let held := s.onMe fun c => { c with halted := true }
    let slots (fw usr : Bool) : Core := { fwSpot.me with fwSlot := fw, usrSlot := usr }
    due.dueStep.map (·.2) = some .resultLand ∧ s.dueStep = none ∧ s.agenda = [] ∧ s.sweep = 0 ∧ 6 * s.cores.length + 1 - s.sweep = 7
    ∧ (match s.unswept 0 7 with
      | some (k, cur) => decide (k = 0) && cur.eng == .scu && decide ((reads .scu [0]) = some (.nop (hd 1)))
          && decide ({ s with sweep := k + 1, cur := { cur with words := [] } }.fetch = .words [0])
      | none => false) = true
    ∧ (∀ u ∈ [swept, held], u.dueStep = none ∧ u.agenda = [] ∧ u.unswept u.sweep (6 * u.cores.length + 1 - u.sweep) = none)
    ∧ (held.streamAt 0).isSome = true ∧ { held with agenda := [.tick] }.dueStep = none
    ∧ (slots true false).fwSlot = true ∧ (slots false true).fwWants = true ∧ (slots false true).usrSlot = true ∧ (slots false false).usrSlot = false := by
  decide +kernel

/-- A state whose memory lists bytes in the canonical form, and a step from it. -/
theorem test_meets_StepKeepsMemoryForm :
    Memory.wf (mapped (spot .scu)).mem = true ∧ (mapped (spot .scu)).mem.length = 6
    ∧ (match step (mapped (spot .scu)) with | .next t => decide (t.myStream.pc = 1) | _ => false) = true
    ∧ (match step { mapped (spot .scu) with sweep := 6 } with | .next t => decide (t.gtc = 1001) | _ => false) = true := by
  decide +kernel

/-! ## Single steps and worked examples, with the results that the specification gives -/

/-- The results on their way after an SCU instruction with those registers. -/
def pushed (i : Instr) (vs : List Word) : List Word := (next i (regs (spot .scu) vs)).scu.pend.map (·.value)

/-- Table 8.6: wrapping, the shift count y[5:0], the high products, and the corners of R183. -/
theorem test_registers :
    pushed (.add (hd 1) 0 16 17) [-1, 3] = [2] ∧ pushed (.sub (hd 1) 0 16 17) [0, 1] = [-1]
    ∧ pushed (.andn (hd 1) 0 16 17) [0xF0F0, 0xFF00] = [0xF0] ∧ pushed (.xorReg (hd 1) 0 16 17) [0b1100, 0b1010] = [0b0110]
    ∧ pushed (.shl (hd 1) 0 16 17) [3, 63] = [0x8000000000000000] ∧ pushed (.shl (hd 1) 0 16 17) [3, 64] = [3]
    ∧ pushed (.shr (hd 1) 0 16 17) [-1, 60] = [15] ∧ pushed (.sra (hd 1) 0 16 17) [-16, 2] = [-4]
    ∧ pushed (.mul (hd 1) 0 16 17) [0x100000000, 0x100000001] = [0x100000000] ∧ pushed (.mulh (hd 1) 0 16 17 false) [-1, -1] = [0]
    ∧ pushed (.mulh (hd 1) 0 16 17 true) [-1, -1] = [-2] := by
  decide +kernel

theorem test_division :
    pushed (.div (hd 1) 0 16 17 false) [-7, 2] = [-3] ∧ pushed (.rem (hd 1) 0 16 17 false) [-7, 2] = [-1]
    ∧ pushed (.div (hd 1) 0 16 17 false) [0x8000000000000000, -1] = [0x8000000000000000]
    ∧ pushed (.rem (hd 1) 0 16 17 false) [0x8000000000000000, -1] = [0] ∧ pushed (.div (hd 1) 0 16 17 true) [-7, 0] = [-1]
    ∧ pushed (.rem (hd 1) 0 16 17 true) [-7, 0] = [-7] ∧ (next (.div (hd 1) 0 16 17 false) (regs (spot .scu) [5, 0])).me.dz = true := by
  decide +kernel

/-- R184 to R187. -/
theorem test_compares_and_immediates :
    pushed (.minReg (hd 1) 0 16 17 false) [-1, 1] = [-1] ∧ pushed (.maxReg (hd 1) 0 16 17 true) [-1, 1] = [-1]
    ∧ pushed (.cmp (hd 2) 0 16 17 2) [-1, 1] = [1] ∧ pushed (.cmp (hd 2) 0 16 17 4) [-1, 1] = [0] ∧ pushed (.cmp (hd 2) 0 16 17 9) [1, 1] = [1]
    ∧ pushed (.sel (hd 2) 0 16 17 18) [4, 5, 0] = [5] ∧ pushed (.clz (hd 1) 0 16 false) [0] = [64] ∧ pushed (.clz (hd 1) 0 16 true) [8] = [3]
    ∧ pushed (.popc (hd 1) 0 16) [-1] = [64] ∧ pushed (.addi (hd 2) 0 16 0xFFFFFFF) [1] = [0] ∧ pushed (.ori (hd 2) 0 16 0x8000000) [0] = [0xFFFFFFFFF8000000]
    ∧ pushed (.shi (hd 2) 0 16 2 63) [-1] = [-1] ∧ pushed (.li (hd 2) 0 0x8000000) [] = [0xFFFFFFFFF8000000]
    ∧ pushed (.li (hd 3) 0 0x7FFFFFFFFFFFFF) [] = [0x7FFFFFFFFFFFFF] ∧ pushed (.cmpi (hd 2) 0 16 3 0xFFFFFFF) [-1] = [1] := by
  decide +kernel

/-- A branch goes to its own first word's offset plus OFF, and CALL pushes the PC of the next instruction (R188). -/
theorem test_branches :
    let s := stream (spot .scu) fun t => { t with pc := 2 }
    (next (.br (hd 2) 0 0 0 0xFFFFFFF) s).myStream.pc = 1 ∧ (next (.br (hd 2) 1 0 0 1) s).myStream.pc = 4
    ∧ (next (.call (hd 2) 0 1) s).myStream.pc = 3 ∧ (next (.call (hd 2) 0 1) s).scu.pend.map (·.value) = [4]
    ∧ (next (.ret (hd 1) 16) (regs (spot .scu) [3])).myStream.pc = 3 := by
  decide +kernel

/-- Little-endian loads of each size, sign and zero extension, and a store of the low bytes (R190, R191). -/
theorem test_loads_and_stores :
    let s := tensor (spd (spot .scu) 0x200 [0xF0, 0xF1, 0xF2, 0xF3, 0xF4, 0xF5, 0xF6, 0xF7]) 4 (desc 0 4 4 1 4 0x200)
    let m (k : Nat) : MemWord := { sel := 0, kind := k, ord := 0, scope := 0, tid := 4, off := 0 }
    (next (.ld (hd 2) 0 16 true (m 0)) s).scu.pend.map (·.value) = [0xFFFFFFFFF3F2F1F0]
    ∧ (next (.ld (hd 2) 0 16 false (m 0)) s).scu.pend.map (·.value) = [0xF3F2F1F0]
    ∧ (next (.ld (hd 2) 0 16 false (m 1)) s).scu.pend.map (·.value) = [0xF7F6F5F4F3F2F1F0]
    ∧ (next (.st (hd 2) 17 16 (m 0)) (regs s [0x1122334455667788, 4])).bytes (spdBase 0 + 0x200) 8 = [0xF0, 0xF1, 0xF2, 0xF3, 0x88, 0x77, 0x66, 0x55] := by
  decide +kernel

/-- GTC, a WAITT that holds, and a TRAP that stops the user context. -/
theorem test_system :
    (next (.gtc (hd 1) 0) (spot .scu)).scu.pend.map (·.value) = [1000]
    ∧ (next (.waitt (hd 1) 16 false) (regs (spot .scu) [2000])).myStream.hold = .waitt 2000
    ∧ (next (.trap (hd 1) 7) (spot .scu)).me.halted = true := by
  decide +kernel

/-- The worked encodings of Table 3.5 and 2^-9 as E4M3's smallest subnormal. -/
theorem test_worked_encodings :
    (cvt (fpDecode 0x13 0x41C00000) fmtE4M3 .rne false).1 = 0x5C ∧ (cvt (fpDecode 0x13 0x41C00000) fmtE5M2 .rne false).1 = 0x4E
    ∧ (cvt (fpDecode 0x13 0x3B000000) fmtE4M3 .rne false).1 = 0x01 ∧ (cvt (fpDecode 0x13 0x3B000000) fmtE5M2 .rne false).1 = 0x18
    ∧ (cvt (fpDecode 0x13 0x47600000) fmtE5M2 .rne false).1 = 0x7B ∧ (cvt (fpDecode 0x13 0x43E00000) fmtBF16 .rne false).1 = 0x43E0 := by
  decide +kernel

/-- The worked QX4 quad (03): 24, 1, 1, 1 is bytes 0x18 and 0x5C, and reads 24, 1, 0, 0. -/
theorem test_worked_quad :
    quadEncode 0 (fun k => if k = 0 then .ofInt 24 else .ofInt 1) = (0x18, 0x5C)
    ∧ (List.range 4).map (fun k => (cvt (quadDecode 0x18 0x5C 127 k) fmtFP32 .rne false).1) = [0x41C00000, 0x3F800000, 0, 0] := by
  decide +kernel

/-- Table 3.10 on a grid of 2^-2, the normalisation of R52, and Tables 3.11 and 3.12. -/
theorem test_worked_accumulation :
    (accumulate (-2) Elem.zero [.fin false 3 (-3), .fin false 1 (-3), .fin false 5 (-3), .fin true 3 (-3)]).1.v = 2
    ∧ (({ Elem.zero with v := 67108864 } : Elem).norm 18).v = 256 ∧ (({ Elem.zero with v := 655360 } : Elem).norm 18).v = 2 := by
  decide +kernel

theorem test_worked_retirement :
    let e (v : Int) : Elem := { Elem.zero with v := v }
    retireFp fmtE4M3 .rne (-1) (e (-3)) = (0xBC, false)
    ∧ [Rm.rne, .rz, .ru, .rd].map (fun m => (retireFp fmtE4M3 m (-4) (e (-19))).1) = [0xBA, 0xB9, 0xB9, 0xBA]
    ∧ retireFp fmtE4M3 .rne 0 (e 1000) = (0x7E, true) ∧ (retireFp fmtE5M2 .rne 0 (e 1000)).1 = 0x64
    ∧ [25, -25, 15, -15, 9, -9].map (fun a => rq a 1 1 0 fmtInt8) = [13, -12, 8, -7, 5, -4].map (fun x => (x, false))
    ∧ rq 300 1 1 0 fmtInt8 = (127, true) := by
  decide +kernel

/-- A product of the block in queue 0 with slots 0: rows (3, -4) and (1, 0) times (5, 6). -/
theorem test_product :
    let t := next (.mma (hd 1) 0 0 0 true) matrix
    ((t.me.mxeS.flight.map fun o => (t.me.mxeS.puts o.effect).at' 0 0 0).map (·.v)) = [-9]
    ∧ ((t.me.mxeS.flight.map fun o => (t.me.mxeS.puts o.effect).at' 0 1 0).map (·.v)) = [5] := by
  decide +kernel

/-- Lanes of vector registers v2 and v3, and the value on its way to v1. -/
def vlanes (i : Instr) (x y : BitVec 4096) : List (BitVec 4096) :=
  (next i ((spot .vxe).onMe fun c => { c with vxeS := { c.vxeS with v := [(2, x), (3, y)] } })).me.vxeS.pend.map (·.value)

/-- On the lowest lanes: bytes that wrap and saturate, IEEE addition, an integer maximum and a sum
over all lanes. -/
theorem test_vectors :
    let r (es : Nat) : VRegs := { vd := 1, va := 2, vb := 3, es := es }
    let o := VArith.dflt 0
    vlanes (.viadd (hd 1) (r 0) o) 0x7FFF 0x0101 = [0x8000]
    ∧ vlanes (.viadd (hd 2) (r 0) { o with sat := true }) 0x7FFF 0x0101 = [0x7F00]
    ∧ vlanes (.vminmax (hd 2) (r 1) { o with sub := 1 }) 0x8000 0x0001 = [0x0001]
    ∧ vlanes (.vfadd (hd 1) (r 2) o) 0x3F800000 0x40000000 = [0x40400000]
    ∧ vlanes (.vred (hd 1) { r 2 with vb := 0 } o) 0x0000000300000004 0 = [7] := by
  decide +kernel

/-- The worked translation (06): ASID 1, page 0x23, frame 0x1234; and the dirty bit that a store sets. -/
theorem test_worked_translation :
    let s := (mapped (spot .lce)).writeAt 0x30040 (leBytes 8 (2 * 20 + 1) ++ leBytes 8 0x40000000 ++ leBytes 8 0x100000 ++ leBytes 4 10)
    let s := s.writeAt 0x42E42E80 (leBytes 8 0x08C0040D ++ leBytes 8 0x1234)
    firstBucket 1 0x230000 20 = 0x5C85D
    ∧ (match s.translateHere 1 0x230000 false 0 with | (.go t, u) => t.base == 0x12340000 && u.tags.get 0 0x1234 == frameTag 0 1 | _ => false) = true
    ∧ (match s.translateHere 1 0x230000 true 0 with | (.go _, u) => u.num 0x42E42E80 8 == 0x08C0041D | _ => false) = true := by
  decide +kernel

/-- The inventory word of die 9 at shipment (01), and the row and column ports of module 17 (07). -/
theorem test_worked_numbers :
    ({ State.reset with dies := [(9, { Die.held with
      present := true, edgeOk := 0xF, hbmOk := true, sparePos := 6, spareUsed := true, coreOk := 0xFFFF })] } : State).inventory 9 = 0x0FB7FFFD
    ∧ rowPort 17 12 = 26 ∧ colPort 17 9 = 39 ∧ portPeer 17 26 = 12 ∧ portPeer 17 39 = 32 * 9 + 17 := by
  decide +kernel

/-- SHAKE256 of no bytes (FIPS 202). -/
theorem test_shake :
    digBytes (shake []) = [0x46, 0xB9, 0xDD, 0x2B, 0x0B, 0xA8, 0x8D, 0x13, 0x23, 0x3B, 0x3F, 0xEB, 0x74, 0x3E, 0xEB, 0x24, 0x3F, 0xCD, 0x52, 0xEA
                           , 0x62, 0xB8, 0x1B, 0x82, 0xB5, 0x0C, 0x27, 0x64, 0x6E, 0xD5, 0x76, 0x2F] := by
  decide +kernel

/-- A copy of four bytes into the scratchpad has its bytes there at its completion (Table 9.3). -/
theorem test_copy :
    let s := (next (.cpi (hd 2) 6 0 0 4 none) (pair (spot .lce)))
    (next (.lceCommandCompletion 0 0) s).bytes (spdBase 0 + 0x200) 4 = [9, 8, 7, 6] ∧ s.myStream.pc = 2 := by
  decide +kernel

/-- An unsupported type is settled with status 2, and its completion word and status record say so (Tables 15.4, 15.6). -/
theorem test_unsupported_type :
    let h := pktHdr 0 false [0x7777 + 2 ^ 24]
    let t := next (.unsupportedTypePacket h 0x7777) (logged (queue0 (mapped (spot .scu)) id))
    t.num (hostBase + 0x10080) 8 = 0 ∧ t.num (hostBase + 0x10088) 8 = 0x777700000002 ∧ (t.queue 0).pseq = 1 := by
  decide +kernel

/-- A LAUNCH is accepted as a task that waits, and the kernel's task id is held (R398, R399). -/
theorem test_launch :
    let t := next (.launch (launchOf1 9) (fields1 9)) (queue0 (kernel (spot .scu)) id)
    (t.task? 9).any (fun x => x.phase == .waiting && x.hdr.slen == [1, 0, 0, 0, 0] && x.pseq == 0) = true
    ∧ (next (.launch (launchOf1 9) (fields1 9)) (queue0 (kernel (spot .scu)) fun x => { x with err := true })).task? 9 = none := by
  decide +kernel

/-- A notify of a queue that is not enabled is counted as dropped (R388). -/
theorem test_notify_dropped : (next (.notifyWrite 5 7) State.reset).regs.ndrop = 1 := by decide +kernel

/-- A store at its home is performed and answered by an ACK with status OK (Tables 7.2, 7.3). -/
theorem test_fabric_store :
    let w : Packet := { pkt 0x01 0 with va := 0x100, npay := 1, payload := [0x0807060504030201], lenm1 := 7 }
    let t := next (.wrPacket w) (inject (mapped (spot .scu)) w)
    t.bytes 0x40100 8 = [1, 2, 3, 4, 5, 6, 7, 8] ∧ t.fabric.route.map (fun h => (h.pkt.type, h.pkt.dst, h.pkt.status)) = [(0x08, 2, 0)] := by
  decide +kernel

/-- A frame that does not check counts an error and asks for a replay from the frame counter expected (R144). -/
theorem test_replay_asked :
    let t := next (.frameReceive 0 { frame 0 false [] with codeOk := false }) (live id)
    (t.fabric.port 0).lerr = 1 ∧ t.fabric.wire = [.msg 0 (.replayFrom 0)] := by
  decide +kernel

/-- The die-to-die cap: what is left is shared out evenly (R11), and a hot junction withholds issue (R464). -/
theorem test_power :
    (next (.d2dThrottleWindow [{ edge := 0, draw := 2000000, queued := true }, { edge := 1, draw := 2000000, queued := true }]) State.reset).plat.edgeCap
      = [(0, 1200000), (1, 1200000)]
    ∧ (next (.powerWindow 0 [(3, 106)]) State.reset).plat.withhold = true ∧ (next (.powerWindow 16000000 [(3, 105)]) State.reset).plat.withhold = false := by
  decide +kernel

/-- HEARTBEAT outside a session, and an SPDM request at a die's engine that only the trust chiplet takes (R447). -/
theorem test_spdm :
    (next (.heartbeat { ep := .host, session := none }) State.reset).out = [.spdm .host (.error .sessionRequired)]
    ∧ (next (.keyExchange { ep := .dse 3, session := none } 0) State.reset).out = [.spdm (.dse 3) (.error .unsupportedRequest)] := by
  decide +kernel

/-- A module reset counts an epoch, brings the die up, and starts the clock at 0 (R367, R466). -/
theorem test_module_reset :
    let t := next (.moduleReset { strap := 17, dies := [0], hbms := [0], edges := [], ports := [] }) (spot .scu)
    t.trust.bootEpoch = 1 ∧ t.peerId = 17 ∧ t.gtc = 0 ∧ (t.die 0).present = true ∧ (t.die 1).present = false ∧ t.task? 0 = none := by
  decide +kernel

/-- The word that the host asks about is the one that the next step runs. -/
theorem test_placed_word :
    decodeTableWord 32 0x00900000 = some (.mark (hd 1))
    ∧ (match step (State.reset.withFetchWord 32 0x00900000) with
       | .next t => decide ((t.core 0).scu.pc = 1) && decide ((t.core 0).scu.sidx = 1) | _ => false) = true := by
  decide +kernel

end Sys2Proof.Tests
end

section
/-!
SUPPORT. The order of the steps (log entry 1): which step is taken, what the sweep at the end of a tick
finds (R94), and what the passage of a tick does to a core (R25, R37, R179, R365).
-/

namespace Sys2Proof.SMap

/-- A change of every value that leaves the default as it is reaches what every key reads. -/
theorem get_map {α : Type} {d : α} {f : α → α} (hd : f d = d) (m : SMap α) (k : Nat) :
    get d (m.map fun e => (e.1, f e.2)) k = f (get d m k) := by
  induction m with
  | nil => exact hd.symm
  | cons e m ih =>
    rw [List.map_cons, get_cons, get_cons, ih]
    exact (apply_ite f _ _ _).symm

end Sys2Proof.SMap

namespace Sys2Proof.Machine

section
variable {s : State} {j k n : Nat} {cur : Cur} {i : Instr} {ms : List Move}

/-! ## The sweep -/

theorem State.streamAt_lt (h : s.streamAt k = some cur) : k < 6 * s.cores.length := by
  obtain ⟨e, he, -⟩ := Option.map_eq_some_iff.mp h
  have := (List.getElem?_eq_some_iff.mp he).1
  omega

theorem State.le_of_streamAt_none (h : s.streamAt k = none) : 6 * s.cores.length ≤ k := by
  have := List.getElem?_eq_none_iff.mp (Option.map_eq_none_iff.mp h)
  omega

/-- A place of the sweep stands for a stream alone: no words, port or queue belong to it. -/
theorem State.streamAt_bare (h : s.streamAt k = some cur) :
    ({ core := cur.core, eng := cur.eng, fw := cur.fw, words := [], port := 0, queue := 0 } : Cur) = cur := by
  obtain ⟨e, -, rfl⟩ := Option.map_eq_some_iff.mp h
  rfl

theorem State.unswept_some (h : s.unswept j n = some (k, cur)) : s.streamAt k = some cur ∧ s.couldIssue cur = true := by
  induction n generalizing j with
  | zero => cases h
  | succ n ih =>
    unfold State.unswept at h
    split at h
    next => cases h
    next c hc =>
      split at h
      next hi =>
        cases h
        exact ⟨hc, hi⟩
      next => exact ih h

/-- No stream that a sweep without a find has passed could issue. -/
theorem State.unswept_none (h : s.unswept j n = none) (hj : j ≤ k) (hk : k < j + n) (hc : s.streamAt k = some cur) :
    s.couldIssue cur = false := by
  induction n generalizing j with
  | zero => omega
  | succ n ih =>
    unfold State.unswept at h
    split at h
    next hn =>
      have := State.le_of_streamAt_none hn
      have := State.streamAt_lt hc
      omega
    next c hcj =>
      split at h
      next => cases h
      next hi =>
        rcases Nat.eq_or_lt_of_le hj with rfl | hlt
        · rw [hc, Option.some.injEq] at hcj
          simpa [hcj] using hi
        · exact ih h hlt (by omega)

/-- The schedule has no part in which streams could issue. -/
theorem State.unswept_agenda : ({ s with agenda := ms } : State).unswept j n = s.unswept j n := by
  induction n generalizing j with
  | zero => rfl
  | succ n ih =>
    unfold State.unswept
    rw [ih]
    rfl

/-! ## Which step is taken -/

theorem step_due (h : s.dueStep = some (cur, i)) : step s = exec i { s with cur := cur } := by
  simp only [step, h]

theorem step_move {m : Move} (h : s.dueStep = none) (ha : s.agenda = m :: ms) :
    step s = stepMove m { s with agenda := ms } := by
  simp only [step, h, ha]

theorem step_end (h : s.dueStep = none) (ha : s.agenda = []) : step s = stepTick s s := by
  simp only [step, h, ha]

theorem stepTick_none {s' : State} (h : s.unswept s.sweep (6 * s.cores.length + 1 - s.sweep) = none) :
    stepTick s s' = .next s.tick := by
  simp only [stepTick, h]

theorem stepTick_some {s' : State} (h : s.unswept s.sweep (6 * s.cores.length + 1 - s.sweep) = some (k, cur)) :
    stepTick s s' = stepIssue cur.core cur.eng cur.fw { s' with sweep := k + 1 } := by
  simp only [stepTick, h]

/-- An engine that can issue runs the instruction that its words decode to. -/
theorem stepIssue_run {p : Nat} {e : Engine} {b : Bool} {u : State} {ws : List Nat}
    (hu : u = { s with cur := { core := p, eng := e, fw := b, words := [], port := 0, queue := 0 } })
    (hc : u.canIssue = true) (hf : u.fetch = .words ws) (hd : decode e ws = .ok i) :
    stepIssue p e b s = exec i { u with cur := { u.cur with words := ws } } := by
  subst hu
  simp only [stepIssue, State.next, hc, hf, hd]
  rfl

/-! ## The passage of a tick -/

variable {c : Core} {now : Nat}

theorem add_b2n (x : Word) (b : Bool) : x + b2n b = if b then x + 1 else x := by
  cases b
  · exact BitVec.add_zero x
  · rfl

/-- What a tick does to each field of a core; the delays of its contexts change no digest that it forms. -/
theorem Core.tick_eq : c.tick now = { c with
    user := if c.fwSlot then c.user.delay 1 else c.user
    scu := if c.fwSlot then c.scu.delay now 1 else c.scu
    fw := if c.usrSlot && c.fwWants then c.fw.delay 1 else c.fw
    fws := if c.usrSlot && c.fwWants then c.fws.delay now 1 else c.fws
    spent := [], fwSlot := false, usrSlot := false
    fwIss := (2 * c.fwIss + b2n c.fwSlot) % 2 ^ 31
    fwHad := (2 * c.fwHad + b2n (c.fwWants && !c.usrSlot)) % 2 ^ 31
    fwWas := (2 * c.fwWas + b2n c.fwWants) % 2 ^ 31
    dgstall := c.dgstall + b2n c.digestWait
    sealWait := false } := by
  rw [add_b2n]
  unfold Core.tick Core.fwWants
  by_cases hf : c.fwSlot = true
  · by_cases hu : (c.usrSlot && (c.fwBusy && !c.fwDead)) = true
    · simp only [if_pos hf, if_pos hu]
      rfl
    · simp only [if_pos hf, if_neg hu]
      rfl
  · by_cases hu : (c.usrSlot && (c.fwBusy && !c.fwDead)) = true
    · simp only [if_neg hf, if_pos hu]
      rfl
    · simp only [if_neg hf, if_neg hu]
      rfl

theorem Core.tick_user (hf : c.fwSlot = true) : (c.tick now).user = c.user.delay 1 := by
  simp only [Core.tick_eq, hf, if_true]

theorem Core.tick_fw (hu : c.usrSlot = true) (hw : c.fwWants = true) : (c.tick now).fw = c.fw.delay 1 := by
  simp only [Core.tick_eq, hu, hw, Bool.and_self, if_true]

/-- Where neither context took a slot that counts for the other, only what the core counts by ticks has changed. -/
theorem Core.tick_frame (hf : c.fwSlot = false) (hu : c.usrSlot = false ∨ c.fwWants = false) :
    { c.tick now with
      spent := c.spent, usrSlot := c.usrSlot, fwIss := c.fwIss, fwHad := c.fwHad, fwWas := c.fwWas
      dgstall := c.dgstall, sealWait := c.sealWait } = c := by
  have hn : (c.usrSlot && c.fwWants) = false := Bool.and_eq_false_iff.mpr hu
  simp only [Core.tick_eq, hf, hn, Bool.false_eq_true, if_false]
  rw [← hf]

/-- A core that the state does not list is idle, and a tick leaves it so. -/
theorem Core.tick_idle : Core.idle.tick now = Core.idle := rfl

theorem State.core_tick (s : State) (p : Nat) : s.tick.core p = (s.core p).tick s.gtc :=
  SMap.get_map (f := Core.tick s.gtc) Core.tick_idle s.cores p

/-! ## The order of the steps -/

/-- Where no stream could issue any more, the clock ticks: at the end of the schedule or at a tick in it. -/
theorem step_tick {u : State} (hd : s.dueStep = none)
    (ha : s.agenda = [] ∧ u = s ∨ s.agenda = .tick :: u.agenda ∧ u = { s with agenda := u.agenda })
    (hn : s.unswept s.sweep (6 * s.cores.length + 1 - s.sweep) = none) : step s = .next u.tick := by
  rcases ha with ⟨ha, rfl⟩ | ⟨ha, hu⟩
  · rw [step_end hd ha, stepTick_none hn]
  · rw [step_move hd ha, hu]
    exact stepTick_none (State.unswept_agenda.trans hn)

/-- At the end of the schedule the next stream that could issue runs its instruction. -/
theorem step_swept {u : State} {ws : List Nat} (hd : s.dueStep = none) (ha : s.agenda = [])
    (hs : s.unswept s.sweep (6 * s.cores.length + 1 - s.sweep) = some (k, cur))
    (hu : u = { s with
      sweep := k + 1, cur := { core := cur.core, eng := cur.eng, fw := cur.fw, words := [], port := 0, queue := 0 } })
    (hf : u.fetch = .words ws) (hi : decode cur.eng ws = .ok i) :
    step s = exec i { u with cur := { u.cur with words := ws } } := by
  obtain ⟨hat, hcould⟩ := State.unswept_some hs
  have hc : u.canIssue = true := by
    rw [hu, State.streamAt_bare hat]
    exact hcould
  rw [step_end hd ha, stepTick_some hs]
  exact stepIssue_run hu hc hf hi

end

/-- Settles O57: the due step, the schedule and the tick come in the order in which `step` asks for them, and a
tick acts on each core by `Core.tick`. -/
theorem stepOrder : Obligations.StepOrder := by
  intro s
  refine ⟨fun cur i h => step_due h, ⟨fun u => step_tick, ?_, ?_⟩, rfl, rfl, fun p => ?_⟩
  · intro k cur hd ha hs u ws i hf hi
    exact step_swept hd ha hs rfl hf hi
  · intro hn k cur hk hc
    have := State.streamAt_lt hc
    exact State.unswept_none hn hk (by omega) hc
  · simp only [State.core_tick]
    exact ⟨by rw [Core.tick_eq], by rw [Core.tick_eq], Core.tick_user, fun _ => Core.tick_fw, Core.tick_frame⟩

end Sys2Proof.Machine
end

section
/-!
SUPPORT. The life of a task (R19, R21, R35, R363, R404, R408 to R411, R431, R432, R442): what the shared
operations of TASK_READY, TASK_START, TASK_PLACEMENT, STOP_CUT, TASK_RETIREMENT and CELLAR_COPY do, and what they
leave as it was.
-/

namespace Sys2Proof.SMap

/-- An update brings one entry into a map and keeps some of the others. -/
theorem mem_set {α : Type} [DecidableEq α] {d v : α} {m : SMap α} {k : Nat} {e : Nat × α} (h : e ∈ set d m k v) :
    e = (k, v) ∨ e ∈ m := by
  have hi : ∀ {n : SMap α}, e ∈ ins k v n → e = (k, v) ∨ e ∈ n := by
    intro n hn
    induction n with
    | nil => exact .inl (List.mem_singleton.mp hn)
    | cons a n ih =>
      unfold ins at hn
      split at hn
      · simpa using hn
      · rcases List.mem_cons.mp hn with rfl | hn
        · exact .inr (by simp)
        · exact (ih hn).imp_right (by simp +contextual)
  unfold set at h
  split at h
  · exact .inr (List.mem_filter.mp h).1
  · exact (hi h).imp_right fun h => (List.mem_filter.mp h).1

/-- A cleared range reads as the default. -/
theorem get_clear {α : Type} {d : α} {m : SMap α} {lo hi k : Nat} :
    get d (m.clear lo hi) k = if lo ≤ k ∧ k < hi then d else get d m k := by
  induction m with
  | nil => simp [clear]
  | cons e m ih =>
    have hb : (!(decide (lo ≤ e.1) && decide (e.1 < hi))) = !decide (lo ≤ e.1 ∧ e.1 < hi) := by rw [Bool.decide_and]
    unfold clear at *
    rw [List.filter_cons, hb]
    by_cases he : lo ≤ e.1 ∧ e.1 < hi
    · rw [decide_eq_true he, Bool.not_true, if_neg Bool.false_ne_true, ih, get_cons]
      by_cases hk : e.1 = k
      · rw [if_pos (hk ▸ he), if_pos (hk ▸ he)]
      · rw [if_neg hk]
    · rw [decide_eq_false he, Bool.not_false, if_pos rfl, get_cons, get_cons, ih]
      by_cases hk : e.1 = k
      · rw [if_pos hk, if_neg (hk ▸ he), if_pos hk]
      · rw [if_neg hk, if_neg hk]

end Sys2Proof.SMap

namespace Sys2Proof.Machine

section
variable {s t u : State} {id k p q n now : Nat} {x y : Task} {ps : List Nat}

/-! ## Lists in order -/

theorem mem_insertBy {α : Type} {le : α → α → Bool} {a b : α} {l : List α} : a ∈ insertBy le b l ↔ a = b ∨ a ∈ l := by
  induction l with
  | nil => simp [insertBy]
  | cons c l ih =>
    unfold insertBy
    split
    · simp
    · simp only [List.mem_cons, ih]
      exact or_left_comm

theorem mem_sortBy {α : Type} {le : α → α → Bool} {a : α} {l : List α} : a ∈ sortBy le l ↔ a ∈ l := by
  induction l with
  | nil => rfl
  | cons b l ih => exact mem_insertBy.trans (by rw [List.mem_cons, ← ih]; rfl)

/-! ## Changes of one task -/

@[simp] theorem State.setTask_setTask (a b : Option Task) : (s.setTask id a).setTask id b = s.setTask id b := by
  simp [State.setTask]

theorem OnlyTasks.setTask (a : Option Task) : OnlyTasks s (s.setTask id a) [id] :=
  ⟨rfl, fun _ hk => State.task_setTask_ne _ _ _ _ (by simpa using hk)⟩

/-- A task written back as it stood changes nothing. -/
theorem OnlyTasks.setTask_same (hx : s.task? id = some x) : OnlyTasks s (s.setTask id (some x)) [] := by
  refine ⟨rfl, fun k _ => ?_⟩
  by_cases hk : k = id
  · rw [hk, hx, State.task_setTask]
  · exact State.task_setTask_ne _ _ _ _ hk

/-! ## Changes of several cores -/

section
variable {f : Core → Core}

/-- A change of several cores changes nothing else. -/
theorem State.foldl_onCore_eq :
    ps.foldl (fun s p => s.onCore p f) s = { s with cores := (ps.foldl (fun s p => s.onCore p f) s).cores } := by
  induction ps generalizing s with
  | nil => rfl
  | cons p ps ih => exact ih (s := s.onCore p f)

theorem State.task_foldl_onCore : (ps.foldl (fun s p => s.onCore p f) s).task? k = s.task? k := by
  rw [State.foldl_onCore_eq]
  rfl

/-- A change that is the same made twice reaches each core of a list, however often it is listed. -/
theorem State.core_foldl_onCore (hf : ∀ c, f (f c) = f c) :
    (ps.foldl (fun s p => s.onCore p f) s).core q = if q ∈ ps then f (s.core q) else s.core q := by
  induction ps generalizing s with
  | nil => simp
  | cons p ps ih =>
    rw [List.foldl_cons, ih]
    by_cases hq : q = p
    · subst hq
      simp [hf]
    · simp [hq]

end

/-! ## Readiness and reservations (R409, R411) -/

/-- The front end puts a task into the pool of a die that can hold it, if there is one (log entries 103 and 145). -/
theorem State.capable_of_choosePool (h : s.choosePool x = some k) :
    s.capable x k = true ∨ ∀ j < 32, s.capable x j = false := by
  by_cases ha : (List.range 32).filter (s.capable x) = []
  · right
    intro j hj
    simpa using List.filter_eq_nil_iff.mp ha j (List.mem_range.mpr hj)
  · left
    simp only [State.choosePool, if_neg ha] at h
    split at h
    next => cases h
    next d ds hs =>
      have hd : d ∈ (List.range 32).filter (s.capable x) := mem_sortBy.mp (by rw [hs]; simp)
      have hk := List.mem_of_find?_eq_some h
      simp only [List.mem_cons, List.mem_append] at hk
      rcases hk with rfl | hk | hk
      · exact (List.mem_filter.mp hd).2
      · exact (List.mem_filter.mp (List.mem_filter.mp hk).1).2
      · exact (List.mem_filter.mp (List.mem_filter.mp hk).1).2

/-- No task of the module runs on cores. -/
def State.NoneRuns (s : State) : Prop := ∀ e ∈ s.tasks, ∀ y, e.2 = some y → y.phase ≠ .running

theorem State.NoneRuns.setTask (h : s.NoneRuns) (hx : x.phase ≠ .running) : (s.setTask id (some x)).NoneRuns := by
  intro e (he : e ∈ SMap.set none s.tasks id (some x)) y hy
  rcases SMap.mem_set he with rfl | he
  · cases hy
    exact hx
  · exact h e he y hy

/-- Where no task runs, none can be asked to yield. -/
theorem State.NoneRuns.yieldOrder (h : s.NoneRuns) : s.yieldOrder x = [] := by
  have hn : (s.tasks.filterMap fun e => e.2.bind fun y => (s.yieldRank x y).map fun r => (r, e.1, y)) = [] := by
    refine List.filterMap_eq_nil_iff.mpr fun e he => Option.bind_eq_none_iff.mpr fun y hy => ?_
    have : s.yieldRank x y = none := by
      have := h e he y hy
      unfold State.yieldRank
      split
      next hp => exact absurd hp this
      next => rfl
    rw [this]
    rfl
  simp only [State.yieldOrder, hn]
  rfl

theorem State.NoneRuns.preempt (h : s.NoneRuns) : s.preempt id x = s := by
  unfold State.preempt
  split
  · rfl
  · simp only [h.yieldOrder, State.selectFor]
    split
    next xs hs =>
      split at hs
      · cases hs
        rfl
      · cases hs
    next => rfl

/-- A task that has become ready, in a pool or in none yet. -/
def Task.readied (x : Task) (now : Nat) (d : Option Nat) : Task := { x with phase := .ready now d, readyAt := now }

/-- A task with nothing left to wait for becomes ready; where no older one waits for a pool it enters one. -/
theorem exec_taskReady_eq (hx : s.task? id = some x) (hp : x.phase = .waiting) (hk : x.kind = .kernel)
    (hc : x.cutReq = none) (hr : s.readyNow x = true) :
    let u := s.setTask id (some (x.readied s.gtc none))
    let y := x.readied s.gtc (u.choosePool (x.readied s.gtc none))
    exec (.taskReady id) s = .next ((u.setTask id (some y)).preempt id y)
      ∨ exec (.taskReady id) s = .next ((u.setTask id (some (x.readied s.gtc none))).preempt id (x.readied s.gtc none)) := by
  simp only [exec, execTaskReady, hx]
  rw [if_pos ⟨hp, hk, hc, hr⟩]
  dsimp only
  split
  · exact .inl rfl
  · exact .inr rfl

/-- A task for which nothing is left to wait becomes ready, in the pool of a die that can hold it or in none
yet. -/
theorem exec_taskReady_of_readyNow (hx : s.task? id = some x) (hp : x.phase = .waiting) (hk : x.kind = .kernel)
    (hc : x.cutReq = none) (hn : s.NoneRuns) (hr : s.readyNow x = true) :
    Answers (.taskReady id) s fun t =>
      (∃ d, t.task? id = some { x with phase := .ready s.gtc d, readyAt := s.gtc }
        ∧ ∀ k, d = some k → s.capable x k = true ∨ ∀ j < 32, s.capable x j = false)
      ∧ OnlyTasks s t [id] := by
  have hn' (d d' : Option Nat) :
      ((s.setTask id (some (x.readied s.gtc d'))).setTask id (some (x.readied s.gtc d))).preempt id (x.readied s.gtc d)
        = s.setTask id (some (x.readied s.gtc d)) := by
    rw [State.setTask_setTask, (hn.setTask (by simp [Task.readied])).preempt]
  rcases exec_taskReady_eq hx hp hk hc hr with h | h <;> rw [hn'] at h
  · exact ⟨_, h, ⟨_, State.task_setTask _ _ _, fun k hk => (State.capable_of_choosePool hk :)⟩, .setTask _⟩
  · exact ⟨_, h, ⟨_, State.task_setTask _ _ _, nofun⟩, .setTask _⟩

/-- A task that waits on stays as it was. -/
theorem exec_taskReady_of_not_readyNow (hx : s.task? id = some x) (hp : x.phase = .waiting) (hr : s.readyNow x = false) :
    Answers (.taskReady id) s fun t => OnlyTasks s t [] := by
  refine ⟨s.setTask id (some x), ?_, .setTask_same hx⟩
  simp [exec, execTaskReady, hx, hp, hr, State.preempt, Task.waitsCores]

/-- A task that has waited 2^20 ticks without a place reserves cores. -/
theorem exec_reservationStart_of_le (hx : s.task? id = some x) (hw : x.waitsCores = true) (hp : s.placeFor x = none)
    (hg : x.readyAt + 2 ^ 20 ≤ s.gtc) : Answers (.reservationStart id) s fun t =>
      t.task? id = some { x with reserving := true } ∧ OnlyTasks s t [id] := by
  refine ⟨_, ?_, State.task_setTask s id _, .setTask _⟩
  simp only [exec, execReservationStart, hx]
  rw [if_pos ⟨hw, hg, hp⟩]

theorem exec_reservationStart_of_lt (hx : s.task? id = some x) (hg : s.gtc < x.readyAt + 2 ^ 20) :
    exec (.reservationStart id) s = .next s := by
  simp only [exec, execReservationStart, hx]
  rw [if_neg fun h => by omega]

/-! ## Start (R411) -/

/-- The first task in order that fits takes its cores, all together. -/
theorem exec_taskStart_of_find
    (hf : s.startOrder.find? (fun e => s.turn e.2 && (s.placeFor e.2).isSome) = some (id, x)) (hp : s.placeFor x = some ps) :
    Answers .taskStart s fun t =>
      t.task? id = some { x with cores := ps, reserving := false, after := none, started := s.gtc }
      ∧ (∀ p, p ∈ ps → (t.core p).task = some id ∧ (t.core p).fw = (s.core p).fw)
      ∧ (∀ p, p ∉ ps → t.core p = s.core p) ∧ (∀ k, k ≠ id → t.task? k = s.task? k)
      ∧ { t with tasks := s.tasks, cores := s.cores } = s := by
  let y : Task := { x with cores := ps, reserving := false, after := none, started := s.gtc }
  have hc (q : Nat) := State.core_foldl_onCore (f := fun c => { c.vacate with task := some id })
    (s := s.setTask id (some y)) (ps := ps) (q := q) fun _ => rfl
  have ht : exec .taskStart s
      = .next (ps.foldl (fun s p => s.onCore p fun c => { c.vacate with task := some id }) (s.setTask id (some y))) := by
    simp only [exec, execTaskStart, hf, hp]
    rfl
  refine ⟨_, ht, ?_, fun p h => ?_, fun p h => ?_, fun k hk => ?_, ?_⟩
  · rw [State.task_foldl_onCore]
    exact State.task_setTask s id _
  · rw [hc, if_pos h]
    exact ⟨rfl, rfl⟩
  · rw [hc, if_neg h]
    rfl
  · rw [State.task_foldl_onCore]
    exact State.task_setTask_ne s id _ _ hk
  · rw [State.foldl_onCore_eq]
    rfl

theorem exec_taskStart_of_find_none
    (hf : s.startOrder.find? (fun e => s.turn e.2 && (s.placeFor e.2).isSome) = none) : exec .taskStart s = .next s := by
  simp only [exec, execTaskStart, hf]

/-! ## Placement (R21) -/

variable {a b start : Nat}

theorem State.byte_zeroRange : (s.zeroRange a n).byte b = if a ≤ b ∧ b < a + n then 0 else s.byte b :=
  SMap.get_clear

/-- Core `e.2` begins as virtual core `e.1` of a task that runs from `start` on. -/
def State.beginCore (s : State) (id : Nat) (x : Task) (start : Nat) (e : Nat × Nat) : State :=
  let s := s.zeroRange (spdBase e.2) (65536 * x.hdr.spd)
  ({ s with dcache := s.dcache.set [] e.2 [] }).setCore e.2 (startedCore (s.core e.2) id e.1 start x)

theorem State.placeCores_none : s.placeCores id x none start
    = (none, (x.cores.mapIdx fun v p => (v, p)).foldl (fun s e => s.beginCore id x start e) s) := by
  suffices h : ∀ (l : List (Nat × Nat)) (s : State), l.foldl (fun (acc : Option Nat × State) e =>
      (acc.1, acc.2.beginCore id x start e)) (none, s) = (none, l.foldl (fun s e => s.beginCore id x start e) s) from
    h _ s
  intro l
  induction l with
  | nil => exact fun _ => rfl
  | cons e l ih => exact fun s => ih _

section
variable {l : List (Nat × Nat)}

/-- Beginning on its cores leaves a task's record and the queues alone. -/
theorem State.foldl_beginCore_rest :
    let t := l.foldl (fun s e => s.beginCore id x start e) s
    t.tasks = s.tasks ∧ t.queues = s.queues ∧ t.gtc = s.gtc := by
  induction l generalizing s with
  | nil => exact ⟨rfl, rfl, rfl⟩
  | cons e l ih => exact ih (s := s.beginCore id x start e)

theorem State.core_foldl_beginCore_ne (hp : ∀ e ∈ l, e.2 ≠ p) :
    (l.foldl (fun s e => s.beginCore id x start e) s).core p = s.core p := by
  induction l generalizing s with
  | nil => rfl
  | cons e l ih =>
    rw [List.foldl_cons, ih fun e' he => hp e' (List.mem_cons_of_mem _ he)]
    exact State.core_setCore_ne _ _ _ _ (Ne.symm (hp e List.mem_cons_self))

theorem State.core_foldl_beginCore {v : Nat} (hl : (l.map Prod.snd).Nodup) (he : (v, p) ∈ l) :
    (l.foldl (fun s e => s.beginCore id x start e) s).core p = startedCore (s.core p) id v start x := by
  induction l generalizing s with
  | nil => cases he
  | cons e l ih =>
    obtain ⟨hn, hl⟩ := List.nodup_cons.mp hl
    rw [List.foldl_cons]
    rcases List.mem_cons.mp he with rfl | he
    · rw [State.core_foldl_beginCore_ne fun e he hp => hn (List.mem_map.mpr ⟨e, he, hp⟩)]
      exact State.core_setCore _ _ _
    · rw [ih hl he]
      have hp : p ≠ e.2 := fun hp => hn (List.mem_map.mpr ⟨_, he, hp⟩)
      exact congrArg (startedCore · id v start x) (State.core_setCore_ne _ _ _ _ hp)

/-- A byte of the scratchpads that a task begins on reads 0, any other one as before. -/
theorem State.byte_foldl_beginCore : (l.foldl (fun s e => s.beginCore id x start e) s).byte a
    = if ∃ e ∈ l, spdBase e.2 ≤ a ∧ a < spdBase e.2 + 65536 * x.hdr.spd then 0 else s.byte a := by
  induction l generalizing s with
  | nil => simp
  | cons e l ih =>
    have hb : (s.beginCore id x start e).byte a
        = if spdBase e.2 ≤ a ∧ a < spdBase e.2 + 65536 * x.hdr.spd then 0 else s.byte a := State.byte_zeroRange
    rw [List.foldl_cons, ih, hb]
    by_cases hl : ∃ e ∈ l, spdBase e.2 ≤ a ∧ a < spdBase e.2 + 65536 * x.hdr.spd
    · obtain ⟨e', he, hr⟩ := hl
      rw [if_pos ⟨e', he, hr⟩, if_pos ⟨e', List.mem_cons_of_mem _ he, hr⟩]
    · rw [if_neg hl]
      by_cases hr : spdBase e.2 ≤ a ∧ a < spdBase e.2 + 65536 * x.hdr.spd
      · rw [if_pos hr, if_pos ⟨e, List.mem_cons_self, hr⟩]
      · have hn : ¬ ∃ e' ∈ e :: l, spdBase e'.2 ≤ a ∧ a < spdBase e'.2 + 65536 * x.hdr.spd := by
          rintro ⟨e', he, hr'⟩
          rcases List.mem_cons.mp he with rfl | he
          · exact hr hr'
          · exact hl ⟨e', he, hr'⟩
        rw [if_neg hr, if_neg hn]

end

/-- A queue without time slices gives none, and none that its floor raises (R412). -/
theorem State.sliceOf_zero (h : (s.queue q).entry.slice = 0) : s.sliceOf q = 0 := by
  simp [State.sliceOf, h]

theorem State.clampSlice_zero (h : (s.queue q).entry.slice = 0) : s.clampSlice q = s := by
  simp [State.clampSlice, h]

/-- A started task begins on its cores in the start state, with zeroed scratchpads, and runs. -/
theorem exec_taskPlacement_fresh {c : Nat} {d : Option Nat} (hx : s.task? id = some x) (hp : x.phase = .ready c d)
    (hc : x.cores ≠ []) (hn : x.cores.Nodup) (hr : x.restore = none) (hs : (s.queue x.queue).entry.slice = 0) :
    Answers (.taskPlacement id) s fun t =>
      (∃ y, t.task? id = some y ∧ y.phase = .running ∧ y.started = s.gtc ∧ y.startAt = s.gtc ∧ y.slice = 0
        ∧ y.expired = false ∧ y.clock = x.clock ∧ y.pendInc = [] ∧ y.cores = x.cores)
      ∧ (∀ v p, x.cores[v]? = some p → t.core p = startedCore (s.core p) id v s.gtc x
          ∧ ∀ a, spdBase p ≤ a → a < spdBase p + 65536 * x.hdr.spd → t.byte a = 0)
      ∧ (∀ p, p ∉ x.cores → t.core p = s.core p)
      ∧ ∀ a, (∀ p ∈ x.cores, a < spdBase p ∨ spdBase p + 65536 * x.hdr.spd ≤ a) → t.byte a = s.byte a := by
  have hl : ((x.cores.mapIdx fun v p => (v, p)).map Prod.snd) = x.cores := List.ext_getElem (by simp) (by simp)
  have hm (v p : Nat) : (v, p) ∈ x.cores.mapIdx (fun v p => (v, p)) ↔ x.cores[v]? = some p := by
    simp [List.getElem?_eq_some_iff]
  let l := x.cores.mapIdx fun v p => (v, p)
  let u := l.foldl (fun u e => u.beginCore id x s.gtc e) s
  have hu : s.placeCores id x none s.gtc = (none, u) := State.placeCores_none
  obtain ⟨ht, hq, hg⟩ := State.foldl_beginCore_rest (l := l) (s := s) (id := id) (x := x) (start := s.gtc)
  have hs' : (u.queue x.queue).entry.slice = 0 := by rw [← hs, State.queue, State.queue, hq]
  have he : exec (.taskPlacement id) s = .next (u.setTask id (some { x with
      phase := .running, startAt := s.gtc, started := s.gtc, slice := 0, expired := false, pendInc := [], restore := none })) := by
    simp only [exec, execTaskPlacement, hx, hp, if_neg hc, hr, Option.bind_none, Option.isNone_none, if_true, hu,
      Option.isSome_none, Bool.false_eq_true, if_false, State.clampSlice_zero hs', State.sliceOf_zero hs']
    rw [show u.gtc = s.gtc from hg]
  refine ⟨_, he, ⟨_, State.task_setTask u id _, rfl, rfl, rfl, rfl, rfl, rfl, rfl, rfl⟩, fun v p hv => ⟨?_, fun a ha hb => ?_⟩,
    fun p h => ?_, fun a ha => ?_⟩
  · exact State.core_foldl_beginCore (hl.symm ▸ hn) ((hm v p).mpr hv)
  · exact State.byte_foldl_beginCore.trans (if_pos ⟨(v, p), (hm v p).mpr hv, ha, hb⟩)
  · refine State.core_foldl_beginCore_ne fun e he hep => h ?_
    exact hep ▸ hl ▸ List.mem_map_of_mem he
  · refine State.byte_foldl_beginCore.trans (if_neg fun ⟨e, he, hr⟩ => ?_)
    have := ha e.2 (hl ▸ List.mem_map_of_mem he)
    omega

/-! ## What completing packets leaves alone (R394) -/

/-- The cores, the tasks, the registers and the root log's records are as they were. -/
structure State.KeepsTasks (s t : State) : Prop where
  cores   : t.cores = s.cores
  tasks   : t.tasks = s.tasks
  regs    : t.regs = s.regs
  records : t.trust.records = s.trust.records

namespace State.KeepsTasks

theorem refl : s.KeepsTasks s := ⟨rfl, rfl, rfl, rfl⟩

theorem trans (h : s.KeepsTasks t) (h' : t.KeepsTasks u) : s.KeepsTasks u :=
  ⟨h'.cores.trans h.cores, h'.tasks.trans h.tasks, h'.regs.trans h.regs, h'.records.trans h.records⟩

theorem ite {c : Prop} [Decidable c] (h : s.KeepsTasks t) (h' : s.KeepsTasks u) :
    s.KeepsTasks (if c then t else u) := by
  split
  · exact h
  · exact h'

theorem foldl {α : Type} {f : State → α → State} (hf : ∀ (s : State) e, s.KeepsTasks (f s e)) (l : List α) (s : State) :
    s.KeepsTasks (l.foldl f s) := by
  induction l generalizing s with
  | nil => exact refl
  | cons e l ih => exact (hf s e).trans (ih _)

variable {cs : List (Nat × Byte)} {v : Verdict}

theorem write : s.KeepsTasks (s.write cs) := ⟨rfl, rfl, rfl, rfl⟩

theorem setQueue (z : Queue) : s.KeepsTasks (s.setQueue q z) := ⟨rfl, rfl, rfl, rfl⟩

theorem reseal {key line : Nat} : s.KeepsTasks (s.reseal key cs line) := ⟨rfl, rfl, rfl, rfl⟩

theorem writeUnder {key : Nat} : s.KeepsTasks (s.writeUnder key cs) :=
  ite write ((foldl (fun _ _ => reseal) _ _).trans write)

theorem irq : s.KeepsTasks (s.irq q) := ite (setQueue _) ⟨rfl, rfl, rfl, rfl⟩

theorem complWrite : s.KeepsTasks (s.complWrite q n) := ite writeUnder refl

theorem statusRecord : s.KeepsTasks (s.statusRecord q n v) := (writeUnder.trans (setQueue _)).trans irq

theorem closePacket {o : OpenPkt} : s.KeepsTasks (s.closePacket q o) := by
  have close {w : State} (h : s.KeepsTasks w) (z : Queue) (n : Nat) :
      s.KeepsTasks (if o.irq then ((w.setQueue q z).complWrite q n).irq q else (w.setQueue q z).complWrite q n) :=
    have h := (h.trans (setQueue z)).trans complWrite
    ite (h.trans irq) h
  refine ite refl ?_
  split
  next => exact close refl _ _
  next =>
    exact ite refl (ite ((close statusRecord _ _).trans ((setQueue _).trans irq)) (close statusRecord _ _))

theorem completePart : s.KeepsTasks (s.completePart q n k v) := (setQueue _).trans (foldl (fun _ _ => closePacket) _ _)

theorem settleDisable : s.KeepsTasks (s.settleDisable q) := ite (writeUnder.trans (setQueue _)) refl

theorem closeCut {stop : Nat → Verdict} : s.KeepsTasks (s.closeCut x stop) := by
  unfold State.closeCut
  split
  · exact refl
  · exact (foldl (fun _ _ => completePart.trans settleDisable) _ _).trans
      (foldl (fun _ _ => completePart.trans settleDisable) _ _)

end State.KeepsTasks

/-! ## A task that leaves (R35, R363) -/

theorem length_leBytes (n v : Nat) : (leBytes n v).length = n := by
  induction n generalizing v with
  | zero => rfl
  | succ n ih => simp [leBytes, ih]

theorem length_logHead (type id seq : Nat) : (logHead type id seq).length = 16 := by simp [logHead, length_leBytes]

/-- A task that is no longer held has given its cores back; no other task, and no other core, has changed. -/
theorem State.dropTask_spec :
    (∀ p, (s.dropTask id x).core p = if p ∈ x.cores then (s.core p).vacate else s.core p)
      ∧ (s.dropTask id x).tasks = s.tasks.set none id none
      ∧ (s.dropTask id x).regs = s.regs ∧ (s.dropTask id x).trust = s.trust := by
  have he := State.foldl_onCore_eq (f := Core.vacate) (s := s) (ps := x.cores)
  have ht : (s.freeCores x.cores).tasks = s.tasks := (congrArg State.tasks he :)
  exact ⟨fun p => State.core_foldl_onCore fun _ => rfl, congrArg (fun m => SMap.set none m id none) ht,
    (congrArg State.regs he :), (congrArg State.trust he :)⟩

@[simp] theorem State.logFull_setTask (a : Option Task) : (s.setTask id a).logFull = s.logFull := rfl

theorem State.core_logAppend (type id : Nat) (body : List Byte) : (s.logAppend type id body).core p = s.core p :=
  have h : (s.logAppend type id body).cores = s.cores := rfl
  congrArg (SMap.get Core.idle · p) h

/-- The roots of a task without an audit ring are made at once. -/
theorem State.makeRoots_unaudited (h : x.audit? = none) : s.makeRoots id x = { x with rooted := true } := by
  unfold State.makeRoots
  split
  next hr => rw [← hr]
  next => rw [if_pos (by simp [h])]

/-- A task whose root can be logged leaves at once. -/
theorem State.closeTask_loggable {v : Verdict} {stop : Nat → Verdict} (hx : s.task? id = some x) (hl : s.loggable id x) :
    TaskLeft s (s.closeTask id v stop) id x := by
  obtain ⟨hf, ha, hw, hc⟩ := hl
  have hcap : s.taster.captures.find? (fun c => c.task == id) = none :=
    List.find?_eq_none.mpr fun c h => by simpa using hc c h
  obtain ⟨y, hy, hyw, hyc⟩ : ∃ y, s.makeRoots id x = y ∧ y.audWait = [] ∧ y.cores = x.cores :=
    ⟨_, State.makeRoots_unaudited ha, hw, rfl⟩
  let u := s.setTask id (some y)
  let w := u.logAppend 1 (id % 2 ^ 32) (u.taskRecord id y)
  have he : s.closeTask id v stop =
      (((w.dropTask id y).completePart y.queue y.pseq (y.node.getD 0) v).closeCut y stop).settleDisable y.queue := by
    simp only [State.closeTask, hx, hy, hyw, List.length_nil, State.auditDrain, State.task_setTask, State.setTask_taster,
      hcap, State.logFull_setTask]
    rw [if_neg (by simpa using hf)]
  have hk : (w.dropTask id y).KeepsTasks (s.closeTask id v stop) := by
    rw [he]
    exact (State.KeepsTasks.completePart.trans .closeCut).trans .settleDisable
  obtain ⟨hcore, htasks, hregs, htrust⟩ := State.dropTask_spec (s := w) (id := id) (x := y)
  have htask (k : Nat) : (s.closeTask id v stop).task? k = if k = id then none else s.task? k := by
    rw [State.task?, hk.tasks, htasks, SMap.get_set]
    split
    next => rfl
    next h => exact State.task_setTask_ne s id k (some y) h
  have hc (p : Nat) : (s.closeTask id v stop).core p = if p ∈ x.cores then (s.core p).vacate else s.core p := by
    have h := hcore p
    rw [hyc, State.core_logAppend] at h
    exact (congrArg (SMap.get Core.idle · p) hk.cores).trans h
  exact {
    gone := by rw [htask, if_pos rfl]
    others := fun k hk => by rw [htask, if_neg hk]
    cores := fun p => ⟨fun h => by rw [hc, if_pos h]; rfl, fun h => by rw [hc, if_neg h]⟩
    logged := by
      rw [hk.regs, hk.records, hregs, htrust]
      refine ⟨rfl, _, rfl, List.take_left' (length_logHead _ _ _)⟩ }

/-! ## Write-backs and retirement (R35, R72) -/

/-- A core with no bytes in the fabric cache starts no write-back. -/
theorem State.foldl_writeBackDirt (h : ∀ p ∈ ps, (s.core p).sceS.dirt = []) :
    ps.foldl (fun s p => s.writeBackDirt p) s = s := by
  induction ps with
  | nil => rfl
  | cons p ps ih =>
    have hp : s.writeBackDirt p = s := by simp [State.writeBackDirt, h p List.mem_cons_self]
    rw [List.foldl_cons, hp]
    exact ih fun q hq => h q (List.mem_cons_of_mem _ hq)

/-- A task whose cores have all finished retires. -/
theorem exec_taskRetirement_finished (hx : s.task? id = some x) (hp : x.phase = .running) (hs : x.spec = none)
    (hc : ∀ p ∈ x.cores, (s.core p).finished = true ∧ (s.core p).sceS.dirt = []) (hl : s.loggable id x) :
    Answers (.taskRetirement id) s (TaskLeft s · id x) := by
  refine ⟨_, ?_, State.closeTask_loggable (v := Verdict.ok) (stop := notHeld) hx hl⟩
  simp only [exec, execTaskRetirement, hx]
  rw [if_neg (by simpa [hp] using fun p h => (hc p h).1), State.foldl_writeBackDirt fun p h => (hc p h).2,
    if_neg (by simpa using fun p h => (hc p h).2), hs]

theorem exec_taskRetirement_unfinished (hx : s.task? id = some x) (hc : ∃ p ∈ x.cores, (s.core p).finished = false) :
    exec (.taskRetirement id) s = .next s := by
  simp only [exec, execTaskRetirement, hx]
  rw [if_pos (.inr (by simpa using hc))]

/-! ## Cuts (R431, R432, R442) -/

/-- A core halted by a cut of a kind, unless one has halted it before. -/
def Core.cutAs (c : Core) (now kind : Nat) : Core :=
  if c.cut = none then { c with cut := some now, cutBy := kind, yreq := false } else c

theorem Core.cutAs_cutAs (c : Core) : (c.cutAs now k).cutAs now k = c.cutAs now k := by
  by_cases h : c.cut = none
  · simp [Core.cutAs, h]
  · simp [Core.cutAs, h]

theorem Core.cutAs_sceS (c : Core) : (c.cutAs now k).sceS = c.sceS := by
  unfold Core.cutAs
  split <;> rfl

theorem Core.cutAs_mxeS (c : Core) : (c.cutAs now k).mxeS = c.mxeS := by
  unfold Core.cutAs
  split <;> rfl

theorem State.cutCore_eq : s.cutCore k p = s.onCore p fun c => c.cutAs s.gtc k := by
  have h (c : Core) : (if c.cut.isSome then c else { c with cut := some s.gtc, cutBy := k, yreq := false })
      = c.cutAs s.gtc k := by
    cases hc : c.cut <;> simp [Core.cutAs, hc]
  exact congrArg (s.onCore p) (funext h)

theorem State.foldl_cutCore :
    ps.foldl (fun s p => s.cutCore k p) s = ps.foldl (fun u p => u.onCore p fun c => c.cutAs s.gtc k) s := by
  suffices h : ∀ u : State, u.gtc = s.gtc →
      ps.foldl (fun s p => s.cutCore k p) u = ps.foldl (fun u p => u.onCore p fun c => c.cutAs s.gtc k) u from h s rfl
  induction ps with
  | nil => exact fun _ _ => rfl
  | cons p ps ih =>
    intro u hu
    rw [List.foldl_cons, List.foldl_cons, State.cutCore_eq, hu]
    exact ih _ hu

/-- A cut is not complete while the matrix engine of a core has operations in progress. -/
theorem State.finishCut_inFlight {r : CutReq} (hx : s.task? id = some x) (hp : x.phase = .running) (hr : x.cutReq = some r)
    (hd : ∀ p ∈ x.cores, (s.core p).sceS.dirt = []) (hf : ∃ p ∈ x.cores, (s.core p).mxeS.flight ≠ []) :
    s.finishCut id = s := by
  have hs : x.cores.all s.cutSettled = false := by
    obtain ⟨p, hp, hf⟩ := hf
    exact List.all_eq_false.mpr ⟨p, hp, by simp [State.cutSettled, hf]⟩
  simp only [State.finishCut, hx, hp, hr]
  rw [State.foldl_writeBackDirt fun p h => hd p (List.mem_filter.mp h).1, if_pos (by simp [hs])]

section
variable {r : CutReq} {a : Nat}

/-- Before its tick a cut does nothing. -/
theorem State.cutTask_early (hx : s.task? id = some x) (hr : x.cutReq = some r) (ha : r.at? = some a) (hg : s.gtc < a) :
    s.cutTask id = s := by
  simp only [State.cutTask, hx, hr]
  rw [if_pos (by simpa [ha] using hg)]

/-- On its tick a cut halts every core of a running task. -/
theorem State.cutTask_running (hx : s.task? id = some x) (hr : x.cutReq = some r) (ha : r.at? = some a) (hg : a ≤ s.gtc)
    (hp : x.phase = .running) (hd : ∀ p ∈ x.cores, (s.core p).sceS.dirt = [])
    (hf : ∃ p ∈ x.cores, (s.core p).mxeS.flight ≠ []) :
    s.cutTask id = x.cores.foldl (fun u p => u.onCore p fun c => c.cutAs s.gtc 1)
      (s.setTask id (some { x with cutReq := some { r with kind := 1 } })) := by
  obtain ⟨y, hy⟩ : ∃ y, y = { x with cutReq := some { r with kind := 1 } } := ⟨_, rfl⟩
  obtain ⟨hyp, hyr, hyc⟩ : y.phase = .running ∧ y.cutReq = some { r with kind := 1 } ∧ y.cores = x.cores := by
    rw [hy]
    exact ⟨hp, rfl, rfl⟩
  let u := x.cores.foldl (fun u p => u.onCore p fun c => c.cutAs s.gtc 1) (s.setTask id (some y))
  have hu (q : Nat) : (u.core q).sceS = (s.core q).sceS ∧ (u.core q).mxeS = (s.core q).mxeS := by
    have h : u.core q = if q ∈ x.cores then (s.core q).cutAs s.gtc 1 else s.core q :=
      State.core_foldl_onCore Core.cutAs_cutAs
    rw [h]
    split
    · exact ⟨Core.cutAs_sceS _, Core.cutAs_mxeS _⟩
    · exact ⟨rfl, rfl⟩
  have huf : u.finishCut id = u := by
    refine State.finishCut_inFlight (x := y) (State.task_foldl_onCore.trans (State.task_setTask s id _)) hyp hyr ?_ ?_
    · exact fun q hq => by rw [(hu q).1, hd q (hyc ▸ hq)]
    · exact hf.imp fun q hq => ⟨hyc.symm ▸ hq.1, by rw [(hu q).2]; exact hq.2⟩
  simp only [State.cutTask, hx, hr]
  rw [if_neg (by simpa [ha] using hg), ← hy]
  simp only [hp, State.foldl_cutCore]
  exact huf

/-- A held task that is being ended leaves. -/
theorem State.cutTask_held (hx : s.task? id = some x) (hr : x.cutReq = some r) (ha : r.at? = some a) (hg : a ≤ s.gtc)
    (hp : x.phase = .held) (he : r.ends = true) :
    s.cutTask id = s.closeTask id r.verdict fun _ => Verdict.ok := by
  simp only [State.cutTask, hx, hr]
  rw [if_neg (by simpa [ha] using hg)]
  simp only [hp, he, if_true]

/-- A task that a STOP finds unplaced is held so. -/
theorem State.cutTask_waiting (hx : s.task? id = some x) (hr : x.cutReq = some r) (ha : r.at? = some a) (hg : a ≤ s.gtc)
    (hp : x.phase = .waiting) (he : r.ends = false) (hs : r.stops = []) :
    s.cutTask id = s.setTask id (some { x with phase := .heldUnplaced, cutReq := some { r with saves := [] } }) := by
  simp only [State.cutTask, hx, hr]
  rw [if_neg (by simpa [ha] using hg)]
  simp [hp, he, State.unplace, State.onTask, hx, State.completeStops, hs, Task.hold, hr]

end

/-! ## Copies into the Cellar (R404) -/

/-- The front end reads bytes that can be corrected as they stand in memory. -/
theorem State.fedBytes_good {f : FedAddr} (h : s.isBad (s.fedAt f) n = false) :
    s.fedBytes f n = ((List.range n).map fun i => s.under 0 (s.fedAt f + i), s) := by
  have hi (i : Nat) (hi : i < n) : s.isBad (s.fedAt f + i) 1 = false := by
    simp only [State.isBad, List.any_eq_false, Bool.and_eq_true, decide_eq_true_eq] at h ⊢
    intro e he
    have := h e he
    omega
  unfold State.fedBytes
  simp only [h, Bool.false_eq_true, if_false, Prod.mk.injEq, and_true]
  exact List.map_congr_left fun i h => if_neg (by simp [hi i (List.mem_range.mp h)])

variable {ds : List Nat} {bs : List Byte} {off : Nat}

/-- The same bytes written into the Cellars of some dies. -/
def State.writeCellars (s : State) (off : Nat) (bs : List Byte) (ds : List Nat) : State :=
  ds.foldl (fun s d => s.writeAt (celBase d + off) bs) s

theorem State.writeCellars_tasks : (s.writeCellars off bs ds).tasks = s.tasks := by
  induction ds generalizing s with
  | nil => rfl
  | cons d ds ih => exact ih

theorem State.byte_writeCellars_ne {a : Nat}
    (h : ∀ d ∈ ds, a < celBase d + off ∨ celBase d + off + bs.length ≤ a) :
    (s.writeCellars off bs ds).byte a = s.byte a := by
  induction ds generalizing s with
  | nil => rfl
  | cons d ds ih =>
    exact (ih fun e he => h e (List.mem_cons_of_mem _ he)).trans (State.byte_writeAt_ne (h d List.mem_cons_self))

/-- The Cellars of two dies lie apart, so that each takes the bytes whole. -/
theorem State.byte_writeCellars {d i : Nat} (ho : off + bs.length ≤ 96 * 2 ^ 20) (hd : d ∈ ds) (hi : i < bs.length) :
    (s.writeCellars off bs ds).byte (celBase d + off + i) = bs[i] := by
  induction ds generalizing s with
  | nil => cases hd
  | cons e ds ih =>
    by_cases hm : d ∈ ds
    · exact ih hm
    · obtain rfl : d = e := (List.mem_cons.mp hd).resolve_right hm
      refine (State.byte_writeCellars_ne (ds := ds) fun e he => ?_).trans (State.byte_writeAt i hi)
      have : d ≠ e := fun h => hm (h ▸ he)
      unfold celBase
      omega

/-- A CELLAR task whose turn has come copies its bytes to every die of the mask in service, and leaves. -/
theorem exec_cellarCopy_good {src : FedAddr} {mask len : Nat} (hx : s.task? id = some x)
    (hk : x.kind = .cellar src off mask len) (hp : x.phase = .waiting) (hr : s.readyNow x = true)
    (hb : s.isBad (s.fedAt src) len = false) (ho : off + len ≤ 96 * 2 ^ 20) :
    Answers (.cellarCopy id) s fun t =>
      ∃ u : State, (∀ d < 32, bit mask d = true → (s.die d).present = true → ∀ i < len,
          u.byte (celBase d + off + i) = s.under 0 (s.fedAt src + i))
        ∧ (∀ a, (∀ d < 32, bit mask d = true → (s.die d).present = true →
            a < celBase d + off ∨ celBase d + off + len ≤ a) → u.byte a = s.byte a)
        ∧ u.tasks = s.tasks ∧ t = ((u.dropTask id x).completePart x.queue x.pseq 0 Verdict.ok).settleDisable x.queue := by
  let bs := (List.range len).map fun i => s.under 0 (s.fedAt src + i)
  let ds := (List.range 32).filter fun d => bit mask d && (s.die d).present
  have hm (d : Nat) : d ∈ ds ↔ d < 32 ∧ bit mask d = true ∧ (s.die d).present = true := by simp [ds]
  have hl : bs.length = len := by simp [bs]
  refine ⟨_, ?_, s.writeCellars off bs ds, fun d hd hmask hpres i hi => ?_, fun a ha => ?_, State.writeCellars_tasks, rfl⟩
  · simp only [exec, execCellarCopy, hx, hk]
    rw [if_neg (by simp [hp, hr]), State.fedBytes_good hb]
    rfl
  · rw [State.byte_writeCellars (by rwa [hl]) ((hm d).mpr ⟨hd, hmask, hpres⟩) (hl.symm ▸ hi)]
    simp [bs]
  · refine State.byte_writeCellars_ne fun d hd => ?_
    obtain ⟨hd, hmask, hpres⟩ := (hm d).mp hd
    exact hl.symm ▸ ha d hd hmask hpres

/-! ## The steps of a cut -/

variable {r : CutReq} {i : Instr}

/-- STOP_CUT, and TASK_END of a task that is being ended, are the cut of the task. -/
theorem exec_cut_eq (hx : s.task? id = some x) (hr : x.cutReq = some r)
    (hi : i = .stopCut id ∨ (i = .taskEnd id ∧ r.ends = true)) : exec i s = .next (s.cutTask id) := by
  rcases hi with rfl | ⟨rfl, he⟩
  · rfl
  · simp only [exec, execTaskEnd, hx, Option.bind_some, hr, he, if_true]

/-- Before its tick neither does anything. -/
theorem exec_cut_early (hx : s.task? id = some x) (hr : x.cutReq = some r) (ha : r.at? = some a) (hg : s.gtc < a) :
    exec (.stopCut id) s = .next s ∧ exec (.taskEnd id) s = .next s := by
  have hc := State.cutTask_early hx hr ha hg
  refine ⟨congrArg _ hc, ?_⟩
  simp only [exec, execTaskEnd, hx, Option.bind_some, hr, hc, ite_self]

/-- On its tick a cut halts every core of a running task, and the task's request says so. -/
theorem exec_cut_running (hx : s.task? id = some x) (hr : x.cutReq = some r) (ha : r.at? = some a) (hg : a ≤ s.gtc)
    (hi : i = .stopCut id ∨ (i = .taskEnd id ∧ r.ends = true)) (hp : x.phase = .running)
    (hd : ∀ p ∈ x.cores, (s.core p).sceS.dirt = []) (hf : ∃ p ∈ x.cores, (s.core p).mxeS.flight ≠ []) :
    Answers i s fun t =>
      (∀ p, t.core p = if p ∈ x.cores ∧ (s.core p).cut = none then
          { s.core p with cut := some s.gtc, cutBy := 1, yreq := false } else s.core p)
      ∧ t.task? id = some { x with cutReq := some { r with kind := 1 } } ∧ SameBytes s t := by
  refine ⟨_, (exec_cut_eq hx hr hi).trans (congrArg _ (State.cutTask_running hx hr ha hg hp hd hf)), fun p => ?_, ?_, ?_⟩
  · rw [State.core_foldl_onCore Core.cutAs_cutAs]
    by_cases hc : p ∈ x.cores ∧ (s.core p).cut = none
    · rw [if_pos hc, if_pos hc.1]
      exact if_pos hc.2
    · rw [if_neg hc]
      by_cases hp : p ∈ x.cores
      · rw [if_pos hp]
        exact if_neg fun h => hc ⟨hp, h⟩
      · rw [if_neg hp]
        rfl
  · exact State.task_foldl_onCore.trans (State.task_setTask s id _)
  · intro b
    rw [State.foldl_onCore_eq]
    rfl

end

/-- Settles O42: each step of a task's life by the lemma above that says what it answers. -/
theorem taskSteps : Obligations.TaskSteps := by
  intro s id x
  refine ⟨fun hx => ⟨fun hp hk hc _ hn => ⟨?_, ?_⟩, fun hw hp => ⟨?_, ?_⟩, ?_, fun r a hr ha => ⟨?_, fun hg i hi => ⟨?_, ?_, ?_⟩⟩,
    ?_, ?_, ?_⟩, ?_, ?_⟩
  · exact exec_taskReady_of_readyNow hx hp hk hc hn
  · exact exec_taskReady_of_not_readyNow hx hp
  · exact exec_reservationStart_of_le hx hw hp
  · exact exec_reservationStart_of_lt hx
  · exact fun a d => exec_taskPlacement_fresh hx
  · exact exec_cut_early hx hr ha
  · exact exec_cut_running hx hr ha hg hi
  · intro hp he hl
    rw [Answers, exec_cut_eq hx hr hi, State.cutTask_held hx hr ha hg hp he]
    exact ⟨_, rfl, State.closeTask_loggable hx hl⟩
  · intro hp he hs
    rw [Answers, exec_cut_eq hx hr hi, State.cutTask_waiting hx hr ha hg hp he hs]
    exact ⟨_, rfl, State.task_setTask s id _, .setTask _⟩
  · exact exec_taskRetirement_finished hx
  · exact fun _ => exec_taskRetirement_unfinished hx
  · exact fun src off mask len => exec_cellarCopy_good hx
  · exact fun ps => exec_taskStart_of_find
  · exact exec_taskStart_of_find_none

end Sys2Proof.Machine
end

section
/-!
SUPPORT. The state after reset (R127, R466, log entry 2): its maps list nothing, so every key reads as its default.
-/

namespace Sys2Proof.Machine

@[simp] theorem State.die_reset (d : Nat) : State.reset.die d = Die.held := SMap.get_nil

@[simp] theorem State.task_reset (t : Nat) : State.reset.task? t = none := SMap.get_nil

@[simp] theorem State.queue_reset (q : Nat) : State.reset.queue q = Queue.empty := SMap.get_nil

@[simp] theorem State.core_reset (p : Nat) : State.reset.core p = Core.idle := SMap.get_nil

@[simp] theorem State.port_reset (q : Nat) : State.reset.fabric.port q = Port.absent := SMap.get_nil

/-- A die held in reset is not present, whichever die is read. -/
theorem State.die_present_reset (d : Nat) : (State.reset.die d).present = false := by
  rw [State.die_reset, Die.held]

/-- No queue holds an entry. -/
theorem State.queue_v_reset (q : Nat) : (State.reset.queue q).v = false := by
  rw [State.queue_reset, Queue.empty]

/-- Every core is without a task, its firmware vector is 0 and no firmware event is queued. -/
theorem State.core_vacant_reset (p : Nat) :
    (State.reset.core p).task = none ∧ (State.reset.core p).fwvec = 0 ∧ (State.reset.core p).fwq = [] := by
  rw [State.core_reset]
  exact ⟨rfl, rfl, rfl⟩

/-- Settles O60: a read of a die, task, queue, core or port finds the default of its empty map, by the lemmas above;
each other part is a field of the state that reset writes. -/
theorem resetState : Obligations.ResetState :=
  ⟨rfl, rfl, State.die_present_reset, rfl, State.task_reset, State.queue_v_reset, State.core_vacant_reset, rfl,
    State.port_reset, rfl, rfl, rfl, rfl⟩

end Sys2Proof.Machine
end
